-- ==== Sys2Proof/Word.lean ====
section
/-!
DEFINITION. The words a command is made of and the compound operand values it carries (R9, R11, R73, R74, R103 to
R105). A number the rules treat as a bit pattern is a bit vector of the stated width; `F32` and `F64` are the
IEEE 754 patterns of R11.
-/

namespace Sys2Proof

/-- One payload, command or reply word: 32 bits (R100, R103). -/
abbrev Word := BitVec 32

/-- One byte of a string (R104). -/
abbrev Byte := BitVec 8

/-- A string: a sequence of bytes with no character set (R12, R104). -/
abbrev Text := List Byte

/-- A binary32 bit pattern (R11). -/
abbrev F32 := BitVec 32

/-- A binary64 bit pattern (R11). -/
abbrev F64 := BitVec 64

/-- Where inside the machine's history a value is drawn (R12 `draw`): the number of commands executed before,
then the position inside the command. Distinct draws have distinct sites (log 4). -/
abbrev Site := List Nat

/-- A raw sample: a pair of `s16` values, I first (R74). -/
structure RawSample where
  i : BitVec 16
  q : BitVec 16
  deriving DecidableEq, Repr, Inhabited

/-- A complex sample: `re` is I and `im` is Q, each an `f32` (R73). -/
structure CSample where
  re : F32
  im : F32
  deriving DecidableEq, Repr, Inhabited

/-- The complex sample `(+0.0, +0.0)`. -/
def CSample.zero : CSample := ⟨0, 0⟩

/-- A stage descriptor of FIR.INIT: the decimation as given and the taps (R107). -/
structure StageSpec where
  decimation : BitVec 32
  taps : List F32
  deriving DecidableEq, Repr, Inhabited

/-- A key/value pair of strings (R112, R53). -/
structure Pair where
  key : Text
  value : Text
  deriving DecidableEq, Repr, Inhabited

end Sys2Proof
end

