-- ==== Sys2Proof/Machine/Units.lean ====
section
/-!
DEFINITION. The registers and memories of the FIR, BFC and BSM units (10_state.md R23 to R50) as plain data, and the
closed enumerations of the spec (R125). A register a host operand loads whole keeps the operand's width; a counter or
an index the unit itself moves is a natural number whose bound is an invariant (Safety.lean).
-/

namespace Sys2Proof.Machine

/-- The six field formats (R32, R125). -/
inductive FieldFormat where
  | hex | unsignedDecimal | twosComplement | signMagnitude | float | enumerated
  deriving DecidableEq, Repr, Inhabited

/-- The two bit orders of a field (R77, R125). -/
inductive Endian where
  | big | little
  deriving DecidableEq, Repr, Inhabited

/-- The timestamp modes (R31, R125). -/
inductive TsMode where
  | none | unixSecondsInt | unixSecondsFractional | localDatetime24h | localDatetimeAmpm
  deriving DecidableEq, Repr, Inhabited

/-- The firing conditions of a trigger (R42, R125). -/
inductive Cond where
  | always | pulseStart | pulseEnd | timeout | msgComplete
  deriving DecidableEq, Repr, Inhabited

/-- The data actions of a trigger (R42, R125). -/
inductive Action where
  | none | append0 | append1 | outputData
  deriving DecidableEq, Repr, Inhabited

/-- The result of BSM.PROC (R51, R125). -/
inductive SampleResult where
  | noOutputYet | outputReady | error
  deriving DecidableEq, Repr, Inhabited

/-- One FIR stage (R23 to R28). `T` is the number of taps; the capacity `OC` is the length of `obuf`. -/
structure Stage where
  /-- `D[i]`, the decimation factor (R23). -/
  decim : BitVec 32
  /-- `taps[i]` (R24). -/
  taps : List F32
  /-- `hist[i]`, the doubled history (R25). -/
  hist : List CSample
  /-- `wp[i]`, the first insertion point (R26). -/
  wp : Nat
  /-- `cnt[i]`, the decimation counter (R27). -/
  cnt : Nat
  /-- `obuf[i]`, the output buffer (R28). -/
  obuf : List CSample
  /-- `ocount[i]`, the samples produced by the last FIR.PROC (R28). -/
  ocount : Nat
  deriving DecidableEq, Repr, Inhabited

/-- The FIR unit (R23). -/
structure Fir where
  /-- `fir_valid`. -/
  valid : Bool
  /-- `max_input`. -/
  maxInput : BitVec 32
  /-- The stages, stage 0 first; their number is `S`. -/
  stages : List Stage
  deriving DecidableEq, Repr, Inhabited

/-- One entry of an enumeration table (R33). -/
structure EnumEntry where
  symbol : Text
  value : BitVec 64
  deriving DecidableEq, Repr, Inhabited

/-- The content of a used field slot (R32 to R34); `enum_cnt` is the length of `enums`. -/
structure BitField where
  name : Text
  startBit : BitVec 16
  endBit : BitVec 16
  format : FieldFormat
  endian : Endian
  scaling : F64
  offset : F64
  /-- The default value, a raw `w`-bit pattern (R34). -/
  default : BitVec 64
  /-- `enum_cap`. -/
  enumCap : BitVec 16
  /-- `enum[0..enum_cnt-1]`, in append order. -/
  enums : List EnumEntry
  deriving DecidableEq, Repr, Inhabited

/-- The BFC unit (R31 to R36). A slot is `none` when its `used` bit is 0; the number of slots is `NF`. -/
structure Bfc where
  /-- `bfc_valid`. -/
  valid : Bool
  /-- `record_bits`. -/
  recordBits : BitVec 16
  /-- `ts_mode`. -/
  tsMode : TsMode
  /-- `slot[0..NF-1]`. -/
  slots : List (Option BitField)
  /-- `rec<b>`, the record scratch buffer, bit 0 first (R35). -/
  record : List Bool
  /-- The spt cell (R36). -/
  spt : BitVec 64
  deriving DecidableEq, Repr, Inhabited

/-- A trigger entry (R42): stored as given, legal or not (R245). -/
structure Trigger where
  cond : BitVec 3
  durUs : BitVec 32
  action : BitVec 3
  next : BitVec 16
  deriving DecidableEq, Repr, Inhabited

/-- A state table entry (R41); an empty name is "not yet named"; `ntrig` is the number of triggers. -/
structure StateEntry where
  name : Text
  durationUs : BitVec 32
  timeoutUs : BitVec 32
  trigs : List Trigger
  deriving DecidableEq, Repr, Inhabited

/-- The BSM unit and the accumulator it writes (R40 to R50); `NS` is the number of states. -/
structure Bsm where
  /-- `bsm_valid`. -/
  valid : Bool
  /-- `Fs`, samples per second. -/
  fs : BitVec 32
  /-- `msg_bits`. -/
  msgBits : BitVec 16
  /-- `on_val`. -/
  onVal : F32
  /-- `state[0..NS-1]`. -/
  states : List StateEntry
  /-- `cur`, the current-state cursor: the BSM's program counter (R45). -/
  cur : Nat
  /-- `bitcnt` (R46). -/
  bitcnt : Nat
  /-- `scount` (R47). -/
  scount : Nat
  /-- `prev` (R48). -/
  prev : Bool
  /-- `acc<b>`, bit 0 first (R49). -/
  acc : List Bool
  /-- `clr_pending` (R50). -/
  clrPending : Bool
  deriving DecidableEq, Repr, Inhabited

end Sys2Proof.Machine
end

