-- ==== Sys2Proof/Config.lean ====
section
/-!
DEFINITION. What an implementation fixes: the parameters of R8 (a record State carries and no command writes, log 1),
the constants of R6, and the free values: opaque constants with no body, of which nothing can be proved but their type.
-/

namespace Sys2Proof

/-- Hex digits of a field of 9 to 16 bits: the two values of HEX16_DIGITS (R203, C8). -/
inductive Hex16Digits where
  | two | four
  deriving DecidableEq, Repr, Inhabited

/-- The two values of GEN_GAP_MODE (R289). -/
inductive GenGapMode where
  | full | difference
  deriving DecidableEq, Repr, Inhabited

/-- The two values of DEV_ERR_POLICY (R314). -/
inductive DevErrPolicy where
  | goOn | stop
  deriving DecidableEq, Repr, Inhabited

/-- The implementation parameters of R8. DESIGN CHOICE (log 1): the model holds them in State, where no command
changes them, so that a statement about every state holds for every value of them. Safe. -/
structure Params where
  sMax : Nat
  tMax : Nat
  firMemMax : Nat
  nfMax : Nat
  enumMax : Nat
  recordBitsMax : Nat
  nsMax : Nat
  ntMax : Nat
  nameMax : Nat
  strMax : Nat
  kvMax : Nat
  hex16Digits : Hex16Digits
  genGapMode : GenGapMode
  genInitCap : Nat
  genMaxSamples : Nat
  devErrPolicy : DevErrPolicy
  deriving DecidableEq, Repr, Inhabited

/-- The defaults of R8. -/
def Params.default : Params where
  sMax := 16
  tMax := 4096
  firMemMax := 2 ^ 24
  nfMax := 256
  enumMax := 256
  recordBitsMax := 65535
  nsMax := 256
  ntMax := 16
  nameMax := 63
  strMax := 255
  kvMax := 4096
  hex16Digits := .two
  genGapMode := .full
  genInitCap := 1024
  genMaxSamples := 2 ^ 28
  devErrPolicy := .goOn

/-- TOL_NUM of R6: the numerator of the tolerance band's 15/100. -/
def Config.tolNum : Nat := 15

/-- TOL_DEN of R6: the denominator of the tolerance band's 15/100. -/
def Config.tolDen : Nat := 100

/-- Microseconds in a second, the factor of R248 and R290. -/
def Config.microsPerSecond : Nat := 1000000

/-- SC_SCALE = 2048 of R6 as an `f32` pattern (R142). -/
def Config.scScale : F32 := 0x45000000#32

/-- 1/SC_SCALE = 2^-11 as an `f32` pattern (R141). -/
def Config.scScaleInv : F32 := 0x3A000000#32

/-- FIELD_MAX_W of R6. -/
def Config.fieldMaxW : Nat := 64

/-- TS_KEY of R6: the bytes of `Decode Timestamp`. -/
def Config.tsKey : Text := "Decode Timestamp".toList.map fun c => BitVec.ofNat 8 c.toNat

/-- Free value: sign and payload of a binary32 NaN result (R11, R158). DESIGN CHOICE of form (log 5). Safe. -/
opaque Config.nanDraw32 : Site → BitVec 32

/-- Free value: sign and payload of a binary64 NaN result (R11). DESIGN CHOICE of form (log 5). Safe. -/
opaque Config.nanDraw64 : Site → BitVec 64

/-- Free value: `draw("sc_toraw_oor")`, the `s16` SC.TORAW gives out of range (R142, log 12). Safe. -/
opaque Config.toRawOutOfRange : Site → BitVec 16

/-- Free value: `ts_draw(ts_mode)`, the timestamp text of one BFC.DEC (R214, log 11). Safe. -/
opaque Config.tsDraw : Machine.TsMode → Site → Text

/-- Free value: the injective part of `fmt_real`, spread over all texts (R206, log 10). Safe. -/
opaque Config.realTextPlan : Text ≃ Text

/-- Free value: `fmt_real` of an infinity or a NaN, which no law constrains (R206, log 10). Safe. -/
opaque Config.fmtNonFinite : F64 → Text

/-- Free value: `parse_real` of a text that `fmt_real` gives for no finite value (R223, log 10). Safe. -/
opaque Config.parseOther : Text → Option F64

/-- Free value: the FIR items that R166, R56 and row 6 of 93_implementation_defined.md leave unspecified (log 8). Safe. -/
opaque Config.unspecifiedFir : Site → Machine.Fir

/-- Free value: the BFC items that R188 and R56 leave unspecified (log 8). Safe. -/
opaque Config.unspecifiedBfc : Site → Machine.Bfc

/-- Free value: the BSM items that R262 and R56 leave unspecified (log 8). Safe. -/
opaque Config.unspecifiedBsm : Site → Machine.Bsm

/-- Free value: the spt cell after BFC.INIT (R56 column b: unspecified; log 8). Safe. -/
opaque Config.unspecifiedSpt : Site → BitVec 64

/-- Free value: `thr` after a hardware reset of a running machine (R360, log 8). Safe. -/
opaque Config.unspecifiedThr : Site → F32

end Sys2Proof
end

