-- ==== Sys2Proof/Machine/Fp.lean ====
section
/-!
DEFINITION. IEEE 754 binary32 and binary64 arithmetic on bit patterns, round to nearest even, no fused multiply-add, no
flush to zero (R11, D7; the content of IEEE 754 is PRESUMED, log 9). A finite value is an exact whole number of units,
one unit being the smallest subnormal: `2^-149` for binary32, `2^-1074` for binary64. An operation computes exactly in
units and rounds once. `w` is the width of a pattern and `f` the number of its fraction bits.
-/

namespace Sys2Proof.Machine

/-- The pattern of a value's magnitude: the pattern without its sign bit. -/
def fpMag {w : Nat} (a : BitVec w) : Nat := a.toNat % 2 ^ (w - 1)

/-- The magnitude pattern of an infinity. -/
def fpInfMag (w f : Nat) : Nat := (2 ^ (w - 1 - f) - 1) * 2 ^ f

/-- `1.0` is `2 ^ fpOne w f` units: 149 for binary32, 1074 for binary64. -/
def fpOne (w f : Nat) : Nat := 2 ^ (w - 2 - f) - 2 + f

def fpIsNaN {w : Nat} (f : Nat) (a : BitVec w) : Bool := decide (fpInfMag w f < fpMag a)

def fpIsInf {w : Nat} (f : Nat) (a : BitVec w) : Bool := decide (fpMag a = fpInfMag w f)

def fpIsFinite {w : Nat} (f : Nat) (a : BitVec w) : Bool := decide (fpMag a < fpInfMag w f)

def fpIsZero {w : Nat} (a : BitVec w) : Bool := decide (fpMag a = 0)

/-- The units of a finite magnitude pattern: the fraction alone when the exponent field is 0 (zero and subnormals),
else the fraction with its hidden bit, shifted by the exponent field less one. -/
def fpUnits (f m : Nat) : Nat :=
  if m / 2 ^ f = 0 then m else (2 ^ f + m % 2 ^ f) * 2 ^ (m / 2 ^ f - 1)

/-- The signed units of a finite pattern. -/
def fpValue {w : Nat} (f : Nat) (a : BitVec w) : Int :=
  if a.msb then -(fpUnits f (fpMag a) : Int) else (fpUnits f (fpMag a) : Int)

/-- `num / den` rounded to a whole number, ties to even. -/
def halfEven (num den : Nat) : Nat :=
  let q := num / den
  let r := num % den
  if den < 2 * r ∨ (2 * r = den ∧ q % 2 = 1) then q + 1 else q

/-- The magnitude pattern nearest to `num / den` units, ties to even; infinity when that is out of range. A carry out
of the fraction lands in the exponent field, as it should. -/
def fpRoundMag (w f num den : Nat) : Nat :=
  let sh := (num / den).log2 - f
  min (sh * 2 ^ f + halfEven num (den * 2 ^ sh)) (fpInfMag w f)

/-- The pattern with sign `neg` and magnitude pattern `m`. -/
def fpPack (w : Nat) (neg : Bool) (m : Nat) : BitVec w :=
  BitVec.ofNat w ((if neg then 2 ^ (w - 1) else 0) + m)

/-- The pattern nearest to `± num / den` units. -/
def fpRound (w f : Nat) (neg : Bool) (num den : Nat) : BitVec w :=
  fpPack w neg (fpRoundMag w f num den)

def fpInf (w f : Nat) (neg : Bool) : BitVec w := fpPack w neg (fpInfMag w f)

/-- Sign change; also of zeros, infinities and NaNs. -/
def fpNeg {w : Nat} (a : BitVec w) : BitVec w := fpPack w (!a.msb) (fpMag a)

/-- IEEE addition; `nan` is the NaN result drawn for this operation. An exact zero sum is `-0` only when both operands
are negative. -/
def fpAdd {w : Nat} (f : Nat) (nan a b : BitVec w) : BitVec w :=
  if fpIsNaN f a || fpIsNaN f b then nan
  else if fpIsInf f a then (if fpIsInf f b && (a.msb != b.msb) then nan else a)
  else if fpIsInf f b then b
  else
    let z := fpValue f a + fpValue f b
    if z = 0 then fpPack w (a.msb && b.msb) 0 else fpRound w f (decide (z < 0)) z.natAbs 1

/-- IEEE subtraction. -/
def fpSub {w : Nat} (f : Nat) (nan a b : BitVec w) : BitVec w := fpAdd f nan a (fpNeg b)

/-- IEEE multiplication. -/
def fpMul {w : Nat} (f : Nat) (nan a b : BitVec w) : BitVec w :=
  let neg := a.msb != b.msb
  if fpIsNaN f a || fpIsNaN f b then nan
  else if fpIsInf f a || fpIsInf f b then (if fpIsZero a || fpIsZero b then nan else fpInf w f neg)
  else fpRound w f neg (fpUnits f (fpMag a) * fpUnits f (fpMag b)) (2 ^ fpOne w f)

/-- IEEE division. -/
def fpDiv {w : Nat} (f : Nat) (nan a b : BitVec w) : BitVec w :=
  let neg := a.msb != b.msb
  if fpIsNaN f a || fpIsNaN f b then nan
  else if fpIsInf f a then (if fpIsInf f b then nan else fpInf w f neg)
  else if fpIsInf f b then fpPack w neg 0
  else if fpIsZero b then (if fpIsZero a then nan else fpInf w f neg)
  else fpRound w f neg (fpUnits f (fpMag a) * 2 ^ fpOne w f) (fpUnits f (fpMag b))

/-- The pattern nearest to an exact integer (R11 `to_f32`, `to_f64`). -/
def fpOfInt (w f : Nat) (x : Int) : BitVec w := fpRound w f (decide (x < 0)) (x.natAbs * 2 ^ fpOne w f) 1

/-- Position on the line of values: the magnitude pattern with its sign; both zeros at 0. -/
def fpOrder {w : Nat} (a : BitVec w) : Int := if a.msb then -(fpMag a : Int) else (fpMag a : Int)

/-- IEEE `a > b`: false when either is a NaN. -/
def fpGt {w : Nat} (f : Nat) (a b : BitVec w) : Bool :=
  !fpIsNaN f a && !fpIsNaN f b && decide (fpOrder b < fpOrder a)

/-- A finite value with its fraction dropped, toward zero. -/
def fpTrunc {w : Nat} (f : Nat) (a : BitVec w) : Int :=
  let m : Int := (fpUnits f (fpMag a) / 2 ^ fpOne w f : Nat)
  if a.msb then -m else m

/-- The magnitude of a finite value rounded to the nearest integer, ties away from zero (R223). -/
def fpRoundAway {w : Nat} (f : Nat) (a : BitVec w) : Nat :=
  (2 * fpUnits f (fpMag a) + 2 ^ fpOne w f) / 2 ^ (fpOne w f + 1)

/-- Any quiet binary32 NaN: the drawn bits with exponent and quiet bit set (R11, log 5). -/
def nan32 (site : Site) : F32 := Config.nanDraw32 site ||| 0x7FC00000#32

/-- Any quiet binary64 NaN (R11, log 5). -/
def nan64 (site : Site) : F64 := Config.nanDraw64 site ||| 0x7FF8000000000000#64

def f32IsNaN (a : F32) : Bool := fpIsNaN 23 a
def f32IsFinite (a : F32) : Bool := fpIsFinite 23 a
def f32Add (site : Site) (a b : F32) : F32 := fpAdd 23 (nan32 site) a b
def f32Mul (site : Site) (a b : F32) : F32 := fpMul 23 (nan32 site) a b
def f32OfInt (x : Int) : F32 := fpOfInt 32 23 x
def f32Gt (a b : F32) : Bool := fpGt 23 a b
def f32Trunc (a : F32) : Int := fpTrunc 23 a

def f64IsFinite (a : F64) : Bool := fpIsFinite 52 a
def f64Add (site : Site) (a b : F64) : F64 := fpAdd 52 (nan64 site) a b
def f64Sub (site : Site) (a b : F64) : F64 := fpSub 52 (nan64 site) a b
def f64Mul (site : Site) (a b : F64) : F64 := fpMul 52 (nan64 site) a b
def f64Div (site : Site) (a b : F64) : F64 := fpDiv 52 (nan64 site) a b
def f64OfInt (x : Int) : F64 := fpOfInt 64 52 x
def f64Neg (a : F64) : F64 := fpNeg a
def f64RoundAway (a : F64) : Nat := fpRoundAway 52 a

/-- The 8 bytes of a binary64 pattern, least significant first. -/
def f64Bytes (y : F64) : Text := (List.range 8).map fun n => (y >>> (8 * n)).setWidth 8

/-- The pattern of 8 bytes. -/
def f64OfBytes (t : Text) : F64 := BitVec.ofNat 64 (t.foldr (fun b n => b.toNat + 256 * n) 0)

/-- `fmt_real` (R206): free, but injective on finite values (log 10). -/
def fmtReal (y : F64) : Text :=
  if f64IsFinite y then Config.realTextPlan (f64Bytes y) else Config.fmtNonFinite y

/-- `parse_real` (R223): inverts `fmtReal` on the texts of finite values, free on every other text, where it may fail
(log 10). Its law is `parseReal_fmtReal` of Laws/Text.lean. -/
def parseReal (t : Text) : Option F64 :=
  let y := f64OfBytes (Config.realTextPlan.symm t)
  if f64IsFinite y ∧ Config.realTextPlan (f64Bytes y) = t then some y else Config.parseOther t

end Sys2Proof.Machine
end

