-- ==== Sys2Proof/Machine/Operands.lean ====
section
/-!
DEFINITION. Every operand form of the command and reply layouts (R103 to R105, R110, R114, R125): how each element is
laid out in 32-bit words, and how it is read back. A reader consumes the words the layout frames whether or not they
are well-formed, and says in `ok` whether every reserved, padding and limit rule of R126 (b) held; it answers `none`
while words are still missing.
-/

namespace Sys2Proof.Machine

/-! ## Laying out -/

/-- Byte `n` of a string in bits `8*(n mod 4)+7 : 8*(n mod 4)` of word `n/4`, unused bytes 0 (R104). -/
def packBytes (t : Text) : List Word :=
  (List.range ((t.length + 3) / 4)).map fun k =>
    t.getD (4 * k + 3) 0 ++ t.getD (4 * k + 2) 0 ++ t.getD (4 * k + 1) 0 ++ t.getD (4 * k) 0

/-- A string: its length word, then its bytes (R104). DESIGN CHOICE (log 22): the length word of a text of 2^32 bytes or
more, which only a timestamp or a real number in a reply can be (log 10, log 11), is the low 32 bits of the length. Unsafe
there. -/
def textWords (t : Text) : List Word := BitVec.ofNat 32 t.length :: packBytes t

/-- The 32 bits of a bit vector that word `k` carries, unused high bits 0 (R103). -/
def packBitsWord (bits : List Bool) (k : Nat) : Word := BitVec.ofFnLE fun j : Fin 32 => bits.getD (32 * k + j) false

/-- Digital samples, records and bit vectors: element `k` in bit `k mod 32` of word `k/32` (R103, R76). -/
def packBits (bits : List Bool) : List Word := (List.range ((bits.length + 31) / 32)).map (packBitsWord bits)

/-- A raw sample: I in bits 15:0, Q in bits 31:16 (R74). -/
def rawWord (r : RawSample) : Word := r.q ++ r.i

/-- A complex sample: word 0 = I, word 1 = Q (R73). -/
def complexWords (c : CSample) : List Word := [c.re, c.im]

/-- A `u64` or an `f64` pattern: the low 32 bits first (R75, R105). -/
def wideWords (v : BitVec 64) : List Word := [v.setWidth 32, (v >>> 32).setWidth 32]

/-- A key/value pair: key, then value (R112). -/
def pairWords (p : Pair) : List Word := textWords p.key ++ textWords p.value

/-- A stage descriptor: decimation, tap count, taps (R107). -/
def stageWords (st : StageSpec) : List Word := st.decimation :: BitVec.ofNat 32 st.taps.length :: st.taps

/-- A count word: the low 32 bits of the count (DESIGN CHOICE, log 22). -/
def countWord (n : Nat) : Word := BitVec.ofNat 32 n

/-- `FW0 = (end_bit[31:16], start_bit[15:0])` (R110). -/
def fieldWord0 (startBit endBit : BitVec 16) : Word := endBit ++ startBit

/-- `FW1 = (enum_count[31:16], 0[15:6], endianness[5:4], 0[3], format[2:0])` (R110). -/
def fieldWord1 (format : BitVec 3) (endianness : BitVec 2) (enumCount : BitVec 16) : Word :=
  enumCount ++ (0#10 ++ endianness ++ 0#1 ++ format)

/-- `TW0 = (next[31:16], 0[15:7], action[6:4], 0[3], cond[2:0])` (R114). -/
def triggerWord0 (cond action : BitVec 3) (next : BitVec 16) : Word := next ++ (0#9 ++ action ++ 0#1 ++ cond)

/-! ## Reading back -/

/-- What a reader took off the front of the words: the value, whether the layout rules held, and the words left. -/
structure Parsed (α : Type) where
  value : α
  ok : Bool
  rest : List Word
  deriving DecidableEq, Repr

/-- A reader of one element: `none` while its words have not all arrived. -/
abbrev Reader (α : Type) := List Word → Option (Parsed α)

/-- A value that takes no word. -/
def readPure {α : Type} (a : α) : Reader α := fun ws => some ⟨a, true, ws⟩

/-- One element after another: the whole is well-formed when both are. -/
def readBind {α β : Type} (p : Reader α) (g : α → Reader β) : Reader β := fun ws =>
  match p ws with
  | none => none
  | some r =>
    match g r.value r.rest with
    | none => none
    | some q => some ⟨q.value, r.ok && q.ok, q.rest⟩

def readMap {α β : Type} (g : α → β) (p : Reader α) : Reader β := readBind p fun a => readPure (g a)

/-- A layout rule on what was read so far. -/
def readCheck {α : Type} (ok : Bool) (p : Reader α) : Reader α := fun ws =>
  match p ws with
  | none => none
  | some r => some ⟨r.value, ok && r.ok, r.rest⟩

def readWord : Reader Word := fun ws =>
  match ws with
  | [] => none
  | w :: rest => some ⟨w, true, rest⟩

/-- `n` words, all of which must have arrived. -/
def readWords (n : Nat) : Reader (List Word) := fun ws =>
  if ws.length < n then none else some ⟨ws.take n, true, ws.drop n⟩

/-- A quantity narrower than 32 bits with a word to itself: its upper bits must be 0 (R105). -/
def readNarrow (w : Nat) : Reader (BitVec w) :=
  readBind readWord fun v => readCheck (decide (v.toNat < 2 ^ w)) (readPure (v.setWidth w))

def readWide : Reader (BitVec 64) :=
  readBind readWord fun low => readMap (fun high => high ++ low) readWord

/-- The first `n` bytes of packed words. -/
def unpackBytes (n : Nat) (ws : List Word) : Text :=
  (List.range n).map fun k => ((ws.getD (k / 4) 0) >>> (8 * (k % 4))).setWidth 8

/-- A string of at most `limit` bytes, its padding bytes 0 (R104, R126 b). -/
def readText (limit : Nat) : Reader Text :=
  readBind readWord fun len =>
    readBind (readWords ((len.toNat + 3) / 4)) fun ws =>
      let t := unpackBytes len.toNat ws
      readCheck (decide (len.toNat ≤ limit) && decide (packBytes t = ws)) (readPure t)

/-- The first `n` bits of packed words. -/
def unpackBits (n : Nat) (ws : List Word) : List Bool :=
  (List.range n).map fun k => (ws.getD (k / 32) 0).getLsbD (k % 32)

/-- `n` bits, the unused high bits of the last word 0. DEDUCED (log 26): an unused bit that is 1 makes the command illegal, as
R126 b, R103 and V-ENC-3 say, though R76 calls such bits ignored on read. Unsafe for commands that send one. -/
def readBits (n : Nat) : Reader (List Bool) :=
  readBind (readWords ((n + 31) / 32)) fun ws =>
    let bits := unpackBits n ws
    readCheck (decide (packBits bits = ws)) (readPure bits)

/-- Words taken two by two. -/
def complexesOfWords : List Word → List CSample
  | re :: im :: rest => ⟨re, im⟩ :: complexesOfWords rest
  | _ => []

def readComplexes (n : Nat) : Reader (List CSample) := readMap complexesOfWords (readWords (2 * n))

def rawOfWord (w : Word) : RawSample := ⟨w.setWidth 16, (w >>> 16).setWidth 16⟩

def readRaws (n : Nat) : Reader (List RawSample) := readMap (List.map rawOfWord) (readWords n)

def readPair (limit : Nat) : Reader Pair :=
  readBind (readText limit) fun key => readMap (fun value => ⟨key, value⟩) (readText limit)

def readPairs (limit : Nat) : Nat → Reader (List Pair)
  | 0 => readPure []
  | n + 1 => readBind (readPair limit) fun p => readMap (fun ps => p :: ps) (readPairs limit n)

def readStage : Reader StageSpec :=
  readBind readWord fun d =>
    readBind readWord fun t => readMap (fun taps => ⟨d, taps⟩) (readWords t.toNat)

def readStages : Nat → Reader (List StageSpec)
  | 0 => readPure []
  | n + 1 => readBind readStage fun st => readMap (fun sts => st :: sts) (readStages n)

/-! ## Enumeration codes (R125) -/

/-- The format of a code 0..5; 6 and 7 name none. -/
def formatOfCode (c : BitVec 3) : Option FieldFormat :=
  match c.toNat with
  | 0 => some .hex
  | 1 => some .unsignedDecimal
  | 2 => some .twosComplement
  | 3 => some .signMagnitude
  | 4 => some .float
  | 5 => some .enumerated
  | _ => none

/-- The endianness of a code 0..1; 2 and 3 name none. -/
def endianOfCode (c : BitVec 2) : Option Endian :=
  match c.toNat with
  | 0 => some .big
  | 1 => some .little
  | _ => none

/-- The timestamp mode of a code 0..4; 5 to 7 name none. -/
def tsModeOfCode (c : BitVec 3) : Option TsMode :=
  match c.toNat with
  | 0 => some .none
  | 1 => some .unixSecondsInt
  | 2 => some .unixSecondsFractional
  | 3 => some .localDatetime24h
  | 4 => some .localDatetimeAmpm
  | _ => none

/-- The condition of a code 0..4; 5 to 7 name none. -/
def condOfCode (c : BitVec 3) : Option Cond :=
  match c.toNat with
  | 0 => some .always
  | 1 => some .pulseStart
  | 2 => some .pulseEnd
  | 3 => some .timeout
  | 4 => some .msgComplete
  | _ => none

/-- The action of a code 0..3; 4 to 7 name none. -/
def actionOfCode (c : BitVec 3) : Option Action :=
  match c.toNat with
  | 0 => some .none
  | 1 => some .append0
  | 2 => some .append1
  | 3 => some .outputData
  | _ => none

/-- The result code of BSM.PROC (R115, R125). -/
def resultCode (r : SampleResult) : Word :=
  match r with
  | .noOutputYet => 0
  | .outputReady => 1
  | .error => 2

end Sys2Proof.Machine
end

