-- ==== Sys2Proof/Machine/State.lean ====
section
/-!
DEFINITION. The state of the CORE as plain data (10_state.md), the reasons a step can stop, and the state after
hardware reset (R56 column a, R360).
-/

namespace Sys2Proof.Machine

/-- The state of one CORE (R20): every item of R56, and four fields of the model's own (`params`, `rx`, `reply`,
`draws`; INVENTORY.md). -/
structure State where
  /-- MODEL: the implementation parameters of R8 (log 1). -/
  params : Params
  /-- `STATUS`, u8 (R21). -/
  status : BitVec 8
  /-- `INFO`, u32 (R21). -/
  info : BitVec 32
  /-- The FIR unit (R23 to R28). -/
  fir : Fir
  /-- `thr`, f32 (R30). -/
  thr : F32
  /-- The BFC unit (R31 to R36). -/
  bfc : Bfc
  /-- The BSM unit and the accumulator (R40 to R50). -/
  bsm : Bsm
  /-- `kv[0..kvn-1]` (R53). -/
  kv : List Pair
  /-- MODEL: the words the host has sent and the CORE has not consumed, oldest first (R100, R71; log 2). -/
  rx : List Word
  /-- MODEL: the words of the last reply (R131; log 3). -/
  reply : List Word
  /-- MODEL: commands executed so far, from which every free value is drawn (R12 `draw`; log 4). -/
  draws : Nat
  deriving DecidableEq, Repr

/-- Why the machine stops. -/
inductive Fault where
  /-- Raised by BSM.GEN and DEV.GEN when the walk loops without consuming a bit or emitting a sample: the command never
  completes (R294, row 9 of 93_implementation_defined.md; log 14). Safe: the hardware never replies either. -/
  | generateNeverCompletes
  deriving DecidableEq, Repr

/-- Why an instruction has no meaning. -/
inductive Refusal where
  /-- Raised by `exec` alone, for an instruction the model gives no meaning; no arm raises it. Safe. -/
  | notModelled (mnemonic : String)
  deriving DecidableEq, Repr

/-- The outcome of a command or of a step. -/
abbrev Reaction := Host.Outcome State Fault Refusal

/-- The FIR unit after hardware reset: `fir_valid = 0` (R360); the rest DESIGN CHOICE (log 6), unsafe. -/
def Fir.reset : Fir := ⟨false, 0, []⟩

/-- The BFC unit after hardware reset: `bfc_valid = 0` (R360); the rest DESIGN CHOICE (log 6), unsafe. -/
def Bfc.reset : Bfc := ⟨false, 0, .none, [], [], 0⟩

/-- The BSM unit after hardware reset: `bsm_valid = 0` (R360); the rest DESIGN CHOICE (log 6), unsafe. -/
def Bsm.reset : Bsm := ⟨false, 0, 0, 0, [], 0, 0, 0, false, [], false⟩

/-- The machine right after hardware reset: `STATUS`, `INFO`, the three valid bits and `kvn` are 0 (R360, R56 column
a). What the spec leaves unspecified holds the values log 6 names (DESIGN CHOICE, unsafe). -/
def State.reset : State where
  params := Params.default
  status := 0
  info := 0
  fir := Fir.reset
  thr := 0
  bfc := Bfc.reset
  bsm := Bsm.reset
  kv := []
  rx := []
  reply := []
  draws := 0

end Sys2Proof.Machine
end

