-- ==== Sys2Proof/Machine/Flags.lean ====
section
/-!
DEFINITION. The CORE's flags and predicates (R51): status codes and info words (R331, R332), the reply's status word
(R131), the readiness predicates (R43, R54), the time comparisons (R248) and the conditions of both directions of the
state machine (R252, R280).
-/

namespace Sys2Proof.Machine

/-- The error names of R331. -/
inductive ErrorCode where
  | configError | allocationError | bufferTooSmall | duplicateOrFull | invalidRange | invalidFormat | invalidEndianness
  | unknownField | parseError | valueOutOfRange | protocolError | notReady | illegalCommand
  deriving DecidableEq, Repr

/-- The status codes of R331; 0 is OK. -/
def statusCode (e : ErrorCode) : BitVec 8 :=
  match e with
  | .configError => 1
  | .allocationError => 2
  | .bufferTooSmall => 3
  | .duplicateOrFull => 4
  | .invalidRange => 5
  | .invalidFormat => 6
  | .invalidEndianness => 7
  | .unknownField => 8
  | .parseError => 9
  | .valueOutOfRange => 10
  | .protocolError => 11
  | .notReady => 12
  | .illegalCommand => 13

/-- An error a command raises: its name and its info word (R330, R332). -/
structure Raised where
  code : ErrorCode
  info : BitVec 32
  deriving DecidableEq, Repr

/-- An info word: the cause in bits 7:0, an index in bits 23:8, bits 31:24 zero (R332). An index above 65535 keeps its
low 16 bits: DESIGN CHOICE (log 13), unsafe. -/
def infoWord (cause index : Nat) : BitVec 32 := BitVec.ofNat 32 (cause % 256 + 256 * (index % 65536))

/-- An error with no index. -/
def raisedAs (code : ErrorCode) (cause : Nat) : Raised := ⟨code, infoWord cause 0⟩

/-- The same error raised for pair `p` of a list (R332: `+ (p<<8)`). -/
def raisedAtPair (p : Nat) (r : Raised) : Raised := ⟨r.code, r.info + infoWord 0 p⟩

/-- Word 0 of a reply: `(INFO[23:0], STATUS[7:0])` (R131). -/
def replyStatusWord (status : BitVec 8) (info : BitVec 32) : Word := info.setWidth 24 ++ status

/-! ## Readiness -/

/-- A populated trigger is valid: `cond <= 4`, `action <= 3`, `next < NS` (R43). -/
def triggerValid (ns : Nat) (t : Trigger) : Bool :=
  (condOfCode t.cond).isSome && (actionOfCode t.action).isSome && decide (t.next.toNat < ns)

/-- `initialized`: constructed, every state named, every trigger valid (R43). -/
def bsmInitialized (b : Bsm) : Bool :=
  b.valid && b.states.all fun st => decide (st.name ≠ []) && st.trigs.all (triggerValid b.states.length)

/-- `dev_ready` (R54, R310). -/
def devReady (s : State) : Bool :=
  s.bfc.valid && bsmInitialized s.bsm && decide (s.bfc.recordBits = s.bsm.msgBits)

/-- Why a FIR command is refused (R343). -/
def firNotReady (s : State) : Option Raised := if s.fir.valid then none else some (raisedAs .notReady 1)

/-- Why a BFC command is refused (R343). -/
def bfcNotReady (s : State) : Option Raised := if s.bfc.valid then none else some (raisedAs .notReady 2)

/-- Why a BSM command is refused on an unconstructed machine (R343). -/
def bsmNotReady (s : State) : Option Raised := if s.bsm.valid then none else some (raisedAs .notReady 3)

/-- Why BSM.PROC and BSM.GEN are refused (R246). -/
def bsmNotRunnable (s : State) : Option Raised :=
  if !s.bsm.valid then some (raisedAs .notReady 3)
  else if !bsmInitialized s.bsm then some (raisedAs .notReady 4)
  else none

/-- Why a DEV command is refused (R310). -/
def devNotReady (s : State) : Option Raised := if devReady s then none else some (raisedAs .notReady 5)

/-! ## Time (R248) -/

/-- `in_tol(scount, dur)`: the elapsed time lies within 15 % of `dur` microseconds, both bounds included, by exact
cross-multiplication (R248, D32). -/
def inTolerance (fs scount dur : Nat) : Bool :=
  decide ((Config.tolDen - Config.tolNum) * dur * fs ≤ Config.tolDen * scount * Config.microsPerSecond) &&
  decide (Config.tolDen * scount * Config.microsPerSecond ≤ (Config.tolDen + Config.tolNum) * dur * fs)

/-- `timed_out(scount, tmo)`: the state has a timeout and it has elapsed (R248, D33). -/
def timedOut (fs scount tmo : Nat) : Bool :=
  decide (tmo ≠ 0) && decide (tmo * fs ≤ scount * Config.microsPerSecond)

/-- `ns(us) = floor(us * Fs / 10^6 + 1/2)`, exactly (R290). -/
def samplesOf (fs us : Nat) : Nat := (2 * us * fs + Config.microsPerSecond) / (2 * Config.microsPerSecond)

/-! ## Conditions -/

/-- `cond_holds` of R250, R252: sample `x`, in state `st` of machine `b`. -/
def condHolds (b : Bsm) (st : StateEntry) (cond : BitVec 3) (x : Bool) : Bool :=
  match condOfCode cond with
  | some .always => true
  | some .pulseStart => !b.prev && x
  | some .pulseEnd => b.prev && !x
  | some .timeout => timedOut b.fs.toNat b.scount st.timeoutUs.toNat
  | some .msgComplete => decide (b.msgBits.toNat ≤ b.bitcnt)
  | none => false

/-- A trigger takes part in the scan: unqualified, or its qualifier's band holds the elapsed time (R251). -/
def triggerParticipates (b : Bsm) (t : Trigger) : Bool :=
  decide (t.durUs = 0) || inTolerance b.fs.toNat b.scount t.durUs.toNat

/-- The trigger's condition is an edge: "conditioned on pulse timing" (R253, D34). -/
def edgeCondition (cond : BitVec 3) : Bool :=
  match condOfCode cond with
  | some .pulseStart => true
  | some .pulseEnd => true
  | _ => false

/-- The state's own duration is violated by an edge trigger (R253). -/
def durationMismatch (b : Bsm) (st : StateEntry) (t : Trigger) : Bool :=
  edgeCondition t.cond && decide (st.durationUs ≠ 0) && !inTolerance b.fs.toNat b.scount st.durationUs.toNat

/-- `cond_ok` of R280, R284: the generate-direction stand-in, from the level and whether all bits are consumed. -/
def generateCondOk (level done : Bool) (t : Trigger) : Bool :=
  match condOfCode t.cond with
  | some .always => true
  | some .pulseStart => !level
  | some .pulseEnd => level
  | some .timeout => true
  | some .msgComplete => done
  | none => false

/-- `act_match` of R280, R283: `none` is the synthetic DONE bit. -/
def generateActMatch (bit : Option Bool) (t : Trigger) : Bool :=
  match actionOfCode t.action with
  | some .append0 => decide (bit = some false)
  | some .append1 => decide (bit = some true)
  | some .outputData => true
  | _ => false

/-- The action appends a bit. -/
def appendsBit (t : Trigger) : Bool :=
  match actionOfCode t.action with
  | some .append0 => true
  | some .append1 => true
  | _ => false

end Sys2Proof.Machine
end

