-- ==== Sys2Proof/Machine/Ops.lean ====
section
/-!
DEFINITION. The named operations over registers and memories that the meanings share: ending a command in success or
in an error (R330, R131), the record's bit fields (R200 to R202), the accumulator and the hard reset (R254, R257,
R258), the FIR history and output buffer (R156), and hardware reset (R360).
-/

namespace Sys2Proof.Machine

/-! ## Ending a command -/

/-- A command completes: `STATUS` and `INFO` are 0 and the reply is the status word and the results (R330, R131). -/
def State.complete (s : State) (results : List Word) : State :=
  { s with status := 0, info := 0, reply := replyStatusWord 0 0 :: results, draws := s.draws + 1 }

/-- TAKING AN EXCEPTION, the one shared operation: `raise E(info)` writes `STATUS` and `INFO`, answers the status word
alone, and changes nothing else; no register is saved and no handler runs (R330, R131, R344 a). -/
def State.fail (s : State) (r : Raised) : State :=
  { s with status := statusCode r.code, info := r.info, reply := [replyStatusWord (statusCode r.code) r.info], draws := s.draws + 1 }

/-- A completed command as an outcome. -/
def done (s : State) (results : List Word) : Reaction := .next (s.complete results)

/-- A failed command as an outcome. -/
def raise (s : State) (r : Raised) : Reaction := .next (s.fail r)

/-! ## Record bits (R10, R35, R200 to R202) -/

/-- `w(f) = end_bit - start_bit + 1` (R182). -/
def fieldWidth (f : BitField) : Nat := f.endBit.toNat - f.startBit.toNat + 1

/-- `mask(f) = 2^w(f) - 1` (R182). -/
def fieldMask (f : BitField) : Nat := 2 ^ fieldWidth f - 1

/-- The offset of value bit `j` inside the field's range, and of the record bit at offset `j` inside the value: both
are `w-1-j` in big endian and `j` in little (R77, R201). -/
def bitOffset (f : BitField) (j : Nat) : Nat :=
  match f.endian with
  | .big => fieldWidth f - 1 - j
  | .little => j

/-- `extract(f, rec)`: the raw value of a field (R201). -/
def extractField (f : BitField) (bits : List Bool) : Nat :=
  Nat.ofBits fun j : Fin (fieldWidth f) => bits.getD (f.startBit.toNat + bitOffset f j) false

/-- `insert(f, rec, raw)`: the record with the field's bits replaced and every other bit as it was (R202). -/
def insertField (f : BitField) (bits : List Bool) (raw : Nat) : List Bool :=
  bits.mapIdx fun b old =>
    if f.startBit.toNat ≤ b ∧ b ≤ f.endBit.toNat then raw.testBit (bitOffset f (b - f.startBit.toNat)) else old

/-- The scratch buffer of `ceil(record_bits/8)` bytes loaded with an operand record, bits at and above `record_bits`
0 (R35, R210, R220, R224). -/
def loadRecord (recordBits : Nat) (operand : List Bool) : List Bool :=
  (List.range (8 * ((recordBits + 7) / 8))).map fun b => decide (b < recordBits) && operand.getD b false

/-- The first `record_bits` bits of the scratch buffer: the record a reply carries. -/
def recordReply (b : Bfc) : List Bool := b.record.take b.recordBits.toNat

/-- `find_field(name)`: the lowest-numbered used slot of that name (R183). -/
def findField (b : Bfc) (name : Text) : Option BitField :=
  (b.slots.find? fun o => o.any fun f => decide (f.name = name)).getD none

/-- The slot table with the first field of that name, the one `findField` answers, changed by `g`. -/
def updateField (name : Text) (g : BitField → BitField) : List (Option BitField) → List (Option BitField)
  | [] => []
  | none :: rest => none :: updateField name g rest
  | some f :: rest => if f.name = name then some (g f) :: rest else some f :: updateField name g rest

/-! ## The accumulator (R46, R49, R254, R257, R258) -/

/-- `clear_acc()`: every accumulator bit and the bit counter 0 (R250, R257). -/
def clearAcc (b : Bsm) : Bsm := { b with acc := List.replicate b.msgBits.toNat false, bitcnt := 0 }

/-- Write one bit at the bit counter and increment it (R254). -/
def appendBit (b : Bsm) (v : Bool) : Bsm := { b with acc := b.acc.set b.bitcnt v, bitcnt := b.bitcnt + 1 }

/-- `hard_reset()`: the one forced control transfer (R250, R258, R344 b). -/
def hardReset (b : Bsm) : Bsm := { clearAcc b with cur := 0, scount := 0, clrPending := false }

/-! ## The FIR memories (R25, R28, R156) -/

/-- `T[i]`. -/
def stageTaps (st : Stage) : Nat := st.taps.length

/-- Insert a sample at both mirrored insertion points (R156). -/
def histInsert (st : Stage) (x : CSample) : Stage :=
  { st with hist := (st.hist.set st.wp x).set (st.wp + stageTaps st) x }

/-- Append one sample to the output buffer (R156). -/
def obufAppend (st : Stage) (y : CSample) : Stage :=
  { st with obuf := st.obuf.set st.ocount y, ocount := st.ocount + 1 }

/-- Advance both insertion pointers, wrapping when the second reaches the end of the doubled buffer (R156). -/
def advancePointer (st : Stage) : Stage :=
  { st with wp := if st.wp + 1 + stageTaps st = 2 * stageTaps st then 0 else st.wp + 1 }

/-- The delay line `dl[i][0..T-1]` between commands, newest first (R29). -/
def delayLine (st : Stage) : List CSample :=
  (List.range (stageTaps st)).map fun k =>
    st.hist.getD ((st.wp + (2 * stageTaps st - 1 - k)) % stageTaps st + stageTaps st) CSample.zero

/-! ## Hardware reset (R360) -/

/-- The reset input on a running machine: `STATUS`, `INFO`, the valid bits and `kvn` are 0, no command is in progress,
and everything else is unspecified: free values (R360, R56 column a; log 8). The parameters are the implementation's. -/
def State.hardwareReset (s : State) : State where
  params := s.params
  status := 0
  info := 0
  fir := { Config.unspecifiedFir [s.draws] with valid := false }
  thr := Config.unspecifiedThr [s.draws]
  bfc := { Config.unspecifiedBfc [s.draws] with valid := false }
  bsm := { Config.unspecifiedBsm [s.draws] with valid := false }
  kv := []
  rx := []
  reply := []
  draws := s.draws + 1

end Sys2Proof.Machine
end

