-- ==== Sys2Proof/Machine/Text.lean ====
section
/-!
DEFINITION. The value path between a raw field pattern and its text: the renderings of BFC.DEC (R203 to R209, R212) and
the parsers of BFC.ENC and BFC.SETDEF (R215 to R219, R223).
-/

namespace Sys2Proof.Machine

/-! ## Numbers to text -/

/-- The digits of `n` in `base`, least significant first; `fuel` bounds their number. -/
def digitsOf (base : Nat) : Nat → Nat → List Nat
  | 0, _ => []
  | fuel + 1, n => if n < base then [n] else (n % base) :: digitsOf base fuel (n / base)

/-- The lowercase character of a digit below 16. -/
def digitByte (d : Nat) : Byte := BitVec.ofNat 8 (if d < 10 then 0x30 + d else 0x57 + d)

/-- The digits of `n` in `base`, most significant first, no leading zeros, `0` for zero (R212, R203). -/
def numeral (base n : Nat) : Text := ((digitsOf base (n.log2 + 1) n).map digitByte).reverse

/-- `int_text(x)` (R212). -/
def intText (x : Int) : Text := if x < 0 then 0x2D#8 :: numeral 10 x.natAbs else numeral 10 x.natAbs

/-- The least number of hex digits of a field of `w` bits (R203, D22). -/
def hexDigits (p : Params) (w : Nat) : Nat :=
  if w ≤ 8 then 2
  else if w ≤ 16 then (match p.hex16Digits with | .two => 2 | .four => 4)
  else if w ≤ 32 then 8
  else 16

/-- `hex_text(f, raw)`: `0x` and the digits, padded to at least the tier's number and never cut (R203). -/
def hexText (p : Params) (f : BitField) (raw : Nat) : Text :=
  let ds := numeral 16 raw
  [0x30#8, 0x78#8] ++ List.replicate (hexDigits p (fieldWidth f) - ds.length) 0x30#8 ++ ds

/-- Identity scaling: 1.0 and an offset of zero of either sign (R206, R223). -/
def identityScaling (f : BitField) : Bool := decide (f.scaling = 0x3FF0000000000000#64) && fpIsZero f.offset

/-- `x * scaling + offset` in binary64 (R206). -/
def scaledValue (site : Site) (f : BitField) (x : Int) : F64 :=
  f64Add (1 :: site) (f64Mul (0 :: site) (f64OfInt x) f.scaling) f.offset

/-- `scaled_text(f, x)` (R206). -/
def scaledText (site : Site) (f : BitField) (x : Int) : Text :=
  if identityScaling f then intText x else fmtReal (scaledValue site f x)

/-- The two's-complement reading of a raw pattern, sign bit `w-1` of the field itself (R205). -/
def twosValue (f : BitField) (raw : Nat) : Int :=
  if raw.testBit (fieldWidth f - 1) then (raw : Int) - 2 ^ fieldWidth f else raw

/-- The magnitude `raw[w-2:0]`, 0 when `w = 1` (R207, R209). -/
def magnitudeBits (f : BitField) (raw : Nat) : Nat := raw % 2 ^ (fieldWidth f - 1)

/-- The sign-magnitude reading of a raw pattern; negative zero reads 0 (R207). -/
def signMagnitudeValue (f : BitField) (raw : Nat) : Int :=
  if raw.testBit (fieldWidth f - 1) then -(magnitudeBits f raw : Int) else magnitudeBits f raw

/-- The value a float field renders: magnitude times the scaling, negated for a set sign bit, plus the offset (R209). -/
def floatValue (site : Site) (f : BitField) (raw : Nat) : F64 :=
  let k := if raw.testBit (fieldWidth f - 1) then f64Neg f.scaling else f.scaling
  f64Add (1 :: site) (f64Mul (0 :: site) (f64OfInt (magnitudeBits f raw)) k) f.offset

/-- The enumerated rendering: the first symbol of that value in append order, else hex (R208). -/
def enumText (p : Params) (f : BitField) (raw : Nat) : Text :=
  match f.enums.find? fun e => decide (e.value.toNat = raw) with
  | some e => e.symbol
  | none => hexText p f raw

/-- `raw_to_text(f, raw)` (R210). -/
def rawToText (p : Params) (site : Site) (f : BitField) (raw : Nat) : Text :=
  match f.format with
  | .hex => hexText p f raw
  | .unsignedDecimal => scaledText site f raw
  | .twosComplement => scaledText site f (twosValue f raw)
  | .signMagnitude => scaledText site f (signMagnitudeValue f raw)
  | .float => fmtReal (floatValue site f raw)
  | .enumerated => enumText p f raw

/-! ## Text to numbers -/

/-- The value of a character as a digit of `base`, if it is one (R216). -/
def digitValue (base : Nat) (b : Byte) : Option Nat :=
  let n := b.toNat
  let d := if 0x30 ≤ n ∧ n ≤ 0x39 then n - 0x30
    else if 0x61 ≤ n ∧ n ≤ 0x66 then n - 0x57
    else if 0x41 ≤ n ∧ n ≤ 0x46 then n - 0x37
    else 16
  if d < base then some d else none

/-- The number the digits of a text spell, most significant first, on top of `acc`. -/
def numeralValue (base acc : Nat) : Text → Option Nat
  | [] => some acc
  | b :: rest =>
    match digitValue base b with
    | none => none
    | some d => numeralValue base (acc * base + d) rest

/-- `hexdigits` or `decdigits` of R216: 1 to `most` digits, below `2^64`. -/
def digitString (base most : Nat) (t : Text) : Option Nat :=
  if t.length = 0 ∨ most < t.length then none
  else match numeralValue base 0 t with
    | none => none
    | some m => if m < 2 ^ 64 then some m else none

/-- The unsigned part of R216: a `0x` or `0X` prefix selects hexadecimal. -/
def magnitudeOf (t : Text) : Option Nat :=
  match t with
  | a :: b :: rest =>
    if a = 0x30#8 ∧ (b = 0x78#8 ∨ b = 0x58#8) then digitString 16 16 rest else digitString 10 20 t
  | _ => digitString 10 20 t

/-- `parse_int(str)`: sign and magnitude, or `ParseError(1)` (R216). -/
def parseInt (t : Text) : Except Raised (Bool × Nat) :=
  match t with
  | [] => .error (raisedAs .parseError 1)
  | b :: rest =>
    if b = 0x2D#8 then
      match magnitudeOf rest with
      | some m => .ok (true, m)
      | none => .error (raisedAs .parseError 1)
    else
      match magnitudeOf t with
      | some m => .ok (false, m)
      | none => .error (raisedAs .parseError 1)

/-- `int_of(neg, mag)` (R216). -/
def intOf (neg : Bool) (mag : Nat) : Int := if neg then -(mag : Int) else mag

/-- The quotient `(y - offset) / scaling` in binary64 (R223, R218). -/
def unscaledQuotient (site : Site) (f : BitField) (y : F64) : F64 :=
  f64Div (1 :: site) (f64Sub (0 :: site) y f.offset) f.scaling

/-- The integer a quotient stands for: nearest, ties away from zero; a NaN or an infinity is `ValueOutOfRange(1)`
(R223). -/
def roundQuotient (q : F64) : Except Raised Int :=
  if f64IsFinite q then .ok (if q.msb then -(f64RoundAway q : Int) else f64RoundAway q)
  else .error (raisedAs .valueOutOfRange 1)

/-- `unscale(f, str)` (R223). -/
def unscale (site : Site) (f : BitField) (t : Text) : Except Raised Int :=
  if identityScaling f then
    match parseInt t with
    | .ok (neg, mag) => .ok (intOf neg mag)
    | .error r => .error r
  else
    match parseReal t with
    | none => .error (raisedAs .parseError 2)
    | some y => roundQuotient (unscaledQuotient site f y)

/-- A non-negative number a text spells, for hex fields and the fallback of enumerated ones (R215, R219). -/
def parseUnsigned (t : Text) : Except Raised Nat :=
  match parseInt t with
  | .ok (neg, mag) => if neg ∧ mag ≠ 0 then .error (raisedAs .valueOutOfRange 2) else .ok mag
  | .error r => .error r

/-- The pattern of an integer in sign and magnitude of the field's width; never negative zero (R215). -/
def signMagnitudePattern (f : BitField) (x : Int) : Nat :=
  (if x < 0 then 2 ^ (fieldWidth f - 1) else 0) + x.natAbs

/-- The range check of R215 for hex and enumerated values. -/
def rangeCheckMask (f : BitField) (v : Nat) : Except Raised Nat :=
  if fieldMask f < v then .error (raisedAs .valueOutOfRange 2) else .ok v

/-- The range check and narrowing of R215 for an unsigned decimal. -/
def rangeCheckUnsigned (f : BitField) (x : Int) : Except Raised Nat :=
  if x < 0 ∨ (fieldMask f : Int) < x then .error (raisedAs .valueOutOfRange 2) else .ok x.toNat

/-- The range check and narrowing of R215 for two's complement: `x mod 2^w` (R227). -/
def rangeCheckTwos (f : BitField) (x : Int) : Except Raised Nat :=
  if x < -(2 ^ (fieldWidth f - 1) : Int) ∨ (2 ^ (fieldWidth f - 1) : Int) - 1 < x then .error (raisedAs .valueOutOfRange 2)
  else .ok (x % (2 ^ fieldWidth f : Int)).toNat

/-- The range check and narrowing of R215 for sign and magnitude. -/
def rangeCheckSignMagnitude (f : BitField) (x : Int) : Except Raised Nat :=
  if 2 ^ (fieldWidth f - 1) - 1 < x.natAbs then .error (raisedAs .valueOutOfRange 2) else .ok (signMagnitudePattern f x)

/-- The float parse: quotient, magnitude rounded, sign kept only for a non-zero magnitude (R218). -/
def parseFloatField (site : Site) (f : BitField) (t : Text) : Except Raised Nat :=
  match parseReal t with
  | none => .error (raisedAs .parseError 2)
  | some y =>
    match roundQuotient (unscaledQuotient site f y) with
    | .error r => .error r
    | .ok x => rangeCheckSignMagnitude f x

/-- The value an enumerated text stands for: an exact symbol first, then a number (R219). -/
def enumValue (f : BitField) (t : Text) : Except Raised Nat :=
  match f.enums.find? fun e => decide (e.symbol = t) with
  | some e => .ok e.value.toNat
  | none => parseUnsigned t

/-- A value, then a check of it. -/
def thenCheck {α : Type} (v : Except Raised α) (check : α → Except Raised Nat) : Except Raised Nat :=
  match v with
  | .error r => .error r
  | .ok a => check a

/-- `str_to_raw(f, str)` (R215). -/
def strToRaw (site : Site) (f : BitField) (t : Text) : Except Raised Nat :=
  match f.format with
  | .hex => thenCheck (parseUnsigned t) (rangeCheckMask f)
  | .unsignedDecimal => thenCheck (unscale site f t) (rangeCheckUnsigned f)
  | .twosComplement => thenCheck (unscale site f t) (rangeCheckTwos f)
  | .signMagnitude => thenCheck (unscale site f t) (rangeCheckSignMagnitude f)
  | .float => parseFloatField site f t
  | .enumerated => thenCheck (enumValue f t) (rangeCheckMask f)

end Sys2Proof.Machine
end

