-- ==== Sys2Proof/Machine/Bfc.lean ====
section
/-!
DEFINITION. The BFC unit: the configuration commands (42_formatter_config.md) and the unpacking and packing of records
(43_formatter_codec.md sections 3 and 5).
-/

namespace Sys2Proof.Machine

/-! ## BFC.INIT, BFC.DEINIT -/

/-- The checks of BFC.INIT, in order; a timestamp code above 4 names no mode (R180, R126 d). -/
def bfcInitMode (p : Params) (tsMode : BitVec 3) (nf recordBits : BitVec 16) : Except Raised TsMode :=
  match tsModeOfCode tsMode with
  | none => .error (raisedAs .configError 0x10)
  | some mode =>
    if nf = 0 ∨ recordBits = 0 then .error (raisedAs .configError 0x10)
    else if p.nfMax < nf.toNat ∨ p.recordBitsMax < recordBits.toNat then .error (raisedAs .allocationError 0x10)
    else .ok mode

/-- BFC.INIT (R180). A failure leaves no formatter and its items unspecified (R333, log 8); spt is unspecified after a
success too (R56 column b, log 8). -/
def execBfcInit (tsMode : BitVec 3) (nf recordBits : BitVec 16) (s : State) : Reaction :=
  match bfcInitMode s.params tsMode nf recordBits with
  | .error r => raise { s with bfc := { Config.unspecifiedBfc [s.draws] with valid := false } } r
  | .ok mode =>
    done { s with bfc := {
        valid := true
        recordBits := recordBits
        tsMode := mode
        slots := List.replicate nf.toNat none
        record := loadRecord recordBits.toNat []
        spt := Config.unspecifiedSpt [s.draws] } } []

/-- BFC.DEINIT: always succeeds and leaves the items unspecified (R188, log 8). -/
def execBfcDeinit (s : State) : Reaction :=
  done { s with bfc := { Config.unspecifiedBfc [s.draws] with valid := false } } []

/-! ## BFC.ADDF (R181) -/

/-- The stored scaling: an operand of zero, of either sign, is 1.0 (R181). -/
def normalScaling (x : F64) : F64 := if fpIsZero x then 0x3FF0000000000000#64 else x

/-- The checks of BFC.ADDF, in order, and what passes them: the slot index and the legal format and endianness. -/
def addFieldCheck (p : Params) (b : Bfc) (name : Text) (startBit endBit : BitVec 16) (format : BitVec 3) (endianness : BitVec 2)
    (enumCount : BitVec 16) : Except Raised (Nat × FieldFormat × Endian) :=
  if name = [] then .error (raisedAs .configError 0x11)
  else match b.slots.findIdx? Option.isNone with
    | none => .error (raisedAs .duplicateOrFull 1)
    | some n =>
      if (findField b name).isSome then .error (raisedAs .duplicateOrFull 2)
      else if endBit.toNat < startBit.toNat then .error (raisedAs .invalidRange 1)
      else if Config.fieldMaxW < endBit.toNat - startBit.toNat + 1 then .error (raisedAs .invalidRange 2)
      else if b.recordBits.toNat ≤ endBit.toNat then .error (raisedAs .invalidRange 3)
      else match formatOfCode format with
        | none => .error (raisedAs .invalidFormat format.toNat)
        | some fmt =>
          match endianOfCode endianness with
          | none => .error (raisedAs .invalidEndianness endianness.toNat)
          | some e => if p.enumMax < enumCount.toNat then .error (raisedAs .allocationError 0x11) else .ok (n, fmt, e)

/-- BFC.ADDF (R181). -/
def execBfcAddf (name : Text) (startBit endBit : BitVec 16) (format : BitVec 3) (endianness : BitVec 2) (enumCount : BitVec 16)
    (scaling offset : F64) (s : State) : Reaction :=
  match bfcNotReady s with
  | some r => raise s r
  | none =>
    match addFieldCheck s.params s.bfc name startBit endBit format endianness enumCount with
    | .error r => raise s r
    | .ok (n, fmt, e) =>
      let f : BitField := {
        name := name
        startBit := startBit
        endBit := endBit
        format := fmt
        endian := e
        scaling := normalScaling scaling
        offset := offset
        default := 0
        enumCap := enumCount
        enums := [] }
      done { s with bfc := { s.bfc with slots := s.bfc.slots.set n (some f) } } [countWord n]

/-! ## BFC.ADDE (R184), BFC.SETDEF (R186) -/

/-- The checks of BFC.ADDE, in order (R184). -/
def addEnumError (b : Bfc) (fieldName symbol : Text) : Option Raised :=
  match findField b fieldName with
  | none => some (raisedAs .unknownField 1)
  | some f =>
    if symbol = [] then some (raisedAs .configError 0x12)
    else if f.enumCap.toNat ≤ f.enums.length then some (raisedAs .duplicateOrFull 3)
    else if f.enums.any fun e => decide (e.symbol = symbol) then some (raisedAs .duplicateOrFull 4)
    else none

/-- BFC.ADDE (R184). -/
def execBfcAdde (fieldName symbol : Text) (value : BitVec 64) (s : State) : Reaction :=
  match bfcNotReady s with
  | some r => raise s r
  | none =>
    match addEnumError s.bfc fieldName symbol with
    | some r => raise s r
    | none =>
      done { s with bfc := { s.bfc with
        slots := updateField fieldName (fun f => { f with enums := f.enums ++ [⟨symbol, value⟩] }) s.bfc.slots } } []

/-- BFC.SETDEF (R186): the parser of encode (C3), the enum table as it stands. -/
def execBfcSetdef (fieldName defaultStr : Text) (s : State) : Reaction :=
  match bfcNotReady s with
  | some r => raise s r
  | none =>
    match findField s.bfc fieldName with
    | none => raise s (raisedAs .unknownField 2)
    | some f =>
      match strToRaw [s.draws] f defaultStr with
      | .error r => raise s r
      | .ok v =>
        done { s with bfc := { s.bfc with
          slots := updateField fieldName (fun g => { g with default := BitVec.ofNat 64 v }) s.bfc.slots } } []

/-! ## Decode (R210) -/

/-- The used slots in ascending slot order (R211). -/
def usedFields (b : Bfc) : List BitField := b.slots.filterMap id

/-- The pairs of the fields from the `n`-th on (R210). -/
def fieldPairs (p : Params) (site : Site) (n : Nat) (bits : List Bool) : List BitField → List Pair
  | [] => []
  | f :: rest =>
    ⟨f.name, rawToText p (n :: site) f (extractField f bits)⟩ :: fieldPairs p site (n + 1) bits rest

/-- The timestamp pair, first in the list when `ts_mode` is not 0: one draw per decode (R214). -/
def timestampPairs (site : Site) (mode : TsMode) : List Pair :=
  match mode with
  | .none => []
  | m => [⟨Config.tsKey, Config.tsDraw m site⟩]

/-- The raw value the last of some fields leaves in the spt cell (R36, R201). -/
def lastRaw (bits : List Bool) (spt : BitVec 64) (fields : List BitField) : BitVec 64 :=
  match fields.getLast? with
  | none => spt
  | some f => BitVec.ofNat 64 (extractField f bits)

/-- The body of BFC.DEC: load the record, render every used field (R210). -/
def decodeBody (p : Params) (site : Site) (b : Bfc) (operand : List Bool) : Bfc × List Pair :=
  let bits := loadRecord b.recordBits.toNat operand
  ({ b with record := bits, spt := lastRaw bits b.spt (usedFields b) },
    timestampPairs (0 :: site) b.tsMode ++ fieldPairs p (1 :: site) 0 bits (usedFields b))

/-- The words of a list of pairs: its count, then the strings (R112). -/
def pairListWords (ps : List Pair) : List Word := countWord ps.length :: ps.flatMap pairWords

/-- BFC.DEC (R210): it does not touch the key-value list. -/
def execBfcDec (record : List Bool) (s : State) : Reaction :=
  match bfcNotReady s with
  | some r => raise s r
  | none =>
    let r := decodeBody s.params [s.draws] s.bfc record
    done { s with bfc := r.1 } (pairListWords r.2)

/-! ## Encode (R220), defaults (R224) -/

/-- Write one raw value through the spt cell (R220, R224). -/
def writeField (b : Bfc) (f : BitField) (raw : Nat) : Bfc :=
  { b with spt := BitVec.ofNat 64 raw, record := insertField f b.record raw }

/-- The pairs of BFC.ENC from pair `p` on: the first failing pair ends it, the earlier ones stay written (R220, R221). -/
def encodePairs (site : Site) (p : Nat) (b : Bfc) : List Pair → Bfc × Option Raised
  | [] => (b, none)
  | kv :: rest =>
    match findField b kv.key with
    | none => (b, some (raisedAtPair p (raisedAs .unknownField 3)))
    | some f =>
      match strToRaw (p :: site) f kv.value with
      | .error r => (b, some (raisedAtPair p r))
      | .ok raw => encodePairs site (p + 1) (writeField b f raw) rest

/-- Load an operand record into the scratch buffer. -/
def loadScratch (b : Bfc) (operand : List Bool) : Bfc := { b with record := loadRecord b.recordBits.toNat operand }

/-- The body of BFC.ENC (R220). -/
def encodeBody (site : Site) (b : Bfc) (operand : List Bool) (pairs : List Pair) : Bfc × Option Raised :=
  encodePairs site 0 (loadScratch b operand) pairs

/-- BFC.ENC (R220): on an error the scratch buffer keeps what was written and no record is returned (R221). -/
def execBfcEnc (pairs : List Pair) (record : List Bool) (s : State) : Reaction :=
  match bfcNotReady s with
  | some r => raise s r
  | none =>
    let r := encodeBody [s.draws] s.bfc record pairs
    match r.2 with
    | some e => raise { s with bfc := r.1 } e
    | none => done { s with bfc := r.1 } (packBits (recordReply r.1))

/-- Every field's default, in slot order (R224, R222). -/
def writeDefaults (b : Bfc) : List BitField → Bfc
  | [] => b
  | f :: rest => writeDefaults (writeField b f f.default.toNat) rest

/-- The body of BFC.DEFDATA (R224). -/
def defaultsBody (b : Bfc) (operand : List Bool) : Bfc := writeDefaults (loadScratch b operand) (usedFields b)

/-- BFC.DEFDATA (R224). -/
def execBfcDefdata (record : List Bool) (s : State) : Reaction :=
  match bfcNotReady s with
  | some r => raise s r
  | none =>
    let b := defaultsBody s.bfc record
    done { s with bfc := b } (packBits (recordReply b))

end Sys2Proof.Machine
end

