-- ==== Sys2Proof/Machine/Bsm.lean ====
section
/-!
DEFINITION. The BSM unit: construction and population of the state table, the decode direction and the accumulator port
(44_sm_decode.md sections 2 to 4, R312).
-/

namespace Sys2Proof.Machine

/-! ## Construction (R243 to R247, R262) -/

/-- The checks of BSM.INIT, in order (R243). -/
def bsmInitError (p : Params) (ns : BitVec 16) (fs : BitVec 32) (msgBits : BitVec 16) (onVal : F32) : Option Raised :=
  if ns = 0 ∨ fs = 0 ∨ msgBits = 0 ∨ f32IsFinite onVal = false then some (raisedAs .configError 0x20)
  else if p.nsMax < ns.toNat ∨ p.recordBitsMax < msgBits.toNat then some (raisedAs .allocationError 0x20)
  else none

/-- A state not yet named, with no trigger (R243). -/
def StateEntry.blank : StateEntry := ⟨[], 0, 0, []⟩

/-- BSM.INIT (R243). A failure leaves no machine and its items unspecified (R333, log 8). -/
def execBsmInit (ns : BitVec 16) (fs : BitVec 32) (msgBits : BitVec 16) (onVal : F32) (s : State) : Reaction :=
  match bsmInitError s.params ns fs msgBits onVal with
  | some r => raise { s with bsm := { Config.unspecifiedBsm [s.draws] with valid := false } } r
  | none =>
    done { s with bsm := {
        valid := true
        fs := fs
        msgBits := msgBits
        onVal := onVal
        states := List.replicate ns.toNat StateEntry.blank
        cur := 0
        bitcnt := 0
        scount := 0
        prev := false
        acc := List.replicate msgBits.toNat false
        clrPending := false } } []

/-- BSM.SETSTATE: name, duration and timeout; the triggers are not touched (R244). -/
def execBsmSetstate (state : BitVec 16) (name : Text) (durationUs timeoutUs : BitVec 32) (s : State) : Reaction :=
  match bsmNotReady s with
  | some r => raise s r
  | none =>
    match s.bsm.states[state.toNat]? with
    | none => raise s (raisedAs .configError 0x21)
    | some st =>
      done { s with bsm := { s.bsm with
        states := s.bsm.states.set state.toNat { st with name := name, durationUs := durationUs, timeoutUs := timeoutUs } } } []

/-- BSM.ADDTRIG: appended as given, legal or not (R245, R126 e). -/
def execBsmAddtrig (state : BitVec 16) (cond action : BitVec 3) (next : BitVec 16) (durUs : BitVec 32) (s : State) : Reaction :=
  match bsmNotReady s with
  | some r => raise s r
  | none =>
    match s.bsm.states[state.toNat]? with
    | none => raise s (raisedAs .configError 0x21)
    | some st =>
      if s.params.ntMax ≤ st.trigs.length then raise s (raisedAs .configError 0x23)
      else
        done { s with bsm := { s.bsm with
          states := s.bsm.states.set state.toNat { st with trigs := st.trigs ++ [⟨cond, durUs, action, next⟩] } } }
          [countWord st.trigs.length]

/-- BSM.READY: never fails (R247). -/
def execBsmReady (s : State) : Reaction := done s [if bsmInitialized s.bsm then 1 else 0]

/-- BSM.DEINIT: always succeeds and leaves the items unspecified (R262, log 8). -/
def execBsmDeinit (s : State) : Reaction :=
  done { s with bsm := { Config.unspecifiedBsm [s.draws] with valid := false } } []

/-- BSM.RDACC: the bit counter and the accumulator, with no effect (R312). -/
def execBsmRdacc (s : State) : Reaction :=
  match bsmNotReady s with
  | some r => raise s r
  | none => done s (countWord s.bsm.bitcnt :: packBits s.bsm.acc)

/-! ## BSM.PROC (R250) -/

/-- The largest value of the duration counter (R47). -/
def scountMax : Nat := 2 ^ 64 - 1

/-- One more sample of age, saturating (R250, R264). -/
def countSample (b : Bsm) : Bsm := { b with scount := min (b.scount + 1) scountMax }

/-- The state the cursor stands at. -/
def currentState (b : Bsm) : StateEntry := b.states.getD b.cur StateEntry.blank

/-- The trigger that fires on sample `x`: the first, in declaration order, that takes part and whose condition holds
(R251, R252). -/
def firingTrigger (b : Bsm) (x : Bool) : Option Trigger :=
  (currentState b).trigs.find? fun t => triggerParticipates b t && condHolds b (currentState b) t.cond x

/-- The hard reset for the offending sample, which becomes the previous one (R258). -/
def recover (b : Bsm) (x : Bool) : Bsm := { hardReset b with prev := x }

/-- The aggregator's action: `none` is the overflow of R254. -/
def performAction (b : Bsm) (t : Trigger) : Option Bsm :=
  match actionOfCode t.action with
  | some .append0 => if b.msgBits.toNat ≤ b.bitcnt then none else some (appendBit b false)
  | some .append1 => if b.msgBits.toNat ≤ b.bitcnt then none else some (appendBit b true)
  | _ => some b

/-- The trigger hands the record over (R255). -/
def outputsData (t : Trigger) : Bool := decide (actionOfCode t.action = some .outputData)

/-- The transition and the clear that entry to state 0 owes, deferred when the record was just handed over (R256,
R257). -/
def enterNext (b : Bsm) (t : Trigger) : Bsm :=
  let b1 := { b with cur := t.next.toNat, scount := 0 }
  if t.next.toNat = 0 then (if outputsData t then { b1 with clrPending := true } else clearAcc b1) else b1

/-- One sample of BSM.PROC: the machine after it and what the sample caused (R250). -/
def sampleStep (b0 : Bsm) (x : Bool) : Bsm × SampleResult :=
  let b := countSample b0
  match firingTrigger b x with
  | none => ({ b with prev := x }, .noOutputYet)
  | some t =>
    if durationMismatch b (currentState b) t then (recover b x, .error)
    else match performAction b t with
      | none => (recover b x, .error)
      | some b1 => ({ enterNext b1 t with prev := x }, if outputsData t then .outputReady else .noOutputYet)

/-- The samples from index `k` on, stopping after an output or an error: the machine, the samples examined, the result
(R250, R259). -/
def sampleLoop (k : Nat) (b : Bsm) : List Bool → Bsm × Nat × SampleResult
  | [] => (b, k, .noOutputYet)
  | x :: rest =>
    match sampleStep b x with
    | (b', .noOutputYet) => sampleLoop (k + 1) b' rest
    | (b', r) => (b', k + 1, r)

/-- The clear that an output into state 0 left pending (R250, R257). -/
def pendingClear (b : Bsm) : Bsm := if b.clrPending then { clearAcc b with clrPending := false } else b

/-- The body of BSM.PROC, from the pending clear on (R250, R313). -/
def procBody (b : Bsm) (xs : List Bool) : Bsm × Nat × SampleResult := sampleLoop 0 (pendingClear b) xs

/-- BSM.PROC (R250). -/
def execBsmProc (samples : List Bool) (s : State) : Reaction :=
  match bsmNotRunnable s with
  | some r => raise s r
  | none =>
    let r := procBody s.bsm samples
    done { s with bsm := r.1 } [countWord r.2.1, resultCode r.2.2]

end Sys2Proof.Machine
end

