-- ==== Sys2Proof/Machine/BsmGen.lean ====
section
/-!
DEFINITION. The generate direction of the BSM (45_sm_generate.md): the walk of the state table that turns bits into
amplitudes, and BSM.GEN. The walk has registers of its own (R52, R281); they do not survive the command.
-/

namespace Sys2Proof.Machine

/-- The generate working registers (R52). -/
structure GenWalk where
  /-- `g_cur`. -/
  cur : Nat
  /-- `level`. -/
  level : Bool
  /-- The bits from `g_i` on; none left is `done`. -/
  bits : List Bool
  /-- `gbuf[0..glen-1]`. -/
  buf : List F32
  /-- `gcap`. -/
  gcap : Nat
  /-- MODEL: passes since the last one that emitted a sample or consumed a bit (log 14). -/
  idle : Nat
  deriving DecidableEq, Repr, Inhabited

/-- How a walk ends. -/
inductive GenResult where
  /-- The DONE pass ran (R291). -/
  | samples (amplitudes : List F32)
  /-- A pass raised an error (R285, R286, R292, R293). -/
  | failed (r : Raised)
  /-- The walk loops for ever (R294). -/
  | stuck
  deriving DecidableEq, Repr

/-- The bit about to be emitted; `none` is DONE (R291). -/
def GenWalk.bit (w : GenWalk) : Option Bool := w.bits.head?

/-- The trigger a pass selects: action and condition match, else the first whose condition is possible (R283, R284). -/
def selectTrigger (level : Bool) (bit : Option Bool) (trigs : List Trigger) : Option Trigger :=
  match trigs.find? fun t => generateActMatch bit t && generateCondOk level bit.isNone t with
  | some t => some t
  | none => trigs.find? (generateCondOk level bit.isNone)

/-- Why a pass fails: no trigger, a timeout trigger, a trigger for another bit (R293, R286, R285). -/
def selectionError (bit : Option Bool) (selected : Option Trigger) : Option Raised :=
  match selected with
  | none => some (raisedAs .protocolError 1)
  | some t =>
    if condOfCode t.cond = some .timeout then some (raisedAs .protocolError 2)
    else if appendsBit t && !generateActMatch bit t then some (raisedAs .protocolError 3)
    else none

/-- The level after the selected trigger's edge (R287). -/
def levelAfter (level : Bool) (t : Trigger) : Bool :=
  match condOfCode t.cond with
  | some .pulseStart => true
  | some .pulseEnd => false
  | _ => level

/-- `gap_samples(t, nx)` (R280, R289). -/
def gapSamples (mode : GenGapMode) (fs : Nat) (t : Trigger) (nx : StateEntry) : Nat :=
  if t.durUs = 0 then 0
  else match mode with
    | .full => samplesOf fs t.durUs.toNat
    | .difference => samplesOf fs (t.durUs.toNat - nx.durationUs.toNat)

/-- The capacity after the doublings that `need` samples take; `none` when one of them would pass GEN_MAX_SAMPLES
(R292). `fuel` counts the doublings allowed: one more than fit below GEN_MAX_SAMPLES is enough for any capacity but 0
(log 21). -/
def growCapacity (maxSamples need : Nat) : Nat → Nat → Option Nat
  | 0, cap => if need ≤ cap then some cap else none
  | fuel + 1, cap =>
    if need ≤ cap then some cap
    else if maxSamples < 2 * cap then none
    else growCapacity maxSamples need fuel (2 * cap)

/-- `emit(count, a)` (R280, R292). -/
def emitSamples (maxSamples : Nat) (w : GenWalk) (count : Nat) (a : F32) : Except Raised GenWalk :=
  match growCapacity maxSamples (w.buf.length + count) (maxSamples.log2 + 1) w.gcap with
  | none => .error (raisedAs .allocationError 0x30)
  | some cap => .ok { w with buf := w.buf ++ List.replicate count a, gcap := cap }

/-- The cursor, level and bits after the selected trigger: one bit is gone when it appends (R280). -/
def advanceWalk (w : GenWalk) (t : Trigger) : GenWalk :=
  { w with cur := t.next.toNat, level := levelAfter w.level t, bits := if appendsBit t then w.bits.tail else w.bits }

/-- Passes without progress, counted (log 14). -/
def countIdle (before : GenWalk) (after : GenWalk) : GenWalk :=
  { after with idle :=
      if after.buf.length = before.buf.length ∧ after.bits.length = before.bits.length then before.idle + 1 else 0 }

/-- The samples a taken trigger emits: the gap at low, then the next state's own duration (R288, R289). -/
def emitTransition (p : Params) (b : Bsm) (w : GenWalk) (t : Trigger) : Except Raised GenWalk :=
  let nx := b.states.getD t.next.toNat StateEntry.blank
  match emitSamples p.genMaxSamples w (gapSamples p.genGapMode b.fs.toNat t nx) 0 with
  | .error r => .error r
  | .ok w1 =>
    emitSamples p.genMaxSamples w1 (samplesOf b.fs.toNat nx.durationUs.toNat) (if levelAfter w.level t then b.onVal else 0)

/-- One pass of the walk (R280). -/
def genPass (p : Params) (b : Bsm) (w : GenWalk) : Except Raised GenWalk :=
  let selected := selectTrigger w.level w.bit (b.states.getD w.cur StateEntry.blank).trigs
  match selectionError w.bit selected, selected with
  | some r, _ => .error r
  | none, none => .error (raisedAs .protocolError 1)
  | none, some t =>
    match emitTransition p b w t with
    | .error r => .error r
    | .ok w1 => .ok (countIdle w (advanceWalk w1 t))

/-- Passes without progress after which the walk has met the same cursor and level twice, and so loops (log 14). -/
def idleLimit (b : Bsm) : Nat := 2 * b.states.length

/-- The walk: it ends after the DONE pass (R280, R291). -/
def genLoop (p : Params) (b : Bsm) : Nat → GenWalk → GenResult
  | 0, _ => .stuck
  | fuel + 1, w =>
    match genPass p b w with
    | .error r => .failed r
    | .ok w' =>
      if w.bits.isEmpty then .samples w'.buf
      else if idleLimit b < w'.idle then .stuck
      else genLoop p b fuel w'

/-- The start of a walk (R281). -/
def genStart (p : Params) (bits : List Bool) : GenWalk := ⟨0, false, bits, [], p.genInitCap, 0⟩

/-- More passes than a walk that ends can take: each pass consumes a bit, emits a sample within the capacity, or is one
of at most `idleLimit` in a row. -/
def genFuel (p : Params) (b : Bsm) (nb : Nat) : Nat :=
  (nb + max p.genInitCap p.genMaxSamples + 1) * (idleLimit b + 1) + 1

/-- The body of BSM.GEN (R280, R315). -/
def genBody (p : Params) (b : Bsm) (bits : List Bool) : GenResult := genLoop p b (genFuel p b bits.length) (genStart p bits)

/-- BSM.GEN (R280): it changes no register of the machine (R281). -/
def execBsmGen (bits : List Bool) (s : State) : Reaction :=
  match bsmNotRunnable s with
  | some r => raise s r
  | none =>
    match genBody s.params s.bsm bits with
    | .samples amps => done s (countWord amps.length :: amps)
    | .failed r => raise s r
    | .stuck => .fault .generateNeverCompletes

end Sys2Proof.Machine
end

