-- ==== Sys2Proof/Machine/Dev.lean ====
section
/-!
DEFINITION. The DEV unit: the device's two pipelines over the BSM and BFC bodies (46_device_kvlist.md section 1). It has
no register of its own (R54).
-/

namespace Sys2Proof.Machine

/-- What one DEV.PROC has done so far. -/
structure DevRun where
  bsm : Bsm
  bfc : Bfc
  /-- The list, filled anew by each DEV.PROC (R313). -/
  kv : List Pair
  nmsg : Nat
  nerr : Nat
  deriving DecidableEq, Repr

/-- Append pairs one by one; the flag says that the list was full before the last of them (R313). -/
def appendPairs (kvMax : Nat) (kv : List Pair) : List Pair → List Pair × Bool
  | [] => (kv, false)
  | p :: ps => if kvMax ≤ kv.length then (kv, true) else appendPairs kvMax (kv ++ [p]) ps

/-- A message was completed: decode the accumulator as the record and append its pairs (R313, R311). -/
def devMessage (p : Params) (site : Site) (run : DevRun) : DevRun × Option Raised :=
  let d := decodeBody p (run.nmsg :: site) run.bfc run.bsm.acc
  let a := appendPairs p.kvMax run.kv d.2
  let after := { run with bfc := d.1, kv := a.1 }
  if a.2 then (after, some (raisedAs .allocationError 0x40)) else ({ after with nmsg := run.nmsg + 1 }, none)

/-- The loop of DEV.PROC over the samples left (R313, R314). Each turn consumes a sample, so `fuel` of their number is
enough. -/
def devLoop (p : Params) (site : Site) : Nat → DevRun → List Bool → DevRun × Option Raised
  | 0, run, _ => (run, none)
  | _ + 1, run, [] => (run, none)
  | fuel + 1, run, x :: xs =>
    let r := procBody run.bsm (x :: xs)
    let left := (x :: xs).drop r.2.1
    match r.2.2 with
    | .noOutputYet => devLoop p site fuel { run with bsm := r.1 } left
    | .error =>
      let run1 := { run with bsm := r.1, nerr := run.nerr + 1 }
      match p.devErrPolicy with
      | .stop => (run1, none)
      | .goOn => devLoop p site fuel run1 left
    | .outputReady =>
      match devMessage p site { run with bsm := r.1 } with
      | (run1, some e) => (run1, some e)
      | (run1, none) => devLoop p site fuel run1 left

/-- DEV.PROC (R313). On a full list the machine has advanced and the pairs appended so far stay (R344 a). -/
def execDevProc (samples : List Bool) (s : State) : Reaction :=
  match devNotReady s with
  | some r => raise s r
  | none =>
    let r := devLoop s.params [s.draws] samples.length ⟨s.bsm, s.bfc, [], 0, 0⟩ samples
    let s' := { s with bsm := r.1.bsm, bfc := r.1.bfc, kv := r.1.kv }
    match r.2 with
    | some e => raise s' e
    | none => done s' [countWord r.1.kv.length, countWord r.1.nmsg, countWord r.1.nerr]

/-- The record DEV.GEN builds in the scratch buffer: all zero, the defaults, then the operand pairs (R315). -/
def devRecord (site : Site) (b : Bfc) (pairs : List Pair) : Bfc × Option Raised :=
  let b0 := defaultsBody b []
  encodeBody site b0 b0.record pairs

/-- DEV.GEN (R315): amplitudes as complex samples with imaginary part `+0.0`; the scratch record stays written. -/
def execDevGen (pairs : List Pair) (s : State) : Reaction :=
  match devNotReady s with
  | some r => raise s r
  | none =>
    let r := devRecord [s.draws] s.bfc pairs
    let s' := { s with bfc := r.1 }
    match r.2 with
    | some e => raise s' e
    | none =>
      match genBody s.params s.bsm (recordReply r.1) with
      | .samples amps => done s' (countWord amps.length :: amps.flatMap fun a => complexWords ⟨a, 0⟩)
      | .failed e => raise s' e
      | .stuck => .fault .generateNeverCompletes

end Sys2Proof.Machine
end

