-- ==== Sys2Proof/Machine/Fir.lean ====
section
/-!
DEFINITION. The FIR unit: the decimating FIR filter bank (41_fir.md).
-/

namespace Sys2Proof.Machine

/-- Round-up division. -/
def ceilDiv (n d : Nat) : Nat := (n + d - 1) / d

/-! ## FIR.INIT (R151) -/

/-- The configuration checks of FIR.INIT over the stages from index `i` on: the first failure wins, taps before
decimation (R151, D13). -/
def stageConfigError (i : Nat) : List StageSpec → Option Raised
  | [] => none
  | st :: rest =>
    if st.taps.length = 0 then some ⟨.configError, infoWord 2 i⟩
    else if st.decimation.toNat = 0 ∨ 2 ^ 31 ≤ st.decimation.toNat then some ⟨.configError, infoWord 3 i⟩
    else stageConfigError (i + 1) rest

/-- The tap-count check of FIR.INIT over the stages from index `i` on (R151). -/
def stageTapError (tMax i : Nat) : List StageSpec → Option Raised
  | [] => none
  | st :: rest => if tMax < st.taps.length then some ⟨.allocationError, infoWord 2 i⟩ else stageTapError tMax (i + 1) rest

/-- History and output-buffer cells of the stages, the earlier ones decimating by `cumulative` (R151). -/
def firCells (maxInput cumulative : Nat) : List StageSpec → Nat
  | [] => 0
  | st :: rest =>
    2 * st.taps.length + ceilDiv maxInput (cumulative * st.decimation.toNat) +
      firCells maxInput (cumulative * st.decimation.toNat) rest

/-- Every check of FIR.INIT, in its order (R151, R342). -/
def firInitError (p : Params) (maxInput : Nat) (stages : List StageSpec) : Option Raised :=
  if stages.length = 0 then some (raisedAs .configError 1)
  else match stageConfigError 0 stages with
    | some r => some r
    | none =>
      if p.sMax < stages.length then some (raisedAs .allocationError 1)
      else match stageTapError p.tMax 0 stages with
        | some r => some r
        | none => if p.firMemMax < firCells maxInput 1 stages then some (raisedAs .allocationError 3) else none

/-- A stage in the reset state: zero history, counter at the decimation factor, pointer 0 (R152, R151). -/
def freshStage (maxInput cumulative : Nat) (st : StageSpec) : Stage where
  decim := st.decimation
  taps := st.taps
  hist := List.replicate (2 * st.taps.length) CSample.zero
  wp := 0
  cnt := st.decimation.toNat
  obuf := List.replicate (ceilDiv maxInput (cumulative * st.decimation.toNat)) CSample.zero
  ocount := 0

/-- The stages FIR.INIT builds, each output buffer sized by the cumulative decimation (R23, R151). -/
def freshStages (maxInput cumulative : Nat) : List StageSpec → List Stage
  | [] => []
  | st :: rest => freshStage maxInput cumulative st :: freshStages maxInput (cumulative * st.decimation.toNat) rest

/-- FIR.INIT (R151). A failure leaves no filter and its items unspecified (R333, log 8). -/
def execFirInit (maxInput : BitVec 32) (stages : List StageSpec) (s : State) : Reaction :=
  match firInitError s.params maxInput.toNat stages with
  | some r => raise { s with fir := { Config.unspecifiedFir [s.draws] with valid := false } } r
  | none => done { s with fir := ⟨true, maxInput, freshStages maxInput.toNat 1 stages⟩ } []

/-! ## FIR.RESET, FIR.TOTDEC, FIR.DEINIT -/

/-- A stage reset: state cleared, configuration kept (R152, R20). -/
def resetStage (st : Stage) : Stage where
  decim := st.decim
  taps := st.taps
  hist := List.replicate st.hist.length CSample.zero
  wp := 0
  cnt := st.decim.toNat
  obuf := List.replicate st.obuf.length CSample.zero
  ocount := 0

/-- FIR.RESET (R152). -/
def execFirReset (s : State) : Reaction :=
  match firNotReady s with
  | some r => raise s r
  | none => done { s with fir := { s.fir with stages := s.fir.stages.map resetStage } } []

/-- The exact total decimation `D[0] * … * D[S-1]` (R150, R153). -/
def totalDecimation (stages : List Stage) : Nat := (stages.map fun st => st.decim.toNat).prod

/-- `cumdec[i]`: the product `D[0] * … * D[i]` (R23). -/
def cumulativeDecimation (stages : List Stage) (i : Nat) : Nat := totalDecimation (stages.take (i + 1))

/-- FIR.TOTDEC: the exact product, the reply saturated at `2^32 - 1` (R153). -/
def execFirTotdec (s : State) : Reaction :=
  match firNotReady s with
  | some r => raise s r
  | none => done s [BitVec.ofNat 32 (min (totalDecimation s.fir.stages) (2 ^ 32 - 1))]

/-- FIR.DEINIT: always succeeds and leaves the items unspecified (R166, log 8). -/
def execFirDeinit (s : State) : Reaction :=
  done { s with fir := { Config.unspecifiedFir [s.draws] with valid := false } } []

/-! ## FIR.PROC (R154 to R157) -/

/-- The sum of the dot product from tap `k` on: each product and each sum rounded, ascending `k` (R157, D8). -/
def convSum (site : Site) (k : Nat) (acc : F32) : List (F32 × F32) → F32
  | [] => acc
  | (tap, x) :: rest => convSum site (k + 1) (f32Add (1 :: k :: site) acc (f32Mul (0 :: k :: site) tap x)) rest

/-- One lane of the dot product: the sum starts from the first product, not from zero (R157, D8). -/
def convLane (site : Site) (terms : List (F32 × F32)) : F32 :=
  match terms with
  | [] => 0
  | (tap, x) :: rest => convSum site 1 (f32Mul (0 :: 0 :: site) tap x) rest

/-- The last `T` samples just after an insert at `p`, newest first: `hist[p + T - k]` (R29, R157). -/
def convWindow (st : Stage) (p : Nat) : List CSample :=
  (List.range (stageTaps st)).map fun k => st.hist.getD (p + stageTaps st - k) CSample.zero

/-- `conv(i, p)`: the same real taps on both lanes, tap 0 with the newest sample (R157, R158). -/
def conv (site : Site) (st : Stage) (p : Nat) : CSample where
  re := convLane (0 :: site) (st.taps.zip ((convWindow st p).map CSample.re))
  im := convLane (1 :: site) (st.taps.zip ((convWindow st p).map CSample.im))

/-- `stage_step(i, x)` (R156): insert, count down, emit at zero, advance. -/
def stageStep (site : Site) (st : Stage) (x : CSample) : Stage :=
  let st1 := histInsert st x
  if st.cnt - 1 = 0 then
    advancePointer { obufAppend st1 (conv site st1 st.wp) with cnt := st.decim.toNat }
  else
    advancePointer { st1 with cnt := st.cnt - 1 }

/-- A stage over its input samples from index `k` on (R154). -/
def stageRun (site : Site) (k : Nat) (st : Stage) : List CSample → Stage
  | [] => st
  | x :: rest => stageRun site (k + 1) (stageStep (k :: site) st x) rest

/-- One stage of one FIR.PROC: `ocount` restarts, then every sample is stepped (R154). -/
def stageProc (site : Site) (st : Stage) (xs : List CSample) : Stage := stageRun site 0 { st with ocount := 0 } xs

/-- What a stage hands on: `obuf[0..ocount-1]` (R154, R28). -/
def stageOutput (st : Stage) : List CSample := st.obuf.take st.ocount

/-- The cascade from stage `i` on: the stages after it and the samples of the last one (R150, R154). -/
def cascade (site : Site) (i : Nat) : List Stage → List CSample → List Stage × List CSample
  | [], xs => ([], xs)
  | st :: rest, xs =>
    let st' := stageProc (i :: site) st xs
    let r := cascade site (i + 1) rest (stageOutput st')
    (st' :: r.1, r.2)

/-- The preconditions of FIR.PROC, in order (R155, D11). -/
def firProcError (f : Fir) (count outCap : Nat) : Option Raised :=
  if f.maxInput.toNat < count then some (raisedAs .bufferTooSmall 1)
  else if outCap < ceilDiv count (totalDecimation f.stages) then some (raisedAs .bufferTooSmall 2)
  else none

/-- FIR.PROC (R154). -/
def execFirProc (outCap : BitVec 32) (samples : List CSample) (s : State) : Reaction :=
  match firNotReady s with
  | some r => raise s r
  | none =>
    match firProcError s.fir samples.length outCap.toNat with
    | some r => raise s r
    | none =>
      let r := cascade [s.draws] 0 s.fir.stages samples
      done { s with fir := { s.fir with stages := r.1 } } (countWord r.2.length :: r.2.flatMap complexWords)

end Sys2Proof.Machine
end

