-- ==== Sys2Proof/Machine/Kv.lean ====
section
/-!
DEFINITION. The KV unit: the key-value list (46_device_kvlist.md section 2).
-/

namespace Sys2Proof.Machine

/-- KV.CLEAR (R317). -/
def execKvClear (s : State) : Reaction := done { s with kv := [] } []

/-- KV.APPEND (R318). -/
def execKvAppend (key value : Text) (s : State) : Reaction :=
  if s.params.kvMax ≤ s.kv.length then raise s (raisedAs .allocationError 0x50)
  else done { s with kv := s.kv ++ [⟨key, value⟩] } []

/-- KV.GET (R319): copies of the pair's strings. -/
def execKvGet (index : BitVec 24) (s : State) : Reaction :=
  match s.kv[index.toNat]? with
  | none => raise s (raisedAs .invalidRange 4)
  | some p => done s (pairWords p)

/-- KV.COUNT (R320). -/
def execKvCount (s : State) : Reaction := done s [countWord s.kv.length]

end Sys2Proof.Machine
end

