-- ==== Sys2Proof/Machine/Sc.lean ====
section
/-!
DEFINITION. The SC unit: the fixed-point sample codec (40_sample_codec.md). It has no state (R22) and no error (R140).
-/

namespace Sys2Proof.Machine

/-- One lane of SC.TOFLOAT: the `s16` scaled by 1/2048 (R141). -/
def toFloatLane (site : Site) (v : BitVec 16) : F32 := f32Mul site (f32OfInt v.toInt) Config.scScaleInv

/-- `conv_s16(p)`: truncation toward zero when `p` is finite and strictly between -32769 and 32768, else a draw
(R142, D14, log 12). Those bounds say that the truncated value fits `s16`. -/
def convS16 (site : Site) (p : F32) : BitVec 16 :=
  if f32IsFinite p ∧ -32768 ≤ f32Trunc p ∧ f32Trunc p ≤ 32767 then BitVec.ofInt 16 (f32Trunc p)
  else Config.toRawOutOfRange site

/-- One lane of SC.TORAW (R142). -/
def toRawLane (site : Site) (v : F32) : BitVec 16 := convS16 site (f32Mul site v Config.scScale)

/-- One sample of SC.TOFLOAT, both lanes alike (R140, R141). -/
def toFloatSample (site : Site) (r : RawSample) : CSample := ⟨toFloatLane (0 :: site) r.i, toFloatLane (1 :: site) r.q⟩

/-- One sample of SC.TORAW, both lanes alike (R140, R142). -/
def toRawSample (site : Site) (c : CSample) : RawSample := ⟨toRawLane (0 :: site) c.re, toRawLane (1 :: site) c.im⟩

/-- SC.TOFLOAT (R141). -/
def execScTofloat (raw : List RawSample) (s : State) : Reaction :=
  done s ((raw.mapIdx fun k r => toFloatSample [k, s.draws] r).flatMap complexWords)

/-- SC.TORAW (R142). -/
def execScToraw (samples : List CSample) (s : State) : Reaction :=
  done s ((samples.mapIdx fun k c => toRawSample [k, s.draws] c).map rawWord)

end Sys2Proof.Machine
end

