-- ==== Sys2Proof/Machine/Thr.lean ====
section
/-!
DEFINITION. The THR unit: the threshold detector (44_sm_decode.md section 1).
-/

namespace Sys2Proof.Machine

/-- THR.SET: any pattern is accepted (R241). -/
def execThrSet (thr : F32) (s : State) : Reaction := done { s with thr := thr } []

/-- The squared magnitude of a sample (R240). -/
def squaredMagnitude (site : Site) (c : CSample) : F32 :=
  f32Add (2 :: site) (f32Mul (0 :: site) c.re c.re) (f32Mul (1 :: site) c.im c.im)

/-- The squared threshold (R240). -/
def squaredThreshold (site : Site) (thr : F32) : F32 := f32Mul site thr thr

/-- The detector's bit: strictly greater, false for a NaN (R240). -/
def detect (site : Site) (t : F32) (c : CSample) : Bool := f32Gt (squaredMagnitude site c) t

/-- THR.PROC (R240). -/
def execThrProc (samples : List CSample) (s : State) : Reaction :=
  done s (packBits (samples.mapIdx fun k c => detect [k, s.draws] (squaredThreshold [s.draws] s.thr) c))

end Sys2Proof.Machine
end

