-- ==== Sys2Proof/Syntax.lean ====
section
/-!
DEFINITION. The command set: one constructor per row of the opcode map (R128), its fields the operands of the
command's layout (R106 to R118). Counts that only say how long a list is (`n`, `count`, `npairs`, `nb`, `S_req`,
`T_req`) are the lengths of the lists.
-/

namespace Sys2Proof

/-- The 31 commands of R128. -/
inductive Instr where
  /-- SC.TOFLOAT (R106, R141). -/
  | scTofloat (raw : List RawSample)
  /-- SC.TORAW (R106, R142). -/
  | scToraw (samples : List CSample)
  /-- FIR.INIT (R107, R151): `S_req` is the number of stage descriptors. -/
  | firInit (maxInput : BitVec 32) (stages : List StageSpec)
  /-- FIR.RESET (R108, R152). -/
  | firReset
  /-- FIR.TOTDEC (R108, R153). -/
  | firTotdec
  /-- FIR.PROC (R108, R154): `count` is the number of samples. -/
  | firProc (outCap : BitVec 32) (samples : List CSample)
  /-- FIR.DEINIT (R108, R166). -/
  | firDeinit
  /-- BFC.INIT (R109, R180). -/
  | bfcInit (tsMode : BitVec 3) (nf : BitVec 16) (recordBits : BitVec 16)
  /-- BFC.ADDF (R110, R181): `format` and `endianness` are the raw codes, legal or not. -/
  | bfcAddf (name : Text) (startBit endBit : BitVec 16) (format : BitVec 3) (endianness : BitVec 2) (enumCount : BitVec 16) (scaling offset : F64)
  /-- BFC.ADDE (R111, R184). -/
  | bfcAdde (fieldName symbol : Text) (value : BitVec 64)
  /-- BFC.SETDEF (R111, R186). -/
  | bfcSetdef (fieldName defaultStr : Text)
  /-- BFC.DEC (R112, R210): the record, bit 0 first. -/
  | bfcDec (record : List Bool)
  /-- BFC.ENC (R112, R220). -/
  | bfcEnc (pairs : List Pair) (record : List Bool)
  /-- BFC.DEFDATA (R112, R224). -/
  | bfcDefdata (record : List Bool)
  /-- BFC.DEINIT (R109, R188). -/
  | bfcDeinit
  /-- BSM.INIT (R113, R243). -/
  | bsmInit (ns : BitVec 16) (fs : BitVec 32) (msgBits : BitVec 16) (onVal : F32)
  /-- BSM.SETSTATE (R113, R244): `state` is the state index. -/
  | bsmSetstate (state : BitVec 16) (name : Text) (durationUs timeoutUs : BitVec 32)
  /-- BSM.ADDTRIG (R114, R245): the trigger descriptor, its codes as given, legal or not. -/
  | bsmAddtrig (state : BitVec 16) (cond : BitVec 3) (action : BitVec 3) (next : BitVec 16) (durUs : BitVec 32)
  /-- BSM.READY (R115, R247). -/
  | bsmReady
  /-- BSM.PROC (R115, R250). -/
  | bsmProc (samples : List Bool)
  /-- BSM.GEN (R115, R280). -/
  | bsmGen (bits : List Bool)
  /-- BSM.DEINIT (R113, R262). -/
  | bsmDeinit
  /-- BSM.RDACC (R115, R312). -/
  | bsmRdacc
  /-- DEV.PROC (R116, R313). -/
  | devProc (samples : List Bool)
  /-- DEV.GEN (R116, R315). -/
  | devGen (pairs : List Pair)
  /-- KV.CLEAR (R117, R317). -/
  | kvClear
  /-- KV.APPEND (R117, R318). -/
  | kvAppend (key value : Text)
  /-- KV.GET (R117, R319): all 24 bits of ARG are the index. -/
  | kvGet (index : BitVec 24)
  /-- KV.COUNT (R117, R320). -/
  | kvCount
  /-- THR.SET (R118, R241). -/
  | thrSet (thr : F32)
  /-- THR.PROC (R118, R240). -/
  | thrProc (samples : List CSample)
  deriving DecidableEq, Repr

end Sys2Proof
end

