-- ==== Sys2Proof/Machine/Dispatch.lean ====
section
/-! DEFINITION. One arm per command, each a direct call of its meaning. -/

namespace Sys2Proof.Machine

def exec (i : Instr) (s : State) : Host.Outcome State Fault Refusal :=
  match i with
  | .scTofloat raw => Sys2Proof.Machine.execScTofloat raw s
  | .scToraw samples => Sys2Proof.Machine.execScToraw samples s
  | .firInit maxInput stages => Sys2Proof.Machine.execFirInit maxInput stages s
  | .firReset => Sys2Proof.Machine.execFirReset s
  | .firTotdec => Sys2Proof.Machine.execFirTotdec s
  | .firProc outCap samples => Sys2Proof.Machine.execFirProc outCap samples s
  | .firDeinit => Sys2Proof.Machine.execFirDeinit s
  | .bfcInit tsMode nf recordBits => Sys2Proof.Machine.execBfcInit tsMode nf recordBits s
  | .bfcAddf name startBit endBit format endianness enumCount scaling offset => Sys2Proof.Machine.execBfcAddf name startBit endBit format endianness enumCount scaling offset s
  | .bfcAdde fieldName symbol value => Sys2Proof.Machine.execBfcAdde fieldName symbol value s
  | .bfcSetdef fieldName defaultStr => Sys2Proof.Machine.execBfcSetdef fieldName defaultStr s
  | .bfcDec record => Sys2Proof.Machine.execBfcDec record s
  | .bfcEnc pairs record => Sys2Proof.Machine.execBfcEnc pairs record s
  | .bfcDefdata record => Sys2Proof.Machine.execBfcDefdata record s
  | .bfcDeinit => Sys2Proof.Machine.execBfcDeinit s
  | .bsmInit ns fs msgBits onVal => Sys2Proof.Machine.execBsmInit ns fs msgBits onVal s
  | .bsmSetstate state name durationUs timeoutUs => Sys2Proof.Machine.execBsmSetstate state name durationUs timeoutUs s
  | .bsmAddtrig state cond action next durUs => Sys2Proof.Machine.execBsmAddtrig state cond action next durUs s
  | .bsmReady => Sys2Proof.Machine.execBsmReady s
  | .bsmProc samples => Sys2Proof.Machine.execBsmProc samples s
  | .bsmGen bits => Sys2Proof.Machine.execBsmGen bits s
  | .bsmDeinit => Sys2Proof.Machine.execBsmDeinit s
  | .bsmRdacc => Sys2Proof.Machine.execBsmRdacc s
  | .devProc samples => Sys2Proof.Machine.execDevProc samples s
  | .devGen pairs => Sys2Proof.Machine.execDevGen pairs s
  | .kvClear => Sys2Proof.Machine.execKvClear s
  | .kvAppend key value => Sys2Proof.Machine.execKvAppend key value s
  | .kvGet index => Sys2Proof.Machine.execKvGet index s
  | .kvCount => Sys2Proof.Machine.execKvCount s
  | .thrSet thr => Sys2Proof.Machine.execThrSet thr s
  | .thrProc samples => Sys2Proof.Machine.execThrProc samples s

end Sys2Proof.Machine
end

