-- ==== Sys2Proof/WellFormed.lean ====
section
/-!
DEFINITION. When a command's operands can be sent: every count fits its word, every string keeps its limit (R104), and
a record operand has the configured width (R112, R127). Field widths are held by the types.
-/

namespace Sys2Proof

/-- What framing a command depends on besides its own words: the string limits of R104 and the configured
`record_bits` (R127). -/
structure Frame where
  nameMax : Nat
  strMax : Nat
  recordBits : Nat
  deriving DecidableEq, Repr

/-- The frame of the default parameters with no record configured. -/
def Frame.default : Frame := ⟨Params.default.nameMax, Params.default.strMax, 0⟩

/-- A count that fits its `u32` word. -/
def countFits (n : Nat) : Bool := decide (n < 2 ^ 32)

/-- A string of at most `limit` bytes whose length fits its word (R104). -/
def textFits (limit : Nat) (t : Text) : Bool := decide (t.length ≤ limit) && countFits t.length

/-- A pair of strings, each within STR_MAX (R104). -/
def pairFits (limit : Nat) (p : Pair) : Bool := textFits limit p.key && textFits limit p.value

/-- The operands of `i` can be sent under frame `fr`. -/
def WellFormed (fr : Frame) (i : Instr) : Bool :=
  match i with
  | .scTofloat raw => countFits raw.length
  | .scToraw samples => countFits samples.length
  | .firInit _ stages => decide (stages.length < 2 ^ 16) && stages.all fun st => countFits st.taps.length
  | .firReset => true
  | .firTotdec => true
  | .firProc _ samples => countFits samples.length
  | .firDeinit => true
  | .bfcInit _ _ _ => true
  | .bfcAddf name _ _ _ _ _ _ _ => textFits fr.nameMax name
  | .bfcAdde fieldName symbol _ => textFits fr.nameMax fieldName && textFits fr.nameMax symbol
  | .bfcSetdef fieldName defaultStr => textFits fr.nameMax fieldName && textFits fr.strMax defaultStr
  | .bfcDec record => decide (record.length = fr.recordBits)
  | .bfcEnc pairs record => countFits pairs.length && pairs.all (pairFits fr.strMax) && decide (record.length = fr.recordBits)
  | .bfcDefdata record => decide (record.length = fr.recordBits)
  | .bfcDeinit => true
  | .bsmInit _ _ _ _ => true
  | .bsmSetstate _ name _ _ => textFits fr.nameMax name
  | .bsmAddtrig _ _ _ _ _ => true
  | .bsmReady => true
  | .bsmProc samples => countFits samples.length
  | .bsmGen bits => countFits bits.length
  | .bsmDeinit => true
  | .bsmRdacc => true
  | .devProc samples => countFits samples.length
  | .devGen pairs => countFits pairs.length && pairs.all (pairFits fr.strMax)
  | .kvClear => true
  | .kvAppend key value => textFits fr.strMax key && textFits fr.strMax value
  | .kvGet _ => true
  | .kvCount => true
  | .thrSet _ => true
  | .thrProc samples => countFits samples.length

end Sys2Proof
end

