-- ==== Sys2Proof/Decode.lean ====
section
/-!
DEFINITION. The opcode map (R101, R102, R128), the decoder from the words the host has sent to a command, and the
encoder beside it. The decoder is total: it answers a command, or says by name why there is none: no word yet, words
still missing, an unknown opcode (R126 a), or the malformed form of a known one (R126 b, C11).
-/

namespace Sys2Proof

open Machine

/-- The rows of the opcode map (R128). -/
inductive Opcode where
  | scTofloat | scToraw
  | firInit | firReset | firTotdec | firProc | firDeinit
  | bfcInit | bfcAddf | bfcAdde | bfcSetdef | bfcDec | bfcEnc | bfcDefdata | bfcDeinit
  | bsmInit | bsmSetstate | bsmAddtrig | bsmReady | bsmProc | bsmGen | bsmDeinit | bsmRdacc
  | devProc | devGen
  | kvClear | kvAppend | kvGet | kvCount
  | thrSet | thrProc
  deriving DecidableEq, Repr

/-- The OPC byte of a row (R128): UNIT in the high nibble, OP in the low one (R101). -/
def opcByte (op : Opcode) : BitVec 8 :=
  match op with
  | .scTofloat => 0x00
  | .scToraw => 0x01
  | .firInit => 0x10
  | .firReset => 0x11
  | .firTotdec => 0x12
  | .firProc => 0x13
  | .firDeinit => 0x14
  | .bfcInit => 0x20
  | .bfcAddf => 0x21
  | .bfcAdde => 0x22
  | .bfcSetdef => 0x23
  | .bfcDec => 0x24
  | .bfcEnc => 0x25
  | .bfcDefdata => 0x26
  | .bfcDeinit => 0x27
  | .bsmInit => 0x30
  | .bsmSetstate => 0x31
  | .bsmAddtrig => 0x32
  | .bsmReady => 0x33
  | .bsmProc => 0x34
  | .bsmGen => 0x35
  | .bsmDeinit => 0x36
  | .bsmRdacc => 0x37
  | .devProc => 0x40
  | .devGen => 0x41
  | .kvClear => 0x50
  | .kvAppend => 0x51
  | .kvGet => 0x52
  | .kvCount => 0x53
  | .thrSet => 0x60
  | .thrProc => 0x61

/-- The row an OPC byte selects; every byte not in the map selects none (R128). -/
def opcodeOfByte (b : BitVec 8) : Option Opcode :=
  match b.toNat with
  | 0x00 => some .scTofloat
  | 0x01 => some .scToraw
  | 0x10 => some .firInit
  | 0x11 => some .firReset
  | 0x12 => some .firTotdec
  | 0x13 => some .firProc
  | 0x14 => some .firDeinit
  | 0x20 => some .bfcInit
  | 0x21 => some .bfcAddf
  | 0x22 => some .bfcAdde
  | 0x23 => some .bfcSetdef
  | 0x24 => some .bfcDec
  | 0x25 => some .bfcEnc
  | 0x26 => some .bfcDefdata
  | 0x27 => some .bfcDeinit
  | 0x30 => some .bsmInit
  | 0x31 => some .bsmSetstate
  | 0x32 => some .bsmAddtrig
  | 0x33 => some .bsmReady
  | 0x34 => some .bsmProc
  | 0x35 => some .bsmGen
  | 0x36 => some .bsmDeinit
  | 0x37 => some .bsmRdacc
  | 0x40 => some .devProc
  | 0x41 => some .devGen
  | 0x50 => some .kvClear
  | 0x51 => some .kvAppend
  | 0x52 => some .kvGet
  | 0x53 => some .kvCount
  | 0x60 => some .thrSet
  | 0x61 => some .thrProc
  | _ => none

/-- The ARG bits a row lets the host set: none in format N, 16 in formats C and the state-index commands, 19 in
format B, all 24 in KV.GET (R102, R126 b, the mask column of R128). -/
def argMask (op : Opcode) : BitVec 24 :=
  match op with
  | .firInit | .bsmInit | .bsmSetstate | .bsmAddtrig => 0x00FFFF
  | .bfcInit => 0x07FFFF
  | .kvGet => 0xFFFFFF
  | _ => 0

/-- OPC of a command word: bits 31:24 (R101). -/
def headerOpc (cw : Word) : BitVec 8 := (cw >>> 24).setWidth 8

/-- ARG of a command word: bits 23:0 (R101). -/
def headerArg (cw : Word) : BitVec 24 := cw.setWidth 24

/-- No ARG bit outside the row's mask is set. -/
def argLegal (op : Opcode) (arg : BitVec 24) : Bool := decide (arg &&& ~~~(argMask op) = 0)

/-- The payload of a row, framed by its layout (R106 to R118, R127). DESIGN CHOICE (log 25): a FIR.INIT whose ARG has a
reserved bit 23:16 set, which R107 leaves without a count to frame by, frames as many stage descriptors as ARG[15:0] says
before it is judged malformed (R126 b). Unsafe for the words after such a command. -/
def readPayload (fr : Frame) (op : Opcode) (arg : BitVec 24) : Reader Instr :=
  match op with
  | .scTofloat => readBind readWord fun n => readMap .scTofloat (readRaws n.toNat)
  | .scToraw => readBind readWord fun n => readMap .scToraw (readComplexes n.toNat)
  | .firInit => readBind readWord fun m => readMap (.firInit m) (readStages (arg.setWidth 16).toNat)
  | .firReset => readPure .firReset
  | .firTotdec => readPure .firTotdec
  | .firProc => readBind readWord fun n => readBind readWord fun cap => readMap (.firProc cap) (readComplexes n.toNat)
  | .firDeinit => readPure .firDeinit
  | .bfcInit => readMap (.bfcInit ((arg >>> 16).setWidth 3) (arg.setWidth 16)) (readNarrow 16)
  | .bfcAddf =>
    readBind (readText fr.nameMax) fun name =>
    readBind readWord fun fw0 =>
    readBind readWord fun fw1 =>
    readBind readWide fun scaling =>
    readBind readWide fun offset =>
    readCheck (decide (fw1 &&& 0x0000FFC8#32 = 0)) <|
    readPure <| .bfcAddf name (fw0.setWidth 16) ((fw0 >>> 16).setWidth 16) (fw1.setWidth 3) ((fw1 >>> 4).setWidth 2)
      ((fw1 >>> 16).setWidth 16) scaling offset
  | .bfcAdde =>
    readBind (readText fr.nameMax) fun fieldName =>
    readBind (readText fr.nameMax) fun symbol => readMap (.bfcAdde fieldName symbol) readWide
  | .bfcSetdef => readBind (readText fr.nameMax) fun fieldName => readMap (.bfcSetdef fieldName) (readText fr.strMax)
  | .bfcDec => readMap .bfcDec (readBits fr.recordBits)
  | .bfcEnc =>
    readBind readWord fun n =>
    readBind (readPairs fr.strMax n.toNat) fun pairs => readMap (.bfcEnc pairs) (readBits fr.recordBits)
  | .bfcDefdata => readMap .bfcDefdata (readBits fr.recordBits)
  | .bfcDeinit => readPure .bfcDeinit
  | .bsmInit =>
    readBind readWord fun fs =>
    readBind (readNarrow 16) fun msgBits => readMap (.bsmInit (arg.setWidth 16) fs msgBits) readWord
  | .bsmSetstate =>
    readBind (readText fr.nameMax) fun name =>
    readBind readWord fun durationUs => readMap (.bsmSetstate (arg.setWidth 16) name durationUs) readWord
  | .bsmAddtrig =>
    readBind readWord fun tw0 =>
    readBind readWord fun durUs =>
    readCheck (decide (tw0 &&& 0x0000FF88#32 = 0)) <|
    readPure <| .bsmAddtrig (arg.setWidth 16) (tw0.setWidth 3) ((tw0 >>> 4).setWidth 3) ((tw0 >>> 16).setWidth 16) durUs
  | .bsmReady => readPure .bsmReady
  | .bsmProc => readBind readWord fun n => readMap .bsmProc (readBits n.toNat)
  | .bsmGen => readBind readWord fun n => readMap .bsmGen (readBits n.toNat)
  | .bsmDeinit => readPure .bsmDeinit
  | .bsmRdacc => readPure .bsmRdacc
  | .devProc => readBind readWord fun n => readMap .devProc (readBits n.toNat)
  | .devGen => readBind readWord fun n => readMap .devGen (readPairs fr.strMax n.toNat)
  | .kvClear => readPure .kvClear
  | .kvAppend => readBind (readText fr.strMax) fun key => readMap (.kvAppend key) (readText fr.strMax)
  | .kvGet => readPure (.kvGet arg)
  | .kvCount => readPure .kvCount
  | .thrSet => readMap .thrSet readWord
  | .thrProc => readBind readWord fun n => readMap .thrProc (readComplexes n.toNat)

/-- What the decoder finds at the front of the words the host has sent. -/
inductive Decoded where
  /-- A well-formed command and the words after it. -/
  | command (i : Instr) (rest : List Word)
  /-- No command word has arrived. -/
  | idle
  /-- The command word selects a row whose payload has not all arrived. -/
  | incomplete (op : Opcode)
  /-- The OPC byte is in no row: nothing but the command word is consumed (R126 a). -/
  | unknown (opc : BitVec 8) (rest : List Word)
  /-- A known row whose word or payload breaks its layout: the payload is consumed (R126 b). -/
  | malformed (op : Opcode) (rest : List Word)
  deriving DecidableEq, Repr

/-- The decoder (R128, R126, C11): OPC selects the row, the row frames the payload, then the layout rules are judged. -/
def decode (fr : Frame) (ws : List Word) : Decoded :=
  match ws with
  | [] => .idle
  | cw :: payload =>
    match opcodeOfByte (headerOpc cw) with
    | none => .unknown (headerOpc cw) payload
    | some op =>
      match readPayload fr op (headerArg cw) payload with
      | none => .incomplete op
      | some r => if r.ok && argLegal op (headerArg cw) then .command r.value r.rest else .malformed op r.rest

/-! ## The encoder -/

/-- The row of a command. -/
def opcodeOf (i : Instr) : Opcode :=
  match i with
  | .scTofloat _ => .scTofloat
  | .scToraw _ => .scToraw
  | .firInit _ _ => .firInit
  | .firReset => .firReset
  | .firTotdec => .firTotdec
  | .firProc _ _ => .firProc
  | .firDeinit => .firDeinit
  | .bfcInit _ _ _ => .bfcInit
  | .bfcAddf _ _ _ _ _ _ _ _ => .bfcAddf
  | .bfcAdde _ _ _ => .bfcAdde
  | .bfcSetdef _ _ => .bfcSetdef
  | .bfcDec _ => .bfcDec
  | .bfcEnc _ _ => .bfcEnc
  | .bfcDefdata _ => .bfcDefdata
  | .bfcDeinit => .bfcDeinit
  | .bsmInit _ _ _ _ => .bsmInit
  | .bsmSetstate _ _ _ _ => .bsmSetstate
  | .bsmAddtrig _ _ _ _ _ => .bsmAddtrig
  | .bsmReady => .bsmReady
  | .bsmProc _ => .bsmProc
  | .bsmGen _ => .bsmGen
  | .bsmDeinit => .bsmDeinit
  | .bsmRdacc => .bsmRdacc
  | .devProc _ => .devProc
  | .devGen _ => .devGen
  | .kvClear => .kvClear
  | .kvAppend _ _ => .kvAppend
  | .kvGet _ => .kvGet
  | .kvCount => .kvCount
  | .thrSet _ => .thrSet
  | .thrProc _ => .thrProc

/-- ARG of a command (R102): the immediate operand, 0 where the row has none. -/
def argOf (i : Instr) : BitVec 24 :=
  match i with
  | .firInit _ stages => BitVec.ofNat 24 stages.length
  | .bfcInit tsMode nf _ => 0#5 ++ tsMode ++ nf
  | .bsmInit ns _ _ _ => ns.setWidth 24
  | .bsmSetstate state _ _ _ => state.setWidth 24
  | .bsmAddtrig state _ _ _ _ => state.setWidth 24
  | .kvGet index => index
  | .scTofloat _ | .scToraw _ | .firReset | .firTotdec | .firProc _ _ | .firDeinit | .bfcAddf _ _ _ _ _ _ _ _
  | .bfcAdde _ _ _ | .bfcSetdef _ _ | .bfcDec _ | .bfcEnc _ _ | .bfcDefdata _ | .bfcDeinit | .bsmReady | .bsmProc _
  | .bsmGen _ | .bsmDeinit | .bsmRdacc | .devProc _ | .devGen _ | .kvClear | .kvAppend _ _ | .kvCount | .thrSet _
  | .thrProc _ => 0

/-- The payload words of a command (R106 to R118). -/
def payloadOf (i : Instr) : List Word :=
  match i with
  | .scTofloat raw => countWord raw.length :: raw.map rawWord
  | .scToraw samples => countWord samples.length :: samples.flatMap complexWords
  | .firInit maxInput stages => maxInput :: stages.flatMap stageWords
  | .firReset => []
  | .firTotdec => []
  | .firProc outCap samples => countWord samples.length :: outCap :: samples.flatMap complexWords
  | .firDeinit => []
  | .bfcInit _ _ recordBits => [recordBits.setWidth 32]
  | .bfcAddf name startBit endBit format endianness enumCount scaling offset =>
    textWords name ++ [fieldWord0 startBit endBit, fieldWord1 format endianness enumCount] ++ wideWords scaling ++ wideWords offset
  | .bfcAdde fieldName symbol value => textWords fieldName ++ textWords symbol ++ wideWords value
  | .bfcSetdef fieldName defaultStr => textWords fieldName ++ textWords defaultStr
  | .bfcDec record => packBits record
  | .bfcEnc pairs record => countWord pairs.length :: pairs.flatMap pairWords ++ packBits record
  | .bfcDefdata record => packBits record
  | .bfcDeinit => []
  | .bsmInit _ fs msgBits onVal => [fs, msgBits.setWidth 32, onVal]
  | .bsmSetstate _ name durationUs timeoutUs => textWords name ++ [durationUs, timeoutUs]
  | .bsmAddtrig _ cond action next durUs => [triggerWord0 cond action next, durUs]
  | .bsmReady => []
  | .bsmProc samples => countWord samples.length :: packBits samples
  | .bsmGen bits => countWord bits.length :: packBits bits
  | .bsmDeinit => []
  | .bsmRdacc => []
  | .devProc samples => countWord samples.length :: packBits samples
  | .devGen pairs => countWord pairs.length :: pairs.flatMap pairWords
  | .kvClear => []
  | .kvAppend key value => textWords key ++ textWords value
  | .kvGet _ => []
  | .kvCount => []
  | .thrSet thr => [thr]
  | .thrProc samples => countWord samples.length :: samples.flatMap complexWords

/-- The command word of a command (R101). -/
def headerOf (i : Instr) : Word := opcByte (opcodeOf i) ++ argOf i

/-- The words of a command: the command word, then the payload (R100). -/
def encode (i : Instr) : List Word := headerOf i :: payloadOf i

/-! ## The opcode table's words -/

/-- How many payload words the row frames when every one of them is 0. -/
def zeroPayload (fr : Frame) (op : Opcode) (arg : BitVec 24) : Nat :=
  match op with
  | .scTofloat | .scToraw | .bfcInit | .bsmProc | .bsmGen | .devProc | .devGen | .thrSet | .thrProc => 1
  | .firInit => 1 + 2 * (arg.setWidth 16).toNat
  | .firProc | .bsmAddtrig | .bfcSetdef | .kvAppend => 2
  | .bfcAddf => 7
  | .bfcAdde => 4
  | .bfcDec | .bfcDefdata => (fr.recordBits + 31) / 32
  | .bfcEnc => 1 + (fr.recordBits + 31) / 32
  | .bsmInit | .bsmSetstate => 3
  | .firReset | .firTotdec | .firDeinit | .bfcDeinit | .bsmReady | .bsmDeinit | .bsmRdacc | .kvClear | .kvGet | .kvCount => 0

/-- The words whose bits are `w`, numbered as spec/opcode_table.json numbers them: bit 0 the least significant bit of
the first word; at least the command word. -/
def tableWords (nbits w : Nat) : List Word :=
  (List.range (max 1 ((nbits + 31) / 32))).map fun k => BitVec.ofNat 32 ((w % 2 ^ nbits) >>> (32 * k))

/-- Those words with the zero words the command they select still frames (none for an unknown opcode). -/
def tableCommand (fr : Frame) (nbits w : Nat) : List Word :=
  let ws := tableWords nbits w
  let cw := ws.headD 0
  match opcodeOfByte (headerOpc cw) with
  | none => ws
  | some op => ws ++ List.replicate (1 + zeroPayload fr op (headerArg cw) - ws.length) 0

/-- The command the decoder reads from an opcode-table word whose further bits are 0, under the default limits and
with no record configured (log 17). -/
def decodeTableWord (nbits w : Nat) : Option Instr :=
  match decode Frame.default (tableCommand Frame.default nbits w) with
  | .command i _ => some i
  | _ => none

end Sys2Proof
end

