-- ==== Sys2Proof/Machine/Fetch.lean ====
section
/-!
DEFINITION. Taking a command off the words the host has sent (R100, R127, R342): an unknown opcode before everything,
the unit's readiness before any payload is consumed, the layout rules before every operand check.
-/

namespace Sys2Proof.Machine

/-- What framing depends on: the string limits, a name keeping both of them, and the configured `record_bits` (R104,
R127). -/
def State.frame (s : State) : Frame := ⟨min s.params.nameMax s.params.strMax, s.params.strMax, s.bfc.recordBits.toNat⟩

/-- Why a row is refused before its payload is looked at (R343, R246, R310). SC, THR, KV, every INIT, every DEINIT and
BSM.READY need no constructed unit. -/
def commandNotReady (op : Opcode) (s : State) : Option Raised :=
  match op with
  | .firReset | .firTotdec | .firProc => firNotReady s
  | .bfcAddf | .bfcAdde | .bfcSetdef | .bfcDec | .bfcEnc | .bfcDefdata => bfcNotReady s
  | .bsmSetstate | .bsmAddtrig | .bsmRdacc => bsmNotReady s
  | .bsmProc | .bsmGen => bsmNotRunnable s
  | .devProc | .devGen => devNotReady s
  | .scTofloat | .scToraw | .firInit | .firDeinit | .bfcInit | .bfcDeinit | .bsmInit | .bsmReady | .bsmDeinit | .kvClear
  | .kvAppend | .kvGet | .kvCount | .thrSet | .thrProc => none

/-- `IllegalCommand(OPC)`: the info word is the OPC byte (R126, R332). -/
def illegalCommand (opc : BitVec 8) : Raised := ⟨.illegalCommand, opc.setWidth 32⟩

/-- What the CORE finds when it looks for its next command. -/
inductive Fetched where
  /-- The words of the next command have not all arrived (log 2). -/
  | wait
  /-- A command refused before it runs, and the words after what it consumed. -/
  | rejected (r : Raised) (rest : List Word)
  /-- A command to run, and the words after it. -/
  | ready (i : Instr) (rest : List Word)
  deriving DecidableEq, Repr

/-- The next command: unknown opcode, then `NotReady` with only the command word consumed, then the layout (R342). -/
def State.fetch (s : State) : Fetched :=
  match s.rx with
  | [] => .wait
  | cw :: payload =>
    match opcodeOfByte (headerOpc cw) with
    | none => .rejected (illegalCommand (headerOpc cw)) payload
    | some op =>
      match commandNotReady op s with
      | some r => .rejected r payload
      | none =>
        match decode s.frame (cw :: payload) with
        | .command i rest => .ready i rest
        | .malformed _ rest => .rejected (illegalCommand (headerOpc cw)) rest
        | .idle | .incomplete _ | .unknown _ _ => .wait

/-- The words consumed: the host's words left to read. -/
def State.consume (s : State) (rest : List Word) : State := { s with rx := rest }

/-- The words that make the next step run the opcode-table word `w`: the command with a payload of zeros, or the
command word alone when the row would be refused before its payload (log 17). -/
def fetchWords (s : State) (nbits w : Nat) : List Word :=
  let ws := tableWords nbits w
  match opcodeOfByte (headerOpc (ws.headD 0)) with
  | none => ws
  | some op => if (commandNotReady op s).isSome then ws else tableCommand s.frame nbits w

end Sys2Proof.Machine
end

