-- ==== Sys2Proof/Machine/Step.lean ====
section
/-!
DEFINITION. One step: the CORE takes one whole command off the words the host has sent and runs it, answers a refused
one, or waits (R81, R100, R342, log 2).
-/

namespace Sys2Proof.Machine

/-- One step of the CORE. -/
def step (s : State) : Host.Outcome State Fault Refusal :=
  match s.fetch with
  | .wait => .next s
  | .rejected r rest => raise (s.consume rest) r
  | .ready i rest => exec i (s.consume rest)

/-- `s` with the opcode-table word `w` as the next command the host sent (log 17, log 18). -/
def State.withFetchWord (s : State) (nbits w : Nat) : State := { s with rx := fetchWords s nbits w }

end Sys2Proof.Machine
end

