-- ==== Sys2Proof/Safety.lean ====
section
/-!
DEFINITION. The terms statements about the CORE use: how a command ends (R330, R131), which unit owns a command (R361),
the invariants the rules promise of a constructed unit, the filter as a plain convolution of its input (R29, R157,
R159), and a generate walk without a bound on its passes (R280, R294).
-/

namespace Sys2Proof.Machine

/-! ## How a command ends -/

/-- `s` after a command that completed with these result words (R330, R131). -/
def State.completedWith (s : State) (results : List Word) : State :=
  { s with status := 0, info := 0, reply := 0#32 :: results, draws := s.draws + 1 }

/-- `s` after a command that failed with this status code and info word (R330, R131). -/
def State.failedWith (s : State) (code : BitVec 8) (info : BitVec 32) : State :=
  { s with status := code, info := info, reply := [info.setWidth 24 ++ code], draws := s.draws + 1 }

/-! ## Units -/

/-- The units of the CORE (R20, R101). -/
inductive UnitName where
  | sc | fir | bfc | bsm | dev | kv | thr
  deriving DecidableEq, Repr

/-- The unit a command is addressed to (R128). -/
def unitOf (i : Instr) : UnitName :=
  match i with
  | .scTofloat _ | .scToraw _ => .sc
  | .firInit _ _ | .firReset | .firTotdec | .firProc _ _ | .firDeinit => .fir
  | .bfcInit _ _ _ | .bfcAddf _ _ _ _ _ _ _ _ | .bfcAdde _ _ _ | .bfcSetdef _ _ | .bfcDec _ | .bfcEnc _ _ | .bfcDefdata _
  | .bfcDeinit => .bfc
  | .bsmInit _ _ _ _ | .bsmSetstate _ _ _ _ | .bsmAddtrig _ _ _ _ _ | .bsmReady | .bsmProc _ | .bsmGen _ | .bsmDeinit
  | .bsmRdacc => .bsm
  | .devProc _ | .devGen _ => .dev
  | .kvClear | .kvAppend _ _ | .kvGet _ | .kvCount => .kv
  | .thrSet _ | .thrProc _ => .thr

/-- The commands that leave state behind when they fail: the constructors, BFC.ENC, DEV.GEN and DEV.PROC (R344 a). -/
def leavesTraceOnFailure (i : Instr) : Bool :=
  match i with
  | .firInit _ _ | .bfcInit _ _ _ | .bsmInit _ _ _ _ | .bfcEnc _ _ | .devGen _ | .devProc _ => true
  | _ => false

/-! ## Invariants of the FIR (R23 to R28) -/

/-- A stage whose output buffer has `cap` cells. -/
structure Stage.Inv (cap : Nat) (st : Stage) : Prop where
  taps_pos : 0 < st.taps.length
  decim_pos : 0 < st.decim.toNat
  decim_lt : st.decim.toNat < 2 ^ 31
  hist_length : st.hist.length = 2 * st.taps.length
  mirrored : ∀ j < st.taps.length, st.hist.getD j CSample.zero = st.hist.getD (j + st.taps.length) CSample.zero
  wp_lt : st.wp < st.taps.length
  cnt_pos : 0 < st.cnt
  cnt_le : st.cnt ≤ st.decim.toNat
  obuf_length : st.obuf.length = cap
  ocount_le : st.ocount ≤ st.obuf.length

/-- Stages behind earlier ones that decimate by `cumulative`: each buffer is sized by the cumulative decimation (R23,
R28). -/
def StagesInv (maxInput cumulative : Nat) : List Stage → Prop
  | [] => True
  | st :: rest =>
    st.Inv (ceilDiv maxInput (cumulative * st.decim.toNat)) ∧ StagesInv maxInput (cumulative * st.decim.toNat) rest

/-- A constructed filter. -/
structure Fir.Inv (p : Params) (f : Fir) : Prop where
  stages_pos : 0 < f.stages.length
  stages_le : f.stages.length ≤ p.sMax
  stages_inv : StagesInv f.maxInput.toNat 1 f.stages

/-! ## Invariants of the BFC (R31 to R35, R181 to R186) -/

/-- A used field of a record of `recordBits` bits. -/
structure BitField.Inv (recordBits : Nat) (f : BitField) : Prop where
  name_ne : f.name ≠ []
  range : f.startBit.toNat ≤ f.endBit.toNat
  width_le : fieldWidth f ≤ 64
  inside : f.endBit.toNat < recordBits
  default_le : f.default.toNat ≤ fieldMask f
  scaling_ne : fpIsZero f.scaling = false
  enums_le : f.enums.length ≤ f.enumCap.toNat
  symbols_ne : ∀ e ∈ f.enums, e.symbol ≠ []
  symbols_nodup : (f.enums.map EnumEntry.symbol).Nodup

/-- A constructed formatter. -/
structure Bfc.Inv (p : Params) (b : Bfc) : Prop where
  record_pos : 0 < b.recordBits.toNat
  record_le : b.recordBits.toNat ≤ p.recordBitsMax
  slots_pos : 0 < b.slots.length
  slots_le : b.slots.length ≤ p.nfMax
  record_length : b.record.length = 8 * ((b.recordBits.toNat + 7) / 8)
  record_tail : ∀ k, b.recordBits.toNat ≤ k → b.record.getD k false = false
  used_first : b.slots = (usedFields b).map some ++ List.replicate (b.slots.length - (usedFields b).length) none
  fields : ∀ f ∈ usedFields b, f.Inv b.recordBits.toNat
  names_nodup : ((usedFields b).map BitField.name).Nodup

/-! ## Invariants of the BSM (R40 to R50) -/

/-- A constructed state machine. -/
structure Bsm.Inv (p : Params) (b : Bsm) : Prop where
  fs_pos : 0 < b.fs.toNat
  msg_pos : 0 < b.msgBits.toNat
  msg_le : b.msgBits.toNat ≤ p.recordBitsMax
  onVal_finite : f32IsFinite b.onVal = true
  states_le : b.states.length ≤ p.nsMax
  trigs_le : ∀ st ∈ b.states, st.trigs.length ≤ p.ntMax
  cur_lt : b.cur < b.states.length
  bitcnt_le : b.bitcnt ≤ b.msgBits.toNat
  scount_le : b.scount ≤ 2 ^ 64 - 1
  acc_length : b.acc.length = b.msgBits.toNat
  acc_tail : ∀ k, b.bitcnt ≤ k → b.acc.getD k false = false
  pending_at_reset : b.clrPending = true → b.cur = 0

/-! ## The invariant of the machine -/

/-- What holds of the machine after reset and after every step: a constructed unit is well-formed, the list keeps its
capacity, and `STATUS`, `INFO` and the reply agree. -/
structure State.Inv (s : State) : Prop where
  fir : s.fir.valid = true → s.fir.Inv s.params
  bfc : s.bfc.valid = true → s.bfc.Inv s.params
  bsm : s.bsm.valid = true → s.bsm.Inv s.params
  kv_le : s.kv.length ≤ s.params.kvMax
  status_le : s.status.toNat ≤ 13
  info_lt : s.info.toNat < 2 ^ 24
  ok_info : s.status = 0 → s.info = 0
  failed_reply : s.status ≠ 0 → s.reply = [s.info.setWidth 24 ++ s.status]

/-! ## The filter as a convolution of its input (R29, R157, R159) -/

/-- Whether a stage's input number `n`, from 0, makes it emit: its counter reaches zero there. -/
def emitsAt (st : Stage) (n : Nat) : Bool := (n + 1 + st.decim.toNat - st.cnt) % st.decim.toNat == 0

/-- The samples a stage sees at its input number `n`, newest first: the inputs so far, then the delay line. -/
def seenAt (st : Stage) (xs : List CSample) (n : Nat) : List CSample := (xs.take (n + 1)).reverse ++ delayLine st

/-- The output at input number `n`: the sum over `k` of `taps[k] * dl[k]`, lane by lane (R157). -/
def directOutput (site : Site) (st : Stage) (xs : List CSample) (n : Nat) : CSample where
  re := convLane (0 :: n :: site) (st.taps.zip ((seenAt st xs n).map CSample.re))
  im := convLane (1 :: n :: site) (st.taps.zip ((seenAt st xs n).map CSample.im))

/-- All outputs of a stage for the inputs `xs`. -/
def directOutputs (site : Site) (st : Stage) (xs : List CSample) : List CSample :=
  ((List.range xs.length).filter (emitsAt st)).map (directOutput site st xs)

/-- The cascade of the stages from index `i` on (R150). -/
def directCascade (site : Site) (i : Nat) : List Stage → List CSample → List CSample
  | [], xs => xs
  | st :: rest, xs => directCascade site (i + 1) rest (directOutputs (i :: site) st xs)

/-- The counter after `m` inputs (R159). -/
def counterAfter (st : Stage) (m : Nat) : Nat :=
  st.decim.toNat - (m + st.decim.toNat - st.cnt) % st.decim.toNat

/-- Two `f32` patterns are the same, or both are NaNs, whose payloads are draws (R158). -/
def f32Same (a b : F32) : Prop := a = b ∨ (f32IsNaN a = true ∧ f32IsNaN b = true)

/-- The same, lane by lane. -/
def sampleSame (a b : CSample) : Prop := f32Same a.re b.re ∧ f32Same a.im b.im

/-- Two stages with the same configuration, counter, pointer and (up to NaN payloads) history: all that carries to the
next FIR.PROC (R161). -/
structure Stage.Same (a b : Stage) : Prop where
  decim : a.decim = b.decim
  taps : a.taps = b.taps
  wp : a.wp = b.wp
  cnt : a.cnt = b.cnt
  hist : List.Forall₂ sampleSame a.hist b.hist

/-! ## A generate walk (R280, R291, R294) -/

/-- The walk from `w` ends after its DONE pass with these amplitudes; nothing bounds the passes. -/
inductive GenEnds (p : Params) (b : Bsm) : GenWalk → List F32 → Prop where
  | last (w w' : GenWalk) : genPass p b w = .ok w' → w.bits = [] → GenEnds p b w w'.buf
  | more (w w' : GenWalk) (amps : List F32) : genPass p b w = .ok w' → w.bits ≠ [] → GenEnds p b w' amps → GenEnds p b w amps

/-- The walk from `w` reaches a pass that raises this error. -/
inductive GenFails (p : Params) (b : Bsm) : GenWalk → Raised → Prop where
  | here (w : GenWalk) (r : Raised) : genPass p b w = .error r → GenFails p b w r
  | more (w w' : GenWalk) (r : Raised) : genPass p b w = .ok w' → w.bits ≠ [] → GenFails p b w' r → GenFails p b w r

/-- The trigger's condition is possible in the generate direction (R280 `cond_ok`, R284). -/
def GenPossible (w : GenWalk) (t : Trigger) : Prop :=
  t.cond = 0 ∨ (t.cond = 1 ∧ w.level = false) ∨ (t.cond = 2 ∧ w.level = true) ∨ t.cond = 3 ∨ (t.cond = 4 ∧ w.bits = [])

/-- The trigger's action matches the bit about to be emitted, or hands the record over (R280 `act_match`, R283). -/
def GenMatches (w : GenWalk) (t : Trigger) : Prop :=
  (t.action = 1 ∧ w.bits.head? = some false) ∨ (t.action = 2 ∧ w.bits.head? = some true) ∨ t.action = 3

/-- The first of some triggers with a property. -/
def FirstWith (P : Trigger → Prop) (trigs : List Trigger) (t : Trigger) : Prop :=
  ∃ pre post, trigs = pre ++ t :: post ∧ P t ∧ ∀ u ∈ pre, ¬ P u

/-- The trigger a pass selects: the first that matches and is possible; where there is none, the first possible one
(R283, R284). -/
def GenSelects (w : GenWalk) (trigs : List Trigger) (t : Trigger) : Prop :=
  FirstWith (fun u => GenMatches w u ∧ GenPossible w u) trigs t ∨
    ((∀ u ∈ trigs, ¬ (GenMatches w u ∧ GenPossible w u)) ∧ FirstWith (GenPossible w) trigs t)

/-- The level after the trigger's edge (R287). -/
def genLevel (w : GenWalk) (t : Trigger) : Bool := if t.cond = 1 then true else if t.cond = 2 then false else w.level

/-- What taking the trigger emits: the gap at low, then the next state's own duration (R288, R289). -/
def genEmits (p : Params) (b : Bsm) (w : GenWalk) (t : Trigger) : List F32 :=
  let nx := b.states.getD t.next.toNat StateEntry.blank
  let gapUs := if p.genGapMode = .difference then t.durUs.toNat - nx.durationUs.toNat else t.durUs.toNat
  List.replicate (if t.durUs = 0 then 0 else samplesOf b.fs.toNat gapUs) 0 ++
    List.replicate (samplesOf b.fs.toNat nx.durationUs.toNat) (if genLevel w t then b.onVal else 0)

/-- A capacity the generate buffer can reach from `cap`: no doubling, or some that stay within GEN_MAX_SAMPLES (R292). -/
def GenCapacity (p : Params) (cap reached : Nat) : Prop :=
  ∃ k, reached = 2 ^ k * cap ∧ (k = 0 ∨ reached ≤ p.genMaxSamples)

/-! ## The record of an encode (R220, R315) -/

/-- The ranges of two fields share no bit. -/
def BitField.Disjoint (f g : BitField) : Prop := g.endBit.toNat < f.startBit.toNat ∨ f.endBit.toNat < g.startBit.toNat

/-- Every pair names a field and its text parses, for the command that executes with this `draws` (R220). -/
def PairsParse (b : Bfc) (draws : Nat) (pairs : List Pair) : Prop :=
  ∀ p kv, pairs[p]? = some kv → ∃ f v, findField b kv.key = some f ∧ strToRaw [p, draws] f kv.value = .ok v

/-- Bits that hold 0 in every bit of no used field, the default in each used field that no later slot and no pair's field
overlaps, and the parsed pattern in the field of each pair that no later pair's field overlaps (R315, R222, R224). -/
structure SeededRecord (b : Bfc) (draws : Nat) (pairs : List Pair) (bits : List Bool) : Prop where
  uncovered : ∀ k, (∀ f ∈ usedFields b, k < f.startBit.toNat ∨ f.endBit.toNat < k) → bits.getD k false = false
  defaults : ∀ pre f post, usedFields b = pre ++ f :: post → (∀ g ∈ post, f.Disjoint g) →
    (∀ kv ∈ pairs, ∀ g, findField b kv.key = some g → f.Disjoint g) → extractField f bits = f.default.toNat
  named : ∀ p kv f v, pairs[p]? = some kv → findField b kv.key = some f → strToRaw [p, draws] f kv.value = .ok v →
    (∀ q kv' g, p < q → pairs[q]? = some kv' → findField b kv'.key = some g → f.Disjoint g) → extractField f bits = v

/-! ## A message on the device (R313) -/

/-- The keys of one message's pairs: the timestamp's when a mode is set, then the used fields in slot order (R210, R211,
R214). -/
def messageKeys (b : Bfc) : List Text :=
  (if b.tsMode = .none then [] else [Config.tsKey]) ++ (usedFields b).map BitField.name

/-- The pairs of one message whose record is `bits`: a timestamp's when a mode is set, its text free, then each used field's
name and the rendering of its bits (R210, R211, R214). -/
def MessagePairs (p : Params) (b : Bfc) (bits : List Bool) (message : List Pair) : Prop :=
  ∃ stamp pairs : List Pair, message = stamp ++ pairs ∧ stamp.map Pair.key = (if b.tsMode = .none then [] else [Config.tsKey]) ∧
    List.Forall₂ (fun f x => x.key = f.name ∧ ∃ site, x.value = rawToText p site f (extractField f bits)) (usedFields b) pairs

/-- Two pairs that differ in draws only: two timestamps (R214), or one field's renderings of one raw value, which no draw
reaches unless the scaled number is a NaN (R206, log 5). -/
def SamePair (p : Params) (b : Bfc) (x y : Pair) : Prop :=
  (b.tsMode ≠ .none ∧ x.key = Config.tsKey ∧ y.key = Config.tsKey) ∨
    ∃ f ∈ usedFields b, ∃ (raw : Nat) (site₁ site₂ : Site),
      x = ⟨f.name, rawToText p site₁ f raw⟩ ∧ y = ⟨f.name, rawToText p site₂ f raw⟩

/-- The three-state device of R263 and R295: `reset`, `pulse` of 400 us, `gap` with a timeout of 2000 us. -/
def pdmStates : List StateEntry :=
  [ ⟨"reset".toList.map (fun c => BitVec.ofNat 8 c.toNat), 0, 0, [⟨1, 0, 0, 1⟩]⟩,
    ⟨"pulse".toList.map (fun c => BitVec.ofNat 8 c.toNat), 400, 0, [⟨2, 0, 0, 2⟩]⟩,
    ⟨"gap".toList.map (fun c => BitVec.ofNat 8 c.toNat), 0, 2000, [⟨4, 0, 3, 0⟩, ⟨1, 400, 1, 1⟩, ⟨1, 1200, 2, 1⟩, ⟨3, 0, 0, 0⟩]⟩ ]

end Sys2Proof.Machine
end

