-- ==== Sys2Proof/Certificates/Slice0/Obligations.lean ====
section
/-!
DEFINITION. The statements for the provers, in the order of OBLIGATIONS.json: encoding and step, the whole machine, then
the units SC, FIR, BFC, BSM, DEV, KV and THR. A statement of a command's result is an equation of the whole next state, so
it says the command's frame with it.
-/

open Sys2Proof Sys2Proof.Machine

/-! ## Encoding and step -/

/-- R101 to R118, R127: the decoder reads back what the encoder writes and leaves the words after it. -/
def Obligations.DecodeReadsEncode : Prop :=
  ∀ (fr : Frame) (i : Instr) (rest : List Word), WellFormed fr i = true → decode fr (encode i ++ rest) = .command i rest

/-- R126, R128: words that decode to a command are that command's encoding and nothing else. -/
def Obligations.EncodeWritesDecoded : Prop :=
  ∀ (fr : Frame) (ws : List Word) (i : Instr) (rest : List Word), decode fr ws = .command i rest →
    WellFormed fr i = true ∧ ws = encode i ++ rest

/-- R107, R109, R113, R114, R117, R118: words written in the rules decode to the commands they stand for. -/
def Obligations.SpecWordsDecode : Prop :=
  decode Frame.default [0x10000001#32, 0x00000008#32, 0x00000002#32, 0x00000002#32, 0x3F000000#32, 0x3F000000#32] =
      .command (.firInit 8 [⟨2, [0x3F000000#32, 0x3F000000#32]⟩]) [] ∧
    decode Frame.default [0x20010008#32, 0x00000028#32] = .command (.bfcInit 1 8 40) [] ∧
    decode Frame.default [0x30000003#32, 0x00002710#32, 0x00000002#32, 0x3F800000#32] = .command (.bsmInit 3 10000 2 0x3F800000#32) [] ∧
    decode Frame.default [0x32000002#32, 0x00010021#32, 0x000004B0#32] = .command (.bsmAddtrig 2 1 2 1 1200) [] ∧
    decode Frame.default [0x52FFFFFF#32] = .command (.kvGet 0xFFFFFF#24) [] ∧
    decode Frame.default [0x60000000#32, 0x3F000000#32] = .command (.thrSet 0x3F000000#32) []

/-- R81, R100: a step at words that decode to `i` runs `i` with those words consumed; when the row is refused before its
payload (R343) the command fails in the same way with the command word alone consumed. The queue of words `rx` is the
model's choice (log 2). -/
def Obligations.StepRunsTheDecodedCommand : Prop :=
  ∀ (s : State) (i : Instr) (rest : List Word), decode s.frame s.rx = .command i rest →
    step s = exec i { s with rx := if commandNotReady (opcodeOf i) s = none then rest else s.rx.tail }

/-- R126 a, R342: an unknown opcode is IllegalCommand before everything, and consumes the command word alone (what the
words after it then are is the model's choice, log 23). -/
def Obligations.UnknownOpcodeIsIllegal : Prop :=
  ∀ (s : State) (cw : Word) (rest : List Word), s.rx = cw :: rest → (∀ op, headerOpc cw ≠ opcByte op) →
    step s = .next (State.failedWith { s with rx := rest } 13 ((headerOpc cw).setWidth 32))

/-- R126 b, R128, R342: every command of a ready row that breaks a layout rule ends in `IllegalCommand(OPC)` after its
payload is consumed, and nothing else changes; in particular a reserved ARG bit added to any command. How many words a
FIR.INIT with a bit of ARG[23:16] frames is the model's choice (log 25), the queue too (log 2). -/
def Obligations.ReservedArgIsIllegal : Prop :=
  (∀ (s : State) (op : Opcode) (rest : List Word), decode s.frame s.rx = .malformed op rest → commandNotReady op s = none →
    step s = .next (State.failedWith { s with rx := rest } 13 ((opcByte op).setWidth 32))) ∧
  ∀ (s : State) (i : Instr) (bad : BitVec 24) (rest : List Word), WellFormed s.frame i = true →
    commandNotReady (opcodeOf i) s = none → bad ≠ 0 → bad &&& argMask (opcodeOf i) = 0 →
    s.rx = ((opcByte (opcodeOf i) ++ (argOf i ||| bad)) :: payloadOf i) ++ rest →
    step s = .next (State.failedWith { s with rx := rest } 13 ((opcByte (opcodeOf i)).setWidth 32))

/-- R127, R81: while words of a command are missing the step changes nothing (that the step waits is the model's choice,
log 2). -/
def Obligations.PartialCommandWaits : Prop :=
  ∀ (s : State) (i : Instr) (k : Nat), WellFormed s.frame i = true → commandNotReady (opcodeOf i) s = none →
    k < (encode i).length → s.rx = (encode i).take k → step s = .next s

/-- R343, R246, R310: `NotReady` with the unit's cause, the command word alone consumed, no other state changed; and the
three conditions of `dev_ready` (R54). -/
def Obligations.NotReadyBeforePayload : Prop :=
  (∀ s : State, devReady s = true ↔
    s.bfc.valid = true ∧ bsmInitialized s.bsm = true ∧ s.bfc.recordBits = s.bsm.msgBits) ∧
  ∀ (s : State) (cw : Word) (rest : List Word), s.rx = cw :: rest →
    (headerOpc cw ∈ [0x11#8, 0x12#8, 0x13#8] → s.fir.valid = false → step s = .next (State.failedWith { s with rx := rest } 12 1)) ∧
    (headerOpc cw ∈ [0x21#8, 0x22#8, 0x23#8, 0x24#8, 0x25#8, 0x26#8] → s.bfc.valid = false →
      step s = .next (State.failedWith { s with rx := rest } 12 2)) ∧
    (headerOpc cw ∈ [0x31#8, 0x32#8, 0x34#8, 0x35#8, 0x37#8] → s.bsm.valid = false →
      step s = .next (State.failedWith { s with rx := rest } 12 3)) ∧
    (headerOpc cw ∈ [0x34#8, 0x35#8] → s.bsm.valid = true → bsmInitialized s.bsm = false →
      step s = .next (State.failedWith { s with rx := rest } 12 4)) ∧
    (headerOpc cw ∈ [0x40#8, 0x41#8] → devReady s = false → step s = .next (State.failedWith { s with rx := rest } 12 5))

/-! ## The whole machine -/

/-- Every step keeps the invariant: constructed units stay well-formed, the list within KV_MAX, `STATUS`, `INFO` and the
reply in agreement (R23 to R28, R31 to R35, R40 to R50, R53, R330). -/
def Obligations.StepKeepsInvariant : Prop := ∀ s t : State, s.Inv → step s = .next t → t.Inv

/-- The state after reset meets the invariant; reset, and the reset of a running machine, leave what R360 and R56 column a
give: no error, no unit constructed, an empty list. That no sent word survives is the model's choice (log 2), as are the
values log 6 names, of which this says nothing. -/
def Obligations.ResetMeetsInvariant : Prop :=
  State.reset.Inv ∧
  (State.reset.status = 0 ∧ State.reset.info = 0 ∧ State.reset.fir.valid = false ∧ State.reset.bfc.valid = false ∧
    State.reset.bsm.valid = false ∧ State.reset.kv = [] ∧ State.reset.rx = []) ∧
  ∀ s : State, s.hardwareReset.Inv ∧ s.hardwareReset.params = s.params ∧ s.hardwareReset.status = 0 ∧
    s.hardwareReset.info = 0 ∧ s.hardwareReset.fir.valid = false ∧ s.hardwareReset.bfc.valid = false ∧
    s.hardwareReset.bsm.valid = false ∧ s.hardwareReset.kv = [] ∧ s.hardwareReset.rx = []

/-- R361, R322: a command changes its own unit only; DEV.PROC reaches the BSM, the BFC and the list, DEV.GEN the BFC;
THR.SET alone writes `thr`. The parameters, the words sent and the counter of commands are the model's own fields
(log 1, log 2, log 4). -/
def Obligations.CommandsStayInTheirUnit : Prop :=
  ∀ (i : Instr) (s t : State), exec i s = .next t →
    t.params = s.params ∧ t.rx = s.rx ∧ t.draws = s.draws + 1 ∧
    (unitOf i ≠ .fir → t.fir = s.fir) ∧
    ((∀ v, i ≠ .thrSet v) → t.thr = s.thr) ∧
    (unitOf i ≠ .bfc → unitOf i ≠ .dev → t.bfc = s.bfc) ∧
    (unitOf i ≠ .bsm → (∀ xs, i ≠ .devProc xs) → t.bsm = s.bsm) ∧
    (unitOf i ≠ .kv → (∀ xs, i ≠ .devProc xs) → t.kv = s.kv)

/-- R330, R331, R332, R131: every command ends with `STATUS` and `INFO` 0 and a reply that begins with 0, or with a code
1 to 13, an info word below 2^24 and one reply word that packs both. The field `reply` is the model's (log 3); an index
above 65535 keeps its low 16 bits (log 13). -/
def Obligations.EveryCommandReports : Prop :=
  ∀ (i : Instr) (s t : State), exec i s = .next t →
    (t.status = 0 ∧ t.info = 0 ∧ t.reply.head? = some 0) ∨
    (1 ≤ t.status.toNat ∧ t.status.toNat ≤ 13 ∧ t.info.toNat < 2 ^ 24 ∧ t.reply = [t.info.setWidth 24 ++ t.status])

/-- R344 a, R336: a failed mutator, query, FIR.PROC, BSM.GEN or KV command leaves all state but `STATUS`, `INFO`. -/
def Obligations.FailureLeavesState : Prop :=
  ∀ (i : Instr) (s t : State), leavesTraceOnFailure i = false → exec i s = .next t → t.status ≠ 0 →
    t = s.failedWith t.status t.info

/-- R166, R188, R262, R362: a DEINIT succeeds in every state, clears the valid bit and touches no other unit. -/
def Obligations.DeinitAlwaysSucceeds : Prop :=
  ∀ s : State,
    (∃ f : Fir, f.valid = false ∧ exec .firDeinit s = .next (State.completedWith { s with fir := f } [])) ∧
    (∃ b : Bfc, b.valid = false ∧ exec .bfcDeinit s = .next (State.completedWith { s with bfc := b } [])) ∧
    (∃ b : Bsm, b.valid = false ∧ exec .bsmDeinit s = .next (State.completedWith { s with bsm := b } []))

/-! ## SC -/

/-- R141: every lane of SC.TOFLOAT is the exact quotient by 2048, `+0.0` for 0; `2^138` units of `2^-149` are 1/2048. -/
def Obligations.ToFloatIsExact : Prop :=
  ∀ (raw : List RawSample) (s : State), ∃ out : List CSample,
    exec (.scTofloat raw) s = .next (s.completedWith (out.flatMap complexWords)) ∧
    List.Forall₂ (fun r c => ∀ p ∈ [(r.i, c.re), (r.q, c.im)],
      f32IsFinite p.2 = true ∧ fpValue 23 p.2 = p.1.toInt * 2 ^ 138 ∧ (p.1 = 0 → p.2 = 0)) raw out

/-- R142: a finite lane whose product by 2048 lies strictly between -32769 and 32768 is truncated toward zero; the other
lanes are free. The command completes on every operand. -/
def Obligations.ToRawTruncates : Prop :=
  ∀ (xs : List CSample) (s : State), ∃ out : List RawSample,
    exec (.scToraw xs) s = .next (s.completedWith (out.map rawWord)) ∧
    List.Forall₂ (fun c r => ∀ p ∈ [(c.re, r.i), (c.im, r.q)], f32IsFinite p.1 = true →
      -32769 * 2 ^ 138 < fpValue 23 p.1 → fpValue 23 p.1 < 32768 * 2 ^ 138 →
      p.2.toInt = (fpValue 23 p.1).tdiv (2 ^ 138)) xs out

/-- R143: SC.TORAW of what SC.TOFLOAT answered gives the raw samples back. -/
def Obligations.RawRoundTrip : Prop :=
  ∀ (raw : List RawSample) (s u : State), ∃ (xs : List CSample) (t v : State), xs.length = raw.length ∧
    exec (.scTofloat raw) s = .next t ∧ t.reply = 0#32 :: xs.flatMap complexWords ∧
    exec (.scToraw xs) u = .next v ∧ v.reply = 0#32 :: raw.map rawWord

/-! ## FIR -/

/-- R151, R23: a legal FIR.INIT builds every stage in the reset state, its output buffer sized by the cumulative decimation. -/
def Obligations.FirInitBuildsFilter : Prop :=
  ∀ (maxInput : BitVec 32) (specs : List StageSpec) (s : State), specs ≠ [] → specs.length ≤ s.params.sMax →
    (∀ sp ∈ specs, 0 < sp.taps.length ∧ sp.taps.length ≤ s.params.tMax ∧ 0 < sp.decimation.toNat ∧ sp.decimation.toNat < 2 ^ 31) →
    ((List.range specs.length).map fun i => 2 * (specs.getD i default).taps.length +
      ceilDiv maxInput.toNat ((specs.take (i + 1)).map fun sp => sp.decimation.toNat).prod).sum ≤ s.params.firMemMax →
    ∃ sts : List Stage, exec (.firInit maxInput specs) s = .next (State.completedWith { s with fir := ⟨true, maxInput, sts⟩ } []) ∧
      sts.length = specs.length ∧ ∀ (i : Nat) (sp : StageSpec) (st : Stage), specs[i]? = some sp → sts[i]? = some st →
        st = { decim := sp.decimation, taps := sp.taps, hist := List.replicate (2 * sp.taps.length) CSample.zero, wp := 0,
               cnt := sp.decimation.toNat,
               obuf := List.replicate (ceilDiv maxInput.toNat ((specs.take (i + 1)).map fun q => q.decimation.toNat).prod) CSample.zero,
               ocount := 0 }

/-- R151, R342: what FIR.INIT reports: no stage; the first malformed stage, taps before decimation, before any capacity is
looked at; then too many stages, the first stage with too many taps, and too many cells. -/
def Obligations.FirInitReportsFirstFault : Prop :=
  ∀ (maxInput : BitVec 32) (s : State),
    let fails := fun (specs : List StageSpec) (code : BitVec 8) (info : BitVec 32) => ∃ f : Fir, f.valid = false ∧
      exec (.firInit maxInput specs) s = .next (State.failedWith { s with fir := f } code info)
    let legal := fun sp : StageSpec => 0 < sp.taps.length ∧ 0 < sp.decimation.toNat ∧ sp.decimation.toNat < 2 ^ 31
    fails [] 1 1 ∧
    (∀ (pre : List StageSpec) (bad : StageSpec) (post : List StageSpec), pre.length < 2 ^ 16 → (∀ sp ∈ pre, legal sp) →
      (bad.taps = [] → fails (pre ++ bad :: post) 1 (BitVec.ofNat 32 (2 + 256 * pre.length))) ∧
      (bad.taps ≠ [] → bad.decimation.toNat = 0 ∨ 2 ^ 31 ≤ bad.decimation.toNat →
        fails (pre ++ bad :: post) 1 (BitVec.ofNat 32 (3 + 256 * pre.length))) ∧
      (legal bad → (∀ sp ∈ post, legal sp) → (pre ++ bad :: post).length ≤ s.params.sMax →
        (∀ sp ∈ pre, sp.taps.length ≤ s.params.tMax) → s.params.tMax < bad.taps.length →
        fails (pre ++ bad :: post) 2 (BitVec.ofNat 32 (2 + 256 * pre.length)))) ∧
    ∀ specs : List StageSpec, specs ≠ [] → (∀ sp ∈ specs, legal sp) →
      (s.params.sMax < specs.length → fails specs 2 1) ∧
      (specs.length ≤ s.params.sMax → (∀ sp ∈ specs, sp.taps.length ≤ s.params.tMax) →
        s.params.firMemMax < ((List.range specs.length).map fun i => 2 * (specs.getD i default).taps.length +
          ceilDiv maxInput.toNat ((specs.take (i + 1)).map fun sp => sp.decimation.toNat).prod).sum → fails specs 2 3)

/-- R152: FIR.RESET. -/
def Obligations.FirResetZeroesState : Prop :=
  encode .firReset = [0x11000000#32] ∧ ∀ s : State,
    (s.fir.valid = false → exec .firReset s = .next (s.failedWith 12 1)) ∧
    (s.fir.valid = true → exec .firReset s = .next (State.completedWith { s with fir := { s.fir with stages := s.fir.stages.map fun st =>
      { st with hist := List.replicate st.hist.length CSample.zero, obuf := List.replicate st.obuf.length CSample.zero,
                ocount := 0, cnt := st.decim.toNat, wp := 0 } } } [])) ∧
    ∀ t u : State, exec .firReset s = .next t → exec .firReset t = .next u → u.fir = t.fir

/-- R153: FIR.TOTDEC. -/
def Obligations.FirTotdecIsProduct : Prop :=
  encode .firTotdec = [0x12000000#32] ∧ ∀ s : State,
    (s.fir.valid = false → exec .firTotdec s = .next (s.failedWith 12 1)) ∧
    (s.fir.valid = true → exec .firTotdec s =
      .next (s.completedWith [BitVec.ofNat 32 (min (s.fir.stages.map fun st => st.decim.toNat).prod (2 ^ 32 - 1))]))

/-- R154, R156, R157, R29: FIR.PROC answers the cascade's convolution of the input with the delay lines, and leaves each
stage the last samples and the counter of R159. -/
def Obligations.FirProcConvolves : Prop :=
  ∀ (outCap : BitVec 32) (xs : List CSample) (s : State), s.fir.valid = true → s.fir.Inv s.params →
    xs.length ≤ s.fir.maxInput.toNat → ceilDiv xs.length (s.fir.stages.map fun st => st.decim.toNat).prod ≤ outCap.toNat →
    ∃ sts : List Stage, exec (.firProc outCap xs) s =
        .next (State.completedWith { s with fir := { s.fir with stages := sts } }
          (BitVec.ofNat 32 (directCascade [s.draws] 0 s.fir.stages xs).length ::
            (directCascade [s.draws] 0 s.fir.stages xs).flatMap complexWords)) ∧
      sts.length = s.fir.stages.length ∧
      ∀ i st st', s.fir.stages[i]? = some st → sts[i]? = some st' → st'.decim = st.decim ∧ st'.taps = st.taps ∧
        st'.cnt = counterAfter st (directCascade [s.draws] 0 (s.fir.stages.take i) xs).length ∧
        delayLine st' = ((directCascade [s.draws] 0 (s.fir.stages.take i) xs).reverse ++ delayLine st).take st.taps.length

/-- R155: FIR.PROC refuses a call that could overflow a buffer, in this order, and changes no filter state. -/
def Obligations.FirProcChecksBuffers : Prop :=
  ∀ (outCap : BitVec 32) (xs : List CSample) (s : State), s.fir.valid = true →
    (s.fir.maxInput.toNat < xs.length → exec (.firProc outCap xs) s = .next (s.failedWith 3 1)) ∧
    (xs.length ≤ s.fir.maxInput.toNat → outCap.toNat < ceilDiv xs.length (s.fir.stages.map fun st => st.decim.toNat).prod →
      exec (.firProc outCap xs) s = .next (s.failedWith 3 2))

/-- R159: the outputs of a stage in one call and its counter afterwards, and the bound through the cascade. -/
def Obligations.StageOutputCount : Prop :=
  (∀ (site : Site) (st : Stage) (xs : List CSample), 0 < st.cnt → st.cnt ≤ st.decim.toNat →
    (stageProc site st xs).ocount = (xs.length + st.decim.toNat - st.cnt) / st.decim.toNat ∧
    (stageProc site st xs).cnt = st.decim.toNat - (xs.length + st.decim.toNat - st.cnt) % st.decim.toNat ∧
    (st.cnt = st.decim.toNat → (stageProc site st xs).ocount = xs.length / st.decim.toNat) ∧
    (st.cnt = 1 → (stageProc site st xs).ocount = ceilDiv xs.length st.decim.toNat) ∧
    (stageProc site st xs).ocount ≤ ceilDiv xs.length st.decim.toNat) ∧
  ∀ m a b : Nat, 0 < a → 0 < b → ceilDiv (ceilDiv m a) b = ceilDiv m (a * b)

/-- R161: one FIR.PROC of `xs ++ ys` and two of `xs` and `ys`, each within the bounds of R155, give the same samples and
carry the same state on. -/
def Obligations.FirStreamingEquivalence : Prop :=
  ∀ (s : State) (xs ys : List CSample) (c1 c2 c12 : BitVec 32), s.fir.valid = true → s.fir.Inv s.params →
    xs.length + ys.length ≤ s.fir.maxInput.toNat →
    ceilDiv xs.length (s.fir.stages.map fun st => st.decim.toNat).prod ≤ c1.toNat →
    ceilDiv ys.length (s.fir.stages.map fun st => st.decim.toNat).prod ≤ c2.toNat →
    ceilDiv (xs.length + ys.length) (s.fir.stages.map fun st => st.decim.toNat).prod ≤ c12.toNat →
    ∃ (t1 t2 t12 : State) (o1 o2 o12 : List CSample),
      exec (.firProc c1 xs) s = .next t1 ∧ t1.reply = 0#32 :: countWord o1.length :: o1.flatMap complexWords ∧
      exec (.firProc c2 ys) t1 = .next t2 ∧ t2.reply = 0#32 :: countWord o2.length :: o2.flatMap complexWords ∧
      exec (.firProc c12 (xs ++ ys)) s = .next t12 ∧ t12.reply = 0#32 :: countWord o12.length :: o12.flatMap complexWords ∧
      List.Forall₂ sampleSame o12 (o1 ++ o2) ∧ List.Forall₂ Stage.Same t12.fir.stages t2.fir.stages

/-- R162: one tap of 1.0 and decimation 1 is the identity, bit for bit, on samples that hold no NaN. -/
def Obligations.FirIdentity : Prop :=
  ∀ (outCap : BitVec 32) (xs : List CSample) (s : State) (st : Stage), s.fir.valid = true → s.fir.Inv s.params →
    s.fir.stages = [st] → st.taps = [0x3F800000#32] → st.decim = 1 →
    (∀ c ∈ xs, f32IsNaN c.re = false ∧ f32IsNaN c.im = false) → xs.length ≤ s.fir.maxInput.toNat → xs.length ≤ outCap.toNat →
    ∃ t, exec (.firProc outCap xs) s = .next t ∧ t.reply = 0#32 :: BitVec.ofNat 32 xs.length :: xs.flatMap complexWords

/-! ## BFC -/

/-- R180, R125: a legal BFC.INIT builds an empty table and a zero record; the spt cell is free (log 8). -/
def Obligations.BfcInitBuildsTable : Prop :=
  (tsModeOfCode 0 = some .none ∧ tsModeOfCode 1 = some .unixSecondsInt ∧ tsModeOfCode 2 = some .unixSecondsFractional ∧
    tsModeOfCode 3 = some .localDatetime24h ∧ tsModeOfCode 4 = some .localDatetimeAmpm ∧
    tsModeOfCode 5 = none ∧ tsModeOfCode 6 = none ∧ tsModeOfCode 7 = none) ∧
  ∀ (tsMode : BitVec 3) (mode : TsMode) (nf recordBits : BitVec 16) (s : State), tsModeOfCode tsMode = some mode → nf ≠ 0 →
    recordBits ≠ 0 → nf.toNat ≤ s.params.nfMax → recordBits.toNat ≤ s.params.recordBitsMax →
    ∃ spt : BitVec 64, exec (.bfcInit tsMode nf recordBits) s = .next (State.completedWith { s with bfc :=
      { valid := true, recordBits := recordBits, tsMode := mode, slots := List.replicate nf.toNat none,
        record := List.replicate (8 * ((recordBits.toNat + 7) / 8)) false, spt := spt } } [])

/-- R180, R243: what BFC.INIT and BSM.INIT refuse: a malformed operand before a capacity. -/
def Obligations.ConstructorsRejectBadSizes : Prop :=
  (∀ (tsMode : BitVec 3) (nf recordBits : BitVec 16) (s : State),
    (4 < tsMode.toNat ∨ nf = 0 ∨ recordBits = 0 → ∃ b : Bfc, b.valid = false ∧
      exec (.bfcInit tsMode nf recordBits) s = .next (State.failedWith { s with bfc := b } 1 0x10)) ∧
    (tsMode.toNat ≤ 4 → nf ≠ 0 → recordBits ≠ 0 → s.params.nfMax < nf.toNat ∨ s.params.recordBitsMax < recordBits.toNat →
      ∃ b : Bfc, b.valid = false ∧ exec (.bfcInit tsMode nf recordBits) s = .next (State.failedWith { s with bfc := b } 2 0x10))) ∧
  ∀ (ns msgBits : BitVec 16) (fs : BitVec 32) (onVal : F32) (s : State),
    (ns = 0 ∨ fs = 0 ∨ msgBits = 0 ∨ f32IsFinite onVal = false → ∃ b : Bsm, b.valid = false ∧
      exec (.bsmInit ns fs msgBits onVal) s = .next (State.failedWith { s with bsm := b } 1 0x20)) ∧
    (ns ≠ 0 → fs ≠ 0 → msgBits ≠ 0 → f32IsFinite onVal = true →
      s.params.nsMax < ns.toNat ∨ s.params.recordBitsMax < msgBits.toNat → ∃ b : Bsm, b.valid = false ∧
        exec (.bsmInit ns fs msgBits onVal) s = .next (State.failedWith { s with bsm := b } 2 0x20))

/-- R181, R125: a legal BFC.ADDF fills the lowest empty slot, a zero scaling becomes 1.0, the default is 0. -/
def Obligations.AddFieldFillsLowestSlot : Prop :=
  (formatOfCode 0 = some .hex ∧ formatOfCode 1 = some .unsignedDecimal ∧ formatOfCode 2 = some .twosComplement ∧
    formatOfCode 3 = some .signMagnitude ∧ formatOfCode 4 = some .float ∧ formatOfCode 5 = some .enumerated ∧
    formatOfCode 6 = none ∧ formatOfCode 7 = none) ∧
  (endianOfCode 0 = some .big ∧ endianOfCode 1 = some .little ∧ endianOfCode 2 = none ∧ endianOfCode 3 = none) ∧
  ∀ (name : Text) (startBit endBit enumCount : BitVec 16) (format : BitVec 3) (endianness : BitVec 2) (scaling offset : F64)
    (fmt : FieldFormat) (e : Endian) (n : Nat) (s : State),
    s.bfc.valid = true → name ≠ [] → s.bfc.slots[n]? = some none → (∀ m < n, s.bfc.slots[m]? ≠ some none) →
    (∀ f, some f ∈ s.bfc.slots → f.name ≠ name) → startBit.toNat ≤ endBit.toNat → endBit.toNat - startBit.toNat < 64 →
    endBit.toNat < s.bfc.recordBits.toNat → formatOfCode format = some fmt → endianOfCode endianness = some e →
    enumCount.toNat ≤ s.params.enumMax →
    exec (.bfcAddf name startBit endBit format endianness enumCount scaling offset) s =
      .next (State.completedWith { s with bfc := { s.bfc with slots := s.bfc.slots.set n (some
        { name := name, startBit := startBit, endBit := endBit, format := fmt, endian := e,
          scaling := if scaling = 0#64 ∨ scaling = 0x8000000000000000#64 then 0x3FF0000000000000#64 else scaling,
          offset := offset, default := 0, enumCap := enumCount, enums := [] }) } } [BitVec.ofNat 32 n])

/-- R181, R342: what BFC.ADDF reports, the first fault in the rule's order; no slot changes. -/
def Obligations.AddFieldFaultOrder : Prop :=
  ∀ (name : Text) (startBit endBit enumCount : BitVec 16) (format : BitVec 3) (endianness : BitVec 2) (scaling offset : F64)
    (s : State), s.bfc.valid = true →
    let fails := fun code info => exec (.bfcAddf name startBit endBit format endianness enumCount scaling offset) s =
      .next (s.failedWith code info)
    if name = [] then fails 1 0x11
    else if none ∉ s.bfc.slots then fails 4 1
    else if (usedFields s.bfc).any (fun f => decide (f.name = name)) then fails 4 2
    else if endBit.toNat < startBit.toNat then fails 5 1
    else if 64 < endBit.toNat - startBit.toNat + 1 then fails 5 2
    else if s.bfc.recordBits.toNat ≤ endBit.toNat then fails 5 3
    else if 5 < format.toNat then fails 6 (format.setWidth 32)
    else if 1 < endianness.toNat then fails 7 (endianness.setWidth 32)
    else s.params.enumMax < enumCount.toNat → fails 2 0x11

/-- R184, R183: BFC.ADDE on an unknown field; and on the lowest-numbered field of that name, where it reports the first
fault in the rule's order or appends. -/
def Obligations.AddEnumAppends : Prop :=
  ∀ (fieldName symbol : Text) (value : BitVec 64) (s : State), s.bfc.valid = true →
    let adds := fun r : State => exec (.bfcAdde fieldName symbol value) s = .next r
    ((∀ f, some f ∈ s.bfc.slots → f.name ≠ fieldName) → adds (s.failedWith 8 1)) ∧
    ∀ (n : Nat) (f : BitField), s.bfc.slots[n]? = some (some f) → f.name = fieldName →
      (∀ m < n, ∀ g, s.bfc.slots[m]? = some (some g) → g.name ≠ fieldName) →
      if symbol = [] then adds (s.failedWith 1 0x12)
      else if f.enumCap.toNat ≤ f.enums.length then adds (s.failedWith 4 3)
      else if f.enums.any (fun x => decide (x.symbol = symbol)) then adds (s.failedWith 4 4)
      else adds (State.completedWith { s with bfc := { s.bfc with
        slots := s.bfc.slots.set n (some { f with enums := f.enums ++ [⟨symbol, value⟩] }) } } [])

/-- R186, R183: BFC.SETDEF stores the raw pattern of the text as the field's default; an unknown field, or a text that does
not parse, changes nothing and is reported. -/
def Obligations.SetDefaultStoresPattern : Prop :=
  ∀ (fieldName defaultStr : Text) (s : State), s.bfc.valid = true →
    (∀ n f, s.bfc.slots[n]? = some (some f) → f.name = fieldName →
      (∀ m < n, ∀ g, s.bfc.slots[m]? = some (some g) → g.name ≠ fieldName) →
      (∀ v, strToRaw [s.draws] f defaultStr = .ok v →
        exec (.bfcSetdef fieldName defaultStr) s = .next (State.completedWith { s with bfc := { s.bfc with
          slots := s.bfc.slots.set n (some { f with default := BitVec.ofNat 64 v }) } } [])) ∧
      ∀ r, strToRaw [s.draws] f defaultStr = .error r →
        exec (.bfcSetdef fieldName defaultStr) s = .next (s.failedWith (statusCode r.code) r.info)) ∧
    ((∀ f, some f ∈ s.bfc.slots → f.name ≠ fieldName) → exec (.bfcSetdef fieldName defaultStr) s = .next (s.failedWith 8 2))

/-- R201, R202: how a field's bits lie in a record, that writing touches no other bit, and that reading and writing invert
each other. The two inversion laws are an inference of the spec's own (R202 marks them as derived from R201 and itself). -/
def Obligations.FieldBitsInvert : Prop :=
  ∀ (f : BitField) (bits : List Bool) (raw : Nat), f.startBit.toNat ≤ f.endBit.toNat → f.endBit.toNat < bits.length →
    raw ≤ 2 ^ fieldWidth f - 1 →
    (∀ j < fieldWidth f, (insertField f bits raw).getD (f.startBit.toNat + j) false =
      match f.endian with
      | .big => raw.testBit (fieldWidth f - 1 - j)
      | .little => raw.testBit j) ∧
    (∀ b, b < f.startBit.toNat ∨ f.endBit.toNat < b → (insertField f bits raw).getD b false = bits.getD b false) ∧
    (insertField f bits raw).length = bits.length ∧
    extractField f (insertField f bits raw) = raw ∧
    insertField f bits (extractField f bits) = bits

/-- R210, R211, R214: BFC.DEC answers the timestamp pair when it is configured, then one pair for each used field in slot
order, and writes the record and the spt cell alone. -/
def Obligations.DecodeRendersEveryField : Prop :=
  ∀ (record : List Bool) (s : State), s.bfc.valid = true → ∃ (spt : BitVec 64) (stamp pairs : List Pair),
    exec (.bfcDec record) s = .next (State.completedWith { s with bfc := { s.bfc with
        record := loadRecord s.bfc.recordBits.toNat record, spt := spt } }
      (BitVec.ofNat 32 (stamp ++ pairs).length :: (stamp ++ pairs).flatMap fun p : Pair => textWords p.key ++ textWords p.value)) ∧
    stamp.map Pair.key = (if s.bfc.tsMode = .none then [] else [Config.tsKey]) ∧
    List.Forall₂ (fun f p => p.key = f.name ∧ ∃ site, p.value =
      rawToText s.params site f (extractField f (loadRecord s.bfc.recordBits.toNat record))) (usedFields s.bfc) pairs

/-- R220, R222: BFC.ENC whose pairs all parse answers the record with each named field written, the last writer of a bit
winning, and every bit outside the named fields as the operand has it. -/
def Obligations.EncodeWritesNamedFields : Prop :=
  ∀ (pairs : List Pair) (record : List Bool) (s : State), s.bfc.valid = true → s.bfc.Inv s.params →
    (∀ p kv, pairs[p]? = some kv → ∃ f v, findField s.bfc kv.key = some f ∧ strToRaw [p, s.draws] f kv.value = .ok v) →
    ∃ (bits : List Bool) (spt : BitVec 64),
      exec (.bfcEnc pairs record) s = .next (State.completedWith { s with bfc := { s.bfc with record := bits, spt := spt } }
        (packBits (bits.take s.bfc.recordBits.toNat))) ∧
      bits.length = s.bfc.record.length ∧
      (∀ b, (∀ kv ∈ pairs, ∀ f, findField s.bfc kv.key = some f → b < f.startBit.toNat ∨ f.endBit.toNat < b) →
        bits.getD b false = (loadRecord s.bfc.recordBits.toNat record).getD b false) ∧
      ∀ p kv f v, pairs[p]? = some kv → findField s.bfc kv.key = some f → strToRaw [p, s.draws] f kv.value = .ok v →
        (∀ q kv' g, p < q → pairs[q]? = some kv' → findField s.bfc kv'.key = some g →
          g.endBit.toNat < f.startBit.toNat ∨ f.endBit.toNat < g.startBit.toNat) →
        extractField f bits = v

/-- R220, R221, R332: the first pair with an unknown key, or with a text its field does not parse, ends BFC.ENC; the record
keeps the fields of the pairs before it, and INFO says which pair it was. -/
def Obligations.EncodeStopsAtUnknownKey : Prop :=
  ∀ (pre post : List Pair) (bad : Pair) (record : List Bool) (s t : State), s.bfc.valid = true → pre.length < 2 ^ 16 →
    exec (.bfcEnc pre record) s = .next t → t.status = 0 →
    (findField s.bfc bad.key = none → exec (.bfcEnc (pre ++ bad :: post) record) s =
      .next (State.failedWith { s with bfc := t.bfc } 8 (BitVec.ofNat 32 (3 + 256 * pre.length)))) ∧
    ∀ f r, findField s.bfc bad.key = some f → strToRaw [pre.length, s.draws] f bad.value = .error r →
      exec (.bfcEnc (pre ++ bad :: post) record) s =
        .next (State.failedWith { s with bfc := t.bfc } (statusCode r.code) (r.info + BitVec.ofNat 32 (256 * pre.length)))

/-- R224: BFC.DEFDATA writes every used field's default, the last writer of a bit winning, and keeps every other bit. -/
def Obligations.DefaultsWriteEveryField : Prop :=
  ∀ (record : List Bool) (s : State), s.bfc.valid = true → s.bfc.Inv s.params → ∃ (bits : List Bool) (spt : BitVec 64),
    exec (.bfcDefdata record) s = .next (State.completedWith { s with bfc := { s.bfc with record := bits, spt := spt } }
      (packBits (bits.take s.bfc.recordBits.toNat))) ∧
    (∀ b, (∀ f ∈ usedFields s.bfc, b < f.startBit.toNat ∨ f.endBit.toNat < b) →
      bits.getD b false = (loadRecord s.bfc.recordBits.toNat record).getD b false) ∧
    ∀ pre f post, usedFields s.bfc = pre ++ f :: post →
      (∀ g ∈ post, g.endBit.toNat < f.startBit.toNat ∨ f.endBit.toNat < g.startBit.toNat) →
      extractField f bits = f.default.toNat

/-- R203 to R209, R212: the text of every raw pattern of every field. R225: that text parses back to the pattern, (a) where the
format ignores scaling or the scaling is the identity, (b) elsewhere where rounding stays below one half. The exceptions are
negative zero and an enumeration symbol that spells another value's hex text. The law of R225 is an inference of the spec's
own; the binary64 operations are IEEE 754's as log 9 presumes them. -/
def Obligations.TextRoundTrip : Prop :=
  ∀ (p : Params) (a b : Site) (f : BitField) (raw : Nat), fieldWidth f ≤ 64 → raw < 2 ^ fieldWidth f →
    ∃ s₁ s₂ s₃ s₄ : Site,
    let half : Nat := 2 ^ (fieldWidth f - 1)
    let digits := fun base n : Nat => (Nat.toDigits base n).map fun c => BitVec.ofNat 8 c.toNat
    let least := if fieldWidth f ≤ 8 then 2 else if fieldWidth f ≤ 16 then (if p.hex16Digits = .four then 4 else 2)
      else if fieldWidth f ≤ 32 then 8 else 16
    let hex := [0x30#8, 0x78#8] ++ List.replicate (least - (digits 16 raw).length) 0x30#8 ++ digits 16 raw
    let integer := f.format = .unsignedDecimal ∨ f.format = .twosComplement ∨ f.format = .signMagnitude
    let identity := f.scaling = 0x3FF0000000000000#64 ∧ (f.offset = 0#64 ∨ f.offset = 0x8000000000000000#64)
    let x : Int := if half ≤ raw then
        (if f.format = .twosComplement then (raw : Int) - 2 ^ fieldWidth f
          else if f.format = .signMagnitude ∨ f.format = .float then (half : Int) - raw else raw)
      else raw
    let real := if f.format = .float
      then f64Add s₁ (f64Mul s₂ (f64OfInt x.natAbs) (if half ≤ raw then f64Neg f.scaling else f.scaling)) f.offset
      else f64Add s₁ (f64Mul s₂ (f64OfInt x) f.scaling) f.offset
    let quotient := f64Div s₃ (f64Sub s₄ real f.offset) f.scaling
    let text := rawToText p b f raw
    (f.format = .hex → text = hex) ∧
    (f.format = .enumerated →
      (∀ pre e post, f.enums = pre ++ e :: post → (∀ x ∈ pre, x.value.toNat ≠ raw) → e.value.toNat = raw → text = e.symbol) ∧
      ((∀ e ∈ f.enums, e.value.toNat ≠ raw) → text = hex)) ∧
    (integer → identity → text = (if x < 0 then [0x2D#8] else []) ++ digits 10 x.natAbs) ∧
    (integer ∧ ¬ identity ∨ f.format = .float → text = fmtReal real) ∧
    (f.format = .hex ∨ integer ∧ identity → (f.format = .signMagnitude → raw ≠ half) → strToRaw a f text = .ok raw) ∧
    (f.format = .enumerated → (f.enums.map EnumEntry.symbol).Nodup → (∀ e ∈ f.enums, e.symbol ≠ hex) →
      strToRaw a f text = .ok raw) ∧
    (integer ∧ ¬ identity ∨ f.format = .float → (f.format = .signMagnitude ∨ f.format = .float → raw ≠ half) →
      f64IsFinite real = true → f64IsFinite quotient = true → 2 * |fpValue 52 quotient - x * 2 ^ 1074| < 2 ^ 1074 →
      strToRaw a f text = .ok raw)

/-- R215, R216, R218, R219, R223: what the texts of every format parse to, `ParseError`, or `ValueOutOfRange` for a value
the format cannot code in the field's width; R226: so for the decimal text of such an integer, and no parse ever answers a
pattern wider than the field. The binary64 operations are IEEE 754's as log 9 presumes them; `2^1074` units are 1.0. -/
def Obligations.RangeLaw : Prop :=
  (∀ (site : Site) (f : BitField) (t : Text) (v : Nat), fieldWidth f ≤ 64 → strToRaw site f t = .ok v → v ≤ fieldMask f) ∧
  (∀ (site : Site) (f : BitField) (x : Int), x.natAbs < 2 ^ 64 →
    (f.format = .hex ∨ f.format = .unsignedDecimal ∧ identityScaling f = true → x < 0 ∨ (2 ^ fieldWidth f : Int) ≤ x →
      strToRaw site f (intText x) = .error ⟨.valueOutOfRange, 2⟩) ∧
    (f.format = .twosComplement → identityScaling f = true → x < -(2 ^ (fieldWidth f - 1) : Int) ∨ (2 ^ (fieldWidth f - 1) : Int) ≤ x →
      strToRaw site f (intText x) = .error ⟨.valueOutOfRange, 2⟩) ∧
    (f.format = .signMagnitude → identityScaling f = true → 2 ^ (fieldWidth f - 1) ≤ x.natAbs →
      strToRaw site f (intText x) = .error ⟨.valueOutOfRange, 2⟩)) ∧
  (∀ y : F64, f64IsFinite y = true → parseReal (fmtReal y) = some y) ∧
  (∀ (t : Text) (neg : Bool) (mag : Nat),
    let digit := fun (base : Nat) (c : Byte) (d : Nat) => d < base ∧
      (d < 10 ∧ c = BitVec.ofNat 8 (0x30 + d) ∨ 10 ≤ d ∧ (c = BitVec.ofNat 8 (0x57 + d) ∨ c = BitVec.ofNat 8 (0x37 + d)))
    let spells := fun (base most : Nat) (cs : Text) => 1 ≤ cs.length ∧ cs.length ≤ most ∧
      ∃ ds : List Nat, List.Forall₂ (digit base) cs ds ∧ mag = Nat.ofDigits base ds.reverse
    parseInt t = .ok (neg, mag) ↔ mag < 2 ^ 64 ∧ ∃ body : Text, t = (if neg then [0x2D#8] else []) ++ body ∧
      (spells 10 20 body ∨ ∃ c cs, body = 0x30#8 :: c :: cs ∧ (c = 0x78#8 ∨ c = 0x58#8) ∧ spells 16 16 cs)) ∧
  ∀ (site : Site) (f : BitField) (t : Text),
    let half : Nat := 2 ^ (fieldWidth f - 1)
    let outOfRange : Except Raised Nat := .error ⟨.valueOutOfRange, 2⟩
    let integer := f.format = .unsignedDecimal ∨ f.format = .twosComplement ∨ f.format = .signMagnitude
    let number := f.format = .hex ∨ (f.format = .enumerated ∧ ∀ e ∈ f.enums, e.symbol ≠ t) ∨ (integer ∧ identityScaling f = true)
    let coded : Int → Except Raised Nat := fun x =>
      if f.format = .twosComplement then
        (if x < -(half : Int) ∨ (half : Int) ≤ x then outOfRange else .ok (x % (2 ^ fieldWidth f : Int)).toNat)
      else if f.format = .signMagnitude ∨ f.format = .float then
        (if half ≤ x.natAbs then outOfRange else .ok ((if x < 0 then half else 0) + x.natAbs))
      else if x < 0 ∨ (2 ^ fieldWidth f : Int) ≤ x then outOfRange else .ok x.toNat
    (number → (∀ r, parseInt t = .error r → r = ⟨.parseError, 1⟩ ∧ strToRaw site f t = .error r) ∧
      ∀ neg mag, parseInt t = .ok (neg, mag) → strToRaw site f t = coded (if neg then -(mag : Int) else mag)) ∧
    (f.format = .enumerated → ∀ pre e post, f.enums = pre ++ e :: post → (∀ x ∈ pre, x.symbol ≠ t) → e.symbol = t →
      strToRaw site f t = coded e.value.toNat) ∧
    (integer ∧ identityScaling f = false ∨ f.format = .float → ∃ s₁ s₂ : Site,
      match parseReal t with
      | none => strToRaw site f t = .error ⟨.parseError, 2⟩
      | some y =>
        let q := f64Div s₁ (f64Sub s₂ y f.offset) f.scaling
        let m := ⌊|(fpValue 52 q : ℚ)| / 2 ^ 1074 + 1 / 2⌋₊
        strToRaw site f t = if f64IsFinite q = true then coded (if fpValue 52 q < 0 then -(m : Int) else m)
          else .error ⟨.valueOutOfRange, 1⟩)

/-! ## BSM -/

/-- R243: a legal BSM.INIT. -/
def Obligations.BsmInitBuildsMachine : Prop :=
  ∀ (ns msgBits : BitVec 16) (fs : BitVec 32) (onVal : F32) (s : State), ns ≠ 0 → fs ≠ 0 → msgBits ≠ 0 →
    f32IsFinite onVal = true → ns.toNat ≤ s.params.nsMax → msgBits.toNat ≤ s.params.recordBitsMax →
    exec (.bsmInit ns fs msgBits onVal) s = .next (State.completedWith { s with bsm :=
      { valid := true, fs := fs, msgBits := msgBits, onVal := onVal, states := List.replicate ns.toNat ⟨[], 0, 0, []⟩,
        cur := 0, bitcnt := 0, scount := 0, prev := false, acc := List.replicate msgBits.toNat false,
        clrPending := false } } [])

/-- R244, R245: BSM.SETSTATE and BSM.ADDTRIG on a state of the table, on an index outside it, and on a full list. -/
def Obligations.StateTableCommands : Prop :=
  ∀ (n next : BitVec 16) (name : Text) (dur tmo durUs : BitVec 32) (cond action : BitVec 3) (s : State), s.bsm.valid = true →
    (∀ st, s.bsm.states[n.toNat]? = some st →
      exec (.bsmSetstate n name dur tmo) s = .next (State.completedWith { s with bsm := { s.bsm with states := (s.bsm.states.set n.toNat
        ⟨name, dur, tmo, st.trigs⟩) } } []) ∧
      (st.trigs.length < s.params.ntMax → exec (.bsmAddtrig n cond action next durUs) s =
        .next (State.completedWith { s with bsm := { s.bsm with states := (s.bsm.states.set n.toNat
          ⟨st.name, st.durationUs, st.timeoutUs, st.trigs ++ [⟨cond, durUs, action, next⟩]⟩) } }
          [BitVec.ofNat 32 st.trigs.length])) ∧
      (st.trigs.length = s.params.ntMax → exec (.bsmAddtrig n cond action next durUs) s = .next (s.failedWith 1 0x23))) ∧
    (s.bsm.states.length ≤ n.toNat →
      exec (.bsmSetstate n name dur tmo) s = .next (s.failedWith 1 0x21) ∧
      exec (.bsmAddtrig n cond action next durUs) s = .next (s.failedWith 1 0x21))

/-- R247, R43: BSM.READY. -/
def Obligations.BsmReadyReports : Prop :=
  encode .bsmReady = [0x33000000#32] ∧ ∀ s : State,
    ((s.bsm.valid = true ∧ ∀ st ∈ s.bsm.states, st.name ≠ [] ∧
        ∀ t ∈ st.trigs, t.cond.toNat ≤ 4 ∧ t.action.toNat ≤ 3 ∧ t.next.toNat < s.bsm.states.length) →
      exec .bsmReady s = .next (s.completedWith [1])) ∧
    (¬ (s.bsm.valid = true ∧ ∀ st ∈ s.bsm.states, st.name ≠ [] ∧
        ∀ t ∈ st.trigs, t.cond.toNat ≤ 4 ∧ t.action.toNat ≤ 3 ∧ t.next.toNat < s.bsm.states.length) →
      exec .bsmReady s = .next (s.completedWith [0]))

/-- R312: BSM.RDACC. -/
def Obligations.RdaccReadsAccumulator : Prop :=
  encode .bsmRdacc = [0x37000000#32] ∧ ∀ s : State,
    (s.bsm.valid = false → exec .bsmRdacc s = .next (s.failedWith 12 3)) ∧
    (s.bsm.valid = true → s.bsm.acc.length = s.bsm.msgBits.toNat → ∃ ws : List Word,
      exec .bsmRdacc s = .next (s.completedWith (BitVec.ofNat 32 s.bsm.bitcnt :: ws)) ∧
      ws.length = (s.bsm.msgBits.toNat + 31) / 32 ∧
      ∀ b, (ws.getD (b / 32) 0).getLsbD (b % 32) = s.bsm.acc.getD b false)

/-- R250, R259: BSM.PROC on a ready machine completes, examines at most its samples, and all of them when it gives no
output; the table and the configuration stay. R257: with a clear pending it first zeroes the accumulator and the bit counter
and drops the flag, also when it is given no sample, and then does what it does without one. -/
def Obligations.BsmProcCompletes : Prop :=
  (∀ (xs : List Bool) (s : State), bsmInitialized s.bsm = true → ∃ (b : Bsm) (n : Nat) (r : SampleResult),
    exec (.bsmProc xs) s = .next (State.completedWith { s with bsm := b } [BitVec.ofNat 32 n, resultCode r]) ∧
    n ≤ xs.length ∧ (r = .noOutputYet → n = xs.length) ∧
    b.states = s.bsm.states ∧ b.fs = s.bsm.fs ∧ b.msgBits = s.bsm.msgBits ∧ b.onVal = s.bsm.onVal ∧ b.valid = s.bsm.valid) ∧
  ∀ (xs : List Bool) (s : State), bsmInitialized s.bsm = true → s.bsm.clrPending = true →
    let cleared := { s.bsm with acc := List.replicate s.bsm.msgBits.toNat false, bitcnt := 0, clrPending := false }
    exec (.bsmProc xs) s = exec (.bsmProc xs) { s with bsm := cleared } ∧
    exec (.bsmProc []) s = .next (State.completedWith { s with bsm := cleared } [0, 0])

/-- R259: a stream cut in two gives the same machine and the same event as the stream in one call. -/
def Obligations.BsmProcSplits : Prop :=
  ∀ (xs ys : List Bool) (s t : State), bsmInitialized s.bsm = true → exec (.bsmProc xs) s = .next t →
    t.reply = [0, BitVec.ofNat 32 xs.length, 0] → ∃ (u v : State) (n : Nat) (r : Word),
      exec (.bsmProc ys) t = .next u ∧ exec (.bsmProc (xs ++ ys)) s = .next v ∧ v.bsm = u.bsm ∧
      u.reply = [0, BitVec.ofNat 32 n, r] ∧ v.reply = [0, BitVec.ofNat 32 (xs.length + n), r]

/-- R260, R251: a sample on which no trigger takes part and holds only ages the state. -/
def Obligations.SilentSampleAges : Prop :=
  ∀ (x : Bool) (s : State), bsmInitialized s.bsm = true → s.bsm.clrPending = false →
    (∀ t ∈ (currentState (countSample s.bsm)).trigs, triggerParticipates (countSample s.bsm) t = true →
      condHolds (countSample s.bsm) (currentState (countSample s.bsm)) t.cond x = false) →
    exec (.bsmProc [x]) s = .next (State.completedWith { s with bsm := { s.bsm with
      scount := min (s.bsm.scount + 1) (2 ^ 64 - 1), prev := x } } [1, 0])

/-- R253, R254, R258: the first trigger that fires, when the state's duration is violated on an edge or its bit has no
place, causes the hard reset: result 2, nothing of the message kept. -/
def Obligations.HardResetOnAnomaly : Prop :=
  ∀ (x : Bool) (s : State) (pre post : List Trigger) (t : Trigger), bsmInitialized s.bsm = true → s.bsm.clrPending = false →
    (currentState s.bsm).trigs = pre ++ t :: post →
    (∀ u ∈ pre, triggerParticipates (countSample s.bsm) u = true →
      condHolds (countSample s.bsm) (currentState s.bsm) u.cond x = false) →
    triggerParticipates (countSample s.bsm) t = true → condHolds (countSample s.bsm) (currentState s.bsm) t.cond x = true →
    ((t.cond = 1 ∨ t.cond = 2) ∧ (currentState s.bsm).durationUs ≠ 0 ∧ inTolerance s.bsm.fs.toNat
        (min (s.bsm.scount + 1) (2 ^ 64 - 1)) (currentState s.bsm).durationUs.toNat = false) ∨
      ((t.action = 1 ∨ t.action = 2) ∧ s.bsm.msgBits.toNat ≤ s.bsm.bitcnt) →
    exec (.bsmProc [x]) s = .next (State.completedWith { s with bsm := { s.bsm with
      cur := 0, scount := 0, bitcnt := 0, acc := List.replicate s.bsm.msgBits.toNat false, clrPending := false, prev := x } } [1, 2])

/-- R254, R255, R256, R257: the first trigger that fires, within its state's duration, appends or hands the record over,
moves the cursor and restarts the count; entry to state 0 clears the record, at once or, after an output, later. R252,
R251: when each condition holds and when a trigger takes part, for every machine that has counted the sample. -/
def Obligations.TriggerTransition : Prop :=
  (∀ (b : Bsm) (st : StateEntry) (x : Bool),
    (condHolds b st 0 x = true) ∧
    (condHolds b st 1 x = true ↔ b.prev = false ∧ x = true) ∧
    (condHolds b st 2 x = true ↔ b.prev = true ∧ x = false) ∧
    (condHolds b st 3 x = true ↔ st.timeoutUs ≠ 0 ∧ st.timeoutUs.toNat * b.fs.toNat ≤ b.scount * 1000000) ∧
    (condHolds b st 4 x = true ↔ b.msgBits.toNat ≤ b.bitcnt)) ∧
  (∀ (b : Bsm) (t : Trigger), triggerParticipates b t = true ↔ t.durUs = 0 ∨
    85 * t.durUs.toNat * b.fs.toNat ≤ 100 * b.scount * 1000000 ∧
      100 * b.scount * 1000000 ≤ 115 * t.durUs.toNat * b.fs.toNat) ∧
  (∀ b : Bsm, countSample b = { b with scount := min (b.scount + 1) (2 ^ 64 - 1) }) ∧
  ∀ (x : Bool) (s : State) (pre post : List Trigger) (t : Trigger), bsmInitialized s.bsm = true → s.bsm.clrPending = false →
    (currentState s.bsm).trigs = pre ++ t :: post →
    (∀ u ∈ pre, triggerParticipates (countSample s.bsm) u = true →
      condHolds (countSample s.bsm) (currentState s.bsm) u.cond x = false) →
    triggerParticipates (countSample s.bsm) t = true → condHolds (countSample s.bsm) (currentState s.bsm) t.cond x = true →
    ((t.cond = 1 ∨ t.cond = 2) → (currentState s.bsm).durationUs ≠ 0 → inTolerance s.bsm.fs.toNat
        (min (s.bsm.scount + 1) (2 ^ 64 - 1)) (currentState s.bsm).durationUs.toNat = true) →
    ((t.action = 1 ∨ t.action = 2) → s.bsm.bitcnt < s.bsm.msgBits.toNat) →
    let b := { s.bsm with cur := t.next.toNat, scount := 0, prev := x }
    let appended := if t.action = 1 ∨ t.action = 2 then
      { b with acc := s.bsm.acc.set s.bsm.bitcnt (decide (t.action = 2)), bitcnt := s.bsm.bitcnt + 1 } else b
    exec (.bsmProc [x]) s = .next (
      if t.next ≠ 0 then State.completedWith { s with bsm := appended } [1, if t.action = 3 then 1 else 0]
      else if t.action = 3 then State.completedWith { s with bsm := { b with clrPending := true } } [1, 1]
      else State.completedWith { s with bsm := { b with acc := List.replicate s.bsm.msgBits.toNat false, bitcnt := 0 } } [1, 0])

/-- R261 a: a table whose only state outputs always never gives an error: every call answers one sample, output-ready. -/
def Obligations.AlwaysOutputNeverErrs : Prop :=
  ∀ (x : Bool) (xs : List Bool) (name : Text) (dur tmo : BitVec 32) (s : State), s.bsm.valid = true → s.bsm.cur = 0 →
    name ≠ [] → s.bsm.states = [⟨name, dur, tmo, [⟨0, 0, 3, 0⟩]⟩] →
    ∃ b : Bsm, exec (.bsmProc (x :: xs)) s = .next (State.completedWith { s with bsm := b } [1, 1]) ∧ b.cur = 0 ∧ b.scount = 0 ∧
      b.clrPending = true ∧ b.states = s.bsm.states ∧ b.valid = true

/-- R248: the tolerance band and the timeout in exact microseconds, and the band as a range of sample counts. -/
def Obligations.ToleranceIsExact : Prop :=
  ∀ fs scount dur tmo : Nat, 0 < fs → 0 < dur →
    (inTolerance fs scount dur = true ↔
      (85 / 100 : ℚ) * (dur : ℚ) ≤ (scount : ℚ) * 1000000 / (fs : ℚ) ∧
        (scount : ℚ) * 1000000 / (fs : ℚ) ≤ (115 / 100 : ℚ) * (dur : ℚ)) ∧
    (inTolerance fs scount dur = true ↔
      ⌈(85 / 100 : ℚ) * (dur : ℚ) * (fs : ℚ) / 1000000⌉₊ ≤ scount ∧
        scount ≤ ⌊(115 / 100 : ℚ) * (dur : ℚ) * (fs : ℚ) / 1000000⌋₊) ∧
    (timedOut fs scount tmo = true ↔ tmo ≠ 0 ∧ (tmo : ℚ) ≤ (scount : ℚ) * 1000000 / (fs : ℚ))

/-- R290: a duration becomes samples by rounding to nearest, ties upward. -/
def Obligations.SampleCountRounds : Prop :=
  (∀ fs us : Nat, samplesOf fs us = ⌊(us : ℚ) * (fs : ℚ) / 1000000 + 1 / 2⌋₊) ∧
    samplesOf 10000 400 = 4 ∧ samplesOf 10000 1200 = 12 ∧ samplesOf 10000 450 = 5 ∧ samplesOf 10000 449 = 4 ∧
    samplesOf 100000 400 = 40

/-- R280, R291, R294: BSM.GEN decides the walk that nothing bounds: it answers the samples of a walk that ends, the error
of one that fails, and stops with the fault exactly when the walk does neither (the fault for a command that never
completes is the model's inference from R294, log 14). R283 to R289, R292, R293: what one pass selects, emits, moves and
raises, for every machine and walk; with GEN_INIT_CAP = 0 its AllocationError is the model's choice (log 21). -/
def Obligations.GenerateDecidesTheWalk : Prop :=
  (∀ (bits : List Bool) (s : State), bsmInitialized s.bsm = true →
    (∀ amps, GenEnds s.params s.bsm (genStart s.params bits) amps →
      exec (.bsmGen bits) s = .next (s.completedWith (BitVec.ofNat 32 amps.length :: amps))) ∧
    (∀ r, GenFails s.params s.bsm (genStart s.params bits) r →
      exec (.bsmGen bits) s = .next (s.failedWith (statusCode r.code) r.info)) ∧
    ((∀ amps, ¬ GenEnds s.params s.bsm (genStart s.params bits) amps) →
      (∀ r, ¬ GenFails s.params s.bsm (genStart s.params bits) r) → exec (.bsmGen bits) s = .fault .generateNeverCompletes)) ∧
  ∀ (p : Params) (b : Bsm) (w : GenWalk),
    let trigs := (b.states.getD w.cur StateEntry.blank).trigs
    ((∀ t ∈ trigs, ¬ GenPossible w t) → genPass p b w = .error ⟨.protocolError, 1⟩) ∧
    ∀ t : Trigger, GenSelects w trigs t →
      (t.cond = 3 → genPass p b w = .error ⟨.protocolError, 2⟩) ∧
      (t.cond ≠ 3 → t.action = 1 ∨ t.action = 2 → ¬ GenMatches w t → genPass p b w = .error ⟨.protocolError, 3⟩) ∧
      (t.cond ≠ 3 → (t.action = 1 ∨ t.action = 2 → GenMatches w t) → w.buf.length ≤ w.gcap →
        let buf := w.buf ++ genEmits p b w t
        ((∀ c, GenCapacity p w.gcap c → c < buf.length) → genPass p b w = .error ⟨.allocationError, 0x30⟩) ∧
        ((∃ c, GenCapacity p w.gcap c ∧ buf.length ≤ c) → ∃ w' : GenWalk, genPass p b w = .ok w' ∧ w'.buf = buf ∧
          GenCapacity p w.gcap w'.gcap ∧ buf.length ≤ w'.gcap ∧ w'.cur = t.next.toNat ∧ w'.level = genLevel w t ∧
          w'.bits = if t.action = 1 ∨ t.action = 2 then w.bits.tail else w.bits))

/-- R280 on the device of R263 and R295: the waveform of any bits, a pulse of 4 samples, then for each bit a gap of 4 or
12 samples and a pulse. -/
def Obligations.GeneratePulseDistance : Prop :=
  ∀ (bits : List Bool) (s : State), s.bsm.valid = true → s.bsm.states = pdmStates → s.bsm.fs = 10000 →
    s.params.genGapMode = .full → 4 + 16 * bits.length ≤ s.params.genInitCap →
    let amps := List.replicate 4 s.bsm.onVal ++ bits.flatMap fun b =>
      List.replicate (if b then 12 else 4) 0#32 ++ List.replicate 4 s.bsm.onVal
    exec (.bsmGen bits) s = .next (s.completedWith (BitVec.ofNat 32 amps.length :: amps))

/-- R294: a silent loop on state 0 never completes while a bit is left, which the model shows as a fault (log 14), and
answers no sample when there is none. -/
def Obligations.SilentLoopNeverCompletes : Prop :=
  ∀ (bits : List Bool) (name : Text) (tmo : BitVec 32) (s : State), s.bsm.valid = true → name ≠ [] →
    s.bsm.states = [⟨name, 0, tmo, [⟨0, 0, 0, 0⟩]⟩] →
    (bits ≠ [] → exec (.bsmGen bits) s = .fault .generateNeverCompletes) ∧
    (bits = [] → exec (.bsmGen bits) s = .next (s.completedWith [0]))

/-! ## DEV -/

/-- R313: DEV.PROC on a ready device with room in the list completes; its counts and its list agree, the list holding one
message's pairs after another. With no sample it empties the list and runs nothing, so a pending clear stays pending. R313,
R314: what it does after the first event of BSM.PROC: nothing more after none; after an error it stops, or counts it and goes
on, as DEV_ERR_POLICY says; after an output it appends the pairs of the accumulator's record and goes on, or ends in
AllocationError(0x40) where the list is full, the machine advanced and the pairs that fit kept. -/
def Obligations.DevProcCompletes : Prop :=
  (∀ s : State, devReady s = true → exec (.devProc []) s = .next (State.completedWith { s with kv := [] } [0, 0, 0])) ∧
  (∀ (xs : List Bool) (s : State), devReady s = true → xs.length * ((usedFields s.bfc).length + 1) ≤ s.params.kvMax →
    ∃ (b : Bsm) (f : Bfc) (messages : List (List Pair)) (nmsg nerr : Nat),
      let kv := messages.flatten
      exec (.devProc xs) s = .next (State.completedWith { s with bsm := b, bfc := f, kv := kv }
        [BitVec.ofNat 32 kv.length, BitVec.ofNat 32 nmsg, BitVec.ofNat 32 nerr]) ∧
      messages.length = nmsg ∧ (∀ m ∈ messages, ∃ bits, MessagePairs s.params s.bfc bits m) ∧
      kv.map Pair.key = (List.replicate nmsg (messageKeys s.bfc)).flatten ∧ nmsg + nerr ≤ xs.length ∧
      b.states = s.bsm.states ∧ f.slots = s.bfc.slots) ∧
  ∀ (xs : List Bool) (s t : State) (n : Nat) (r : Word), devReady s = true → xs ≠ [] → xs.length < 2 ^ 32 →
    exec (.bsmProc xs) s = .next t → t.reply = [0, BitVec.ofNat 32 n, r] → n ≤ xs.length →
    (r = 0 → exec (.devProc xs) s = .next (State.completedWith { s with bsm := t.bsm, kv := [] } [0, 0, 0])) ∧
    (r = 2 → s.params.devErrPolicy = .stop →
      exec (.devProc xs) s = .next (State.completedWith { s with bsm := t.bsm, kv := [] } [0, 0, 1])) ∧
    (r = 2 → s.params.devErrPolicy = .goOn → ∃ u, exec (.devProc (xs.drop n)) { s with bsm := t.bsm } = .next u ∧
      exec (.devProc xs) s = .next { u with
        reply := if u.status = 0 then [0, u.reply.getD 1 0, u.reply.getD 2 0, u.reply.getD 3 0 + 1] else u.reply }) ∧
    (r = 1 → ∃ (spt : BitVec 64) (message : List Pair),
      let f := { s.bfc with record := loadRecord s.bfc.recordBits.toNat t.bsm.acc, spt := spt }
      MessagePairs s.params s.bfc f.record message ∧ message.map Pair.key = messageKeys s.bfc ∧
      (s.params.kvMax < message.length → exec (.devProc xs) s =
        .next (State.failedWith { s with bsm := t.bsm, bfc := f, kv := message.take s.params.kvMax } 2 0x40)) ∧
      (message.length ≤ s.params.kvMax → ∃ (u : State) (rest : List Pair),
        exec (.devProc (xs.drop n)) { s with
          bsm := t.bsm, bfc := f, params := { s.params with kvMax := s.params.kvMax - message.length } } = .next u ∧
        List.Forall₂ (SamePair s.params s.bfc) rest u.kv ∧
        exec (.devProc xs) s = .next { u with
          params := s.params, kv := message ++ rest
          reply := if u.status = 0 then
            [0, u.reply.getD 1 0 + BitVec.ofNat 32 message.length, u.reply.getD 2 0 + 1, u.reply.getD 3 0] else u.reply }))

/-- R313, R311: samples that complete a message leave the pairs of the accumulator's record first in the list, whatever
follows them, and the earlier list is gone; they are the whole list when the message ends on the last sample, and when the
samples after it give no output. -/
def Obligations.DevProcDecodesTheAccumulator : Prop :=
  ∀ (xs : List Bool) (s t : State) (n : Nat), devReady s = true → exec (.bsmProc xs) s = .next t →
    t.reply = [0, BitVec.ofNat 32 n, 1] → n ≤ xs.length → xs.length < 2 ^ 32 → (messageKeys s.bfc).length ≤ s.params.kvMax →
    ∃ (spt : BitVec 64) (message : List Pair),
      let f := { s.bfc with record := loadRecord s.bfc.recordBits.toNat t.bsm.acc, spt := spt }
      let oneMessage := fun b : Bsm => exec (.devProc xs) s =
        .next (State.completedWith { s with bsm := b, bfc := f, kv := message } [BitVec.ofNat 32 message.length, 1, 0])
      MessagePairs s.params s.bfc f.record message ∧
      (n = xs.length → oneMessage t.bsm) ∧
      (∀ v, n < xs.length → exec (.bsmProc (xs.drop n)) t = .next v → v.reply = [0, BitVec.ofNat 32 (xs.length - n), 0] →
        oneMessage v.bsm) ∧
      ∃ (u : State) (rest : List Pair), exec (.devProc xs) s = .next u ∧ u.kv = message ++ rest

/-- R315: DEV.GEN whose pairs all parse builds a record and answers what BSM.GEN of its bits answers, each amplitude a complex
sample with imaginary part `+0.0`, fails as BSM.GEN fails and stops as it stops (log 14); on the table of R263 it is the
waveform. On a formatter that meets its invariant the record has a 0 in every bit of no field, the default in a field that no
later slot and no pair overlaps, and the parsed pattern in one whose pair no later pair overlaps. The first pair that fails
ends the command, INFO says which it was, and the record keeps the defaults and the pairs before it. -/
def Obligations.DevGenSynthesizes : Prop :=
  (∀ (pairs : List Pair) (s : State), devReady s = true → PairsParse s.bfc s.draws pairs → ∃ (bits : List Bool) (spt : BitVec 64),
    let sent := bits.take s.bfc.recordBits.toNat
    let written := { s.bfc with record := bits, spt := spt }
    bits.length = 8 * ((s.bfc.recordBits.toNat + 7) / 8) ∧
    (s.bfc.Inv s.params → SeededRecord s.bfc s.draws pairs bits) ∧
    (∀ amps, exec (.bsmGen sent) s = .next (s.completedWith (BitVec.ofNat 32 amps.length :: amps)) →
      exec (.devGen pairs) s = .next (State.completedWith { s with bfc := written }
        (BitVec.ofNat 32 amps.length :: amps.flatMap fun a => [a, 0#32]))) ∧
    (∀ code info, code ≠ 0 → exec (.bsmGen sent) s = .next (s.failedWith code info) →
      exec (.devGen pairs) s = .next (State.failedWith { s with bfc := written } code info)) ∧
    (∀ e, exec (.bsmGen sent) s = .fault e → exec (.devGen pairs) s = .fault e) ∧
    (s.bsm.states = pdmStates → s.bsm.fs = 10000 → s.params.genGapMode = .full →
      4 + 16 * s.bfc.recordBits.toNat ≤ s.params.genInitCap →
      let amps := List.replicate 4 s.bsm.onVal ++ sent.flatMap fun b =>
        List.replicate (if b then 12 else 4) 0#32 ++ List.replicate 4 s.bsm.onVal
      exec (.devGen pairs) s = .next (State.completedWith { s with bfc := written }
        (BitVec.ofNat 32 amps.length :: amps.flatMap fun a => [a, 0#32])))) ∧
  ∀ (pre post : List Pair) (bad : Pair) (s : State), devReady s = true → pre.length < 2 ^ 16 → PairsParse s.bfc s.draws pre →
    ∃ (bits : List Bool) (spt : BitVec 64),
      let fails := fun code info => exec (.devGen (pre ++ bad :: post)) s =
        .next (State.failedWith { s with bfc := { s.bfc with record := bits, spt := spt } } code info)
      (s.bfc.Inv s.params → SeededRecord s.bfc s.draws pre bits) ∧
      (findField s.bfc bad.key = none → fails 8 (BitVec.ofNat 32 (3 + 256 * pre.length))) ∧
      ∀ f r, findField s.bfc bad.key = some f → strToRaw [pre.length, s.draws] f bad.value = .error r →
        fails (statusCode r.code) (r.info + BitVec.ofNat 32 (256 * pre.length))

/-! ## KV -/

/-- R317, R318, R319, R320: the four commands of the key-value list. -/
def Obligations.KvCommands : Prop :=
  ∀ s : State,
    (encode .kvClear = [0x50000000#32] ∧ exec .kvClear s = .next (State.completedWith { s with kv := [] } [])) ∧
    (∀ key value : Text, encode (.kvAppend key value) = 0x51000000#32 :: (textWords key ++ textWords value) ∧
      (s.kv.length < s.params.kvMax →
        exec (.kvAppend key value) s = .next (State.completedWith { s with kv := s.kv ++ [⟨key, value⟩] } [])) ∧
      (s.kv.length = s.params.kvMax → exec (.kvAppend key value) s = .next (s.failedWith 2 0x50))) ∧
    (∀ i : BitVec 24, encode (.kvGet i) = [0x52#8 ++ i] ∧
      (∀ p : Pair, s.kv[i.toNat]? = some p →
        exec (.kvGet i) s = .next (s.completedWith (textWords p.key ++ textWords p.value))) ∧
      (s.kv.length ≤ i.toNat → exec (.kvGet i) s = .next (s.failedWith 5 4))) ∧
    (encode .kvCount = [0x53000000#32] ∧ exec .kvCount s = .next (s.completedWith [BitVec.ofNat 32 s.kv.length]))

/-! ## THR -/

/-- R241: THR.SET. -/
def Obligations.ThrSetLoads : Prop :=
  ∀ (v : F32) (s : State), encode (.thrSet v) = [0x60000000#32, v] ∧
    exec (.thrSet v) s = .next (State.completedWith { s with thr := v } [])

/-- R240: THR.PROC answers one bit for each sample, 1 when the squared magnitude exceeds the squared threshold, and a
negative threshold acts as its absolute value. -/
def Obligations.ThresholdDetects : Prop :=
  ∀ (xs : List CSample) (s : State), ∃ d : List Bool, d.length = xs.length ∧
    exec (.thrProc xs) s = .next (s.completedWith (packBits d)) ∧
    exec (.thrProc xs) { s with thr := fpNeg s.thr } = .next (State.completedWith { s with thr := fpNeg s.thr } (packBits d)) ∧
    ∀ (k : Nat) (c : CSample), xs[k]? = some c → ∃ site₁ site₂, d[k]? = some
      (f32Gt (f32Add site₁ (f32Mul (0 :: site₂) c.re c.re) (f32Mul (1 :: site₂) c.im c.im)) (f32Mul [s.draws] s.thr s.thr))
end

