-- ==== Sys2Proof/Laws/Operands.lean ====
section
/-!
SUPPORT. What each reader does with the words its layout makes: it takes them all, finds them well-formed and answers the
value that was laid out (R103 to R105).
-/

namespace Sys2Proof.Machine

@[simp] theorem readPure_apply {α : Type} (a : α) (ws : List Word) : readPure a ws = some ⟨a, true, ws⟩ := rfl

@[simp] theorem readWord_cons (w : Word) (ws : List Word) : readWord (w :: ws) = some ⟨w, true, ws⟩ := rfl

@[simp] theorem readWord_nil : readWord [] = none := rfl

theorem readBind_of {α β : Type} {p : Reader α} {g : α → Reader β} {ws mid rest : List Word} {a : α} {b : β}
    (hp : p ws = some ⟨a, true, mid⟩) (hg : g a mid = some ⟨b, true, rest⟩) : readBind p g ws = some ⟨b, true, rest⟩ := by
  simp [readBind, hp, hg]

theorem readMap_of {α β : Type} {p : Reader α} {g : α → β} {ws rest : List Word} {a : α}
    (hp : p ws = some ⟨a, true, rest⟩) : readMap g p ws = some ⟨g a, true, rest⟩ :=
  readBind_of hp rfl

theorem readCheck_of {α : Type} {ok : Bool} {p : Reader α} {ws rest : List Word} {a : α} (hok : ok = true)
    (hp : p ws = some ⟨a, true, rest⟩) : readCheck ok p ws = some ⟨a, true, rest⟩ := by
  simp [readCheck, hp, hok]

theorem readWords_append (xs ws : List Word) : readWords xs.length (xs ++ ws) = some ⟨xs, true, ws⟩ := by
  simp [readWords]

theorem countWord_toNat {n : Nat} (h : n < 2 ^ 32) : (countWord n).toNat = n := by
  simpa [countWord] using h

theorem readNarrow_of {w : Nat} (h : w ≤ 32) (v : BitVec w) (ws : List Word) :
    readNarrow w (v.setWidth 32 :: ws) = some ⟨v, true, ws⟩ := by
  have hv : v.toNat < 2 ^ 32 := lt_of_lt_of_le v.isLt (Nat.pow_le_pow_right (by norm_num) h)
  refine readBind_of (readWord_cons _ _) (readCheck_of ?_ ?_)
  · simp only [BitVec.toNat_setWidth, Nat.mod_eq_of_lt hv, decide_eq_true_eq]; exact v.isLt
  · rw [readPure_apply, BitVec.setWidth_setWidth_of_le _ h, BitVec.setWidth_eq]

theorem readWide_of (v : BitVec 64) (ws : List Word) : readWide (wideWords v ++ ws) = some ⟨v, true, ws⟩ := by
  refine readBind_of (readWord_cons _ _) ?_
  have h := readMap_of (g := fun high : Word => high ++ v.setWidth 32) (readWord_cons ((v >>> 32).setWidth 32) ws)
  rw [show (v >>> 32).setWidth 32 ++ v.setWidth 32 = v by
    ext i hi
    simp only [BitVec.getElem_append, BitVec.getElem_setWidth, BitVec.getLsbD_ushiftRight]
    split
    · simp [BitVec.getLsbD_eq_getElem hi]
    · rw [show 32 + (i - 32) = i by omega, BitVec.getLsbD_eq_getElem hi]] at h
  exact h

theorem packBytes_length (t : Text) : (packBytes t).length = (t.length + 3) / 4 := by simp [packBytes]

theorem packBits_length (bits : List Bool) : (packBits bits).length = (bits.length + 31) / 32 := by simp [packBits]

/-- A word made of four bytes, as a number. -/
theorem fourBytes_toNat (d c b a : Byte) :
    (d ++ c ++ b ++ a : Word).toNat = a.toNat + 256 * b.toNat + 65536 * c.toNat + 16777216 * d.toNat := by
  simp only [BitVec.toNat_append]
  rw [← Nat.shiftLeft_add_eq_or_of_lt c.isLt, ← Nat.shiftLeft_add_eq_or_of_lt b.isLt,
    ← Nat.shiftLeft_add_eq_or_of_lt a.isLt]
  simp only [Nat.shiftLeft_eq]
  omega

/-- The bytes of a packed string, read back. -/
theorem unpackBytes_packBytes (t : Text) : unpackBytes t.length (packBytes t) = t := by
  apply List.ext_getElem
  · simp [unpackBytes]
  · intro k h1 h2
    have hk : k / 4 < (t.length + 3) / 4 := by omega
    have hget : t[k]'h2 = t.getD k 0 := by simp [List.getD_eq_getElem?_getD, h2]
    simp only [unpackBytes, List.getElem_map, List.getElem_range]
    rw [List.getD_eq_getElem?_getD, List.getElem?_eq_getElem (by simpa [packBytes] using hk)]
    simp only [packBytes, List.getElem_map, List.getElem_range, Option.getD_some]
    rw [hget]
    have h4 : k % 4 < 4 := Nat.mod_lt _ (by norm_num)
    have e : k = 4 * (k / 4) + k % 4 := by omega
    conv_rhs => rw [e]
    generalize k / 4 = q at *
    generalize k % 4 = r at *
    apply BitVec.eq_of_toNat_eq
    rw [BitVec.toNat_setWidth, BitVec.toNat_ushiftRight, fourBytes_toNat, Nat.shiftRight_eq_div_pow]
    have hd := (t.getD (4 * q + 3) 0).isLt
    have hc := (t.getD (4 * q + 2) 0).isLt
    have hb := (t.getD (4 * q + 1) 0).isLt
    have ha := (t.getD (4 * q) 0).isLt
    interval_cases r <;> simp only [Nat.mul_zero, Nat.add_zero, Nat.reduceMul, Nat.reducePow] <;> omega

/-- A string, read back (R104). -/
theorem readText_textWords {limit : Nat} {t : Text} (hl : t.length ≤ limit) (h32 : t.length < 2 ^ 32) (ws : List Word) :
    readText limit (textWords t ++ ws) = some ⟨t, true, ws⟩ := by
  have hlen : (BitVec.ofNat 32 t.length).toNat = t.length := by simpa using h32
  refine readBind_of (readWord_cons _ _) (readBind_of (a := packBytes t) (mid := ws) ?_ ?_)
  · rw [hlen, ← packBytes_length]; exact readWords_append _ _
  · rw [hlen, unpackBytes_packBytes]
    exact readCheck_of (by simpa using hl) (readPure_apply _ _)

/-- Bits of a packed vector, read back. -/
theorem unpackBits_packBits (bits : List Bool) : unpackBits bits.length (packBits bits) = bits := by
  apply List.ext_getElem
  · simp [unpackBits]
  · intro k h1 h2
    have hk : k / 32 < (bits.length + 31) / 32 := by omega
    simp only [unpackBits, List.getElem_map, List.getElem_range]
    rw [List.getD_eq_getElem?_getD, List.getElem?_eq_getElem (by simpa [packBits] using hk)]
    simp only [packBits, List.getElem_map, List.getElem_range, Option.getD_some, packBitsWord]
    rw [BitVec.getLsbD_ofFnLE, dif_pos (Nat.mod_lt _ (by norm_num))]
    simp only
    rw [show 32 * (k / 32) + k % 32 = k by omega, List.getD_eq_getElem?_getD, List.getElem?_eq_getElem h2, Option.getD_some]

/-- Digital samples, a record or a bit vector, read back (R103). -/
theorem readBits_packBits (bits : List Bool) (ws : List Word) :
    readBits bits.length (packBits bits ++ ws) = some ⟨bits, true, ws⟩ := by
  refine readBind_of (a := packBits bits) (mid := ws) ?_ ?_
  · rw [← packBits_length]; exact readWords_append _ _
  · rw [unpackBits_packBits]; exact readCheck_of (by simp) (readPure_apply _ _)

theorem flatMap_complexWords_length (cs : List CSample) : (cs.flatMap complexWords).length = 2 * cs.length := by
  induction cs with
  | nil => rfl
  | cons c cs ih => simp [complexWords, ih]; omega

theorem complexesOfWords_flatMap (cs : List CSample) : complexesOfWords (cs.flatMap complexWords) = cs := by
  induction cs with
  | nil => rfl
  | cons c cs ih => simp [complexWords, complexesOfWords, ih]

/-- Complex samples, read back (R103). -/
theorem readComplexes_of (cs : List CSample) (ws : List Word) :
    readComplexes cs.length (cs.flatMap complexWords ++ ws) = some ⟨cs, true, ws⟩ := by
  have h : readWords (2 * cs.length) (cs.flatMap complexWords ++ ws) = some ⟨cs.flatMap complexWords, true, ws⟩ := by
    rw [← flatMap_complexWords_length]; exact readWords_append _ _
  have := readMap_of (g := complexesOfWords) h
  rwa [complexesOfWords_flatMap] at this

theorem rawOfWord_rawWord (r : RawSample) : rawOfWord (rawWord r) = r := by
  have e : (r.q ++ r.i : Word).toNat = r.i.toNat + 65536 * r.q.toNat := by
    simp only [BitVec.toNat_append]
    rw [← Nat.shiftLeft_add_eq_or_of_lt r.i.isLt, Nat.shiftLeft_eq]; omega
  have hi := r.i.isLt
  have hq := r.q.isLt
  obtain ⟨i, q⟩ := r
  simp only [rawOfWord, rawWord, RawSample.mk.injEq]
  constructor <;> apply BitVec.eq_of_toNat_eq <;>
    simp only [BitVec.toNat_setWidth, BitVec.toNat_ushiftRight, Nat.shiftRight_eq_div_pow, Nat.reducePow] at * <;> omega

/-- Raw samples, read back (R103). -/
theorem readRaws_of (rs : List RawSample) (ws : List Word) :
    readRaws rs.length (rs.map rawWord ++ ws) = some ⟨rs, true, ws⟩ := by
  have h : readWords rs.length (rs.map rawWord ++ ws) = some ⟨rs.map rawWord, true, ws⟩ := by
    have := readWords_append (rs.map rawWord) ws
    rwa [List.length_map] at this
  have := readMap_of (g := List.map rawOfWord) h
  rwa [List.map_map, show rawOfWord ∘ rawWord = id from funext rawOfWord_rawWord, List.map_id] at this

/-- A pair of strings, read back (R112). -/
theorem readPair_of {limit : Nat} {p : Pair} (hk : p.key.length ≤ limit) (hv : p.value.length ≤ limit)
    (hk32 : p.key.length < 2 ^ 32) (hv32 : p.value.length < 2 ^ 32) (ws : List Word) :
    readPair limit (pairWords p ++ ws) = some ⟨p, true, ws⟩ := by
  rw [pairWords, List.append_assoc]
  exact readBind_of (readText_textWords hk hk32 _) (readMap_of (readText_textWords hv hv32 ws))

/-- Pairs of strings, read back (R112). -/
theorem readPairs_of {limit : Nat} {ps : List Pair}
    (h : ∀ p ∈ ps, p.key.length ≤ limit ∧ p.value.length ≤ limit ∧ p.key.length < 2 ^ 32 ∧ p.value.length < 2 ^ 32)
    (ws : List Word) : readPairs limit ps.length (ps.flatMap pairWords ++ ws) = some ⟨ps, true, ws⟩ := by
  induction ps with
  | nil => rfl
  | cons p ps ih =>
    obtain ⟨h1, h2, h3, h4⟩ := h p (by simp)
    rw [List.flatMap_cons, List.append_assoc, List.length_cons]
    exact readBind_of (readPair_of h1 h2 h3 h4 _) (readMap_of (ih fun q hq => h q (by simp [hq])))

/-- A stage descriptor, read back (R107). -/
theorem readStage_of {st : StageSpec} (h : st.taps.length < 2 ^ 32) (ws : List Word) :
    readStage (stageWords st ++ ws) = some ⟨st, true, ws⟩ := by
  refine readBind_of (readWord_cons _ _) (readBind_of (readWord_cons _ _) ?_)
  have e : (BitVec.ofNat 32 st.taps.length).toNat = st.taps.length := by simpa using h
  rw [e]
  exact readMap_of (readWords_append st.taps ws)

/-- Stage descriptors, read back (R107). -/
theorem readStages_of {sts : List StageSpec} (h : ∀ st ∈ sts, st.taps.length < 2 ^ 32) (ws : List Word) :
    readStages sts.length (sts.flatMap stageWords ++ ws) = some ⟨sts, true, ws⟩ := by
  induction sts with
  | nil => rfl
  | cons st sts ih =>
    rw [List.flatMap_cons, List.append_assoc, List.length_cons]
    exact readBind_of (readStage_of (h st (by simp)) _) (readMap_of (ih fun q hq => h q (by simp [hq])))

end Sys2Proof.Machine
end

