-- ==== Sys2Proof/Laws/Decode.lean ====
section
/-!
SUPPORT. The command word and the packed operand words, taken apart (R101, R110, R114).
-/

namespace Sys2Proof

open Machine

/-- A command word as a number. -/
theorem commandWord_toNat (opc : BitVec 8) (arg : BitVec 24) : (opc ++ arg : Word).toNat = opc.toNat * 2 ^ 24 + arg.toNat := by
  rw [BitVec.toNat_append, ← Nat.shiftLeft_add_eq_or_of_lt arg.isLt, Nat.shiftLeft_eq]

theorem headerOpc_append (opc : BitVec 8) (arg : BitVec 24) : headerOpc (opc ++ arg : Word) = opc := by
  apply BitVec.eq_of_toNat_eq
  have h1 := opc.isLt
  have h2 := arg.isLt
  rw [headerOpc, BitVec.toNat_setWidth, BitVec.toNat_ushiftRight, commandWord_toNat, Nat.shiftRight_eq_div_pow]
  omega

theorem headerArg_append (opc : BitVec 8) (arg : BitVec 24) : headerArg (opc ++ arg : Word) = arg := by
  apply BitVec.eq_of_toNat_eq
  have h2 := arg.isLt
  rw [headerArg, BitVec.toNat_setWidth, commandWord_toNat]
  omega

/-- FW0 as a number (R110). -/
theorem fieldWord0_toNat (startBit endBit : BitVec 16) : (fieldWord0 startBit endBit).toNat = endBit.toNat * 2 ^ 16 + startBit.toNat := by
  rw [fieldWord0, BitVec.toNat_append, ← Nat.shiftLeft_add_eq_or_of_lt startBit.isLt, Nat.shiftLeft_eq]

/-- FW1 as a number (R110). -/
theorem fieldWord1_toNat (format : BitVec 3) (endianness : BitVec 2) (enumCount : BitVec 16) :
    (fieldWord1 format endianness enumCount).toNat = enumCount.toNat * 2 ^ 16 + endianness.toNat * 2 ^ 4 + format.toNat := by
  have h1 := format.isLt
  have h2 := endianness.isLt
  simp only [fieldWord1, BitVec.toNat_append]
  rw [← Nat.shiftLeft_add_eq_or_of_lt format.isLt, ← Nat.shiftLeft_add_eq_or_of_lt (0#1).isLt,
    ← Nat.shiftLeft_add_eq_or_of_lt endianness.isLt, ← Nat.shiftLeft_add_eq_or_of_lt]
  · simp [Nat.shiftLeft_eq]; omega
  · simp [Nat.shiftLeft_eq]; omega

/-- TW0 as a number (R114). -/
theorem triggerWord0_toNat (cond action : BitVec 3) (next : BitVec 16) :
    (triggerWord0 cond action next).toNat = next.toNat * 2 ^ 16 + action.toNat * 2 ^ 4 + cond.toNat := by
  have h1 := cond.isLt
  have h2 := action.isLt
  simp only [triggerWord0, BitVec.toNat_append]
  rw [← Nat.shiftLeft_add_eq_or_of_lt cond.isLt, ← Nat.shiftLeft_add_eq_or_of_lt (0#1).isLt,
    ← Nat.shiftLeft_add_eq_or_of_lt action.isLt, ← Nat.shiftLeft_add_eq_or_of_lt]
  · simp [Nat.shiftLeft_eq]; omega
  · simp [Nat.shiftLeft_eq]; omega

end Sys2Proof
end

