-- ==== Sys2Proof/Laws/State.lean ====
section
/-!
SUPPORT. One lemma per field per update of State and of the BSM, so that no proof unfolds a record update.
-/

namespace Sys2Proof.Machine

/-! ## Ending a command -/

@[simp] theorem State.complete_params (s : State) (ws : List Word) : (s.complete ws).params = s.params := rfl

@[simp] theorem State.complete_status (s : State) (ws : List Word) : (s.complete ws).status = 0 := rfl

@[simp] theorem State.complete_info (s : State) (ws : List Word) : (s.complete ws).info = 0 := rfl

@[simp] theorem State.complete_fir (s : State) (ws : List Word) : (s.complete ws).fir = s.fir := rfl

@[simp] theorem State.complete_thr (s : State) (ws : List Word) : (s.complete ws).thr = s.thr := rfl

@[simp] theorem State.complete_bfc (s : State) (ws : List Word) : (s.complete ws).bfc = s.bfc := rfl

@[simp] theorem State.complete_bsm (s : State) (ws : List Word) : (s.complete ws).bsm = s.bsm := rfl

@[simp] theorem State.complete_kv (s : State) (ws : List Word) : (s.complete ws).kv = s.kv := rfl

@[simp] theorem State.complete_rx (s : State) (ws : List Word) : (s.complete ws).rx = s.rx := rfl

@[simp] theorem State.complete_reply (s : State) (ws : List Word) : (s.complete ws).reply = replyStatusWord 0 0 :: ws := rfl

@[simp] theorem State.complete_draws (s : State) (ws : List Word) : (s.complete ws).draws = s.draws + 1 := rfl

@[simp] theorem State.fail_params (s : State) (r : Raised) : (s.fail r).params = s.params := rfl

@[simp] theorem State.fail_status (s : State) (r : Raised) : (s.fail r).status = statusCode r.code := rfl

@[simp] theorem State.fail_info (s : State) (r : Raised) : (s.fail r).info = r.info := rfl

@[simp] theorem State.fail_fir (s : State) (r : Raised) : (s.fail r).fir = s.fir := rfl

@[simp] theorem State.fail_thr (s : State) (r : Raised) : (s.fail r).thr = s.thr := rfl

@[simp] theorem State.fail_bfc (s : State) (r : Raised) : (s.fail r).bfc = s.bfc := rfl

@[simp] theorem State.fail_bsm (s : State) (r : Raised) : (s.fail r).bsm = s.bsm := rfl

@[simp] theorem State.fail_kv (s : State) (r : Raised) : (s.fail r).kv = s.kv := rfl

@[simp] theorem State.fail_rx (s : State) (r : Raised) : (s.fail r).rx = s.rx := rfl

@[simp] theorem State.fail_reply (s : State) (r : Raised) : (s.fail r).reply = [replyStatusWord (statusCode r.code) r.info] := rfl

@[simp] theorem State.fail_draws (s : State) (r : Raised) : (s.fail r).draws = s.draws + 1 := rfl

/-! ## Taking a command -/

@[simp] theorem State.consume_params (s : State) (ws : List Word) : (s.consume ws).params = s.params := rfl

@[simp] theorem State.consume_status (s : State) (ws : List Word) : (s.consume ws).status = s.status := rfl

@[simp] theorem State.consume_info (s : State) (ws : List Word) : (s.consume ws).info = s.info := rfl

@[simp] theorem State.consume_fir (s : State) (ws : List Word) : (s.consume ws).fir = s.fir := rfl

@[simp] theorem State.consume_thr (s : State) (ws : List Word) : (s.consume ws).thr = s.thr := rfl

@[simp] theorem State.consume_bfc (s : State) (ws : List Word) : (s.consume ws).bfc = s.bfc := rfl

@[simp] theorem State.consume_bsm (s : State) (ws : List Word) : (s.consume ws).bsm = s.bsm := rfl

@[simp] theorem State.consume_kv (s : State) (ws : List Word) : (s.consume ws).kv = s.kv := rfl

@[simp] theorem State.consume_rx (s : State) (ws : List Word) : (s.consume ws).rx = ws := rfl

@[simp] theorem State.consume_reply (s : State) (ws : List Word) : (s.consume ws).reply = s.reply := rfl

@[simp] theorem State.consume_draws (s : State) (ws : List Word) : (s.consume ws).draws = s.draws := rfl

@[simp] theorem State.withFetchWord_params (s : State) (n w : Nat) : (s.withFetchWord n w).params = s.params := rfl

@[simp] theorem State.withFetchWord_status (s : State) (n w : Nat) : (s.withFetchWord n w).status = s.status := rfl

@[simp] theorem State.withFetchWord_info (s : State) (n w : Nat) : (s.withFetchWord n w).info = s.info := rfl

@[simp] theorem State.withFetchWord_fir (s : State) (n w : Nat) : (s.withFetchWord n w).fir = s.fir := rfl

@[simp] theorem State.withFetchWord_thr (s : State) (n w : Nat) : (s.withFetchWord n w).thr = s.thr := rfl

@[simp] theorem State.withFetchWord_bfc (s : State) (n w : Nat) : (s.withFetchWord n w).bfc = s.bfc := rfl

@[simp] theorem State.withFetchWord_bsm (s : State) (n w : Nat) : (s.withFetchWord n w).bsm = s.bsm := rfl

@[simp] theorem State.withFetchWord_kv (s : State) (n w : Nat) : (s.withFetchWord n w).kv = s.kv := rfl

@[simp] theorem State.withFetchWord_rx (s : State) (n w : Nat) : (s.withFetchWord n w).rx = fetchWords s n w := rfl

@[simp] theorem State.withFetchWord_reply (s : State) (n w : Nat) : (s.withFetchWord n w).reply = s.reply := rfl

@[simp] theorem State.withFetchWord_draws (s : State) (n w : Nat) : (s.withFetchWord n w).draws = s.draws := rfl

/-! ## The BSM's registers -/

@[simp] theorem clearAcc_valid (b : Bsm) : (clearAcc b).valid = b.valid := rfl

@[simp] theorem clearAcc_fs (b : Bsm) : (clearAcc b).fs = b.fs := rfl

@[simp] theorem clearAcc_msgBits (b : Bsm) : (clearAcc b).msgBits = b.msgBits := rfl

@[simp] theorem clearAcc_onVal (b : Bsm) : (clearAcc b).onVal = b.onVal := rfl

@[simp] theorem clearAcc_states (b : Bsm) : (clearAcc b).states = b.states := rfl

@[simp] theorem clearAcc_cur (b : Bsm) : (clearAcc b).cur = b.cur := rfl

@[simp] theorem clearAcc_bitcnt (b : Bsm) : (clearAcc b).bitcnt = 0 := rfl

@[simp] theorem clearAcc_scount (b : Bsm) : (clearAcc b).scount = b.scount := rfl

@[simp] theorem clearAcc_prev (b : Bsm) : (clearAcc b).prev = b.prev := rfl

@[simp] theorem clearAcc_acc (b : Bsm) : (clearAcc b).acc = List.replicate b.msgBits.toNat false := rfl

@[simp] theorem clearAcc_clrPending (b : Bsm) : (clearAcc b).clrPending = b.clrPending := rfl

@[simp] theorem appendBit_valid (b : Bsm) (v : Bool) : (appendBit b v).valid = b.valid := rfl

@[simp] theorem appendBit_fs (b : Bsm) (v : Bool) : (appendBit b v).fs = b.fs := rfl

@[simp] theorem appendBit_msgBits (b : Bsm) (v : Bool) : (appendBit b v).msgBits = b.msgBits := rfl

@[simp] theorem appendBit_onVal (b : Bsm) (v : Bool) : (appendBit b v).onVal = b.onVal := rfl

@[simp] theorem appendBit_states (b : Bsm) (v : Bool) : (appendBit b v).states = b.states := rfl

@[simp] theorem appendBit_cur (b : Bsm) (v : Bool) : (appendBit b v).cur = b.cur := rfl

@[simp] theorem appendBit_bitcnt (b : Bsm) (v : Bool) : (appendBit b v).bitcnt = b.bitcnt + 1 := rfl

@[simp] theorem appendBit_scount (b : Bsm) (v : Bool) : (appendBit b v).scount = b.scount := rfl

@[simp] theorem appendBit_prev (b : Bsm) (v : Bool) : (appendBit b v).prev = b.prev := rfl

@[simp] theorem appendBit_acc (b : Bsm) (v : Bool) : (appendBit b v).acc = b.acc.set b.bitcnt v := rfl

@[simp] theorem appendBit_clrPending (b : Bsm) (v : Bool) : (appendBit b v).clrPending = b.clrPending := rfl

@[simp] theorem hardReset_valid (b : Bsm) : (hardReset b).valid = b.valid := rfl

@[simp] theorem hardReset_fs (b : Bsm) : (hardReset b).fs = b.fs := rfl

@[simp] theorem hardReset_msgBits (b : Bsm) : (hardReset b).msgBits = b.msgBits := rfl

@[simp] theorem hardReset_onVal (b : Bsm) : (hardReset b).onVal = b.onVal := rfl

@[simp] theorem hardReset_states (b : Bsm) : (hardReset b).states = b.states := rfl

@[simp] theorem hardReset_cur (b : Bsm) : (hardReset b).cur = 0 := rfl

@[simp] theorem hardReset_bitcnt (b : Bsm) : (hardReset b).bitcnt = 0 := rfl

@[simp] theorem hardReset_scount (b : Bsm) : (hardReset b).scount = 0 := rfl

@[simp] theorem hardReset_prev (b : Bsm) : (hardReset b).prev = b.prev := rfl

@[simp] theorem hardReset_acc (b : Bsm) : (hardReset b).acc = List.replicate b.msgBits.toNat false := rfl

@[simp] theorem hardReset_clrPending (b : Bsm) : (hardReset b).clrPending = false := rfl

@[simp] theorem recover_valid (b : Bsm) (x : Bool) : (recover b x).valid = b.valid := rfl

@[simp] theorem recover_fs (b : Bsm) (x : Bool) : (recover b x).fs = b.fs := rfl

@[simp] theorem recover_msgBits (b : Bsm) (x : Bool) : (recover b x).msgBits = b.msgBits := rfl

@[simp] theorem recover_onVal (b : Bsm) (x : Bool) : (recover b x).onVal = b.onVal := rfl

@[simp] theorem recover_states (b : Bsm) (x : Bool) : (recover b x).states = b.states := rfl

@[simp] theorem recover_cur (b : Bsm) (x : Bool) : (recover b x).cur = 0 := rfl

@[simp] theorem recover_bitcnt (b : Bsm) (x : Bool) : (recover b x).bitcnt = 0 := rfl

@[simp] theorem recover_scount (b : Bsm) (x : Bool) : (recover b x).scount = 0 := rfl

@[simp] theorem recover_prev (b : Bsm) (x : Bool) : (recover b x).prev = x := rfl

@[simp] theorem recover_acc (b : Bsm) (x : Bool) : (recover b x).acc = List.replicate b.msgBits.toNat false := rfl

@[simp] theorem recover_clrPending (b : Bsm) (x : Bool) : (recover b x).clrPending = false := rfl

@[simp] theorem countSample_valid (b : Bsm) : (countSample b).valid = b.valid := rfl

@[simp] theorem countSample_fs (b : Bsm) : (countSample b).fs = b.fs := rfl

@[simp] theorem countSample_msgBits (b : Bsm) : (countSample b).msgBits = b.msgBits := rfl

@[simp] theorem countSample_onVal (b : Bsm) : (countSample b).onVal = b.onVal := rfl

@[simp] theorem countSample_states (b : Bsm) : (countSample b).states = b.states := rfl

@[simp] theorem countSample_cur (b : Bsm) : (countSample b).cur = b.cur := rfl

@[simp] theorem countSample_bitcnt (b : Bsm) : (countSample b).bitcnt = b.bitcnt := rfl

@[simp] theorem countSample_scount (b : Bsm) : (countSample b).scount = min (b.scount + 1) scountMax := rfl

@[simp] theorem countSample_prev (b : Bsm) : (countSample b).prev = b.prev := rfl

@[simp] theorem countSample_acc (b : Bsm) : (countSample b).acc = b.acc := rfl

@[simp] theorem countSample_clrPending (b : Bsm) : (countSample b).clrPending = b.clrPending := rfl

/-! ## The FIR's and the BFC's memories -/

@[simp] theorem histInsert_decim (st : Stage) (x : CSample) : (histInsert st x).decim = st.decim := rfl

@[simp] theorem histInsert_taps (st : Stage) (x : CSample) : (histInsert st x).taps = st.taps := rfl

@[simp] theorem histInsert_hist (st : Stage) (x : CSample) : (histInsert st x).hist = (st.hist.set st.wp x).set (st.wp + stageTaps st) x := rfl

@[simp] theorem histInsert_wp (st : Stage) (x : CSample) : (histInsert st x).wp = st.wp := rfl

@[simp] theorem histInsert_cnt (st : Stage) (x : CSample) : (histInsert st x).cnt = st.cnt := rfl

@[simp] theorem histInsert_obuf (st : Stage) (x : CSample) : (histInsert st x).obuf = st.obuf := rfl

@[simp] theorem histInsert_ocount (st : Stage) (x : CSample) : (histInsert st x).ocount = st.ocount := rfl

@[simp] theorem obufAppend_decim (st : Stage) (y : CSample) : (obufAppend st y).decim = st.decim := rfl

@[simp] theorem obufAppend_taps (st : Stage) (y : CSample) : (obufAppend st y).taps = st.taps := rfl

@[simp] theorem obufAppend_hist (st : Stage) (y : CSample) : (obufAppend st y).hist = st.hist := rfl

@[simp] theorem obufAppend_wp (st : Stage) (y : CSample) : (obufAppend st y).wp = st.wp := rfl

@[simp] theorem obufAppend_cnt (st : Stage) (y : CSample) : (obufAppend st y).cnt = st.cnt := rfl

@[simp] theorem obufAppend_obuf (st : Stage) (y : CSample) : (obufAppend st y).obuf = st.obuf.set st.ocount y := rfl

@[simp] theorem obufAppend_ocount (st : Stage) (y : CSample) : (obufAppend st y).ocount = st.ocount + 1 := rfl

@[simp] theorem advancePointer_decim (st : Stage) : (advancePointer st).decim = st.decim := rfl

@[simp] theorem advancePointer_taps (st : Stage) : (advancePointer st).taps = st.taps := rfl

@[simp] theorem advancePointer_hist (st : Stage) : (advancePointer st).hist = st.hist := rfl

@[simp] theorem advancePointer_wp (st : Stage) : (advancePointer st).wp = if st.wp + 1 + stageTaps st = 2 * stageTaps st then 0 else st.wp + 1 := rfl

@[simp] theorem advancePointer_cnt (st : Stage) : (advancePointer st).cnt = st.cnt := rfl

@[simp] theorem advancePointer_obuf (st : Stage) : (advancePointer st).obuf = st.obuf := rfl

@[simp] theorem advancePointer_ocount (st : Stage) : (advancePointer st).ocount = st.ocount := rfl

@[simp] theorem loadScratch_valid (b : Bfc) (r : List Bool) : (loadScratch b r).valid = b.valid := rfl

@[simp] theorem loadScratch_recordBits (b : Bfc) (r : List Bool) : (loadScratch b r).recordBits = b.recordBits := rfl

@[simp] theorem loadScratch_tsMode (b : Bfc) (r : List Bool) : (loadScratch b r).tsMode = b.tsMode := rfl

@[simp] theorem loadScratch_slots (b : Bfc) (r : List Bool) : (loadScratch b r).slots = b.slots := rfl

@[simp] theorem loadScratch_record (b : Bfc) (r : List Bool) : (loadScratch b r).record = loadRecord b.recordBits.toNat r := rfl

@[simp] theorem loadScratch_spt (b : Bfc) (r : List Bool) : (loadScratch b r).spt = b.spt := rfl

@[simp] theorem writeField_valid (b : Bfc) (f : BitField) (raw : Nat) : (writeField b f raw).valid = b.valid := rfl

@[simp] theorem writeField_recordBits (b : Bfc) (f : BitField) (raw : Nat) : (writeField b f raw).recordBits = b.recordBits := rfl

@[simp] theorem writeField_tsMode (b : Bfc) (f : BitField) (raw : Nat) : (writeField b f raw).tsMode = b.tsMode := rfl

@[simp] theorem writeField_slots (b : Bfc) (f : BitField) (raw : Nat) : (writeField b f raw).slots = b.slots := rfl

@[simp] theorem writeField_record (b : Bfc) (f : BitField) (raw : Nat) : (writeField b f raw).record = insertField f b.record raw := rfl

@[simp] theorem writeField_spt (b : Bfc) (f : BitField) (raw : Nat) : (writeField b f raw).spt = BitVec.ofNat 64 raw := rfl

end Sys2Proof.Machine
end

