-- ==== Sys2Proof/Laws/Ops.lean ====
section
/-!
SUPPORT. What each shared operation can do, once: ending a command, the record's bit fields, the field table, the FIR
memories, the accumulator, the list and the generate buffer.
-/

namespace Sys2Proof.Machine

/-! ## Ending a command -/

theorem done_next {s t : State} {ws : List Word} (h : done s ws = .next t) : t = s.complete ws := by
  simpa [done, eq_comm] using h

theorem raise_next {s t : State} {r : Raised} (h : raise s r = .next t) : t = s.fail r := by
  simpa [raise, eq_comm] using h

theorem State.complete_eq (s : State) (ws : List Word) : s.complete ws = s.completedWith ws := rfl

theorem State.fail_eq (s : State) (r : Raised) : s.fail r = s.failedWith (statusCode r.code) r.info := rfl

theorem statusCode_ne_zero (e : ErrorCode) : statusCode e ≠ 0 := by cases e <;> decide

theorem statusCode_le (e : ErrorCode) : (statusCode e).toNat ≤ 13 := by cases e <;> decide

theorem infoWord_lt (c i : Nat) : (infoWord c i).toNat < 2 ^ 24 := by
  simp only [infoWord, BitVec.toNat_ofNat]; omega

/-! ## Record bits -/

theorem fieldWidth_pos (f : BitField) : 0 < fieldWidth f := Nat.succ_pos _

theorem extractField_lt (f : BitField) (bits : List Bool) : extractField f bits < 2 ^ fieldWidth f := Nat.ofBits_lt_two_pow _

/-- Value bit `j` of an extracted field (R201). -/
theorem extractField_testBit (f : BitField) (bits : List Bool) {j : Nat} (h : j < fieldWidth f) :
    (extractField f bits).testBit j = bits.getD (f.startBit.toNat + bitOffset f j) false :=
  Nat.testBit_ofBits_lt _ _ h

@[simp] theorem insertField_length (f : BitField) (bits : List Bool) (raw : Nat) : (insertField f bits raw).length = bits.length := by
  simp [insertField]

/-- Record bit `b` after a field was written (R202). -/
theorem insertField_getD (f : BitField) (bits : List Bool) (raw b : Nat) (h : b < bits.length) :
    (insertField f bits raw).getD b false =
      if f.startBit.toNat ≤ b ∧ b ≤ f.endBit.toNat then raw.testBit (bitOffset f (b - f.startBit.toNat)) else bits.getD b false := by
  simp only [insertField, List.getD_eq_getElem?_getD, List.getElem?_mapIdx, List.getElem?_eq_getElem h, Option.map_some, Option.getD_some]

/-- A record bit outside the field keeps its value (R202). -/
theorem insertField_getD_outside (f : BitField) (bits : List Bool) (raw b : Nat) (h : b < f.startBit.toNat ∨ f.endBit.toNat < b) :
    (insertField f bits raw).getD b false = bits.getD b false := by
  by_cases hb : b < bits.length
  · rw [insertField_getD f bits raw b hb, if_neg (by omega)]
  · have h1 : (insertField f bits raw)[b]? = none := List.getElem?_eq_none (by simpa using hb)
    have h2 : bits[b]? = none := List.getElem?_eq_none (by simpa using hb)
    rw [List.getD_eq_getElem?_getD, List.getD_eq_getElem?_getD, h1, h2]

theorem bitOffset_bitOffset (f : BitField) {j : Nat} (h : j < fieldWidth f) : bitOffset f (bitOffset f j) = j := by
  cases e : f.endian <;> simp only [bitOffset, e]; omega

theorem bitOffset_lt (f : BitField) {j : Nat} (h : j < fieldWidth f) : bitOffset f j < fieldWidth f := by
  cases e : f.endian <;> simp only [bitOffset, e] <;> omega

@[simp] theorem loadRecord_length (n : Nat) (r : List Bool) : (loadRecord n r).length = 8 * ((n + 7) / 8) := by simp [loadRecord]

/-- A loaded record: the operand's bits below `record_bits`, 0 above (R210). -/
theorem loadRecord_getD (n : Nat) (r : List Bool) (b : Nat) :
    (loadRecord n r).getD b false = (decide (b < n) && r.getD b false) := by
  by_cases h : b < 8 * ((n + 7) / 8)
  · simp [loadRecord, List.getD_eq_getElem?_getD, List.getElem?_map, List.getElem?_range h]
  · have h1 : (loadRecord n r)[b]? = none := List.getElem?_eq_none (by simpa using Nat.le_of_not_lt h)
    have h2 : ¬ b < n := by omega
    simp [List.getD_eq_getElem?_getD, h1, h2]

/-! ## The field table -/

/-- A field that is found is a used slot of that name (R183). -/
theorem findField_some {b : Bfc} {name : Text} {f : BitField} (h : findField b name = some f) :
    f ∈ usedFields b ∧ f.name = name := by
  unfold findField at h
  cases hf : b.slots.find? (fun o => o.any fun f => decide (f.name = name)) with
  | none => simp [hf] at h
  | some o =>
    simp only [hf, Option.getD_some] at h
    subst h
    have hp := List.find?_some hf
    have hm := List.mem_of_find?_eq_some hf
    simp only [Option.any_some, decide_eq_true_eq] at hp
    exact ⟨by simpa [usedFields] using hm, hp⟩

@[simp] theorem updateField_length (name : Text) (g : BitField → BitField) (l : List (Option BitField)) :
    (updateField name g l).length = l.length := by
  induction l with
  | nil => rfl
  | cons o l ih =>
    cases o with
    | none => simp [updateField, ih]
    | some f => by_cases h : f.name = name <;> simp [updateField, h, ih]

/-! ## The FIR memories -/

theorem histInsert_hist_length (st : Stage) (x : CSample) : (histInsert st x).hist.length = st.hist.length := by simp

theorem stageStep_taps (site : Site) (st : Stage) (x : CSample) : (stageStep site st x).taps = st.taps := by
  unfold stageStep; dsimp only; split <;> simp

theorem stageStep_decim (site : Site) (st : Stage) (x : CSample) : (stageStep site st x).decim = st.decim := by
  unfold stageStep; dsimp only; split <;> simp

theorem stageStep_hist_length (site : Site) (st : Stage) (x : CSample) :
    (stageStep site st x).hist.length = st.hist.length := by
  unfold stageStep; dsimp only; split <;> simp

theorem stageStep_obuf_length (site : Site) (st : Stage) (x : CSample) :
    (stageStep site st x).obuf.length = st.obuf.length := by
  unfold stageStep; dsimp only; split <;> simp

@[simp] theorem delayLine_length (st : Stage) : (delayLine st).length = st.taps.length := by simp [delayLine, stageTaps]

/-! ## The state machine -/

/-- BSM.PROC examines at most the samples it was given (R259). -/
theorem sampleLoop_le (xs : List Bool) (k : Nat) (b : Bsm) : (sampleLoop k b xs).2.1 ≤ k + xs.length := by
  induction xs generalizing k b with
  | nil => simp [sampleLoop]
  | cons x xs ih =>
    simp only [sampleLoop]
    split
    · refine (ih _ _).trans ?_; simp only [List.length_cons]; omega
    · simp only [List.length_cons]; omega

/-- BSM.PROC that gives no output examined every sample (R259). -/
theorem sampleLoop_noOutput (xs : List Bool) (k : Nat) (b : Bsm) (h : (sampleLoop k b xs).2.2 = .noOutputYet) :
    (sampleLoop k b xs).2.1 = k + xs.length := by
  induction xs generalizing k b with
  | nil => simp [sampleLoop]
  | cons x xs ih =>
    rcases hs : sampleStep b x with ⟨b', r⟩
    cases r <;> simp only [sampleLoop, hs, reduceCtorEq] at h ⊢
    rw [ih _ _ h, List.length_cons]; omega

/-- A sample step writes no configuration register (R40, R41). -/
theorem sampleStep_config (b : Bsm) (x : Bool) :
    (sampleStep b x).1.states = b.states ∧ (sampleStep b x).1.fs = b.fs ∧ (sampleStep b x).1.msgBits = b.msgBits ∧
      (sampleStep b x).1.onVal = b.onVal ∧ (sampleStep b x).1.valid = b.valid := by
  unfold sampleStep
  dsimp only
  split
  · exact ⟨rfl, rfl, rfl, rfl, rfl⟩
  · split
    · exact ⟨rfl, rfl, rfl, rfl, rfl⟩
    · split
      · exact ⟨rfl, rfl, rfl, rfl, rfl⟩
      · next t _ _ b1 h =>
        have hb : b1.states = b.states ∧ b1.fs = b.fs ∧ b1.msgBits = b.msgBits ∧ b1.onVal = b.onVal ∧ b1.valid = b.valid := by
          unfold performAction at h
          split at h
          · split at h
            · cases h
            · cases h; exact ⟨rfl, rfl, rfl, rfl, rfl⟩
          · split at h
            · cases h
            · cases h; exact ⟨rfl, rfl, rfl, rfl, rfl⟩
          · cases h; exact ⟨rfl, rfl, rfl, rfl, rfl⟩
        unfold enterNext
        dsimp only
        split
        · split <;> exact hb
        · exact hb

/-! ## The list and the generate buffer -/

/-- Appending pairs one by one: as many as fit, and the flag says whether one did not (R313). -/
theorem appendPairs_spec (m : Nat) (kv ps : List Pair) :
    appendPairs m kv ps = (kv ++ ps.take (m - kv.length), decide (m - kv.length < ps.length)) := by
  induction ps generalizing kv with
  | nil => simp [appendPairs]
  | cons p ps ih =>
    simp only [appendPairs]
    by_cases h : m ≤ kv.length
    · have h0 : m - kv.length = 0 := by omega
      simp [h, h0]
    · obtain ⟨n, hn⟩ : ∃ n, m - kv.length = n + 1 := ⟨m - kv.length - 1, by omega⟩
      have hn' : m - (kv ++ [p]).length = n := by rw [List.length_append, List.length_singleton]; omega
      rw [if_neg h, ih, hn, hn']
      simp

/-- The buffer after growth holds what was needed and is no smaller (R292). -/
theorem growCapacity_some {m need fuel cap c : Nat} (h : growCapacity m need fuel cap = some c) :
    need ≤ c ∧ (c = cap ∨ c ≤ m) := by
  induction fuel generalizing cap with
  | zero =>
    simp only [growCapacity] at h
    split at h
    · next hn => cases h; exact ⟨hn, .inl rfl⟩
    · cases h
  | succ n ih =>
    simp only [growCapacity] at h
    split at h
    · next hn => cases h; exact ⟨hn, .inl rfl⟩
    · split at h
      · cases h
      · next hm =>
        obtain ⟨h1, h2⟩ := ih h
        exact ⟨h1, .inr (by rcases h2 with h2 | h2 <;> omega)⟩

/-- Growth reaches the first capacity or a doubling of it that GEN_MAX_SAMPLES allows (R292). -/
theorem growCapacity_reached {p : Params} {need fuel cap c : Nat} (h : growCapacity p.genMaxSamples need fuel cap = some c) :
    GenCapacity p cap c := by
  induction fuel generalizing cap with
  | zero =>
    simp only [growCapacity] at h
    split at h
    · cases h; exact ⟨0, by simp, .inl rfl⟩
    · cases h
  | succ n ih =>
    simp only [growCapacity] at h
    split at h
    · cases h; exact ⟨0, by simp, .inl rfl⟩
    · split at h
      · cases h
      · next hm =>
        obtain ⟨k, rfl, hk⟩ := ih h
        refine ⟨k + 1, by ring, .inr ?_⟩
        rcases hk with rfl | hk <;> omega

/-- Growth fails only where no capacity that can be reached is enough (R292). -/
theorem growCapacity_none {p : Params} {need fuel cap : Nat} (hf : cap = 0 ∨ p.genMaxSamples < 2 ^ fuel * cap)
    (h : growCapacity p.genMaxSamples need fuel cap = none) (c : Nat) (hc : GenCapacity p cap c) : c < need := by
  obtain ⟨k, rfl, hk⟩ := hc
  induction fuel generalizing cap k with
  | zero =>
    simp only [growCapacity] at h
    split at h
    · cases h
    · next hn =>
      rcases hk with rfl | hk
      · omega
      · have : cap ≤ 2 ^ k * cap := Nat.le_mul_of_pos_left cap (by positivity)
        rcases hf with rfl | hf <;> omega
  | succ n ih =>
    simp only [growCapacity] at h
    split at h
    · cases h
    · next hn =>
      cases k with
      | zero => omega
      | succ k =>
        have e : 2 ^ (k + 1) * cap = 2 ^ k * (2 * cap) := by ring
        rw [e] at hk ⊢
        have hk' : 2 ^ k * (2 * cap) ≤ p.genMaxSamples := by omega
        have : 2 * cap ≤ 2 ^ k * (2 * cap) := Nat.le_mul_of_pos_left _ (by positivity)
        rw [if_neg (by omega)] at h
        exact ih (by rcases hf with rfl | hf
                     · exact .inl rfl
                     · exact .inr (by rw [pow_succ] at hf; rwa [← mul_assoc])) h k (.inr hk')

/-- Samples are appended at the end of the buffer, within its capacity (R280, R292). -/
theorem emitSamples_ok {m count : Nat} {w w' : GenWalk} {a : F32} (h : emitSamples m w count a = .ok w') :
    w'.buf = w.buf ++ List.replicate count a ∧ w'.cur = w.cur ∧ w'.level = w.level ∧ w'.bits = w.bits ∧ w'.idle = w.idle ∧
      w.buf.length + count ≤ w'.gcap ∧ (w'.gcap = w.gcap ∨ w'.gcap ≤ m) := by
  unfold emitSamples at h
  split at h
  · cases h
  · next c hc =>
    cases h
    obtain ⟨h1, h2⟩ := growCapacity_some hc
    exact ⟨rfl, rfl, rfl, rfl, rfl, h1, h2⟩

/-- `cond_ok` in the terms of R280. -/
theorem generateCondOk_iff (w : GenWalk) (t : Trigger) : generateCondOk w.level w.bit.isNone t = true ↔ GenPossible w t := by
  obtain ⟨cur, level, bits, buf, cap, idle⟩ := w
  obtain ⟨c, d, a, n⟩ := t
  cases bits <;> cases level <;>
    simp only [GenPossible, generateCondOk, GenWalk.bit, List.head?_nil, List.head?_cons, Option.isNone_none, Option.isNone_some,
      reduceCtorEq, and_false, and_true, or_false] <;> revert c <;> decide

/-- `act_match` in the terms of R280. -/
theorem generateActMatch_iff (w : GenWalk) (t : Trigger) : generateActMatch w.bit t = true ↔ GenMatches w t := by
  have key : ∀ (o : Option Bool) (a : BitVec 3), generateActMatch o ⟨0, 0, a, 0⟩ = true ↔
      (a = 1 ∧ o = some false) ∨ (a = 2 ∧ o = some true) ∨ a = 3 := by
    rintro (_ | _ | _) <;> decide
  exact key w.bit t.action

/-- Pairs that all parse leave the field table alone, and the pairs after them go on from there (R220, R221). -/
theorem encodePairs_append (site : Site) (post pre : List Pair) (p : Nat) (b b' : Bfc) (h : encodePairs site p b pre = (b', none)) :
    (∀ name, findField b' name = findField b name) ∧
      encodePairs site p b (pre ++ post) = encodePairs site (p + pre.length) b' post := by
  induction pre generalizing p b with
  | nil => cases h; exact ⟨fun _ => rfl, rfl⟩
  | cons kv rest ih =>
    rw [encodePairs] at h
    rw [List.cons_append, encodePairs]
    cases hf : findField b kv.key with
    | none => rw [hf] at h; cases h
    | some f =>
      rw [hf] at h
      cases hr : strToRaw (p :: site) f kv.value with
      | error r => simp only [hr] at h; cases h
      | ok raw =>
        simp only [hr] at h
        obtain ⟨h1, h2⟩ := ih _ _ h
        refine ⟨h1, ?_⟩
        simp only [hr, h2, List.length_cons, Nat.add_assoc, Nat.add_comm 1]

end Sys2Proof.Machine
end

