-- ==== Sys2Proof/Laws/Dev.lean ====
section
/-!
SUPPORT. What DEV.PROC does to its list: the pairs of one message, and how the loop goes on after them (R313).
-/

namespace Sys2Proof.Machine

/-- BSM.PROC examines at most its samples (R259). -/
theorem procBody_le (b : Bsm) (xs : List Bool) : (procBody b xs).2.1 ≤ xs.length := by
  simpa [procBody] using sampleLoop_le xs 0 (pendingClear b)

/-- The sample loop counts on from where it starts, and examines at least one sample when there is one (R250). -/
theorem sampleLoop_progress (xs : List Bool) (k : Nat) (b : Bsm) : k ≤ (sampleLoop k b xs).2.1 ∧ (xs ≠ [] → k < (sampleLoop k b xs).2.1) := by
  induction xs generalizing k b with
  | nil => simp [sampleLoop]
  | cons x xs ih =>
    simp only [sampleLoop]
    split
    · have := (ih (k+1) ‹_›).1
      exact ⟨by omega, fun _ => by omega⟩
    · exact ⟨by simp, fun _ => by simp⟩

/-- BSM.PROC of some samples examines at least one (R250). -/
theorem procBody_pos (b : Bsm) (xs : List Bool) (h : xs ≠ []) : 0 < (procBody b xs).2.1 := (sampleLoop_progress xs 0 _).2 h

/-- A rendering depends on HEX16_DIGITS alone of the parameters (R203). -/
theorem rawToText_congr (p p' : Params) (h : p.hex16Digits = p'.hex16Digits) (site : Site) (f : BitField) (raw : Nat) :
    rawToText p site f raw = rawToText p' site f raw := by
  have hd : ∀ w, hexDigits p w = hexDigits p' w := by intro w; unfold hexDigits; rw [h]
  have ht : hexText p f raw = hexText p' f raw := by unfold hexText; simp only [hd]
  unfold rawToText enumText; rw [ht]

/-- The timestamp pair stands exactly when a mode is set (R214). -/
theorem timestampPairs_keys (s1 : Site) (m : TsMode) : (timestampPairs s1 m).map Pair.key = (if m = .none then [] else [Config.tsKey]) := by
  cases m <;> rfl

/-- The field pairs of a decode, one for each field in order (R210, R211). -/
theorem fieldPairs_renders (p : Params) (s1 : Site) (bits : List Bool) (fs : List BitField) (n : Nat) :
    List.Forall₂ (fun f x => x.key = f.name ∧ ∃ site, x.value = rawToText p site f (extractField f bits)) fs (fieldPairs p s1 n bits fs) := by
  induction fs generalizing n with
  | nil => exact .nil
  | cons f fs ih => exact .cons ⟨rfl, _, rfl⟩ (ih (n+1))

/-- The pairs of a decode are one message's (R210). -/
theorem decodeBody_message (p : Params) (site : Site) (b : Bfc) (o : List Bool) :
    MessagePairs p b (decodeBody p site b o).1.record (decodeBody p site b o).2 :=
  ⟨_, _, rfl, timestampPairs_keys _ _, fieldPairs_renders _ _ _ _ _⟩

/-- The keys of a message's pairs (R210, R211, R214). -/
theorem messagePairs_keys (p : Params) (b : Bfc) (bits m) (h : MessagePairs p b bits m) : m.map Pair.key = messageKeys b := by
  obtain ⟨st, ps, rfl, h1, h2⟩ := h
  rw [List.map_append, h1, messageKeys]
  congr 1
  generalize usedFields b = fs at h2
  induction h2 with
  | nil => rfl
  | cons h _ ih => simp [h.1, ih]

/-- Two renderings of the same bits differ in draws only. -/
theorem fieldPairs_same (p p' : Params) (h : p.hex16Digits = p'.hex16Digits) (b : Bfc) (s1 s2 : Site) (bits : List Bool)
    (fs : List BitField) (n : Nat) (hs : ∀ f ∈ fs, f ∈ usedFields b) :
    List.Forall₂ (SamePair p b) (fieldPairs p s1 n bits fs) (fieldPairs p' s2 n bits fs) := by
  induction fs generalizing n with
  | nil => exact .nil
  | cons f fs ih =>
    refine .cons (.inr ⟨f, hs f (by simp), extractField f bits, n :: s1, n :: s2, rfl, ?_⟩) (ih (n+1) fun g hg => hs g (by simp [hg]))
    rw [rawToText_congr p' p h.symm]

/-- Two decodes of the same record differ in draws only. -/
theorem decodeBody_same (p p' : Params) (h : p.hex16Digits = p'.hex16Digits) (s1 s2 : Site) (b : Bfc) (o : List Bool) :
    List.Forall₂ (SamePair p b) (decodeBody p s1 b o).2 (decodeBody p' s2 b o).2 := by
  simp only [decodeBody]
  refine List.rel_append ?_ (fieldPairs_same p p' h b _ _ _ _ _ fun _ hf => hf)
  unfold timestampPairs
  cases hm : b.tsMode
  · exact .nil
  all_goals exact .cons (.inl ⟨by simp [hm], rfl, rfl⟩) .nil

/-- What differs in draws only is judged by the slots and the timestamp mode alone. -/
theorem samePair_of_slots (p : Params) (b b0 : Bfc) (h : b.slots = b0.slots) (ht : b.tsMode = b0.tsMode) (x y : Pair)
    (hs : SamePair p b x y) : SamePair p b0 x y := by
  have hu : usedFields b = usedFields b0 := by simp only [usedFields, h]
  unfold SamePair at *
  rw [← hu, ← ht]; exact hs

/-- Two loops of DEV.PROC side by side: the first has the pairs `k0` before the second's, which differ in draws only, and counts
`a` messages and `c` errors more. -/
structure RunRel (p : Params) (b0 : Bfc) (k0 : List Pair) (a c : Nat) (r1 r2 : DevRun) : Prop where
  bsm : r1.bsm = r2.bsm
  bfc : r1.bfc = r2.bfc
  slots : r2.bfc.slots = b0.slots
  ts : r2.bfc.tsMode = b0.tsMode
  kv : ∃ kv', r1.kv = k0 ++ kv' ∧ List.Forall₂ (SamePair p b0) kv' r2.kv
  nmsg : r1.nmsg = r2.nmsg + a
  nerr : r1.nerr = r2.nerr + c

/-- DEV.PROC goes on after the pairs `k0` as it starts afresh on a list with that much less room, whatever fuel is left
(R313). -/
theorem devLoop_continues (p : Params) (b0 : Bfc) (k0 : List Pair) (a c : Nat) (site : Site) (f1 : Nat) (xs : List Bool) (f2 : Nat)
    (r1 r2 : DevRun) (h1 : xs.length ≤ f1) (h2 : xs.length ≤ f2) (hR : RunRel p b0 k0 a c r1 r2) :
    let less := { p with kvMax := p.kvMax - k0.length }
    RunRel p b0 k0 a c (devLoop p site f1 r1 xs).1 (devLoop less site f2 r2 xs).1 ∧
      (devLoop p site f1 r1 xs).2 = (devLoop less site f2 r2 xs).2 := by
  induction f1 generalizing xs f2 r1 r2 with
  | zero =>
    obtain rfl : xs = [] := List.eq_nil_of_length_eq_zero (by omega)
    cases f2 <;> exact ⟨hR, rfl⟩
  | succ f1 ih =>
    rcases xs with _ | ⟨x, xs⟩
    · cases f2 <;> exact ⟨hR, rfl⟩
    obtain ⟨f2, rfl⟩ : ∃ g, f2 = g + 1 := ⟨f2 - 1, by simp only [List.length_cons] at h2; omega⟩
    have hpos := procBody_pos r2.bsm (x :: xs) (by simp)
    simp only [devLoop, hR.bsm]
    generalize procBody r2.bsm (x :: xs) = r at hpos ⊢
    have left : ∀ f, (x :: xs).length ≤ f + 1 → ((x :: xs).drop r.2.1).length ≤ f := by
      intro f hf; rw [List.length_drop]; omega
    have goOn := fun t1 t2 => ih ((x :: xs).drop r.2.1) f2 t1 t2 (left _ h1) (left _ h2)
    cases r.2.2 with
    | noOutputYet => exact goOn _ _ ⟨rfl, hR.bfc, hR.slots, hR.ts, hR.kv, hR.nmsg, hR.nerr⟩
    | error =>
      have hR' : RunRel p b0 k0 a c { r1 with bsm := r.1, nerr := r1.nerr + 1 } { r2 with bsm := r.1, nerr := r2.nerr + 1 } :=
        ⟨rfl, hR.bfc, hR.slots, hR.ts, hR.kv, hR.nmsg, by simp only [hR.nerr]; omega⟩
      have further := goOn _ _ hR'
      cases hp : p.devErrPolicy with
      | stop => exact ⟨hR', rfl⟩
      | goOn => simpa only [hp] using further
    | outputReady =>
      obtain ⟨kv', hkv, hsame⟩ := hR.kv
      have hms := decodeBody_same p { p with kvMax := p.kvMax - k0.length } rfl (r1.nmsg :: site) (r2.nmsg :: site) r2.bfc r.1.acc
      have hroom : p.kvMax - (k0.length + kv'.length) = p.kvMax - k0.length - r2.kv.length := by rw [← hsame.length_eq]; omega
      simp only [devMessage, appendPairs_spec, hR.bfc, hkv, List.length_append, hroom, hms.length_eq]
      have hkv2 := List.rel_append hsame
        ((List.forall₂_take (p.kvMax - k0.length - r2.kv.length) hms).imp fun y z => samePair_of_slots p _ _ hR.slots hR.ts y z)
      have same := fun nmsg1 nmsg2 (h : nmsg1 = nmsg2 + a) =>
        (⟨rfl, rfl, hR.slots, hR.ts, ⟨_, List.append_assoc _ _ _, hkv2⟩, h, hR.nerr⟩ :
          RunRel p b0 k0 a c ⟨r.1, (decodeBody p site r2.bfc r.1.acc).1, _, nmsg1, r1.nerr⟩
            ⟨r.1, (decodeBody p site r2.bfc r.1.acc).1, _, nmsg2, r2.nerr⟩)
      generalize decide ((_ : Nat) < _) = full
      cases full with
      | true => exact ⟨same _ _ hR.nmsg, rfl⟩
      | false => exact goOn _ _ (same (r1.nmsg + 1) (r2.nmsg + 1) (by rw [hR.nmsg]; omega))

end Sys2Proof.Machine
end

