-- ==== Sys2Proof/Laws/Fp.lean ====
section
/-!
SUPPORT. Rounding leaves a value alone that a pattern represents (R11): the exact operations of R141, R142 and R162 rest
on this.
-/

namespace Sys2Proof.Machine

theorem halfEven_exact (q den : Nat) (h : 0 < den) : halfEven (q * den) den = q := by
  have h1 : q * den / den = q := Nat.mul_div_cancel _ h
  have h2 : q * den % den = 0 := Nat.mul_mod_left _ _
  have h3 : ¬ (den < 2 * 0 ∨ (2 * 0 = den ∧ q % 2 = 1)) := by omega
  simp only [halfEven, h1, h2, if_neg h3]

/-- The units of a finite magnitude pattern round to that pattern (R11). -/
theorem fpRoundMag_units (w f m den : Nat) (hd : 0 < den) (hm : m ≤ fpInfMag w f) :
    fpRoundMag w f (fpUnits f m * den) den = m := by
  unfold fpRoundMag
  rw [Nat.mul_div_cancel _ hd]
  by_cases he : m / 2 ^ f = 0
  · have hlt : m < 2 ^ f := by
      by_contra hc
      exact absurd he (Nat.ne_of_gt (Nat.div_pos (Nat.le_of_not_lt hc) (Nat.two_pow_pos f)))
    have hlog : m.log2 - f = 0 := by
      by_cases h0 : m = 0
      · subst h0; simp
      · have := (Nat.log2_lt h0).mpr hlt; omega
    have hu : fpUnits f m = m := by simp only [fpUnits, he, if_true]
    simp only [hu, hlog, Nat.zero_mul, Nat.pow_zero, Nat.mul_one, Nat.zero_add]
    rw [halfEven_exact _ _ hd, Nat.min_eq_left hm]
  · obtain ⟨e, hE⟩ : ∃ e, m / 2 ^ f = e + 1 := ⟨m / 2 ^ f - 1, (Nat.succ_pred_eq_of_ne_zero he).symm⟩
    have hu : fpUnits f m = (2 ^ f + m % 2 ^ f) * 2 ^ e := by
      simp only [fpUnits, hE, Nat.succ_ne_zero, if_false, Nat.add_sub_cancel]
    have hr : m % 2 ^ f < 2 ^ f := Nat.mod_lt _ (Nat.two_pow_pos f)
    have hlog : (fpUnits f m).log2 = f + e := by
      rw [hu, Nat.log2_eq_iff (by positivity)]
      constructor
      · rw [Nat.pow_add]; exact Nat.mul_le_mul_right _ (Nat.le_add_right _ _)
      · rw [show f + e + 1 = (f + 1) + e by omega, Nat.pow_add]
        refine Nat.mul_lt_mul_of_pos_right ?_ (Nat.two_pow_pos e)
        rw [Nat.pow_succ]; omega
    have hsplit : m = (e + 1) * 2 ^ f + m % 2 ^ f := by
      rw [← hE]; exact (Nat.div_add_mod' m (2 ^ f)).symm
    rw [hlog, Nat.add_sub_cancel_left]
    have hx : fpUnits f m * den = (2 ^ f + m % 2 ^ f) * (den * 2 ^ e) := by rw [hu]; ring
    rw [hx]
    dsimp only
    rw [halfEven_exact _ _ (by positivity)]
    rw [show e * 2 ^ f + (2 ^ f + m % 2 ^ f) = m by rw [Nat.add_mul] at hsplit; omega, Nat.min_eq_left hm]

/-- A drawn binary32 NaN is a NaN (R11). -/
theorem nan32_isNaN (site : Site) : f32IsNaN (nan32 site) = true := by
  have h : (0x7FC00000#32 ||| nan32 site) = nan32 site := by
    simp only [nan32]; rw [BitVec.or_comm, BitVec.or_assoc, BitVec.or_self]
  have hle : (0x7FC00000 : Nat) ≤ (nan32 site).toNat % 2 ^ 31 := by
    have e : (nan32 site).toNat % 2 ^ 31 = (nan32 site &&& 0x7FFFFFFF#32).toNat := by
      rw [BitVec.toNat_and, show (0x7FFFFFFF#32 : BitVec 32).toNat = 2 ^ 31 - 1 from rfl, Nat.and_two_pow_sub_one_eq_mod]
    have e2 : (nan32 site &&& 0x7FFFFFFF#32) = 0x7FC00000#32 ||| (nan32 site &&& 0x7FFFFFFF#32) := by
      conv_lhs => rw [← h]
      ext i hi
      simp only [BitVec.getElem_and, BitVec.getElem_or]
      interval_cases i <;> simp
    rw [e, e2, BitVec.toNat_or]
    exact Nat.left_le_or
  unfold f32IsNaN fpIsNaN fpMag fpInfMag
  simp only [decide_eq_true_eq]
  exact lt_of_lt_of_le (by decide) hle

end Sys2Proof.Machine
end

