-- ==== Sys2Proof/Laws/PerInstr.lean ====
section
/-!
SUPPORT. Statements made for every command, one lemma per constructor: the command word a command is encoded with selects
the command's own row of the opcode map (R101, R128).
-/

namespace Sys2Proof.Laws

/-- The command word of `i` carries the row's OPC byte and the command's own ARG, and that byte selects the row. -/
def HeaderSelectsRow.Statement (i : Instr) : Prop :=
  headerArg (headerOf i) = argOf i ∧ opcodeOfByte (headerOpc (headerOf i)) = some (opcodeOf i)

/-- The form every constructor's lemma has: its row's byte selects its row. -/
theorem headerSelectsRow_of (i : Instr) (h : opcodeOfByte (opcByte (opcodeOf i)) = some (opcodeOf i)) :
    HeaderSelectsRow.Statement i :=
  ⟨headerArg_append _ _, by rw [headerOf, headerOpc_append]; exact h⟩

theorem HeaderSelectsRow.scTofloat (raw : List RawSample) : HeaderSelectsRow.Statement (.scTofloat raw) := headerSelectsRow_of _ rfl

theorem HeaderSelectsRow.scToraw (samples : List CSample) : HeaderSelectsRow.Statement (.scToraw samples) := headerSelectsRow_of _ rfl

theorem HeaderSelectsRow.firInit (maxInput : BitVec 32) (stages : List StageSpec) : HeaderSelectsRow.Statement (.firInit maxInput stages) := headerSelectsRow_of _ rfl

theorem HeaderSelectsRow.firReset : HeaderSelectsRow.Statement .firReset := headerSelectsRow_of _ rfl

theorem HeaderSelectsRow.firTotdec : HeaderSelectsRow.Statement .firTotdec := headerSelectsRow_of _ rfl

theorem HeaderSelectsRow.firProc (outCap : BitVec 32) (samples : List CSample) : HeaderSelectsRow.Statement (.firProc outCap samples) := headerSelectsRow_of _ rfl

theorem HeaderSelectsRow.firDeinit : HeaderSelectsRow.Statement .firDeinit := headerSelectsRow_of _ rfl

theorem HeaderSelectsRow.bfcInit (tsMode : BitVec 3) (nf : BitVec 16) (recordBits : BitVec 16) : HeaderSelectsRow.Statement (.bfcInit tsMode nf recordBits) := headerSelectsRow_of _ rfl

theorem HeaderSelectsRow.bfcAddf (name : Text) (startBit : BitVec 16) (endBit : BitVec 16) (format : BitVec 3) (endianness : BitVec 2) (enumCount : BitVec 16) (scaling : F64) (offset : F64) : HeaderSelectsRow.Statement (.bfcAddf name startBit endBit format endianness enumCount scaling offset) := headerSelectsRow_of _ rfl

theorem HeaderSelectsRow.bfcAdde (fieldName : Text) (symbol : Text) (value : BitVec 64) : HeaderSelectsRow.Statement (.bfcAdde fieldName symbol value) := headerSelectsRow_of _ rfl

theorem HeaderSelectsRow.bfcSetdef (fieldName : Text) (defaultStr : Text) : HeaderSelectsRow.Statement (.bfcSetdef fieldName defaultStr) := headerSelectsRow_of _ rfl

theorem HeaderSelectsRow.bfcDec (record : List Bool) : HeaderSelectsRow.Statement (.bfcDec record) := headerSelectsRow_of _ rfl

theorem HeaderSelectsRow.bfcEnc (pairs : List Pair) (record : List Bool) : HeaderSelectsRow.Statement (.bfcEnc pairs record) := headerSelectsRow_of _ rfl

theorem HeaderSelectsRow.bfcDefdata (record : List Bool) : HeaderSelectsRow.Statement (.bfcDefdata record) := headerSelectsRow_of _ rfl

theorem HeaderSelectsRow.bfcDeinit : HeaderSelectsRow.Statement .bfcDeinit := headerSelectsRow_of _ rfl

theorem HeaderSelectsRow.bsmInit (ns : BitVec 16) (fs : BitVec 32) (msgBits : BitVec 16) (onVal : F32) : HeaderSelectsRow.Statement (.bsmInit ns fs msgBits onVal) := headerSelectsRow_of _ rfl

theorem HeaderSelectsRow.bsmSetstate (state : BitVec 16) (name : Text) (durationUs : BitVec 32) (timeoutUs : BitVec 32) : HeaderSelectsRow.Statement (.bsmSetstate state name durationUs timeoutUs) := headerSelectsRow_of _ rfl

theorem HeaderSelectsRow.bsmAddtrig (state : BitVec 16) (cond : BitVec 3) (action : BitVec 3) (next : BitVec 16) (durUs : BitVec 32) : HeaderSelectsRow.Statement (.bsmAddtrig state cond action next durUs) := headerSelectsRow_of _ rfl

theorem HeaderSelectsRow.bsmReady : HeaderSelectsRow.Statement .bsmReady := headerSelectsRow_of _ rfl

theorem HeaderSelectsRow.bsmProc (samples : List Bool) : HeaderSelectsRow.Statement (.bsmProc samples) := headerSelectsRow_of _ rfl

theorem HeaderSelectsRow.bsmGen (bits : List Bool) : HeaderSelectsRow.Statement (.bsmGen bits) := headerSelectsRow_of _ rfl

theorem HeaderSelectsRow.bsmDeinit : HeaderSelectsRow.Statement .bsmDeinit := headerSelectsRow_of _ rfl

theorem HeaderSelectsRow.bsmRdacc : HeaderSelectsRow.Statement .bsmRdacc := headerSelectsRow_of _ rfl

theorem HeaderSelectsRow.devProc (samples : List Bool) : HeaderSelectsRow.Statement (.devProc samples) := headerSelectsRow_of _ rfl

theorem HeaderSelectsRow.devGen (pairs : List Pair) : HeaderSelectsRow.Statement (.devGen pairs) := headerSelectsRow_of _ rfl

theorem HeaderSelectsRow.kvClear : HeaderSelectsRow.Statement .kvClear := headerSelectsRow_of _ rfl

theorem HeaderSelectsRow.kvAppend (key : Text) (value : Text) : HeaderSelectsRow.Statement (.kvAppend key value) := headerSelectsRow_of _ rfl

theorem HeaderSelectsRow.kvGet (index : BitVec 24) : HeaderSelectsRow.Statement (.kvGet index) := headerSelectsRow_of _ rfl

theorem HeaderSelectsRow.kvCount : HeaderSelectsRow.Statement .kvCount := headerSelectsRow_of _ rfl

theorem HeaderSelectsRow.thrSet (thr : F32) : HeaderSelectsRow.Statement (.thrSet thr) := headerSelectsRow_of _ rfl

theorem HeaderSelectsRow.thrProc (samples : List CSample) : HeaderSelectsRow.Statement (.thrProc samples) := headerSelectsRow_of _ rfl

end Sys2Proof.Laws
end

