-- ==== Sys2Proof/Laws/Text.lean ====
section
/-!
SUPPORT. The one law of `fmt_real` and `parse_real` (R8, R206), and what the digit texts read back as (R203, R212, R216).
-/

namespace Sys2Proof.Machine

theorem f64OfBytes_f64Bytes (y : F64) : f64OfBytes (f64Bytes y) = y := by
  apply BitVec.eq_of_toNat_eq
  have e : f64Bytes y = [0, 1, 2, 3, 4, 5, 6, 7].map fun n => (y >>> (8 * n)).setWidth 8 := rfl
  have hy := y.isLt
  simp only [f64OfBytes, e, List.map_cons, List.map_nil, List.foldr_cons, List.foldr_nil, BitVec.toNat_ofNat,
    BitVec.toNat_setWidth, BitVec.toNat_ushiftRight, Nat.shiftRight_eq_div_pow, Nat.reduceMul, Nat.reducePow]
  omega

/-- `parse_real(fmt_real(y)) = y` for every finite `y` (R8, R206). -/
theorem parseReal_fmtReal {y : F64} (h : f64IsFinite y = true) : parseReal (fmtReal y) = some y := by
  have e : f64OfBytes (Config.realTextPlan.symm (Config.realTextPlan (f64Bytes y))) = y := by
    rw [Equiv.symm_apply_apply, f64OfBytes_f64Bytes]
  simp only [parseReal, fmtReal, h, if_true, e, and_self]

/-- A value, when the digits spell one, is what the check made of it. -/
theorem thenCheck_ok {α : Type} {v : Except Raised α} {check : α → Except Raised Nat} {n : Nat}
    (h : thenCheck v check = .ok n) : ∃ a, v = .ok a ∧ check a = .ok n := by
  unfold thenCheck at h
  split at h
  · cases h
  · next a => exact ⟨a, rfl, h⟩

/-- The character of a digit reads back as the digit (R203, R216). -/
theorem digitValue_digitByte {base d : Nat} (hb : base ≤ 16) (hd : d < base) : digitValue base (digitByte d) = some d := by
  have h16 : d < 16 := by omega
  unfold digitValue digitByte
  interval_cases d <;> simp <;> omega

/-- The character of a digit is the library's. -/
theorem digitByte_eq {d : Nat} (h : d < 16) : digitByte d = BitVec.ofNat 8 d.digitChar.toNat := by
  interval_cases d <;> rfl

/-- With fuel for every binary digit, the digits of a number are the library's, in the other order. -/
theorem digitsOf_reverse {base : Nat} (h1 : 1 < base) (h16 : base ≤ 16) (fuel n : Nat) (hf : 0 < fuel) (hn : n < 2 ^ fuel) :
    ((digitsOf base fuel n).map digitByte).reverse = (Nat.toDigits base n).map fun c => BitVec.ofNat 8 c.toNat := by
  induction fuel generalizing n with
  | zero => omega
  | succ m ih =>
    rcases Nat.lt_or_ge n base with hb | hb
    · simp [digitsOf, hb, Nat.toDigits_of_lt_base hb, digitByte_eq (by omega : n < 16)]
    · have hmod : n % base < base := Nat.mod_lt _ (by omega)
      have hdiv : n / base < 2 ^ m :=
        (Nat.div_le_div_left (by omega : 2 ≤ base) (by omega)).trans_lt (by rw [Nat.pow_succ] at hn; omega)
      have hq : 0 < n / base := Nat.div_pos hb (by omega)
      have hm : 0 < m := Nat.pos_of_ne_zero fun h => by subst h; omega
      simp [digitsOf, Nat.not_lt.mpr hb, Nat.toDigits_of_base_le h1 hb, digitByte_eq (by omega : n % base < 16), ← ih _ hm hdiv]

/-- A numeral is the library's digits of the number, most significant first (R203, R212). -/
theorem numeral_eq {base : Nat} (h1 : 1 < base) (h16 : base ≤ 16) (n : Nat) :
    numeral base n = (Nat.toDigits base n).map fun c => BitVec.ofNat 8 c.toNat :=
  digitsOf_reverse h1 h16 _ n (Nat.succ_pos _) Nat.lt_log2_self

/-! ## Digits and numbers read back (R216, R218, R223) -/

/-- Which character is which digit (R216). -/
theorem digitValue_iff {base : Nat} (hb : base ≤ 16) (c : Byte) (d : Nat) : digitValue base c = some d ↔ (d < base ∧
      (d < 10 ∧ c = BitVec.ofNat 8 (0x30 + d) ∨ 10 ≤ d ∧ (c = BitVec.ofNat 8 (0x57 + d) ∨ c = BitVec.ofNat 8 (0x37 + d)))) := by
  have h1 : ∀ c : Byte, ∀ d < 16, (if 0x30 ≤ c.toNat ∧ c.toNat ≤ 0x39 then c.toNat - 0x30
    else if 0x61 ≤ c.toNat ∧ c.toNat ≤ 0x66 then c.toNat - 0x57
    else if 0x41 ≤ c.toNat ∧ c.toNat ≤ 0x46 then c.toNat - 0x37
    else 16) = d ↔ (d < 10 ∧ c = BitVec.ofNat 8 (0x30 + d) ∨ 10 ≤ d ∧ (c = BitVec.ofNat 8 (0x57 + d) ∨ c = BitVec.ofNat 8 (0x37 + d))) := by decide +kernel
  have h2 : ∀ n, (if n < base then some n else none) = some d ↔ d < base ∧ n = d := by
    intro n; split
    · simp only [Option.some.injEq]; constructor
      · rintro rfl; exact ⟨by assumption, rfl⟩
      · rintro ⟨_, h⟩; exact h
    · simp only [reduceCtorEq, false_iff]; rintro ⟨h, rfl⟩; omega
  refine (h2 _).trans ?_
  constructor
  · rintro ⟨h, h3⟩; exact ⟨h, (h1 c d (by omega)).mp h3⟩
  · rintro ⟨h, h3⟩; exact ⟨h, (h1 c d (by omega)).mpr h3⟩

/-- The digits of a text, most significant first, on top of a number (R216). -/
theorem numeralValue_iff {base : Nat} (cs : Text) (acc m : Nat) : numeralValue base acc cs = some m ↔
    ∃ ds : List Nat, List.Forall₂ (fun c d => digitValue base c = some d) cs ds ∧ m = ds.foldl (fun a d => a * base + d) acc := by
  induction cs generalizing acc with
  | nil => simp [numeralValue, eq_comm]
  | cons c cs ih =>
    unfold numeralValue
    cases h : digitValue base c with
    | none => simp; intro x hx; cases hx; simp_all
    | some d =>
      simp only [ih]
      constructor
      · rintro ⟨ds, h1, h2⟩; exact ⟨d :: ds, .cons h h1, by simpa using h2⟩
      · rintro ⟨ds, h1, h2⟩; cases h1 with
        | cons ha hb' => rw [h] at ha; cases ha; exact ⟨_, hb', by simpa using h2⟩

/-- Digits read from the most significant one are the library's number of them in the other order. -/
theorem foldl_eq_ofDigits (base : Nat) (ds : List Nat) : ds.foldl (fun a d => a * base + d) 0 = Nat.ofDigits base ds.reverse := by
  induction ds using List.reverseRecOn with
  | nil => rfl
  | append_singleton ds d ih => simp [List.foldl_append, ih, Nat.ofDigits_cons]; ring

/-- The top bit of a number of `w` bits. -/
theorem testBit_top {w raw : Nat} (hw : 0 < w) (h : raw < 2 ^ w) : raw.testBit (w - 1) = decide (2 ^ (w - 1) ≤ raw) := by
  obtain ⟨k, rfl⟩ : ∃ k, w = k + 1 := ⟨w - 1, by omega⟩
  simp only [Nat.add_sub_cancel]
  rw [Nat.testBit_eq_decide_div_mod_eq]
  congr 1
  have hp := Nat.two_pow_pos k
  rw [Nat.pow_succ] at h
  simp only [eq_iff_iff]
  constructor
  · intro h1
    by_contra hc
    rw [Nat.div_eq_of_lt (by omega)] at h1; omega
  · intro h1
    have : raw / 2 ^ k = 1 := by rw [Nat.div_eq_iff]; omega; omega
    omega

/-- The magnitude of a raw pattern is what the sign bit leaves (R207, R209). -/
theorem magnitudeBits_eq {f : BitField} {raw : Nat} (h : raw < 2 ^ fieldWidth f) : magnitudeBits f raw =
    if 2 ^ (fieldWidth f - 1) ≤ raw then raw - 2 ^ (fieldWidth f - 1) else raw := by
  unfold magnitudeBits
  have hw : 0 < fieldWidth f := fieldWidth_pos f
  obtain ⟨k, hk⟩ : ∃ k, fieldWidth f = k + 1 := ⟨fieldWidth f - 1, by omega⟩
  rw [hk] at h ⊢
  simp only [Nat.add_sub_cancel]
  rw [Nat.pow_succ] at h
  split
  · rw [Nat.mod_eq_sub_mod (by omega), Nat.mod_eq_of_lt (by omega)]
  · rw [Nat.mod_eq_of_lt (by omega)]

/-- Rounding to nearest, ties away from zero, over the rationals (R223). `E` keeps the power of two folded. -/
theorem f64RoundAway_eq_floor (E : Nat) (e1 : fpOne 64 52 = E) (q : F64) :
    f64RoundAway q = ⌊|(fpValue 52 q : ℚ)| / 2 ^ E + 1 / 2⌋₊ := by
  have h : |(fpValue 52 q : ℚ)| = (fpUnits 52 (fpMag q) : ℚ) := by
    unfold fpValue; split <;> simp
  rw [h]
  unfold f64RoundAway fpRoundAway
  rw [e1]
  generalize fpUnits 52 (fpMag q) = u
  have hp : (0:ℚ) < 2 ^ E := by positivity
  have : (u : ℚ) / 2 ^ E + 1 / 2 = ((2 * u + 2 ^ E : ℕ) : ℚ) / ((2 ^ (E + 1) : ℕ) : ℚ) := by
    push_cast
    rw [pow_succ]
    field_simp
  rw [this, Nat.floor_div_eq_div]

/-- The sign of a rounded quotient is that of its value: a magnitude of 0 has none. -/
theorem signed_f64RoundAway (q : F64) (x : Nat) (h : x = f64RoundAway q) :
    (if q.msb then -(x : Int) else x) = (if fpValue 52 q < 0 then -(x : Int) else x) := by
  unfold fpValue
  by_cases hm : q.msb
  · simp only [hm, if_true]
    by_cases hz : fpUnits 52 (fpMag q) = 0
    · have : x = 0 := by
        rw [h]; unfold f64RoundAway fpRoundAway; rw [hz]
        generalize fpOne 64 52 = k
        rw [pow_succ]
        have := Nat.two_pow_pos k
        rw [Nat.div_eq_zero_iff]; omega
      simp [this]
    · rw [if_pos (by omega)]
  · simp only [hm]; simp

/-- A quotient less than one half off an integer rounds to it (R223, R225 b). -/
theorem roundAway_near (E : Nat) (e1 : fpOne 64 52 = E) (q : F64) (x : Int) (h : 2 * |fpValue 52 q - x * 2 ^ E| < 2 ^ E) :
    (if q.msb then -(f64RoundAway q : Int) else f64RoundAway q) = x := by
  rw [signed_f64RoundAway q _ rfl]
  unfold f64RoundAway fpRoundAway
  rw [e1]
  have hv : ((fpUnits 52 (fpMag q) : Nat) : Int) = |fpValue 52 q| := by
    unfold fpValue; split <;> simp
  generalize fpUnits 52 (fpMag q) = u at *
  generalize fpValue 52 q = v at *
  rw [pow_succ]
  have hp := Nat.two_pow_pos E
  have hc : ((2 ^ E : Nat) : Int) = 2 ^ E := by norm_cast
  rw [← hc] at h
  generalize (2 ^ E : Nat) = k at *
  have key : ∀ m : Nat, 2 * |(u : Int) - m * k| < k → (2 * u + k) / (k * 2) = m := by
    intro m hm
    have := abs_lt.mp (show |(2:Int) * (u - m * k)| < k by rw [abs_mul]; simpa using hm)
    rw [Nat.div_eq_iff (by omega)]
    have e : ((m * (k*2) : Nat) : Int) = 2 * (m * k) := by push_cast; ring
    constructor
    · have := this.1; zify at *; nlinarith
    · have : ((2 * u + k : Nat) : Int) < (m + 1) * (k * 2) := by push_cast; nlinarith
      have : 2 * u + k < (m + 1) * (k * 2) := by exact_mod_cast this
      rw [Nat.add_mul] at this; omega
  by_cases hx : 0 ≤ x
  · obtain ⟨m, rfl⟩ := Int.eq_ofNat_of_zero_le hx
    by_cases hn : v < 0
    · have h0 : m = 0 := by
        by_contra hm
        have : (1:Int) ≤ m := by omega
        have : (k:Int) ≤ m * k := by nlinarith
        have h2 := abs_lt.mp (show |(2:Int) * (v - m * k)| < k by rw [abs_mul]; simpa using h)
        nlinarith
      subst h0
      have : (2 * u + k) / (k * 2) = 0 := key 0 (by rw [hv]; simpa using h)
      simp [this]
    · have hvv : (u : Int) = v := by rw [hv, abs_of_nonneg (by omega)]
      rw [if_neg hn, key m (by rw [hvv]; exact h)]
  · obtain ⟨m, hm⟩ : ∃ m : Nat, x = -(m : Int) := ⟨x.natAbs, by omega⟩
    have hm1 : (1 : Int) ≤ m := by omega
    subst hm
    have h2 := abs_lt.mp (show |(2:Int) * (v - -m * k)| < k by rw [abs_mul]; simpa using h)
    have : (k:Int) ≤ m * k := by nlinarith
    have hn : v < 0 := by nlinarith
    have hvv : (u : Int) = -v := by rw [hv, abs_of_neg hn]
    rw [if_pos hn, key m ?_]
    rw [hvv, show -v - (m:Int) * k = -(v - -m * k) by ring, abs_neg]; exact h

end Sys2Proof.Machine
end

