-- ==== Sys2Proof/Tests/Slice0.lean ====
section
/-!
SUPPORT. The model's own tests: a refused ill-formed term for each check of WellFormed; every row's decoding shown by
words written out from its layout; one or two steps of every command, their results taken from 95_test_vectors.md (V-...
and P1 to P4) or worked by hand from the rule named; and for every statement with hypotheses, a state and operands that
meet them (the theorems `witness_...`).
-/

namespace Sys2Proof.Tests

open Sys2Proof.Machine

-- One theorem after another: many waiting threads at once exceed the checker's memory limit.
set_option Elab.async false

/-! ## Helpers -/

/-- The bytes of an ASCII text. -/
def tx (t : String) : Text := t.toList.map fun c => BitVec.ofNat 8 c.toNat

/-- The bits of a list of digits. -/
def bits (ds : List Nat) : List Bool := ds.map fun d => decide (d = 1)

/-- The next state of a command, if there is one. -/
def nextOf (o : Reaction) : Option State :=
  match o with
  | .next t => some t
  | _ => none

/-- The reply of a command, if there is one. -/
def replyOf (o : Reaction) : Option (List Word) := (nextOf o).map State.reply

/-- The command stops with the model's one fault. -/
def isStuck (o : Reaction) : Bool :=
  match o with
  | .fault .generateNeverCompletes => true
  | _ => false

/-- A real sample. -/
def re (x : F32) : CSample := ⟨x, 0⟩

/-- 1.0, 0.5, 2.0 and 3.0. -/
def one : F32 := 0x3F800000
def half : F32 := 0x3F000000
def two : F32 := 0x40000000
def three : F32 := 0x40400000

/-- The filter of V-FIR-1: one stage, decimation 2, taps 0.5 and 0.5, `max_input` 8, with this history. -/
def firAt (hist : List CSample) (wp cnt : Nat) : Fir :=
  ⟨true, 8, [⟨2, [half, half], hist, wp, cnt, List.replicate 4 CSample.zero, 0⟩]⟩

/-- After program P1's command 1. -/
def firFresh : Fir := firAt (List.replicate 4 CSample.zero) 0 2

/-- With one input behind it. -/
def firMid : Fir := firAt [re one, re 0, re one, re 0] 1 1

/-- The six fields of program P2. -/
def fId : BitField := ⟨tx "id", 0, 7, .hex, .big, 0x3FF0000000000000, 0, 0, 0, []⟩
def fChan : BitField := ⟨tx "chan", 8, 9, .enumerated, .big, 0x3FF0000000000000, 0, 1, 3, [⟨tx "A", 0⟩, ⟨tx "B", 1⟩, ⟨tx "C", 2⟩]⟩
def fTemp : BitField := ⟨tx "temp", 10, 21, .twosComplement, .big, 0x3FF0000000000000, 0, 0, 0, []⟩
def fBatt : BitField := ⟨tx "batt", 22, 22, .unsignedDecimal, .little, 0x3FF0000000000000, 0, 0, 0, []⟩
def fHum : BitField := ⟨tx "hum", 23, 29, .unsignedDecimal, .little, 0x3FF0000000000000, 0, 0, 0, []⟩
def fCrc : BitField := ⟨tx "crc", 32, 39, .hex, .big, 0x3FF0000000000000, 0, 0xFF, 0, []⟩

/-- The record operand of two words. -/
def rec40 (a b : Word) : List Bool := unpackBits 40 [a, b]

/-- The formatter of program P2: eight slots, six of them used. -/
def sixFields : Bfc :=
  ⟨true, 40, .none, [some fId, some fChan, some fTemp, some fBatt, some fHum, some fCrc, none, none], rec40 0 0, 0⟩

/-- The one field of program P3. -/
def fV : BitField := ⟨tx "v", 0, 1, .hex, .big, 0x3FF0000000000000, 0, 0, 0, []⟩

/-- The formatter of program P3. -/
def vOnly : Bfc := ⟨true, 2, .none, [some fV], List.replicate 8 false, 0⟩

/-- The machine of program P3 at a state, a count, a bit counter, a previous sample and an accumulator. -/
def pdmAt (cur scount bitcnt : Nat) (prev : Bool) (acc : List Bool) : Bsm :=
  ⟨true, 10000, 2, one, pdmStates, cur, bitcnt, scount, prev, acc, false⟩

/-- The machine of program P3 as constructed. -/
def pdm : Bsm := pdmAt 0 0 0 false [false, false]

/-- A machine whose one state has one trigger. -/
def oneTrigger (t : Trigger) : Bsm := ⟨true, 10000, 2, one, [⟨tx "a", 0, 0, [t]⟩], 0, 0, 0, false, [false, false], false⟩

/-- A state with the filter of V-FIR-1 after one input and the formatter of P2. -/
def bench : State := { State.reset with fir := firMid, bfc := sixFields, thr := half }

/-- The device of P3, with a pair left in the list. -/
def device : State := { State.reset with bfc := vOnly, bsm := pdm, kv := [⟨tx "a", tx "1"⟩] }

/-- The device with its machine elsewhere. -/
def deviceAt (b : Bsm) : State := { device with bsm := b }

/-- A list one element longer than a count word can say. -/
@[irreducible] def tooMany {α : Type} (x : α) : List α := List.replicate (2 ^ 32) x

theorem tooMany_length {α : Type} (x : α) : (tooMany x).length = 2 ^ 32 := by
  rw [tooMany, List.length_replicate]

/-! ## WellFormed refuses -/

theorem test_refuses_raw_count : WellFormed Frame.default (.scTofloat (tooMany ⟨0, 0⟩)) = false := by
  simp [WellFormed, countFits, tooMany_length]

theorem test_refuses_sample_count : WellFormed Frame.default (.scToraw (tooMany CSample.zero)) = false := by
  simp [WellFormed, countFits, tooMany_length]

theorem test_refuses_stage_count : WellFormed Frame.default (.firInit 8 (tooMany ⟨1, [one]⟩)) = false := by
  simp [WellFormed, tooMany_length]

theorem test_refuses_tap_count : WellFormed Frame.default (.firInit 8 [⟨1, tooMany one⟩]) = false := by
  simp [WellFormed, countFits, tooMany_length]

theorem test_refuses_fir_count : WellFormed Frame.default (.firProc 8 (tooMany CSample.zero)) = false := by
  simp [WellFormed, countFits, tooMany_length]

theorem test_refuses_field_name : WellFormed Frame.default (.bfcAddf (List.replicate 64 0x61) 0 7 0 0 0 0 0) = false := by decide +kernel

theorem test_refuses_enum_field_name : WellFormed Frame.default (.bfcAdde (List.replicate 64 0x61) [0x61] 0) = false := by decide +kernel

theorem test_refuses_enum_symbol : WellFormed Frame.default (.bfcAdde [0x61] (List.replicate 64 0x61) 0) = false := by decide +kernel

theorem test_refuses_default_name : WellFormed Frame.default (.bfcSetdef (List.replicate 64 0x61) [0x30]) = false := by decide +kernel

theorem test_refuses_default_text : WellFormed Frame.default (.bfcSetdef [0x61] (List.replicate 256 0x30)) = false := by decide +kernel

theorem test_refuses_decode_record : WellFormed ⟨63, 255, 24⟩ (.bfcDec (List.replicate 23 true)) = false := by decide +kernel

theorem test_refuses_encode_record : WellFormed ⟨63, 255, 24⟩ (.bfcEnc [] (List.replicate 25 true)) = false := by decide +kernel

theorem test_refuses_encode_key : WellFormed ⟨63, 255, 0⟩ (.bfcEnc [⟨List.replicate 256 0x61, []⟩] []) = false := by decide +kernel

theorem test_refuses_encode_count : WellFormed ⟨63, 255, 0⟩ (.bfcEnc (tooMany ⟨[], []⟩) []) = false := by
  simp [WellFormed, countFits, tooMany_length]

theorem test_refuses_default_record : WellFormed ⟨63, 255, 24⟩ (.bfcDefdata []) = false := by decide +kernel

theorem test_refuses_state_name : WellFormed Frame.default (.bsmSetstate 0 (List.replicate 64 0x61) 0 0) = false := by decide +kernel

theorem test_refuses_digital_count : WellFormed Frame.default (.bsmProc (tooMany true)) = false := by
  simp [WellFormed, countFits, tooMany_length]

theorem test_refuses_bit_count : WellFormed Frame.default (.bsmGen (tooMany true)) = false := by
  simp [WellFormed, countFits, tooMany_length]

theorem test_refuses_device_count : WellFormed Frame.default (.devProc (tooMany true)) = false := by
  simp [WellFormed, countFits, tooMany_length]

theorem test_refuses_pair_count : WellFormed Frame.default (.devGen (tooMany ⟨[], []⟩)) = false := by
  simp [WellFormed, countFits, tooMany_length]

theorem test_refuses_device_value : WellFormed Frame.default (.devGen [⟨[], List.replicate 256 0x61⟩]) = false := by decide +kernel

theorem test_refuses_list_key : WellFormed Frame.default (.kvAppend (List.replicate 256 0x61) []) = false := by decide +kernel

theorem test_refuses_list_value : WellFormed Frame.default (.kvAppend [] (List.replicate 256 0x61)) = false := by decide +kernel

theorem test_refuses_threshold_count : WellFormed Frame.default (.thrProc (tooMany CSample.zero)) = false := by
  simp [WellFormed, countFits, tooMany_length]

/-! ## Decoding words written from the layouts (R106 to R118, R128) -/

theorem test_decode_scTofloat : decode Frame.default [0x00000000, 2, 0xF80007FF, 0x00010000] =
    .command (.scTofloat [⟨0x07FF, 0xF800⟩, ⟨0, 1⟩]) [] := by decide +kernel

theorem test_decode_scToraw : decode Frame.default [0x01000000, 1, 0x3F000000, 0xBE800000] =
    .command (.scToraw [⟨0x3F000000, 0xBE800000⟩]) [] := by decide +kernel

theorem test_decode_firInit : decode Frame.default [0x10000002, 12, 2, 2, 0x3F000000, 0x3F000000, 3, 3, 0x3F800000, 0x40000000, 0x40400000] =
    .command (.firInit 12 [⟨2, [half, half]⟩, ⟨3, [one, two, three]⟩]) [] := by decide +kernel

theorem test_decode_firReset : decode Frame.default [0x11000000] = .command .firReset [] := by decide +kernel

theorem test_decode_firTotdec : decode Frame.default [0x12000000] = .command .firTotdec [] := by decide +kernel

theorem test_decode_firProc : decode Frame.default [0x13000000, 1, 4, 0x3F800000, 0x40000000, 7] =
    .command (.firProc 4 [⟨one, two⟩]) [7] := by decide +kernel

theorem test_decode_firDeinit : decode Frame.default [0x14000000] = .command .firDeinit [] := by decide +kernel

theorem test_decode_bfcInit : decode Frame.default [0x20010008, 0x28] = .command (.bfcInit 1 8 40) [] := by decide +kernel

theorem test_decode_bfcAddf : decode Frame.default [0x21000000, 4, 0x6E616863, 0x00090008, 0x00030015, 0x9999999A, 0x3FB99999, 1, 0x80000000] =
    .command (.bfcAddf (tx "chan") 8 9 5 1 3 0x3FB999999999999A 0x8000000000000001) [] := by decide +kernel

theorem test_decode_bfcAdde : decode Frame.default [0x22000000, 4, 0x65646F6D, 3, 0x0066666F, 0x00000005, 0x80000000] =
    .command (.bfcAdde (tx "mode") (tx "off") 0x8000000000000005) [] := by decide +kernel

theorem test_decode_bfcSetdef : decode Frame.default [0x23000000, 3, 0x00637263, 4, 0x66667830] =
    .command (.bfcSetdef (tx "crc") (tx "0xff")) [] := by decide +kernel

theorem test_decode_bfcDec : decode ⟨63, 255, 33⟩ [0x24000000, 0x80000001, 0x00000001] =
    .command (.bfcDec (true :: List.replicate 30 false ++ [true, true])) [] := by decide +kernel

theorem test_decode_bfcEnc : decode ⟨63, 255, 2⟩ [0x25000000, 1, 1, 0x76, 4, 0x32307830, 0x2] =
    .command (.bfcEnc [⟨tx "v", tx "0x02"⟩] [false, true]) [] := by decide +kernel

theorem test_decode_bfcDefdata : decode ⟨63, 255, 3⟩ [0x26000000, 0x6] = .command (.bfcDefdata [false, true, true]) [] := by decide +kernel

theorem test_decode_bfcDeinit : decode Frame.default [0x27000000] = .command .bfcDeinit [] := by decide +kernel

theorem test_decode_bsmInit : decode Frame.default [0x30000003, 0x2710, 2, 0x3F800000] = .command (.bsmInit 3 10000 2 one) [] := by decide +kernel

theorem test_decode_bsmSetstate : decode Frame.default [0x31000001, 5, 0x736C7570, 0x65, 0x190, 7] =
    .command (.bsmSetstate 1 (tx "pulse") 400 7) [] := by decide +kernel

theorem test_decode_bsmAddtrig : decode Frame.default [0x32000002, 0xABCD0034, 0x190] =
    .command (.bsmAddtrig 2 4 3 0xABCD 400) [] := by decide +kernel

theorem test_decode_bsmReady : decode Frame.default [0x33000000] = .command .bsmReady [] := by decide +kernel

theorem test_decode_bsmProc : decode Frame.default [0x34000000, 33, 0x80000001, 1] =
    .command (.bsmProc (true :: List.replicate 30 false ++ [true, true])) [] := by decide +kernel

theorem test_decode_bsmGen : decode Frame.default [0x35000000, 3, 0x3] = .command (.bsmGen [true, true, false]) [] := by decide +kernel

theorem test_decode_bsmDeinit : decode Frame.default [0x36000000] = .command .bsmDeinit [] := by decide +kernel

theorem test_decode_bsmRdacc : decode Frame.default [0x37000000] = .command .bsmRdacc [] := by decide +kernel

theorem test_decode_devProc : decode Frame.default [0x40000000, 3, 0x4] = .command (.devProc [false, false, true]) [] := by decide +kernel

theorem test_decode_devGen : decode Frame.default [0x41000000, 1, 1, 0x76, 4, 0x32307830] =
    .command (.devGen [⟨tx "v", tx "0x02"⟩]) [] := by decide +kernel

theorem test_decode_kvClear : decode Frame.default [0x50000000] = .command .kvClear [] := by decide +kernel

theorem test_decode_kvAppend : decode Frame.default [0x51000000, 1, 0x61, 1, 0x31] =
    .command (.kvAppend (tx "a") (tx "1")) [] := by decide +kernel

theorem test_decode_kvGet : decode Frame.default [0x52FFFFFE] = .command (.kvGet 0xFFFFFE) [] := by decide +kernel

theorem test_decode_kvCount : decode Frame.default [0x53000000] = .command .kvCount [] := by decide +kernel

theorem test_decode_thrSet : decode Frame.default [0x60000000, 0x3F000000] = .command (.thrSet half) [] := by decide +kernel

theorem test_decode_thrProc : decode Frame.default [0x61000000, 1, 0x3F800000, 0x40000000] =
    .command (.thrProc [⟨one, two⟩]) [] := by decide +kernel

/-- R126 (b): reserved and padding bits, V-ENC vectors and R110, R114. -/
theorem test_decode_malformed :
    decode Frame.default [0x11000001] = .malformed .firReset [] ∧
    decode Frame.default [0x20080003, 0x18] = .malformed .bfcInit [] ∧
    decode Frame.default [0x20000003, 0x00010018] = .malformed .bfcInit [] ∧
    decode Frame.default [0x34000000, 3, 9] = .malformed .bsmProc [] ∧
    decode ⟨63, 255, 24⟩ [0x24000000, 0x01000000] = .malformed .bfcDec [] ∧
    decode Frame.default [0x51000000, 0, 2, 0x01006261] = .malformed .kvAppend [] ∧
    decode Frame.default [0x32000002, 0x00000008, 0] = .malformed .bsmAddtrig [] ∧
    decode Frame.default [0x32000002, 0x00000080, 0] = .malformed .bsmAddtrig [] ∧
    decode Frame.default [0x32010002, 0x00000000, 0] = .malformed .bsmAddtrig [] ∧
    decode Frame.default [0x21000000, 0, 0, 0x00000008, 0, 0, 0, 0] = .malformed .bfcAddf [] ∧
    decode Frame.default [0x21000000, 0, 0, 0x00000040, 0, 0, 0, 0] = .malformed .bfcAddf [] := by decide +kernel

/-- R126 (a), R127. -/
theorem test_decode_unknown_and_missing :
    decode Frame.default [0x15000000, 7] = .unknown 0x15 [7] ∧ decode Frame.default [0x60000000] = .incomplete .thrSet ∧
    decode Frame.default [] = .idle := by decide +kernel

/-- What the host asks of an opcode-table word (log 17): KV.GET 5 and a KV.APPEND of two empty strings. -/
theorem test_table_words : decodeTableWord 32 0x52000005 = some (.kvGet 5) ∧ decodeTableWord 32 0x51000000 = some (.kvAppend [] []) ∧
    decodeTableWord 32 0x15000000 = none := by decide +kernel

/-! ## The commands, against 95_test_vectors.md -/

/-- V-SC-1. -/
theorem test_scTofloat : replyOf (exec (.scTofloat [⟨0x07FF, 0xF800⟩, ⟨0x8000, 0x7FFF⟩]) State.reset) =
    some [0, 0x3F7FE000, 0xBF800000, 0xC1800000, 0x417FFE00] := by decide +kernel

/-- V-SC-2: truncation toward zero and both ends of the range. -/
theorem test_scToraw : replyOf (exec (.scToraw [⟨0x3F000000, 0xBE800000⟩, ⟨0x3F666666, 0xBF666666⟩, ⟨0x417FFFFF, 0xC1800001⟩]) State.reset) =
    some [0, 0xFE000400, 0xF8CD0733, 0x80007FFF] := by decide +kernel

/-- V-FIR-1: the state after FIR.INIT. -/
theorem test_firInit : (nextOf (exec (.firInit 8 [⟨2, [half, half]⟩]) State.reset)).map State.fir = some firFresh := by decide +kernel

/-- V-FIR-8: taps are tested before the decimation, configuration before resources. -/
theorem test_firInit_faults : replyOf (exec (.firInit 8 [⟨0, []⟩]) State.reset) = some [0x201] ∧
    replyOf (exec (.firInit 8 [⟨1, [one]⟩, ⟨1, [one]⟩, ⟨0xFFFFFFFF, [one]⟩]) State.reset) = some [0x20301] ∧
    replyOf (exec (.firInit 0x01000000 [⟨1, [one]⟩]) State.reset) = some [0x302] := by decide +kernel

/-- V-FIR-7. -/
theorem test_firReset : (nextOf (exec .firReset bench)).map State.fir = some firFresh := by decide +kernel

/-- P1 command 2, V-FIR-8. -/
theorem test_firTotdec : replyOf (exec .firTotdec bench) = some [0, 2] ∧ replyOf (exec .firTotdec State.reset) = some [0x10C] := by
  decide +kernel

/-- P1 command 4: the document's scenario. -/
theorem test_firProc : replyOf (exec (.firProc 4 [re one, re one, re 0, re 0, re one, re one, re 0, re 0]) { bench with fir := firFresh }) =
    some [0, 4, 0x3F800000, 0, 0, 0, 0x3F800000, 0, 0, 0] := by decide +kernel

/-- P1 command 7 from the state after command 6 (history 0 1 0 1), and V-FIR-8's BufferTooSmall. -/
theorem test_firProc_streams :
    replyOf (exec (.firProc 4 [re 0, re one, re one, re 0, re 0]) { bench with fir := firAt [re 0, re one, re 0, re one] 1 1 }) =
      some [0, 3, 0, 0, 0x3F800000, 0, 0, 0] ∧
    replyOf (exec (.firProc 8 (List.replicate 9 (re 0))) bench) = some [0x103] := by decide +kernel

/-- V-FIR-8. -/
theorem test_firDeinit : (nextOf (exec .firDeinit bench)).map (fun t => (t.fir.valid, t.reply)) = some (false, [0]) := by decide +kernel

/-- V-BFC-1. -/
theorem test_bfcInit : (nextOf (exec (.bfcInit 1 8 40) State.reset)).map (fun t => (t.bfc.slots.length, t.bfc.tsMode, t.bfc.record.length)) =
    some (8, .unixSecondsInt, 40) ∧ replyOf (exec (.bfcInit 5 3 24) State.reset) = some [0x1001] ∧
    replyOf (exec (.bfcInit 0 257 24) State.reset) = some [0x1002] := by decide +kernel

/-- V-BFC-2: a scaling of -0.0 is stored as 1.0; the first empty slot is 6. -/
theorem test_bfcAddf : (nextOf (exec (.bfcAddf (tx "x") 0 0 5 1 2 0x8000000000000000 0) bench)).map
    (fun t => (t.reply, t.bfc.slots.getD 6 none)) =
      some ([0, 6], some ⟨tx "x", 0, 0, .enumerated, .little, 0x3FF0000000000000, 0, 0, 2, []⟩) := by decide +kernel

/-- V-BFC-3: a symbol appended; a full table; an unknown field. -/
theorem test_bfcAdde :
    (nextOf (exec (.bfcAdde (tx "chan") (tx "D") 7) { bench with bfc := { sixFields with slots := [some fId, some { fChan with enumCap := 4 }] } })).map
      (fun t => t.bfc.slots) = some [some fId, some { fChan with enumCap := 4, enums := fChan.enums ++ [⟨tx "D", 7⟩] }] ∧
    replyOf (exec (.bfcAdde (tx "chan") (tx "D") 7) bench) = some [0x304] ∧
    replyOf (exec (.bfcAdde (tx "nope") (tx "a") 0) bench) = some [0x108] := by decide +kernel

/-- V-BFC-3: -5 in 12 bits is 0xFFB; a value too wide. -/
theorem test_bfcSetdef :
    (nextOf (exec (.bfcSetdef (tx "temp") (tx "-5")) bench)).map (fun t => t.bfc.slots.getD 2 none) = some (some { fTemp with default := 0xFFB }) ∧
    replyOf (exec (.bfcSetdef (tx "chan") (tx "4")) bench) = some [0x20A] := by decide +kernel

/-- P2 command 15. -/
theorem test_bfcDec : replyOf (exec (.bfcDec (rec40 0x3277FDA5 0xFF)) bench) = some [0, 6, 2, 0x00006469, 4, 0x35617830, 4, 0x6E616863,
    1, 0x43, 4, 0x706D6574, 2, 0x0000352D, 4, 0x74746162, 1, 0x31, 3, 0x006D7568, 3, 0x00303031, 3, 0x00637263, 4, 0x66667830] := by
  decide +kernel

/-- P2 command 14. -/
theorem test_bfcEnc : replyOf (exec (.bfcEnc [⟨tx "id", tx "0xa5"⟩, ⟨tx "temp", tx "-5"⟩, ⟨tx "hum", tx "100"⟩, ⟨tx "batt", tx "1"⟩,
    ⟨tx "chan", tx "C"⟩] (rec40 0x200 0xFF)) bench) = some [0, 0x3277FDA5, 0xFF] := by decide +kernel

/-- P2 command 16: pair 2 is out of range, the pairs before it are in the scratch record. -/
theorem test_bfcEnc_fails : (nextOf (exec (.bfcEnc [⟨tx "id", tx "0x10"⟩, ⟨tx "temp", tx "2047"⟩, ⟨tx "hum", tx "128"⟩, ⟨tx "batt", tx "1"⟩]
    (rec40 0x3277FDA5 0xFF)) bench)).map (fun t => (t.reply, t.bfc.record)) = some ([0x2020A], rec40 0x327FF908 0xFF) := by decide +kernel

/-- P2 command 13. -/
theorem test_bfcDefdata : replyOf (exec (.bfcDefdata (rec40 0 0)) bench) = some [0, 0x200, 0xFF] := by decide +kernel

/-- R188. -/
theorem test_bfcDeinit : (nextOf (exec .bfcDeinit bench)).map (fun t => (t.bfc.valid, t.reply)) = some (false, [0]) := by decide +kernel

/-- P3 command 3 (R243); an infinite `on_val` is refused. -/
theorem test_bsmInit : (nextOf (exec (.bsmInit 3 10000 2 one) State.reset)).map State.bsm =
    some { pdm with states := List.replicate 3 ⟨[], 0, 0, []⟩ } ∧
    replyOf (exec (.bsmInit 3 10000 2 0x7F800000) State.reset) = some [0x2001] := by decide +kernel

/-- R244; a state index outside the table. -/
theorem test_bsmSetstate : (nextOf (exec (.bsmSetstate 0 (tx "b") 5 6) { State.reset with bsm := oneTrigger ⟨1, 2, 3, 0⟩ })).map
    (fun t => t.bsm.states) = some [⟨tx "b", 5, 6, [⟨1, 2, 3, 0⟩]⟩] ∧
    replyOf (exec (.bsmSetstate 3 (tx "b") 5 6) device) = some [0x2101] := by decide +kernel

/-- P3 command 12: the fourth trigger of `gap` is number 3; an illegal condition is stored as given (R245). -/
theorem test_bsmAddtrig : (nextOf (exec (.bsmAddtrig 2 7 4 9 400) device)).map
    (fun t => (t.reply, (t.bsm.states.getD 2 ⟨[], 0, 0, []⟩).trigs.getD 4 ⟨0, 0, 0, 0⟩)) = some ([0, 4], ⟨7, 400, 4, 9⟩) := by decide +kernel

/-- P3 command 13; V-RST-1. -/
theorem test_bsmReady : replyOf (exec .bsmReady device) = some [0, 1] ∧ replyOf (exec .bsmReady State.reset) = some [0, 0] := by
  decide +kernel

/-- R263: the trace of the 32-sample message ends with its 31st sample. -/
theorem test_bsmProc : (nextOf (exec (.bsmProc (unpackBits 32 [0x1E1E001E])) device)).map (fun t => (t.reply, t.bsm.cur, t.bsm.acc, t.bsm.clrPending)) =
    some ([0, 31, 1], 0, [true, false], true) := by decide +kernel

/-- P4 command 1: a pulse of 500 us is the hard reset at sample 6. -/
theorem test_bsmProc_resets : (nextOf (exec (.bsmProc (unpackBits 42 [0x7800783E, 0x78])) device)).map (fun t => (t.reply, t.bsm)) =
    some ([0, 7, 2], pdm) := by decide +kernel

/-- R295: the waveform of the bits 1, 0. -/
theorem test_bsmGen : replyOf (exec (.bsmGen [true, false]) device) =
    some (0 :: 28 :: (List.replicate 4 one ++ List.replicate 12 0 ++ List.replicate 4 one ++ List.replicate 4 0 ++ List.replicate 4 one)) := by
  decide +kernel

/-- R294: a silent loop; R293: no trigger at all. -/
theorem test_bsmGen_stops : isStuck (exec (.bsmGen [true]) (deviceAt (oneTrigger ⟨0, 0, 0, 0⟩))) = true ∧
    replyOf (exec (.bsmGen [true]) (deviceAt { pdm with states := [⟨tx "a", 0, 0, []⟩] })) = some [0x10B] := by decide +kernel

/-- R262. -/
theorem test_bsmDeinit : (nextOf (exec .bsmDeinit device)).map (fun t => (t.bsm.valid, t.reply)) = some (false, [0]) := by decide +kernel

/-- P4 command 3. -/
theorem test_bsmRdacc : replyOf (exec .bsmRdacc (deviceAt (pdmAt 0 0 2 false [true, false]))) = some [0, 2, 1] := by decide +kernel

/-- P3 command 19. -/
theorem test_devProc : (nextOf (exec (.devProc (unpackBits 32 [0x1E1E001E])) device)).map (fun t => (t.reply, t.kv)) =
    some ([0, 1, 1, 0], [⟨tx "v", tx "0x02"⟩]) := by decide +kernel

/-- V-DEV-1, third case (P4): the corrupted message is counted, the good one is decoded. -/
theorem test_devProc_goes_on : (nextOf (exec (.devProc (unpackBits 42 [0x7800783E, 0x78])) device)).map (fun t => (t.reply, t.kv)) =
    some ([0, 1, 1, 1], [⟨tx "v", tx "0x02"⟩]) := by decide +kernel

/-- P3 command 14. -/
theorem test_devGen : replyOf (exec (.devGen [⟨tx "v", tx "0x02"⟩]) device) =
    some (0 :: 28 :: (List.replicate 4 one ++ List.replicate 12 0 ++ List.replicate 4 one ++ List.replicate 4 0 ++
      List.replicate 4 one).flatMap fun a => [a, 0]) := by decide +kernel

/-- R317. -/
theorem test_kvClear : (nextOf (exec .kvClear device)).map State.kv = some [] := by decide +kernel

/-- R318: at the end, duplicates kept; a full list. -/
theorem test_kvAppend : (nextOf (exec (.kvAppend (tx "a") (tx "2")) device)).map State.kv = some [⟨tx "a", tx "1"⟩, ⟨tx "a", tx "2"⟩] ∧
    replyOf (exec (.kvAppend (tx "a") (tx "2")) { device with params := { Params.default with kvMax := 1 } }) = some [0x5002] := by
  decide +kernel

/-- R319 and its fault. -/
theorem test_kvGet : replyOf (exec (.kvGet 0) device) = some [0, 1, 0x61, 1, 0x31] ∧ replyOf (exec (.kvGet 1) device) = some [0x405] := by
  decide +kernel

/-- P3 command 20. -/
theorem test_kvCount : replyOf (exec .kvCount device) = some [0, 1] := by decide +kernel

/-- R241. -/
theorem test_thrSet : (nextOf (exec (.thrSet 0x7FC00001) State.reset)).map State.thr = some 0x7FC00001 := by decide +kernel

/-- R240: 1.0 is above 0.5, 0.5 is not above itself, and lane Q counts as lane I does. -/
theorem test_thrProc : replyOf (exec (.thrProc [re one, re half, ⟨0, two⟩, re 0]) bench) = some [0, 5] := by decide +kernel

/-- V-RST-1: refused right after reset, the unit's number in the info word. -/
theorem test_not_ready_after_reset :
    replyOf (exec (.firProc 0 []) State.reset) = some [0x10C] ∧ replyOf (exec (.bfcDec []) State.reset) = some [0x20C] ∧
    replyOf (exec .bsmRdacc State.reset) = some [0x30C] ∧ replyOf (exec (.devProc []) State.reset) = some [0x50C] := by decide +kernel

/-- A step takes one command off the words sent and leaves the next (R81, R82). -/
theorem test_step : (nextOf (step { State.reset with rx := [0x60000000, 0x3F000000, 0x53000000] })).map (fun t => (t.thr, t.rx)) =
    some (half, [0x53000000]) := by decide +kernel

/-! ## States that meet the invariants -/

/-- Reading past the end of a list of bits. -/
theorem getD_of_le (l : List Bool) (k : Nat) (h : l.length ≤ k) : l.getD k false = false := by
  rw [List.getD_eq_getElem?_getD, List.getElem?_eq_none h, Option.getD_none]

/-- A property of every index, from the indexes below a length and the values beyond it. -/
theorem tail_of (l : List Bool) (n : Nat) (h : ∀ k < l.length, n ≤ k → l.getD k false = false) (k : Nat) (hk : n ≤ k) :
    l.getD k false = false := by
  rcases Nat.lt_or_ge k l.length with h1 | h1
  · exact h k h1 hk
  · exact getD_of_le l k h1

theorem firMid_inv : firMid.Inv Params.default := by
  refine ⟨by decide, by decide, ⟨⟨?_, ?_, ?_, ?_, ?_, ?_, ?_, ?_, ?_, ?_⟩, trivial⟩⟩ <;> decide +kernel

theorem firFresh_inv : firFresh.Inv Params.default := by
  refine ⟨by decide, by decide, ⟨⟨?_, ?_, ?_, ?_, ?_, ?_, ?_, ?_, ?_, ?_⟩, trivial⟩⟩ <;> decide +kernel

theorem field_inv (n : Nat) (f : BitField) (h : (decide (f.name ≠ [] ∧ f.startBit.toNat ≤ f.endBit.toNat ∧ fieldWidth f ≤ 64 ∧
    f.endBit.toNat < n ∧ f.default.toNat ≤ fieldMask f ∧ fpIsZero f.scaling = false ∧ f.enums.length ≤ f.enumCap.toNat ∧
    (∀ e ∈ f.enums, e.symbol ≠ []) ∧ (f.enums.map EnumEntry.symbol).Nodup)) = true) : f.Inv n := by
  have ⟨a, b, c, d, e, g, i, j, k⟩ := of_decide_eq_true h
  exact ⟨a, b, c, d, e, g, i, j, k⟩

theorem vOnly_inv : vOnly.Inv Params.default := by
  refine ⟨by decide, by decide +kernel, by decide, by decide, by decide +kernel, tail_of _ _ (by decide +kernel), by decide +kernel, ?_, by decide +kernel⟩
  intro f hf
  have : f = fV := by simpa [usedFields, vOnly] using hf
  exact this ▸ field_inv _ _ (by decide +kernel)

theorem sixFields_inv : sixFields.Inv Params.default := by
  refine ⟨by decide, by decide +kernel, by decide, by decide, by decide +kernel, tail_of _ _ (by decide +kernel), by decide +kernel, ?_, by decide +kernel⟩
  intro f hf
  have : f = fId ∨ f = fChan ∨ f = fTemp ∨ f = fBatt ∨ f = fHum ∨ f = fCrc := by simpa [usedFields, sixFields] using hf
  rcases this with h | h | h | h | h | h <;> exact h ▸ field_inv _ _ (by decide +kernel)

theorem pdmGap_inv : (pdmAt 2 3 1 true [true, false]).Inv Params.default := by
  refine ⟨by decide, by decide, by decide +kernel, by decide +kernel, by decide, by decide +kernel, by decide, by decide, by decide +kernel, by decide,
    tail_of _ _ (by decide +kernel), by decide +kernel⟩

/-- Every unit constructed and in the middle of its work; the next command is BSM.PROC of one sample. -/
def busy : State :=
  { bench with bfc := vOnly, bsm := pdmAt 2 3 1 true [true, false], kv := [⟨tx "a", tx "1"⟩], rx := [0x34000000, 1, 0] }

theorem busy_inv : busy.Inv :=
  ⟨fun _ => firMid_inv, fun _ => vOnly_inv, fun _ => pdmGap_inv, by decide +kernel, by decide, by decide, fun _ => rfl, fun h => absurd rfl h⟩

/-! ## Witnesses: a state and operands that meet the hypotheses of each statement -/

theorem witness_DecodeReadsEncode : WellFormed Frame.default (.bsmAddtrig 0xFFFF 7 7 0xFFFF 0xFFFFFFFF) = true ∧
    WellFormed ⟨63, 255, 33⟩ (.bfcEnc [⟨tx "v", []⟩] (List.replicate 33 true)) = true := by decide +kernel

theorem witness_EncodeWritesDecoded : decode Frame.default [0x61000000, 1, 0x3F800000, 0, 0x50000000] =
    .command (.thrProc [re one]) [0x50000000] := by decide +kernel

/-- A ready row, and one refused before its payload. -/
theorem witness_StepRunsTheDecodedCommand :
    (decode busy.frame busy.rx = .command (.bsmProc [false]) [] ∧ commandNotReady (opcodeOf (.bsmProc [false])) busy = none) ∧
    (decode State.reset.frame [0x13000000, 0, 4, 7] = .command (.firProc 4 []) [7] ∧ commandNotReady .firProc State.reset ≠ none) := by
  decide +kernel

theorem witness_UnknownOpcodeIsIllegal : (∀ op, headerOpc 0x02000000#32 ≠ opcByte op) ∧ (∀ op, headerOpc 0x70000000#32 ≠ opcByte op) ∧
    (∀ op, headerOpc 0xFF000000#32 ≠ opcByte op) := by
  refine ⟨?_, ?_, ?_⟩ <;> intro op <;> cases op <;> decide

/-- A reserved bit of `TW0`, a padding byte, a FIR.INIT with ARG[16] set; then the lowest reserved bit of BFC.INIT and the
highest of all. -/
theorem witness_ReservedArgIsIllegal :
    (decode device.frame [0x32000002, 0x00000008, 0, 7] = .malformed .bsmAddtrig [7] ∧ commandNotReady .bsmAddtrig device = none) ∧
    (decode device.frame [0x51000000, 0, 2, 0x01006261] = .malformed .kvAppend [] ∧ commandNotReady .kvAppend device = none) ∧
    (decode device.frame [0x10010001, 8, 1, 1, 0x3F800000, 7] = .malformed .firInit [7] ∧ commandNotReady .firInit device = none) ∧
    WellFormed State.reset.frame (.bfcInit 7 0xFFFF 8) = true ∧ commandNotReady (opcodeOf (.bfcInit 7 0xFFFF 8)) State.reset = none ∧
    (0x080000#24 ≠ 0 ∧ 0x080000#24 &&& argMask (opcodeOf (.bfcInit 7 0xFFFF 8)) = 0) ∧
    (0x800000#24 ≠ 0 ∧ 0x800000#24 &&& argMask (opcodeOf (.bfcInit 7 0xFFFF 8)) = 0) := by decide +kernel

theorem witness_PartialCommandWaits : WellFormed busy.frame (.bsmProc [false]) = true ∧ commandNotReady (opcodeOf (.bsmProc [false])) busy = none ∧
    (encode (.bsmProc [false])).length = 3 ∧ (encode (.bsmProc [false])).take 2 = [0x34000000, 1] := by decide +kernel

/-- A command word for each clause, with the state it speaks of. -/
theorem witness_NotReadyBeforePayload :
    (headerOpc 0x13000000#32 ∈ [0x11#8, 0x12#8, 0x13#8] ∧ State.reset.fir.valid = false) ∧
    (headerOpc 0x21000000#32 ∈ [0x21#8, 0x22#8, 0x23#8, 0x24#8, 0x25#8, 0x26#8] ∧ State.reset.bfc.valid = false) ∧
    (headerOpc 0x37000000#32 ∈ [0x31#8, 0x32#8, 0x34#8, 0x35#8, 0x37#8] ∧ State.reset.bsm.valid = false) ∧
    (headerOpc 0x35000000#32 ∈ [0x34#8, 0x35#8] ∧ (deviceAt (oneTrigger ⟨5, 0, 0, 0⟩)).bsm.valid = true ∧
      bsmInitialized (deviceAt (oneTrigger ⟨5, 0, 0, 0⟩)).bsm = false) ∧
    (headerOpc 0x41000000#32 ∈ [0x40#8, 0x41#8] ∧ devReady bench = false) := by decide +kernel

theorem witness_StepKeepsInvariant : busy.Inv ∧ (nextOf (step busy)).map (fun t => t.bsm.cur) = some 2 :=
  ⟨busy_inv, by decide +kernel⟩

theorem witness_CommandsStayInTheirUnit : (∃ t, exec .kvCount busy = .next t ∧ unitOf .kvCount = .kv) ∧
    (∃ t, exec (.devGen []) device = .next t ∧ unitOf (.devGen []) = .dev) :=
  ⟨⟨_, rfl, rfl⟩, ⟨_, rfl, rfl⟩⟩

theorem witness_EveryCommandReports : (∃ t, exec .kvCount busy = .next t ∧ t.status = 0) ∧
    (∃ t, exec (.kvGet 9) busy = .next t ∧ t.status = 5) := ⟨⟨_, rfl, by decide⟩, ⟨_, rfl, by decide⟩⟩

theorem witness_FailureLeavesState : leavesTraceOnFailure (.kvGet 9) = false ∧ ∃ t, exec (.kvGet 9) busy = .next t ∧ t.status ≠ 0 :=
  ⟨rfl, _, rfl, by decide⟩

/-- The lanes just inside both bounds, and one just outside each. -/
theorem witness_ToRawTruncates :
    (f32IsFinite 0x417FFFFF = true ∧ -32769 * 2 ^ 138 < fpValue 23 0x417FFFFF#32 ∧ fpValue 23 0x417FFFFF#32 < 32768 * 2 ^ 138) ∧
    (f32IsFinite 0xC1800001 = true ∧ -32769 * 2 ^ 138 < fpValue 23 0xC1800001#32 ∧ fpValue 23 0xC1800001#32 < 32768 * 2 ^ 138) ∧
    ¬ fpValue 23 0x41800000#32 < 32768 * 2 ^ 138 ∧ ¬ -32769 * 2 ^ 138 < fpValue 23 0xC1800100#32 := by decide +kernel

/-- Two stages whose cells fill FIR_MEM_MAX exactly. -/
theorem witness_FirInitBuildsFilter :
    let specs : List StageSpec := [⟨2, [half, half]⟩, ⟨3, [one, two, three]⟩]
    let s : State := { State.reset with params := { Params.default with sMax := 2, tMax := 3, firMemMax := 18 } }
    specs ≠ [] ∧ specs.length ≤ s.params.sMax ∧
    (∀ sp ∈ specs, 0 < sp.taps.length ∧ sp.taps.length ≤ s.params.tMax ∧ 0 < sp.decimation.toNat ∧ sp.decimation.toNat < 2 ^ 31) ∧
    ((List.range specs.length).map fun i => 2 * (specs.getD i default).taps.length +
      ceilDiv 12 ((specs.take (i + 1)).map fun sp => sp.decimation.toNat).prod).sum = s.params.firMemMax := by decide +kernel

/-- A stage before the malformed one; no taps, a decimation of 0 and one of `2^31`; then each capacity passed by one. -/
theorem witness_FirInitReportsFirstFault :
    let pre : List StageSpec := [⟨0x7FFFFFFF, [half]⟩]
    let wide : StageSpec := ⟨1, [one, two]⟩
    let legal := fun sp : StageSpec => 0 < sp.taps.length ∧ 0 < sp.decimation.toNat ∧ sp.decimation.toNat < 2 ^ 31
    let p : Params := { Params.default with sMax := 2, tMax := 1, firMemMax := 17 }
    pre.length < 2 ^ 16 ∧ (∀ sp ∈ pre, legal sp) ∧
    (StageSpec.mk 0 []).taps = [] ∧
    ((StageSpec.mk 0 [one]).taps ≠ [] ∧ (StageSpec.mk 0 [one]).decimation.toNat = 0) ∧
    ((StageSpec.mk 0x80000000 [one]).taps ≠ [] ∧ 2 ^ 31 ≤ (StageSpec.mk 0x80000000 [one]).decimation.toNat) ∧
    (legal wide ∧ (pre ++ wide :: []).length ≤ p.sMax ∧ (∀ sp ∈ pre, sp.taps.length ≤ p.tMax) ∧ p.tMax < wide.taps.length) ∧
    ((∀ sp ∈ [wide, wide, wide], legal sp) ∧ p.sMax < [wide, wide, wide].length) ∧
    (let specs : List StageSpec := [⟨1, [one]⟩, ⟨3, [two]⟩];
      specs ≠ [] ∧ (∀ sp ∈ specs, legal sp) ∧ specs.length ≤ p.sMax ∧ (∀ sp ∈ specs, sp.taps.length ≤ p.tMax) ∧
      p.firMemMax + 1 = ((List.range specs.length).map fun i => 2 * (specs.getD i default).taps.length +
        ceilDiv 10 ((specs.take (i + 1)).map fun sp => sp.decimation.toNat).prod).sum) := by decide +kernel

theorem witness_FirResetZeroesState : State.reset.fir.valid = false ∧ bench.fir.valid = true ∧
    ∃ t u, exec .firReset bench = .next t ∧ exec .firReset t = .next u := ⟨rfl, rfl, _, _, rfl, rfl⟩

theorem witness_FirTotdecIsProduct : State.reset.fir.valid = false ∧ bench.fir.valid = true := ⟨rfl, rfl⟩

/-- A full call on a filter with one input behind it. -/
theorem witness_FirProcConvolves : bench.fir.valid = true ∧ bench.fir.Inv bench.params ∧
    (List.replicate 8 (re one)).length ≤ bench.fir.maxInput.toNat ∧
    ceilDiv (List.replicate 8 (re one)).length (bench.fir.stages.map fun st => st.decim.toNat).prod ≤ (4 : BitVec 32).toNat :=
  ⟨rfl, firMid_inv, by decide, by decide⟩

/-- One sample too many; one place too few for 8 samples. -/
theorem witness_FirProcChecksBuffers : bench.fir.valid = true ∧ bench.fir.maxInput.toNat < (List.replicate 9 (re one)).length ∧
    ((List.replicate 8 (re one)).length ≤ bench.fir.maxInput.toNat ∧
      (3 : BitVec 32).toNat < ceilDiv (List.replicate 8 (re one)).length (bench.fir.stages.map fun st => st.decim.toNat).prod) := by
  decide

/-- Counters at both ends of their range. -/
theorem witness_StageOutputCount :
    let a : Stage := ⟨2, [half, half], List.replicate 4 CSample.zero, 0, 2, List.replicate 4 CSample.zero, 0⟩
    let b : Stage := { a with cnt := 1 }
    (0 < a.cnt ∧ a.cnt ≤ a.decim.toNat ∧ a.cnt = a.decim.toNat) ∧ (0 < b.cnt ∧ b.cnt ≤ b.decim.toNat ∧ b.cnt = 1) := by decide

/-- A full call in two pieces, with as little room as R155 lets pass. -/
theorem witness_FirStreamingEquivalence : bench.fir.valid = true ∧ bench.fir.Inv bench.params ∧
    [re one, re two, re 0].length + (List.replicate 5 (re three)).length ≤ bench.fir.maxInput.toNat ∧
    ceilDiv [re one, re two, re 0].length (bench.fir.stages.map fun st => st.decim.toNat).prod ≤ (2 : BitVec 32).toNat ∧
    ceilDiv (List.replicate 5 (re three)).length (bench.fir.stages.map fun st => st.decim.toNat).prod ≤ (3 : BitVec 32).toNat ∧
    ceilDiv ([re one, re two, re 0].length + (List.replicate 5 (re three)).length)
      (bench.fir.stages.map fun st => st.decim.toNat).prod ≤ (4 : BitVec 32).toNat :=
  ⟨rfl, firMid_inv, by decide, by decide, by decide, by decide⟩

/-- The identity filter of V-FIR-2. -/
def identityStage : Stage := ⟨1, [one], List.replicate 2 (re two), 0, 1, List.replicate 4 CSample.zero, 0⟩

theorem identity_inv : (Fir.mk true 4 [identityStage]).Inv Params.default := by
  refine ⟨by decide, by decide, ⟨⟨?_, ?_, ?_, ?_, ?_, ?_, ?_, ?_, ?_, ?_⟩, trivial⟩⟩ <;> decide +kernel

theorem witness_FirIdentity :
    let s : State := { State.reset with fir := ⟨true, 4, [identityStage]⟩ }
    let xs : List CSample := [⟨0x80000000, 1⟩, ⟨0x7F800000, 0xFF800000⟩, ⟨0x3F800001, 0x007FFFFF⟩]
    s.fir.valid = true ∧ s.fir.Inv s.params ∧ s.fir.stages = [identityStage] ∧ identityStage.taps = [0x3F800000#32] ∧
    identityStage.decim = 1 ∧ (∀ c ∈ xs, f32IsNaN c.re = false ∧ f32IsNaN c.im = false) ∧
    xs.length ≤ s.fir.maxInput.toNat ∧ xs.length ≤ (3 : BitVec 32).toNat :=
  ⟨rfl, identity_inv, rfl, rfl, rfl, by decide +kernel, by decide, by decide⟩

/-- NF and `record_bits` at their greatest. -/
theorem witness_BfcInitBuildsTable : tsModeOfCode 4 = some .localDatetimeAmpm ∧ (256 : BitVec 16) ≠ 0 ∧ (65535 : BitVec 16) ≠ 0 ∧
    (256 : BitVec 16).toNat ≤ State.reset.params.nfMax ∧ (65535 : BitVec 16).toNat ≤ State.reset.params.recordBitsMax := by decide

/-- Each reason of each clause, just past its bound. -/
theorem witness_ConstructorsRejectBadSizes :
    let s : State := { State.reset with params := { Params.default with recordBitsMax := 64 } }
    4 < (5 : BitVec 3).toNat ∧
    ((4 : BitVec 3).toNat ≤ 4 ∧ (257 : BitVec 16) ≠ 0 ∧ (8 : BitVec 16) ≠ 0 ∧ s.params.nfMax < (257 : BitVec 16).toNat) ∧
    s.params.recordBitsMax < (65 : BitVec 16).toNat ∧
    f32IsFinite 0x7F800000 = false ∧
    ((257 : BitVec 16) ≠ 0 ∧ f32IsFinite 0x7F7FFFFF = true ∧ s.params.nsMax < (257 : BitVec 16).toNat) := by decide

/-- The last bit of the record, a name not in use, the first empty slot 6. -/
theorem witness_AddFieldFillsLowestSlot : bench.bfc.valid = true ∧ tx "x" ≠ [] ∧ bench.bfc.slots[6]? = some none ∧
    (∀ m < 6, bench.bfc.slots[m]? ≠ some none) ∧ (∀ f, some f ∈ bench.bfc.slots → f.name ≠ tx "x") ∧
    (39 : BitVec 16).toNat ≤ (39 : BitVec 16).toNat ∧ (39 : BitVec 16).toNat < bench.bfc.recordBits.toNat ∧
    formatOfCode 5 = some .enumerated ∧ endianOfCode 1 = some .little ∧ (256 : BitVec 16).toNat ≤ bench.params.enumMax := by
  refine ⟨rfl, by decide +kernel, rfl, by decide +kernel, ?_, by decide, by decide, rfl, rfl, by decide⟩
  intro f hf
  have : f = fId ∨ f = fChan ∨ f = fTemp ∨ f = fBatt ∨ f = fHum ∨ f = fCrc := by simpa [bench, sixFields] using hf
  rcases this with h | h | h | h | h | h <;> rw [h] <;> decide +kernel

/-- The refusals of BFC.ADDF in their order, each just past its bound (V-BFC-2). -/
theorem witness_AddFieldFaultOrder : bench.bfc.valid = true ∧
    (let add := fun (name : String) (a b : BitVec 16) (f : BitVec 3) (e : BitVec 2) (n : BitVec 16) (s : State) =>
      replyOf (exec (.bfcAddf (tx name) a b f e n 0 0) s)
    let wide : State := { bench with bfc := { sixFields with recordBits := 128 } }
    add "" 0 64 6 2 257 bench = some [0x1101] ∧ add "x" 0 64 6 2 257 device = some [0x104] ∧ add "id" 0 64 6 2 257 bench = some [0x204] ∧
    add "x" 8 7 6 2 257 bench = some [0x105] ∧ add "x" 0 64 6 2 257 wide = some [0x205] ∧ add "x" 0 40 6 2 257 bench = some [0x305] ∧
    add "x" 0 39 6 2 257 bench = some [0x606] ∧ add "x" 0 39 5 2 257 bench = some [0x207] ∧ add "x" 0 39 5 1 257 bench = some [0x1102]) := by
  decide +kernel

/-- The formatter of P2 with room for one more symbol of `chan`. -/
def roomy : State := { bench with bfc := { sixFields with slots := [some fId, some { fChan with enumCap := 4 }, none] } }

/-- No field of the name; the first field of the name, and each refusal in its turn (V-BFC-3). -/
theorem witness_AddEnumAppends : roomy.bfc.valid = true ∧ (∀ f, some f ∈ roomy.bfc.slots → f.name ≠ tx "nope") ∧
    (roomy.bfc.slots[1]? = some (some { fChan with enumCap := 4 }) ∧ fChan.name = tx "chan" ∧
      ∀ m < 1, ∀ g, roomy.bfc.slots[m]? = some (some g) → g.name ≠ tx "chan") ∧
    replyOf (exec (.bfcAdde (tx "nope") [] 7) roomy) = some [0x108] ∧ replyOf (exec (.bfcAdde (tx "chan") [] 7) bench) = some [0x1201] ∧
    replyOf (exec (.bfcAdde (tx "chan") (tx "A") 7) bench) = some [0x304] ∧ replyOf (exec (.bfcAdde (tx "chan") (tx "A") 7) roomy) = some [0x404] ∧
    replyOf (exec (.bfcAdde (tx "chan") (tx "D") 7) roomy) = some [0] := by
  refine ⟨rfl, ?_, ⟨rfl, rfl, ?_⟩, by decide +kernel, by decide +kernel, by decide +kernel, by decide +kernel, by decide +kernel⟩
  · intro f hf
    have : f = fId ∨ f = { fChan with enumCap := 4 } := by simpa [roomy, bench] using hf
    rcases this with h | h <;> rw [h] <;> decide +kernel
  · intro m hm g hg
    obtain rfl : m = 0 := by omega
    obtain rfl : fId = g := by simpa [roomy, bench] using hg
    decide +kernel

theorem witness_SetDefaultStoresPattern : bench.bfc.valid = true ∧
    (bench.bfc.slots[0]? = some (some fId) ∧ fId.name = tx "id" ∧ strToRaw [bench.draws] fId (tx "0xff") = .ok 255 ∧
      strToRaw [bench.draws] fId (tx "0xgg") = .error ⟨.parseError, 1⟩ ∧ strToRaw [bench.draws] fId (tx "256") = .error ⟨.valueOutOfRange, 2⟩) ∧
    (∀ f, some f ∈ bench.bfc.slots → f.name ≠ tx "nope") := by
  refine ⟨rfl, ⟨rfl, rfl, by decide +kernel, by decide +kernel, by decide +kernel⟩, ?_⟩
  intro f hf
  have : f = fId ∨ f = fChan ∨ f = fTemp ∨ f = fBatt ∨ f = fHum ∨ f = fCrc := by simpa [bench, sixFields] using hf
  rcases this with h | h | h | h | h | h <;> rw [h] <;> decide +kernel

/-- The whole record, and one bit of it. -/
theorem witness_FieldBitsInvert : (fCrc.startBit.toNat ≤ fCrc.endBit.toNat ∧ fCrc.endBit.toNat < (rec40 0x3277FDA5 0xFF).length ∧
    255 ≤ 2 ^ fieldWidth fCrc - 1) ∧ (fBatt.startBit.toNat ≤ fBatt.endBit.toNat ∧ fBatt.endBit.toNat < (rec40 0 0).length ∧
    1 ≤ 2 ^ fieldWidth fBatt - 1) := by decide +kernel

theorem witness_DecodeRendersEveryField : bench.bfc.valid = true := rfl

/-- Two pairs for one field: the later one overlaps the earlier. -/
theorem witness_EncodeWritesNamedFields : bench.bfc.valid = true ∧ bench.bfc.Inv bench.params ∧
    (∀ p kv, [Pair.mk (tx "id") (tx "0x10"), ⟨tx "chan", tx "C"⟩][p]? = some kv →
      ∃ f v, findField bench.bfc kv.key = some f ∧ strToRaw [p, bench.draws] f kv.value = .ok v) ∧
    fId.endBit.toNat < fChan.startBit.toNat := by
  refine ⟨rfl, sixFields_inv, ?_, by decide⟩
  intro p kv h
  match p, h with
  | 0, h => exact ⟨fId, 0x10, by simp at h; subst h; decide +kernel, by simp at h; subst h; decide +kernel⟩
  | 1, h => exact ⟨fChan, 2, by simp at h; subst h; decide +kernel, by simp at h; subst h; decide +kernel⟩
  | n + 2, h => simp at h

/-- A first pair that parses; then an unknown key, and a text that does not parse. -/
theorem witness_EncodeStopsAtUnknownKey : bench.bfc.valid = true ∧ [Pair.mk (tx "id") (tx "0x10")].length < 2 ^ 16 ∧
    (∃ t, exec (.bfcEnc [⟨tx "id", tx "0x10"⟩] (rec40 0 0)) bench = .next t ∧ t.status = 0) ∧ findField bench.bfc (tx "nope") = none ∧
    (findField bench.bfc (tx "temp") = some fTemp ∧ strToRaw [1, bench.draws] fTemp (tx "2048") = .error ⟨.valueOutOfRange, 2⟩) :=
  ⟨rfl, by decide, ⟨_, rfl, by decide +kernel⟩, by decide +kernel, by decide +kernel, by decide +kernel⟩

theorem witness_DefaultsWriteEveryField : bench.bfc.valid = true ∧ bench.bfc.Inv bench.params ∧
    usedFields bench.bfc = [fId, fChan, fTemp, fBatt] ++ fHum :: [fCrc] ∧ fHum.endBit.toNat < fCrc.startBit.toNat :=
  ⟨rfl, sixFields_inv, rfl, by decide⟩

/-- The float field of R209's example, scaling 0.1, and an integer field of that scaling. -/
def fTenth : BitField := { fTemp with format := .float, scaling := 0x3FB999999999999A }
def fScaled : BitField := { fTenth with format := .twosComplement }

/-- An enumerated field with a match behind another entry and with none; each format at its least and greatest patterns; then
R209's example, and -5 in tenths, where rounding stays below one half. -/
theorem witness_TextRoundTrip :
    (fChan.enums = [⟨tx "A", 0⟩] ++ ⟨tx "B", 1⟩ :: [⟨tx "C", 2⟩] ∧ ∀ e ∈ fChan.enums, e.value.toNat ≠ 3) ∧
    (∀ f ∈ [fId, fTemp, fBatt], fieldWidth f ≤ 64 ∧ 2 ^ fieldWidth f - 1 < 2 ^ fieldWidth f ∧ f.format ≠ .float ∧
      f.format ≠ .signMagnitude ∧ (f.format = .hex ∨ identityScaling f = true)) ∧
    (let f : BitField := { fTemp with format := .signMagnitude };
      fieldWidth f ≤ 64 ∧ 0xFFF < 2 ^ fieldWidth f ∧ identityScaling f = true ∧ 0xFFF ≠ 2 ^ (fieldWidth f - 1)) ∧
    ((fChan.enums.map EnumEntry.symbol).Nodup ∧ ∀ raw < 4, ∀ x ∈ fChan.enums, x.symbol ≠ hexText Params.default fChan raw) ∧
    (fieldWidth fTenth ≤ 64 ∧ 0x8FA < 2 ^ fieldWidth fTenth ∧ 0x8FA ≠ 2 ^ (fieldWidth fTenth - 1) ∧
      (let real := f64Add [] (f64Mul [] (f64OfInt 250) (f64Neg fTenth.scaling)) fTenth.offset
        let quotient := f64Div [] (f64Sub [] real fTenth.offset) fTenth.scaling
        real = 0xC039000000000000 ∧ f64IsFinite real = true ∧ f64IsFinite quotient = true ∧
          2 * |fpValue 52 quotient - -250 * 2 ^ 1074| < 2 ^ 1074)) ∧
    (identityScaling fScaled = false ∧
      (let real := f64Add [] (f64Mul [] (f64OfInt (-5)) fScaled.scaling) fScaled.offset
        let quotient := f64Div [] (f64Sub [] real fScaled.offset) fScaled.scaling
        f64IsFinite real = true ∧ f64IsFinite quotient = true ∧ 2 * |fpValue 52 quotient - -5 * 2 ^ 1074| < 2 ^ 1074)) := by
  decide +kernel

/-- The first value past each end, for each format; a text that is no number; an enumeration symbol whose value is above
the mask; the text of R218's example, and one whose quotient is infinite. -/
theorem witness_RangeLaw :
    (fieldWidth fChan ≤ 64 ∧ strToRaw [] fChan (tx "C") = .ok 2) ∧
    (identityScaling fId = true ∧ fId.format = .hex ∧ (-1 : Int) < 0 ∧ (2 ^ fieldWidth fId : Int) ≤ 256 ∧ (256 : Int).natAbs < 2 ^ 64) ∧
    (identityScaling fTemp = true ∧ fTemp.format = .twosComplement ∧ (-2049 : Int) < -(2 ^ (fieldWidth fTemp - 1) : Int) ∧
      (2 ^ (fieldWidth fTemp - 1) : Int) ≤ 2048) ∧
    2 ^ (fieldWidth { fTemp with format := .signMagnitude } - 1) ≤ (-2048 : Int).natAbs ∧
    (parseInt (tx "-0X1f") = .ok (true, 31) ∧ parseInt (tx "0x") = .error ⟨.parseError, 1⟩ ∧ ∀ e ∈ fChan.enums, e.symbol ≠ tx "3") ∧
    (let f : BitField := { fChan with enums := [⟨tx "D", 4⟩] };
      f.enums = [] ++ ⟨tx "D", 4⟩ :: [] ∧ 2 ^ fieldWidth f ≤ (4 : BitVec 64).toNat) ∧
    (parseReal (fmtReal 0xC039000000000000) = some 0xC039000000000000 ∧ identityScaling fScaled = false ∧
      f64IsFinite (f64Div [] (f64Sub [] 0xC039000000000000 fScaled.offset) fScaled.scaling) = true) ∧
    (parseReal (fmtReal 0x7FEFFFFFFFFFFFFF) = some 0x7FEFFFFFFFFFFFFF ∧ fTenth.format = .float ∧
      f64IsFinite (f64Div [] (f64Sub [] 0x7FEFFFFFFFFFFFFF fTenth.offset) fTenth.scaling) = false) := by
  refine ⟨by decide +kernel, by decide +kernel, by decide +kernel, by decide +kernel, by decide +kernel, by decide +kernel,
    ⟨parseReal_fmtReal (by decide +kernel), by decide +kernel⟩, ⟨parseReal_fmtReal (by decide +kernel), by decide +kernel⟩⟩

/-- NS and `msg_bits` at their greatest, `on_val` the greatest finite number. -/
theorem witness_BsmInitBuildsMachine : (256 : BitVec 16) ≠ 0 ∧ (1 : BitVec 32) ≠ 0 ∧ (65535 : BitVec 16) ≠ 0 ∧ f32IsFinite 0x7F7FFFFF = true ∧
    (256 : BitVec 16).toNat ≤ State.reset.params.nsMax ∧ (65535 : BitVec 16).toNat ≤ State.reset.params.recordBitsMax := by decide

/-- The last state with room, the same with a full list, and the first index outside the table. -/
theorem witness_StateTableCommands : device.bsm.valid = true ∧
    (∃ st, device.bsm.states[(2 : BitVec 16).toNat]? = some st ∧ st.trigs.length < device.params.ntMax) ∧
    (let s : State := { device with params := { Params.default with ntMax := 4 } }
      ∃ st, s.bsm.states[(2 : BitVec 16).toNat]? = some st ∧ st.trigs.length = s.params.ntMax) ∧
    device.bsm.states.length ≤ (3 : BitVec 16).toNat :=
  ⟨rfl, ⟨_, rfl, by decide⟩, ⟨_, rfl, by decide⟩, by decide⟩

theorem witness_BsmReadyReports : (device.bsm.valid = true ∧ ∀ st ∈ device.bsm.states, st.name ≠ [] ∧
      ∀ t ∈ st.trigs, t.cond.toNat ≤ 4 ∧ t.action.toNat ≤ 3 ∧ t.next.toNat < device.bsm.states.length) ∧
    (let b := oneTrigger ⟨4, 0, 3, 1⟩;
      ¬ (b.valid = true ∧ ∀ st ∈ b.states, st.name ≠ [] ∧
        ∀ t ∈ st.trigs, t.cond.toNat ≤ 4 ∧ t.action.toNat ≤ 3 ∧ t.next.toNat < b.states.length)) := by decide +kernel

theorem witness_RdaccReadsAccumulator : State.reset.bsm.valid = false ∧
    (busy.bsm.valid = true ∧ busy.bsm.acc.length = busy.bsm.msgBits.toNat) := by decide

/-- A machine in the middle of a message, and one that has just handed its record over. -/
theorem witness_BsmProcCompletes : bsmInitialized busy.bsm = true ∧
    (let b : Bsm := { pdmAt 0 0 2 false [true, false] with clrPending := true };
      bsmInitialized b = true ∧ b.clrPending = true) := by decide +kernel

/-- The first half of the message of R263 gives no output. -/
theorem witness_BsmProcSplits : bsmInitialized device.bsm = true ∧
    ∃ t, exec (.bsmProc (unpackBits 16 [0x001E])) device = .next t ∧ t.reply = [0, BitVec.ofNat 32 (unpackBits 16 [0x001E]).length, 0] :=
  ⟨by decide +kernel, _, rfl, by decide +kernel⟩

/-- A low sample in state `reset`. -/
theorem witness_SilentSampleAges : bsmInitialized device.bsm = true ∧ device.bsm.clrPending = false ∧
    (∀ t ∈ (currentState (countSample device.bsm)).trigs, triggerParticipates (countSample device.bsm) t = true →
      condHolds (countSample device.bsm) (currentState (countSample device.bsm)) t.cond false = false) := by decide +kernel

/-- A state whose own duration has no match, and a machine whose record is full. -/
def shortPulse : Bsm := pdmAt 1 4 0 true [false, false]
def fullRecord : Bsm := { oneTrigger ⟨0, 0, 1, 0⟩ with bitcnt := 2, acc := [true, true] }

theorem witness_HardResetOnAnomaly :
    (let s := deviceAt shortPulse;
      bsmInitialized s.bsm = true ∧ s.bsm.clrPending = false ∧ (currentState s.bsm).trigs = [] ++ ⟨2, 0, 0, 2⟩ :: [] ∧
      triggerParticipates (countSample s.bsm) ⟨2, 0, 0, 2⟩ = true ∧ condHolds (countSample s.bsm) (currentState s.bsm) 2 false = true ∧
      (currentState s.bsm).durationUs ≠ 0 ∧ inTolerance s.bsm.fs.toNat (min (s.bsm.scount + 1) (2 ^ 64 - 1)) (currentState s.bsm).durationUs.toNat = false) ∧
    (let s := deviceAt fullRecord;
      bsmInitialized s.bsm = true ∧ s.bsm.clrPending = false ∧ (currentState s.bsm).trigs = [] ++ ⟨0, 0, 1, 0⟩ :: [] ∧
      triggerParticipates (countSample s.bsm) ⟨0, 0, 1, 0⟩ = true ∧ condHolds (countSample s.bsm) (currentState s.bsm) 0 true = true ∧
      s.bsm.msgBits.toNat ≤ s.bsm.bitcnt) := by decide +kernel

/-- In `gap` after 400 us and a rising edge: the second trigger fires, the first one not; and an output into state 0. -/
theorem witness_TriggerTransition :
    (let s := deviceAt (pdmAt 2 3 1 false [true, false]);
      bsmInitialized s.bsm = true ∧ s.bsm.clrPending = false ∧
      (currentState s.bsm).trigs = [⟨4, 0, 3, 0⟩] ++ ⟨1, 400, 1, 1⟩ :: [⟨1, 1200, 2, 1⟩, ⟨3, 0, 0, 0⟩] ∧
      (∀ u ∈ [Trigger.mk 4 0 3 0], triggerParticipates (countSample s.bsm) u = true →
        condHolds (countSample s.bsm) (currentState s.bsm) u.cond true = false) ∧
      triggerParticipates (countSample s.bsm) ⟨1, 400, 1, 1⟩ = true ∧ condHolds (countSample s.bsm) (currentState s.bsm) 1 true = true ∧
      (currentState s.bsm).durationUs = 0 ∧ s.bsm.bitcnt < s.bsm.msgBits.toNat) ∧
    (let s := deviceAt (pdmAt 2 0 2 false [true, false]);
      bsmInitialized s.bsm = true ∧ s.bsm.clrPending = false ∧
      (currentState s.bsm).trigs = [] ++ ⟨4, 0, 3, 0⟩ :: [⟨1, 400, 1, 1⟩, ⟨1, 1200, 2, 1⟩, ⟨3, 0, 0, 0⟩] ∧
      triggerParticipates (countSample s.bsm) ⟨4, 0, 3, 0⟩ = true ∧ condHolds (countSample s.bsm) (currentState s.bsm) 4 false = true) := by
  decide +kernel

theorem witness_AlwaysOutputNeverErrs : (oneTrigger ⟨0, 0, 3, 0⟩).valid = true ∧ (oneTrigger ⟨0, 0, 3, 0⟩).cur = 0 ∧ tx "a" ≠ [] ∧
    (oneTrigger ⟨0, 0, 3, 0⟩).states = [⟨tx "a", 0, 0, [⟨0, 0, 3, 0⟩]⟩] := by decide +kernel

/-- R248's example: 400 us at 100000 samples a second, both bounds and both neighbours. -/
theorem witness_ToleranceIsExact : 0 < 100000 ∧ 0 < 400 ∧ inTolerance 100000 34 400 = true ∧ inTolerance 100000 46 400 = true ∧
    inTolerance 100000 33 400 = false ∧ inTolerance 100000 47 400 = false := by decide

/-- A walk that ends. -/
theorem witness_GenEnds : GenEnds device.params device.bsm (genStart device.params []) (List.replicate 4 one) :=
  .last _ ⟨1, true, [], List.replicate 4 one, 1024, 0⟩ rfl rfl

/-- A walk that fails: a state with no trigger. -/
theorem witness_GenFails : GenFails device.params { pdm with states := [⟨tx "a", 0, 0, []⟩] } (genStart device.params [true]) ⟨.protocolError, 1⟩ :=
  .here _ _ rfl

/-- The silent loop of R294. -/
def silent : Bsm := oneTrigger ⟨0, 0, 0, 0⟩

theorem silent_pass (k : Nat) : genPass Params.default silent { genStart Params.default [true] with idle := k } =
    .ok { genStart Params.default [true] with idle := k + 1 } := rfl

theorem silent_never_ends (w : GenWalk) (amps : List F32) (h : GenEnds Params.default silent w amps) :
    ∀ k, w ≠ { genStart Params.default [true] with idle := k } := by
  induction h with
  | last w w' hp hb => rintro k rfl; cases hb
  | more w w' amps hp hb _ ih => rintro k rfl; rw [silent_pass] at hp; exact ih (k + 1) (Except.ok.inj hp).symm

theorem silent_never_fails (w : GenWalk) (r : Raised) (h : GenFails Params.default silent w r) :
    ∀ k, w ≠ { genStart Params.default [true] with idle := k } := by
  induction h with
  | here w r hp => rintro k rfl; rw [silent_pass] at hp; cases hp
  | more w w' r hp hb _ ih => rintro k rfl; rw [silent_pass] at hp; exact ih (k + 1) (Except.ok.inj hp).symm

/-- Triggers and walks for one pass in state 0 of a machine with these triggers. -/
def passOn (trigs : List Trigger) : Bsm := { pdm with states := [⟨tx "a", 400, 0, trigs⟩] }
def walk (bits : List Bool) : GenWalk := ⟨0, false, bits, [], 4, 0⟩

/-- No possible trigger; a timeout trigger; an append of the wrong bit; a state of 4 samples that fits a capacity of 4, and
one whose gap of 4 more does not fit when no doubling is allowed. -/
theorem witness_GenSelects :
    (∀ t ∈ [Trigger.mk 2 0 0 0, ⟨4, 0, 3, 0⟩], ¬ GenPossible (walk [true]) t) ∧
    GenSelects (walk [true]) [⟨2, 0, 2, 0⟩, ⟨3, 0, 0, 0⟩] ⟨3, 0, 0, 0⟩ ∧
    (GenSelects (walk [true]) [⟨1, 0, 1, 0⟩] ⟨1, 0, 1, 0⟩ ∧ ¬ GenMatches (walk [true]) ⟨1, 0, 1, 0⟩) ∧
    (GenSelects (walk [true]) [⟨0, 0, 0, 0⟩, ⟨1, 0, 2, 0⟩] ⟨1, 0, 2, 0⟩ ∧ GenMatches (walk [true]) ⟨1, 0, 2, 0⟩ ∧
      ∃ c, GenCapacity Params.default 4 c ∧
        ((walk [true]).buf ++ genEmits Params.default (passOn [⟨0, 0, 0, 0⟩, ⟨1, 0, 2, 0⟩]) (walk [true]) ⟨1, 0, 2, 0⟩).length ≤ c) ∧
    (GenSelects (walk [true]) [⟨0, 400, 2, 0⟩] ⟨0, 400, 2, 0⟩ ∧
      ∀ c, GenCapacity { Params.default with genMaxSamples := 7 } 4 c → c < ((walk [true]).buf ++
        genEmits { Params.default with genMaxSamples := 7 } (passOn [⟨0, 400, 2, 0⟩]) (walk [true]) ⟨0, 400, 2, 0⟩).length) := by
  refine ⟨?_, .inr ⟨?_, ⟨[⟨2, 0, 2, 0⟩], [], rfl, ?_, ?_⟩⟩, ⟨.inr ⟨?_, ⟨[], [], rfl, ?_, ?_⟩⟩, ?_⟩,
    ⟨.inl ⟨[⟨0, 0, 0, 0⟩], [], rfl, ?_, ?_⟩, ?_, 4, ⟨0, rfl, .inl rfl⟩, by decide +kernel⟩,
    .inl ⟨[], [], rfl, ?_, ?_⟩, ?_⟩ <;> try (simp only [GenPossible, GenMatches]; decide +kernel)
  rintro c ⟨k, rfl, rfl | h⟩
  · decide +kernel
  · have : (2 ^ k * 4 : Nat) ≤ 7 := h
    have : (8 : Nat) ≤ ((walk [true]).buf ++ genEmits { Params.default with genMaxSamples := 7 } (passOn [⟨0, 400, 2, 0⟩])
      (walk [true]) ⟨0, 400, 2, 0⟩).length := by decide +kernel
    omega

/-- The three clauses: a walk that ends, one that fails, and one that does neither. -/
theorem witness_GenerateDecidesTheWalk :
    (bsmInitialized device.bsm = true ∧ GenEnds device.params device.bsm (genStart device.params []) (List.replicate 4 one)) ∧
    (bsmInitialized { pdm with states := [⟨tx "a", 0, 0, []⟩] } = true ∧
      GenFails device.params { pdm with states := [⟨tx "a", 0, 0, []⟩] } (genStart device.params [true]) ⟨.protocolError, 1⟩) ∧
    (bsmInitialized silent = true ∧ (∀ amps, ¬ GenEnds Params.default silent (genStart Params.default [true]) amps) ∧
      ∀ r, ¬ GenFails Params.default silent (genStart Params.default [true]) r) :=
  ⟨⟨by decide +kernel, witness_GenEnds⟩, ⟨by decide +kernel, witness_GenFails⟩,
    ⟨by decide +kernel, fun amps h => silent_never_ends _ amps h 0 rfl, fun r h => silent_never_fails _ r h 0 rfl⟩⟩

theorem witness_GeneratePulseDistance : device.bsm.valid = true ∧ device.bsm.states = pdmStates ∧ device.bsm.fs = 10000 ∧
    device.params.genGapMode = .full ∧ 4 + 16 * [true, false].length ≤ device.params.genInitCap := by
  refine ⟨rfl, rfl, rfl, rfl, by decide⟩

theorem witness_SilentLoopNeverCompletes : (deviceAt silent).bsm.valid = true ∧ tx "a" ≠ [] ∧
    (deviceAt silent).bsm.states = [⟨tx "a", 0, 0, [⟨0, 0, 0, 0⟩]⟩] ∧ [true] ≠ [] := ⟨rfl, by decide +kernel, rfl, by decide⟩

/-- Room in the list; then a first event of each kind: none, an error (P4) and an output, whose one pair fits, or does not. -/
theorem witness_DevProcCompletes : (devReady device = true ∧
    (unpackBits 32 [0x1E1E001E]).length * ((usedFields device.bfc).length + 1) ≤ device.params.kvMax) ∧
    (replyOf (exec (.bsmProc [false]) device) = some [0, BitVec.ofNat 32 1, 0] ∧ 1 ≤ [false].length) ∧
    (replyOf (exec (.bsmProc (unpackBits 42 [0x7800783E, 0x78])) device) = some [0, BitVec.ofNat 32 7, 2] ∧
      7 ≤ (unpackBits 42 [0x7800783E, 0x78]).length ∧ device.params.devErrPolicy = .goOn) ∧
    (let s : State := { device with params := { Params.default with devErrPolicy := .stop, kvMax := 0 } };
      devReady s = true ∧ replyOf (exec (.bsmProc (unpackBits 42 [0x7800783E, 0x78])) s) = some [0, BitVec.ofNat 32 7, 2] ∧
      s.params.kvMax < (messageKeys s.bfc).length) ∧
    (replyOf (exec (.bsmProc (unpackBits 32 [0x1E1E001E])) device) = some [0, BitVec.ofNat 32 31, 1] ∧
      31 ≤ (unpackBits 32 [0x1E1E001E]).length ∧ (messageKeys device.bfc).length ≤ device.params.kvMax) := by decide +kernel

/-- V-DEV-1: a message that ends on the last sample; one with a sample after it that gives no output; two messages. -/
theorem witness_DevProcDecodesTheAccumulator : devReady device = true ∧ (messageKeys device.bfc).length ≤ device.params.kvMax ∧
    (∃ t, exec (.bsmProc (unpackBits 31 [0x1E1E001E])) device = .next t ∧
      t.reply = [0, BitVec.ofNat 32 31, 1] ∧ 31 = (unpackBits 31 [0x1E1E001E]).length) ∧
    (∃ t v, exec (.bsmProc (unpackBits 32 [0x1E1E001E])) device = .next t ∧ t.reply = [0, BitVec.ofNat 32 31, 1] ∧
      31 < (unpackBits 32 [0x1E1E001E]).length ∧ exec (.bsmProc ((unpackBits 32 [0x1E1E001E]).drop 31)) t = .next v ∧
      v.reply = [0, BitVec.ofNat 32 ((unpackBits 32 [0x1E1E001E]).length - 31), 0]) ∧
    (∃ t, exec (.bsmProc (unpackBits 64 [0x1E1E001E, 0x1E001E1E])) device = .next t ∧ t.reply = [0, BitVec.ofNat 32 31, 1] ∧
      31 ≤ (unpackBits 64 [0x1E1E001E, 0x1E001E1E]).length ∧ (unpackBits 64 [0x1E1E001E, 0x1E001E1E]).length < 2 ^ 32) :=
  ⟨by decide +kernel, by decide +kernel, ⟨_, rfl, by decide +kernel, by decide +kernel⟩,
    ⟨_, _, rfl, by decide +kernel, by decide +kernel, rfl, by decide +kernel⟩,
    ⟨_, rfl, by decide +kernel, by decide +kernel, by decide +kernel⟩⟩

theorem pairsParse_v : PairsParse vOnly device.draws [⟨tx "v", tx "0x02"⟩] := by
  intro p kv h
  match p, h with
  | 0, h => exact ⟨fV, 2, by simp at h; subst h; decide +kernel, by simp at h; subst h; decide +kernel⟩
  | n + 1, h => simp at h

/-- Devices on which BSM.GEN of the pair's record answers samples, fails, and never completes; then a second pair with an
unknown key, and one whose text does not parse. -/
theorem witness_DevGenSynthesizes :
    (devReady device = true ∧ PairsParse device.bfc device.draws [⟨tx "v", tx "0x02"⟩] ∧ device.bfc.Inv device.params ∧
      device.bsm.states = pdmStates ∧ device.bsm.fs = 10000 ∧ device.params.genGapMode = .full ∧
      4 + 16 * device.bfc.recordBits.toNat ≤ device.params.genInitCap) ∧
    (∃ amps : List F32, exec (.bsmGen [true, false]) device = .next (device.completedWith (BitVec.ofNat 32 amps.length :: amps))) ∧
    (let s := deviceAt { pdm with states := [⟨tx "a", 0, 0, []⟩] };
      devReady s = true ∧ exec (.bsmGen [true, false]) s = .next (s.failedWith 11 1)) ∧
    (devReady (deviceAt silent) = true ∧ exec (.bsmGen [true, false]) (deviceAt silent) = .fault .generateNeverCompletes) ∧
    findField device.bfc (tx "nope") = none ∧
    (findField device.bfc (tx "v") = some fV ∧ strToRaw [1, device.draws] fV (tx "4") = .error ⟨.valueOutOfRange, 2⟩) := by
  refine ⟨⟨by decide +kernel, pairsParse_v, vOnly_inv, rfl, rfl, rfl, by decide⟩, ⟨_, rfl⟩, ⟨by decide +kernel, rfl⟩,
    ⟨by decide +kernel, rfl⟩, by decide +kernel, by decide +kernel, by decide +kernel⟩

/-- A list with room, the same list full, an index in it and the first one outside it. -/
theorem witness_KvCommands : device.kv.length < device.params.kvMax ∧
    ({ device with params := { Params.default with kvMax := 1 } } : State).kv.length = 1 ∧
    device.kv[(0 : BitVec 24).toNat]? = some ⟨tx "a", tx "1"⟩ ∧ device.kv.length ≤ (1 : BitVec 24).toNat := by decide +kernel

theorem witness_ThresholdDetects : [re one, ⟨0, two⟩][1]? = some ⟨0, two⟩ := rfl

end Sys2Proof.Tests
end

namespace Sys2Proof.Machine

/-! # Every step keeps the invariant (O9)

A command leaves units that meet their invariants (`State.UnitsInv`), then answers through `done` or `raise`, which
put `STATUS`, `INFO` and the reply in agreement. So each command owes two facts only: the unit it writes stays
well-formed, and the info word it raises keeps bits 31:24 zero. -/

/-! ## The info words commands raise (R332) -/

/-- An error whose info word carries a cause and no index. -/
def Raised.Small (r : Raised) : Prop := r.info.toNat < 256

/-- An error whose info word keeps bits 31:24 zero (R332). -/
def Raised.Fits (r : Raised) : Prop := r.info.toNat < 2 ^ 24

theorem Raised.Small.fits {r : Raised} (h : r.Small) : r.Fits := Nat.lt_trans h (by norm_num)

@[simp] theorem raisedAs_small (code : ErrorCode) (cause : Nat) : (raisedAs code cause).Small := by
  simp only [Raised.Small, raisedAs, infoWord, BitVec.toNat_ofNat]; omega

theorem illegalCommand_small (opc : BitVec 8) : (illegalCommand opc).Small := by
  simp only [Raised.Small, illegalCommand, BitVec.toNat_setWidth]
  have := opc.isLt
  omega

/-- The index of a pair stands above the cause and does not run into bits 31:24 (R332). -/
theorem raisedAtPair_fits (p : Nat) {r : Raised} (h : r.Small) : (raisedAtPair p r).Fits := by
  unfold Raised.Small at h
  simp only [Raised.Fits, raisedAtPair, infoWord, BitVec.toNat_add, BitVec.toNat_ofNat]
  omega

/-- Whatever error a check answers carries a cause alone. -/
def RaisesSmall (o : Option Raised) : Prop := ∀ r, o = some r → r.Small

@[simp] theorem raisesSmall_none : RaisesSmall none := nofun

@[simp] theorem raisesSmall_some (r : Raised) : RaisesSmall (some r) ↔ r.Small := by simp [RaisesSmall]

/-- A computation that answers a value with property `P`, or an error that carries a cause alone. -/
def Yields {α : Type} (P : α → Prop) (e : Except Raised α) : Prop :=
  match e with
  | .ok a => P a
  | .error r => r.Small

@[simp] theorem yields_ok {α : Type} (P : α → Prop) (a : α) : Yields P (.ok a) ↔ P a := Iff.rfl

@[simp] theorem yields_error {α : Type} (P : α → Prop) (r : Raised) : Yields P (.error r) ↔ r.Small := Iff.rfl

theorem Yields.of_ok {α : Type} {P : α → Prop} {e : Except Raised α} {a : α} (h : Yields P e) (he : e = .ok a) : P a := by
  subst he; exact h

theorem Yields.of_error {α : Type} {P : α → Prop} {e : Except Raised α} {r : Raised} (h : Yields P e) (he : e = .error r) :
    r.Small := by
  subst he; exact h

/-! ## Readiness -/

theorem fir_valid_of_ready {s : State} (h : firNotReady s = none) : s.fir.valid = true := by
  simpa [firNotReady] using h

theorem bfc_valid_of_ready {s : State} (h : bfcNotReady s = none) : s.bfc.valid = true := by
  simpa [bfcNotReady] using h

theorem bsm_valid_of_ready {s : State} (h : bsmNotReady s = none) : s.bsm.valid = true := by
  simpa [bsmNotReady] using h

theorem bsmInitialized_valid {b : Bsm} (h : bsmInitialized b = true) : b.valid = true := by
  simp only [bsmInitialized, Bool.and_eq_true] at h
  exact h.1

theorem bsmInitialized_of_runnable {s : State} (h : bsmNotRunnable s = none) : bsmInitialized s.bsm = true := by
  unfold bsmNotRunnable at h
  split_ifs at h with hv hi
  simpa using hi

theorem devReady_of_ready {s : State} (h : devNotReady s = none) :
    s.bfc.valid = true ∧ bsmInitialized s.bsm = true := by
  simp only [devNotReady, ite_eq_left_iff, reduceCtorEq, imp_false, not_not, devReady, Bool.and_eq_true] at h
  obtain ⟨⟨hbfc, hbsm⟩, _⟩ := h
  exact ⟨hbfc, hbsm⟩

@[simp] theorem firNotReady_small (s : State) : RaisesSmall (firNotReady s) := by
  unfold firNotReady; split <;> simp

@[simp] theorem bfcNotReady_small (s : State) : RaisesSmall (bfcNotReady s) := by
  unfold bfcNotReady; split <;> simp

@[simp] theorem bsmNotReady_small (s : State) : RaisesSmall (bsmNotReady s) := by
  unfold bsmNotReady; split <;> simp

@[simp] theorem bsmNotRunnable_small (s : State) : RaisesSmall (bsmNotRunnable s) := by
  unfold bsmNotRunnable; split_ifs <;> simp

@[simp] theorem devNotReady_small (s : State) : RaisesSmall (devNotReady s) := by
  unfold devNotReady; split <;> simp

theorem commandNotReady_small (op : Opcode) (s : State) : RaisesSmall (commandNotReady op s) := by
  cases op <;> simp [commandNotReady]

/-! ## Ending a command -/

/-- The part of the machine's invariant that speaks of units and the list, and not of how the last command ended. -/
structure State.UnitsInv (s : State) : Prop where
  fir : s.fir.valid = true → s.fir.Inv s.params
  bfc : s.bfc.valid = true → s.bfc.Inv s.params
  bsm : s.bsm.valid = true → s.bsm.Inv s.params
  kv_le : s.kv.length ≤ s.params.kvMax

theorem State.Inv.units {s : State} (h : s.Inv) : s.UnitsInv := ⟨h.fir, h.bfc, h.bsm, h.kv_le⟩

/-- The words the host has sent are no unit's. -/
theorem State.UnitsInv.consume {s : State} (h : s.UnitsInv) (rest : List Word) : (s.consume rest).UnitsInv := { h with }

theorem State.UnitsInv.withFir {s : State} (h : s.UnitsInv) {f : Fir} (hf : f.valid = true → f.Inv s.params) :
    State.UnitsInv { s with fir := f } := { h with fir := hf }

theorem State.UnitsInv.withBfc {s : State} (h : s.UnitsInv) {b : Bfc} (hb : b.valid = true → b.Inv s.params) :
    State.UnitsInv { s with bfc := b } := { h with bfc := hb }

theorem State.UnitsInv.withBsm {s : State} (h : s.UnitsInv) {b : Bsm} (hb : b.valid = true → b.Inv s.params) :
    State.UnitsInv { s with bsm := b } := { h with bsm := hb }

theorem State.UnitsInv.withoutFir {s : State} (h : s.UnitsInv) (f : Fir) :
    State.UnitsInv { s with fir := { f with valid := false } } := h.withFir fun hv => absurd hv Bool.false_ne_true

theorem State.UnitsInv.withoutBfc {s : State} (h : s.UnitsInv) (b : Bfc) :
    State.UnitsInv { s with bfc := { b with valid := false } } := h.withBfc fun hv => absurd hv Bool.false_ne_true

theorem State.UnitsInv.withoutBsm {s : State} (h : s.UnitsInv) (b : Bsm) :
    State.UnitsInv { s with bsm := { b with valid := false } } := h.withBsm fun hv => absurd hv Bool.false_ne_true

theorem State.UnitsInv.withKv {s : State} (h : s.UnitsInv) {kv : List Pair} (hk : kv.length ≤ s.params.kvMax) :
    State.UnitsInv { s with kv := kv } := { h with kv_le := hk }

/-- A reaction whose next state, where it has one, meets the machine's invariant. -/
def KeepsInv (o : Reaction) : Prop := ∀ t, o = .next t → t.Inv

theorem KeepsInv.next {s : State} (h : s.Inv) : KeepsInv (.next s) := by
  rintro t ⟨⟩; exact h

theorem KeepsInv.fault (r : Fault) : KeepsInv (.fault r) := by
  intro t ht; cases ht

/-- A command that completes has status and info 0 (R330). -/
theorem KeepsInv.done {s : State} (h : s.UnitsInv) (ws : List Word) : KeepsInv (done s ws) := by
  intro t ht
  cases done_next ht
  exact { h with status_le := by simp, info_lt := by simp, ok_info := fun _ => rfl, failed_reply := fun hne => absurd rfl hne }

/-- A command that fails has one of the thirteen codes and answers the status word (R330, R131). -/
theorem KeepsInv.raise {s : State} (h : s.UnitsInv) {r : Raised} (hr : r.Fits) : KeepsInv (raise s r) := by
  intro t ht
  cases raise_next ht
  exact { h with
    status_le := statusCode_le r.code
    info_lt := hr
    ok_info := fun h0 => absurd h0 (statusCode_ne_zero r.code)
    failed_reply := fun _ => rfl }

end Sys2Proof.Machine

namespace Sys2Proof.Machine

/-! ## The FIR (R23 to R28) -/

theorem ceilDiv_le_iff {n d k : Nat} (hd : 0 < d) : ceilDiv n d ≤ k ↔ n ≤ d * k := by
  rw [ceilDiv, ← Nat.ceilDiv_eq_add_pred_div, ceilDiv_le_iff_le_mul hd]

theorem ceilDiv_one (n : Nat) : ceilDiv n 1 = n := by simp [ceilDiv]

/-- Decimating by `c` and then by `d` needs no more room than decimating by `c * d` (R23). -/
theorem ceilDiv_ceilDiv_le (n : Nat) {c d : Nat} (hc : 0 < c) (hd : 0 < d) :
    ceilDiv (ceilDiv n c) d ≤ ceilDiv n (c * d) := by
  rw [ceilDiv_le_iff hd, ceilDiv_le_iff hc, ← Nat.mul_assoc, ← ceilDiv_le_iff (Nat.mul_pos hc hd)]

/-! ### Construction and reset -/

theorem stageConfigError_fits {i : Nat} {stages : List StageSpec} {r : Raised} (h : stageConfigError i stages = some r) :
    r.Fits := by
  induction stages generalizing i with
  | nil => cases h
  | cons st rest ih =>
    unfold stageConfigError at h
    split_ifs at h
    · cases h; exact infoWord_lt _ _
    · cases h; exact infoWord_lt _ _
    · exact ih h

theorem stageTapError_fits {tMax i : Nat} {stages : List StageSpec} {r : Raised} (h : stageTapError tMax i stages = some r) :
    r.Fits := by
  induction stages generalizing i with
  | nil => cases h
  | cons st rest ih =>
    unfold stageTapError at h
    split_ifs at h
    · cases h; exact infoWord_lt _ _
    · exact ih h

theorem firInitError_fits {p : Params} {m : Nat} {stages : List StageSpec} {r : Raised}
    (h : firInitError p m stages = some r) : r.Fits := by
  unfold firInitError at h
  split at h
  · cases h; exact (raisedAs_small _ _).fits
  · split at h
    · next hc => cases h; exact stageConfigError_fits hc
    · split at h
      · cases h; exact (raisedAs_small _ _).fits
      · split at h
        · next ht => cases h; exact stageTapError_fits ht
        · split at h
          · cases h; exact (raisedAs_small _ _).fits
          · cases h

/-- A stage descriptor the checks of FIR.INIT let pass (R151). -/
def LegalStage (st : StageSpec) : Prop :=
  0 < st.taps.length ∧ 0 < st.decimation.toNat ∧ st.decimation.toNat < 2 ^ 31

theorem stageConfigError_legal {i : Nat} {stages : List StageSpec} (h : stageConfigError i stages = none) :
    ∀ st ∈ stages, LegalStage st := by
  induction stages generalizing i with
  | nil => nofun
  | cons st rest ih =>
    unfold stageConfigError at h
    split_ifs at h with ht hd
    exact List.forall_mem_cons.mpr ⟨⟨by omega, by omega, by omega⟩, ih h⟩

theorem firInitError_none {p : Params} {m : Nat} {stages : List StageSpec} (h : firInitError p m stages = none) :
    0 < stages.length ∧ stages.length ≤ p.sMax ∧ ∀ st ∈ stages, LegalStage st := by
  unfold firInitError at h
  split at h
  · cases h
  · split at h
    · cases h
    · next hc =>
      split at h
      · cases h
      · exact ⟨by omega, by omega, stageConfigError_legal hc⟩

theorem freshStage_inv (m c : Nat) {st : StageSpec} (h : LegalStage st) :
    (freshStage m c st).Inv (ceilDiv m (c * st.decimation.toNat)) := by
  obtain ⟨htaps, hpos, hlt⟩ := h
  exact {
    taps_pos := htaps
    decim_pos := hpos
    decim_lt := hlt
    hist_length := List.length_replicate
    mirrored := fun j hj => by simp only [freshStage] at hj ⊢; simp
    wp_lt := htaps
    cnt_pos := hpos
    cnt_le := Nat.le_refl _
    obuf_length := List.length_replicate
    ocount_le := Nat.zero_le _ }

theorem freshStages_inv (m : Nat) {stages : List StageSpec} (c : Nat) (h : ∀ st ∈ stages, LegalStage st) :
    StagesInv m c (freshStages m c stages) := by
  induction stages generalizing c with
  | nil => trivial
  | cons st rest ih =>
    obtain ⟨hst, hrest⟩ := List.forall_mem_cons.mp h
    exact ⟨freshStage_inv m c hst, ih _ hrest⟩

@[simp] theorem freshStages_length (m c : Nat) (stages : List StageSpec) :
    (freshStages m c stages).length = stages.length := by
  induction stages generalizing c with
  | nil => rfl
  | cons st rest ih => simp [freshStages, ih]

theorem resetStage_inv {cap : Nat} {st : Stage} (h : st.Inv cap) : (resetStage st).Inv cap :=
  { h with
    hist_length := List.length_replicate.trans h.hist_length
    mirrored := fun j hj => by simp [resetStage]
    wp_lt := h.taps_pos
    cnt_pos := h.decim_pos
    cnt_le := Nat.le_refl _
    obuf_length := List.length_replicate.trans h.obuf_length
    ocount_le := Nat.zero_le _ }

theorem map_resetStage_inv {m c : Nat} {stages : List Stage} (h : StagesInv m c stages) :
    StagesInv m c (stages.map resetStage) := by
  induction stages generalizing c with
  | nil => trivial
  | cons st rest ih =>
    obtain ⟨hst, hrest⟩ := h
    exact ⟨resetStage_inv hst, ih hrest⟩

/-! ### One sample, one stage, the cascade (R154, R156) -/

/-- What a sample does to a stage: the insert, then either an output and a restarted counter, or a count (R156). -/
theorem stageStep_cases (site : Site) (st : Stage) (x : CSample) :
    (st.cnt ≤ 1 ∧ ∃ y, stageStep site st x =
      advancePointer { obufAppend (histInsert st x) y with cnt := st.decim.toNat }) ∨
    (1 < st.cnt ∧ stageStep site st x = advancePointer { histInsert st x with cnt := st.cnt - 1 }) := by
  simp only [stageStep]
  split
  · exact .inl ⟨by omega, _, rfl⟩
  · exact .inr ⟨by omega, rfl⟩

/-- Both copies of the history take the sample at the same place, so they stay equal (R25, R156). -/
theorem histInsert_mirrored {st : Stage} (x : CSample) (hlen : st.hist.length = 2 * st.taps.length)
    (hwp : st.wp < st.taps.length)
    (h : ∀ j < st.taps.length, st.hist.getD j CSample.zero = st.hist.getD (j + st.taps.length) CSample.zero) :
    ∀ j < st.taps.length, (histInsert st x).hist.getD j CSample.zero =
      (histInsert st x).hist.getD (j + st.taps.length) CSample.zero := by
  intro j hj
  have hjj := h j hj
  simp only [List.getD_eq_getElem?_getD] at hjj ⊢
  simp only [histInsert_hist, stageTaps, List.getElem?_set, List.length_set]
  by_cases he : st.wp = j
  · simp [he, hlen, show ¬ st.taps.length = 0 by omega, show j < 2 * st.taps.length by omega,
      show j + st.taps.length < 2 * st.taps.length by omega]
  · simp [he, hjj, show ¬ st.wp + st.taps.length = j by omega, show ¬ st.wp = j + st.taps.length by omega]

theorem histInsert_inv {cap : Nat} {st : Stage} (h : st.Inv cap) (x : CSample) : (histInsert st x).Inv cap :=
  { h with
    hist_length := (histInsert_hist_length st x).trans h.hist_length
    mirrored := histInsert_mirrored x h.hist_length h.wp_lt h.mirrored }

theorem obufAppend_inv {cap : Nat} {st : Stage} (h : st.Inv cap) (y : CSample) (hroom : st.ocount < cap) :
    (obufAppend st y).Inv cap :=
  { h with
    obuf_length := by rw [obufAppend_obuf, List.length_set]; exact h.obuf_length
    ocount_le := by rw [obufAppend_obuf, obufAppend_ocount, List.length_set, h.obuf_length]; exact hroom }

theorem advancePointer_inv {cap : Nat} {st : Stage} (h : st.Inv cap) : (advancePointer st).Inv cap :=
  { h with
    wp_lt := by
      have hwp := h.wp_lt
      show (if st.wp + 1 + st.taps.length = 2 * st.taps.length then 0 else st.wp + 1) < st.taps.length
      split_ifs <;> omega }

theorem Stage.Inv.withCnt {cap n : Nat} {st : Stage} (h : st.Inv cap) (hpos : 0 < n) (hle : n ≤ st.decim.toNat) :
    Stage.Inv cap { st with cnt := n } := { h with cnt_pos := hpos, cnt_le := hle }

theorem Stage.Inv.restart {cap : Nat} {st : Stage} (h : st.Inv cap) : Stage.Inv cap { st with ocount := 0 } :=
  { h with ocount_le := Nat.zero_le _ }

/-- How many outputs `m` more inputs bring a stage to: what stands in the buffer, and one for each time the counter runs
out (R159). -/
def outputsAfter (st : Stage) (m : Nat) : Nat := st.ocount + (m + st.decim.toNat - st.cnt) / st.decim.toNat

/-- A sample keeps the stage well-formed while the outputs to come have room, and brings the count of outputs to come
down by what it emits. -/
theorem stageStep_inv {cap m : Nat} (site : Site) {st : Stage} (x : CSample) (h : st.Inv cap)
    (hroom : outputsAfter st (m + 1) ≤ cap) :
    (stageStep site st x).Inv cap ∧ outputsAfter (stageStep site st x) m = outputsAfter st (m + 1) := by
  have hpos := h.cnt_pos
  have hle := h.cnt_le
  have hins := histInsert_inv h x
  rcases stageStep_cases site st x with ⟨hcnt, y, he⟩ | ⟨hcnt, he⟩
  · have hone : st.cnt = 1 := by omega
    have hcount : outputsAfter st (m + 1) = st.ocount + 1 + m / st.decim.toNat := by
      rw [outputsAfter, hone, show m + 1 + st.decim.toNat - 1 = m + st.decim.toNat by omega,
        Nat.add_div_right _ h.decim_pos]
      omega
    have happ := obufAppend_inv hins y
      (Nat.lt_of_lt_of_le (Nat.lt_add_right _ (Nat.lt_succ_self _)) (hcount ▸ hroom))
    rw [he]
    refine ⟨advancePointer_inv (happ.withCnt h.decim_pos (Nat.le_refl _)), ?_⟩
    rw [hcount]
    simp [outputsAfter]
  · rw [he]
    refine ⟨advancePointer_inv (hins.withCnt (by omega) (by rw [histInsert_decim]; omega)), ?_⟩
    simp only [outputsAfter, advancePointer_ocount, histInsert_ocount, advancePointer_decim, histInsert_decim,
      advancePointer_cnt]
    congr 2
    omega

/-- A stage that has room for its outputs stays well-formed over its input, and counts exactly those outputs. -/
theorem stageRun_inv {cap : Nat} (site : Site) (xs : List CSample) (k : Nat) {st : Stage} (h : st.Inv cap)
    (hroom : outputsAfter st xs.length ≤ cap) :
    (stageRun site k st xs).Inv cap ∧ (stageRun site k st xs).decim = st.decim ∧
      (stageRun site k st xs).ocount = outputsAfter st xs.length := by
  induction xs generalizing k st with
  | nil =>
    have hlt : st.decim.toNat - st.cnt < st.decim.toNat := Nat.sub_lt h.decim_pos h.cnt_pos
    exact ⟨h, rfl, by simp [stageRun, outputsAfter, Nat.div_eq_of_lt hlt]⟩
  | cons x xs ih =>
    obtain ⟨hstep, hcount⟩ := stageStep_inv (k :: site) x h hroom
    obtain ⟨hinv, hdecim, hout⟩ := ih (k + 1) hstep (hcount.trans_le hroom)
    exact ⟨hinv, hdecim.trans (stageStep_decim _ _ _), hout.trans hcount⟩

/-- One FIR.PROC of a stage: the buffer its inputs need is at most their number divided by the decimation, rounded up
(R154, R159). -/
theorem stageProc_inv {cap : Nat} (site : Site) (xs : List CSample) {st : Stage} (h : st.Inv cap)
    (hroom : ceilDiv xs.length st.decim.toNat ≤ cap) :
    (stageProc site st xs).Inv cap ∧ (stageProc site st xs).decim = st.decim ∧
      (stageOutput (stageProc site st xs)).length ≤ ceilDiv xs.length st.decim.toNat := by
  have hpos := h.cnt_pos
  have hle : outputsAfter { st with ocount := 0 } xs.length ≤ ceilDiv xs.length st.decim.toNat := by
    simp only [outputsAfter, ceilDiv, Nat.zero_add]
    exact Nat.div_le_div_right (by omega)
  obtain ⟨hinv, hdecim, hout⟩ := stageRun_inv site xs 0 h.restart (hle.trans hroom)
  refine ⟨hinv, hdecim, ?_⟩
  rw [stageOutput, List.length_take]
  exact (Nat.min_le_left _ _).trans (hout.trans_le hle)

@[simp] theorem cascade_length (site : Site) (i : Nat) (stages : List Stage) (xs : List CSample) :
    (cascade site i stages xs).1.length = stages.length := by
  induction stages generalizing i xs with
  | nil => rfl
  | cons st rest ih => simp [cascade, ih]

/-- The whole cascade, for no more samples than the buffers were sized for (R23, R155). -/
theorem cascade_inv {m c : Nat} (site : Site) (i : Nat) {stages : List Stage} (xs : List CSample) (hc : 0 < c)
    (h : StagesInv m c stages) (hxs : xs.length ≤ ceilDiv m c) : StagesInv m c (cascade site i stages xs).1 := by
  induction stages generalizing c i xs with
  | nil => trivial
  | cons st rest ih =>
    obtain ⟨hst, hrest⟩ := h
    have hsize : ceilDiv xs.length st.decim.toNat ≤ ceilDiv m (c * st.decim.toNat) :=
      (Nat.div_le_div_right (by omega)).trans (ceilDiv_ceilDiv_le m hc hst.decim_pos)
    obtain ⟨hinv, hdecim, hout⟩ := stageProc_inv (i :: site) xs hst hsize
    have htail := ih (i + 1) _ (Nat.mul_pos hc hst.decim_pos) hrest (hout.trans hsize)
    simp only [cascade, StagesInv, hdecim]
    exact ⟨hinv, htail⟩

/-! ### The FIR commands -/

variable {s : State}

theorem firProcError_small (f : Fir) (count cap : Nat) : RaisesSmall (firProcError f count cap) := by
  unfold firProcError; split_ifs <;> simp

theorem firProcError_count {f : Fir} {count cap : Nat} (h : firProcError f count cap = none) :
    count ≤ f.maxInput.toNat := by
  unfold firProcError at h
  split_ifs at h with hcount
  omega

theorem execFirInit_keepsInv (h : s.UnitsInv) (maxInput : BitVec 32) (stages : List StageSpec) :
    KeepsInv (execFirInit maxInput stages s) := by
  unfold execFirInit
  split
  · next he => exact .raise (h.withoutFir _) (firInitError_fits he)
  · next he =>
    obtain ⟨hpos, hle, hlegal⟩ := firInitError_none he
    refine .done (h.withFir fun _ => ?_) _
    exact ⟨by simpa using hpos, by simpa using hle, freshStages_inv _ 1 hlegal⟩

theorem execFirReset_keepsInv (h : s.UnitsInv) : KeepsInv (execFirReset s) := by
  unfold execFirReset
  split
  · next he => exact .raise h (firNotReady_small s _ he).fits
  · refine .done (h.withFir fun hv => ?_) _
    obtain ⟨hpos, hle, hstages⟩ := h.fir hv
    exact ⟨by simpa using hpos, by simpa using hle, map_resetStage_inv hstages⟩

theorem execFirTotdec_keepsInv (h : s.UnitsInv) : KeepsInv (execFirTotdec s) := by
  unfold execFirTotdec
  split
  · next he => exact .raise h (firNotReady_small s _ he).fits
  · exact .done h _

theorem execFirProc_keepsInv (h : s.UnitsInv) (cap : BitVec 32) (xs : List CSample) : KeepsInv (execFirProc cap xs s) := by
  unfold execFirProc
  split
  · next he => exact .raise h (firNotReady_small s _ he).fits
  · split
    · next he => exact .raise h (firProcError_small _ _ _ _ he).fits
    · next he =>
      refine .done (h.withFir fun hv => ?_) _
      obtain ⟨hpos, hle, hstages⟩ := h.fir hv
      have hcount : xs.length ≤ ceilDiv s.fir.maxInput.toNat 1 := by rw [ceilDiv_one]; exact firProcError_count he
      exact ⟨by simpa using hpos, by simpa using hle, cascade_inv _ 0 xs Nat.one_pos hstages hcount⟩

theorem execFirDeinit_keepsInv (h : s.UnitsInv) : KeepsInv (execFirDeinit s) := .done (h.withoutFir _) _

end Sys2Proof.Machine

namespace Sys2Proof.Machine

/-! ## The BFC: the values that parse (R215 to R219) -/

theorem parseInt_yields (t : Text) : Yields (fun _ => True) (parseInt t) := by
  unfold parseInt
  split
  · simp
  · split_ifs <;> split <;> simp

theorem parseUnsigned_yields (t : Text) : Yields (fun _ => True) (parseUnsigned t) := by
  unfold parseUnsigned
  split
  · split_ifs <;> simp
  · next he => exact (parseInt_yields t).of_error he

theorem roundQuotient_yields (q : F64) : Yields (fun _ => True) (roundQuotient q) := by
  unfold roundQuotient; split_ifs <;> simp

theorem unscale_yields (site : Site) (f : BitField) (t : Text) : Yields (fun _ => True) (unscale site f t) := by
  unfold unscale
  split_ifs
  · split
    · simp
    · next he => exact (parseInt_yields t).of_error he
  · split
    · simp
    · exact roundQuotient_yields _

theorem enumValue_yields (f : BitField) (t : Text) : Yields (fun _ => True) (enumValue f t) := by
  unfold enumValue
  split
  · simp
  · exact parseUnsigned_yields t

theorem rangeCheckMask_yields (f : BitField) (v : Nat) : Yields (· ≤ fieldMask f) (rangeCheckMask f v) := by
  unfold rangeCheckMask
  split_ifs with h
  · simp
  · exact Nat.le_of_not_lt h

theorem rangeCheckUnsigned_yields (f : BitField) (x : Int) : Yields (· ≤ fieldMask f) (rangeCheckUnsigned f x) := by
  unfold rangeCheckUnsigned
  split_ifs with h
  · simp
  · exact show x.toNat ≤ fieldMask f by omega

/-- The residue of an integer modulo `2^w` has at most `w` bits (R227). -/
theorem rangeCheckTwos_yields (f : BitField) (x : Int) : Yields (· ≤ fieldMask f) (rangeCheckTwos f x) := by
  unfold rangeCheckTwos
  split_ifs
  · simp
  · have hlt : x % 2 ^ fieldWidth f < 2 ^ fieldWidth f := Int.emod_lt_of_pos x (by positivity)
    show (x % 2 ^ fieldWidth f).toNat ≤ 2 ^ fieldWidth f - 1
    zify [Nat.one_le_two_pow]
    omega

/-- A sign bit and a magnitude of `w - 1` bits make a pattern of `w` bits (R215). -/
theorem rangeCheckSignMagnitude_yields (f : BitField) (x : Int) :
    Yields (· ≤ fieldMask f) (rangeCheckSignMagnitude f x) := by
  unfold rangeCheckSignMagnitude
  split_ifs with h
  · simp
  · have hpow : 2 ^ fieldWidth f = 2 * 2 ^ (fieldWidth f - 1) := by
      rw [← pow_succ', Nat.sub_add_cancel (fieldWidth_pos f)]
    have hpos : 0 < 2 ^ (fieldWidth f - 1) := Nat.two_pow_pos _
    show (if x < 0 then 2 ^ (fieldWidth f - 1) else 0) + x.natAbs ≤ 2 ^ fieldWidth f - 1
    split_ifs <;> omega

theorem parseFloatField_yields (site : Site) (f : BitField) (t : Text) :
    Yields (· ≤ fieldMask f) (parseFloatField site f t) := by
  unfold parseFloatField
  split
  · simp
  · split
    · next he => exact (roundQuotient_yields _).of_error he
    · exact rangeCheckSignMagnitude_yields f _

theorem thenCheck_yields {α : Type} {P : Nat → Prop} {v : Except Raised α} {check : α → Except Raised Nat}
    (hv : Yields (fun _ => True) v) (hc : ∀ a, Yields P (check a)) : Yields P (thenCheck v check) := by
  cases v with
  | error r => exact hv
  | ok a => exact hc a

/-- A text that parses for a field gives a pattern of the field's width (R215). -/
theorem strToRaw_yields (site : Site) (f : BitField) (t : Text) : Yields (· ≤ fieldMask f) (strToRaw site f t) := by
  unfold strToRaw
  split
  · exact thenCheck_yields (parseUnsigned_yields t) (rangeCheckMask_yields f)
  · exact thenCheck_yields (unscale_yields site f t) (rangeCheckUnsigned_yields f)
  · exact thenCheck_yields (unscale_yields site f t) (rangeCheckTwos_yields f)
  · exact thenCheck_yields (unscale_yields site f t) (rangeCheckSignMagnitude_yields f)
  · exact parseFloatField_yields site f t
  · exact thenCheck_yields (enumValue_yields f t) (rangeCheckMask_yields f)

/-! ## The BFC: the field table (R32, R181 to R186) -/

/-- A field table: these used fields, then `k` empty slots. -/
def packedSlots (used : List BitField) (k : Nat) : List (Option BitField) := used.map some ++ List.replicate k none

@[simp] theorem packedSlots_length (used : List BitField) (k : Nat) : (packedSlots used k).length = used.length + k := by
  simp [packedSlots]

theorem usedFields_of_packed {b : Bfc} {used : List BitField} {k : Nat} (h : b.slots = packedSlots used k) :
    usedFields b = used := by
  simp [usedFields, h, packedSlots]

theorem Bfc.Inv.packed {p : Params} {b : Bfc} (h : b.Inv p) : ∃ k, b.slots = packedSlots (usedFields b) k :=
  ⟨_, h.used_first⟩

/-- A field table written anew keeps the formatter well-formed when its used fields are, under distinct names. -/
theorem Bfc.Inv.withSlots {p : Params} {b : Bfc} {used : List BitField} {k : Nat} {slots : List (Option BitField)}
    (h : b.Inv p) (hslots : slots = packedSlots used k) (hlen : slots.length = b.slots.length)
    (hfields : ∀ f ∈ used, f.Inv b.recordBits.toNat) (hnames : (used.map BitField.name).Nodup) :
    Bfc.Inv p { b with slots := slots } := by
  have hused : usedFields { b with slots := slots } = used := usedFields_of_packed hslots
  exact { h with
    slots_pos := hlen ▸ h.slots_pos
    slots_le := hlen ▸ h.slots_le
    used_first := by simp only [hused]; simp [hslots, packedSlots]
    fields := hused ▸ hfields
    names_nodup := hused ▸ hnames }

/-- The first empty slot stands just after the used ones. -/
theorem findIdx?_packedSlots {used : List BitField} {k n : Nat} (h : (packedSlots used k).findIdx? Option.isNone = some n) :
    n = used.length ∧ 0 < k := by
  induction used generalizing n with
  | nil => cases k <;> simp_all [packedSlots, List.replicate_succ, List.findIdx?_cons, eq_comm]
  | cons f used ih =>
    simp only [packedSlots, List.map_cons, List.cons_append, List.findIdx?_cons, Option.isNone_some, Bool.false_eq_true,
      if_false, Option.map_eq_some_iff] at h
    obtain ⟨m, hm, rfl⟩ := h
    obtain ⟨rfl, hk⟩ := ih hm
    exact ⟨rfl, hk⟩

theorem packedSlots_set (used : List BitField) (f : BitField) (k : Nat) :
    (packedSlots used (k + 1)).set used.length (some f) = packedSlots (used ++ [f]) k := by
  simp [packedSlots, List.replicate_succ]

/-- A name that no slot has is no used field's (R183). -/
theorem findField_none {b : Bfc} {name : Text} (h : findField b name = none) : ∀ f ∈ usedFields b, f.name ≠ name := by
  intro f hf hname
  have hmem : some f ∈ b.slots := by simpa [usedFields] using hf
  unfold findField at h
  cases hfind : b.slots.find? (fun o => o.any fun g => decide (g.name = name)) with
  | none => simpa [hname] using List.find?_eq_none.mp hfind _ hmem
  | some o =>
    have ho := List.find?_some hfind
    simp only [hfind, Option.getD_some] at h
    simp [h] at ho

/-- One field of the table changed where it has this name. -/
def changeNamed (name : Text) (g : BitField → BitField) (f : BitField) : BitField := if f.name = name then g f else f

theorem changeNamed_name {name : Text} {g : BitField → BitField} (hg : ∀ f, (g f).name = f.name) (f : BitField) :
    (changeNamed name g f).name = f.name := by
  unfold changeNamed; split <;> simp [hg]

theorem map_changeNamed_of_ne {name : Text} {g : BitField → BitField} {used : List BitField}
    (h : ∀ f ∈ used, f.name ≠ name) : used.map (changeNamed name g) = used :=
  (List.map_congr_left fun f hf => if_neg (h f hf)).trans (List.map_id used)

theorem updateField_replicate (name : Text) (g : BitField → BitField) (k : Nat) :
    updateField name g (List.replicate k none) = List.replicate k none := by
  induction k with
  | zero => rfl
  | succ k ih => simp [List.replicate_succ, updateField, ih]

/-- Where names are distinct, changing the first field of a name changes every field of it (R183). -/
theorem updateField_packedSlots (name : Text) (g : BitField → BitField) (k : Nat) {used : List BitField}
    (h : (used.map BitField.name).Nodup) :
    updateField name g (packedSlots used k) = packedSlots (used.map (changeNamed name g)) k := by
  induction used with
  | nil => exact updateField_replicate name g k
  | cons f used ih =>
    simp only [List.map_cons, List.nodup_cons, List.mem_map, not_exists, not_and] at h
    obtain ⟨hnew, hrest⟩ := h
    have htail := ih hrest
    simp only [packedSlots, List.map_cons, List.cons_append, updateField] at htail ⊢
    split_ifs with hf
    · rw [map_changeNamed_of_ne fun e he hne => hnew e he (hne.trans hf.symm)]
      simp [changeNamed, hf]
    · simp [changeNamed, hf, htail]

/-- Changing the field that is found, but not its name, keeps the formatter well-formed when it keeps that field so. -/
theorem Bfc.Inv.updateField {p : Params} {b : Bfc} {name : Text} {f : BitField} {g : BitField → BitField} (h : b.Inv p)
    (hfind : findField b name = some f) (hname : ∀ e, (g e).name = e.name)
    (hg : f.Inv b.recordBits.toNat → (g f).Inv b.recordBits.toNat) :
    Bfc.Inv p { b with slots := updateField name g b.slots } := by
  obtain ⟨k, hk⟩ := h.packed
  obtain ⟨hmem, hnamed⟩ := findField_some hfind
  refine h.withSlots (k := k) (used := (usedFields b).map (changeNamed name g)) ?_ (updateField_length _ _ _) ?_ ?_
  · conv_lhs => rw [hk]
    exact updateField_packedSlots name g k h.names_nodup
  · intro e' he'
    obtain ⟨e, he, rfl⟩ := List.mem_map.mp he'
    unfold changeNamed
    split_ifs with hen
    · obtain rfl : e = f := List.inj_on_of_nodup_map h.names_nodup he hmem (hen.trans hnamed.symm)
      exact hg (h.fields e he)
    · exact h.fields e he
  · rw [List.map_map, show BitField.name ∘ changeNamed name g = BitField.name from funext (changeNamed_name hname)]
    exact h.names_nodup

/-! ## The BFC: the record (R35, R200 to R202) -/

/-- A record of the configured size with its tail bits 0 keeps the formatter well-formed; the spt cell holds anything. -/
theorem Bfc.Inv.withRecord {p : Params} {b : Bfc} (h : b.Inv p) {record : List Bool} (spt : BitVec 64)
    (hlen : record.length = 8 * ((b.recordBits.toNat + 7) / 8))
    (htail : ∀ k, b.recordBits.toNat ≤ k → record.getD k false = false) :
    Bfc.Inv p { b with record := record, spt := spt } := { h with record_length := hlen, record_tail := htail }

theorem loadRecord_tail (n : Nat) (operand : List Bool) (k : Nat) (hk : n ≤ k) :
    (loadRecord n operand).getD k false = false := by
  rw [loadRecord_getD]; simp [Nat.not_lt.mpr hk]

theorem loadScratch_inv {p : Params} {b : Bfc} (h : b.Inv p) (operand : List Bool) : (loadScratch b operand).Inv p :=
  h.withRecord b.spt (loadRecord_length _ _) (loadRecord_tail _ _)

/-- A used field lies inside the record, so writing it leaves the tail bits 0 (R202). -/
theorem writeField_inv {p : Params} {b : Bfc} (h : b.Inv p) {f : BitField} (hf : f ∈ usedFields b) (raw : Nat) :
    (writeField b f raw).Inv p := by
  refine h.withRecord _ ((insertField_length _ _ _).trans h.record_length) fun k hk => ?_
  have hinside := (h.fields f hf).inside
  exact (insertField_getD_outside f _ _ _ (.inr (by omega))).trans (h.record_tail k hk)

theorem decodeBody_inv {p : Params} {b : Bfc} (h : b.Inv p) (q : Params) (site : Site) (operand : List Bool) :
    (decodeBody q site b operand).1.Inv p :=
  h.withRecord _ (loadRecord_length _ _) (loadRecord_tail _ _)

theorem writeDefaults_inv {p : Params} {b : Bfc} (h : b.Inv p) {fields : List BitField}
    (hf : ∀ f ∈ fields, f ∈ usedFields b) : (writeDefaults b fields).Inv p := by
  induction fields generalizing b with
  | nil => exact h
  | cons f fields ih =>
    obtain ⟨hhead, htail⟩ := List.forall_mem_cons.mp hf
    exact ih (writeField_inv h hhead _) htail

theorem defaultsBody_inv {p : Params} {b : Bfc} (h : b.Inv p) (operand : List Bool) : (defaultsBody b operand).Inv p :=
  writeDefaults_inv (loadScratch_inv h operand) fun _ hf => hf

/-- An encode keeps the formatter well-formed, also where a pair ends it, and its error carries the pair's index (R220,
R221). -/
theorem encodePairs_inv {p : Params} {b : Bfc} (h : b.Inv p) (site : Site) (n : Nat) (pairs : List Pair) :
    (encodePairs site n b pairs).1.Inv p ∧ ∀ r, (encodePairs site n b pairs).2 = some r → r.Fits := by
  induction pairs generalizing n b with
  | nil => exact ⟨h, nofun⟩
  | cons kv rest ih =>
    unfold encodePairs
    split
    · exact ⟨h, fun r hr => by cases hr; exact raisedAtPair_fits n (raisedAs_small _ _)⟩
    · next f hfind =>
      obtain ⟨hmem, -⟩ := findField_some hfind
      split
      · next he => exact ⟨h, fun r hr => by cases hr; exact raisedAtPair_fits n ((strToRaw_yields _ _ _).of_error he)⟩
      · exact ih (writeField_inv h hmem _) (n + 1)

theorem encodeBody_inv {p : Params} {b : Bfc} (h : b.Inv p) (site : Site) (operand : List Bool) (pairs : List Pair) :
    (encodeBody site b operand pairs).1.Inv p ∧ ∀ r, (encodeBody site b operand pairs).2 = some r → r.Fits :=
  encodePairs_inv (loadScratch_inv h operand) site 0 pairs

/-! ## The BFC: construction and configuration (R180 to R186) -/

theorem bfcInitMode_yields (p : Params) (tsMode : BitVec 3) (nf recordBits : BitVec 16) :
    Yields (fun _ => 0 < nf.toNat ∧ nf.toNat ≤ p.nfMax ∧ 0 < recordBits.toNat ∧ recordBits.toNat ≤ p.recordBitsMax)
      (bfcInitMode p tsMode nf recordBits) := by
  unfold bfcInitMode
  split
  · simp
  · split_ifs with hzero hmax
    · simp
    · simp
    · rw [yields_ok]
      simp only [BitVec.ofNat_eq_ofNat, BitVec.toNat_eq, BitVec.toNat_ofNat, Nat.zero_mod] at hzero
      omega

/-- The formatter BFC.INIT builds (R180). -/
theorem freshBfc_inv {p : Params} {nf recordBits : BitVec 16} (mode : TsMode) (spt : BitVec 64)
    (h : 0 < nf.toNat ∧ nf.toNat ≤ p.nfMax ∧ 0 < recordBits.toNat ∧ recordBits.toNat ≤ p.recordBitsMax) :
    Bfc.Inv p ⟨true, recordBits, mode, List.replicate nf.toNat none, loadRecord recordBits.toNat [], spt⟩ := by
  obtain ⟨hnf, hnfMax, hbits, hbitsMax⟩ := h
  have hused : usedFields ⟨true, recordBits, mode, List.replicate nf.toNat none, loadRecord recordBits.toNat [], spt⟩ = [] :=
    usedFields_of_packed (used := []) (k := nf.toNat) rfl
  exact {
    record_pos := hbits
    record_le := hbitsMax
    slots_pos := by simpa using hnf
    slots_le := by simpa using hnfMax
    record_length := loadRecord_length _ _
    record_tail := loadRecord_tail _ _
    used_first := by simp [hused]
    fields := by simp [hused]
    names_nodup := by simp [hused] }

/-- What the checks of BFC.ADDF establish of a new field's name and range, and of its slot `n` (R181). -/
structure FieldFits (b : Bfc) (name : Text) (startBit endBit : BitVec 16) (n : Nat) : Prop where
  name_ne : name ≠ []
  slot_free : b.slots.findIdx? Option.isNone = some n
  name_new : findField b name = none
  range : startBit.toNat ≤ endBit.toNat
  width_le : endBit.toNat - startBit.toNat + 1 ≤ 64
  inside : endBit.toNat < b.recordBits.toNat

theorem addFieldCheck_yields (p : Params) (b : Bfc) (name : Text) (startBit endBit : BitVec 16) (format : BitVec 3)
    (endianness : BitVec 2) (enumCount : BitVec 16) :
    Yields (fun a => FieldFits b name startBit endBit a.1)
      (addFieldCheck p b name startBit endBit format endianness enumCount) := by
  unfold addFieldCheck
  split
  · simp
  · next hname =>
    split
    · simp
    · next n hslot =>
      split
      · simp
      · next hnew =>
        split
        · simp
        · split
          · simp
          · next hwidth =>
            split
            · simp
            · split
              · simp
              · split
                · simp
                · split
                  · simp
                  · exact ⟨hname, hslot, by simpa using hnew, by omega, by simpa [Config.fieldMaxW] using hwidth, by omega⟩

theorem normalScaling_ne (x : F64) : fpIsZero (normalScaling x) = false := by
  unfold normalScaling
  split_ifs with h
  · decide
  · simpa using h

/-- A field that passed the checks of BFC.ADDF takes the first empty slot (R181). -/
theorem Bfc.Inv.addField {p : Params} {b : Bfc} {f : BitField} {n : Nat} (h : b.Inv p)
    (hfits : FieldFits b f.name f.startBit f.endBit n) (hf : f.Inv b.recordBits.toNat) :
    Bfc.Inv p { b with slots := b.slots.set n (some f) } := by
  obtain ⟨k, hk⟩ := h.packed
  obtain ⟨hn, hroom⟩ := findIdx?_packedSlots (hk ▸ hfits.slot_free)
  obtain ⟨k, rfl⟩ := Nat.exists_eq_succ_of_ne_zero hroom.ne'
  refine h.withSlots (k := k) (used := usedFields b ++ [f]) ?_ List.length_set ?_ ?_
  · rw [hn]
    conv_lhs => rw [hk]
    exact packedSlots_set _ f k
  · rintro e he
    rcases List.mem_append.mp he with he | he
    · exact h.fields e he
    · rwa [List.mem_singleton.mp he]
  · rw [List.map_append, List.map_singleton, List.nodup_append]
    refine ⟨h.names_nodup, List.nodup_singleton _, ?_⟩
    rintro _ hx _ hy rfl
    obtain ⟨e, he, hname⟩ := List.mem_map.mp hx
    exact findField_none hfits.name_new e he (hname.trans (List.mem_singleton.mp hy))

theorem addEnumError_small (b : Bfc) (fieldName symbol : Text) : RaisesSmall (addEnumError b fieldName symbol) := by
  unfold addEnumError
  split
  · simp
  · split_ifs <;> simp

/-- What the checks of BFC.ADDE establish (R184). -/
theorem addEnumError_none {b : Bfc} {fieldName symbol : Text} (h : addEnumError b fieldName symbol = none) :
    ∃ f, findField b fieldName = some f ∧ symbol ≠ [] ∧ f.enums.length < f.enumCap.toNat ∧
      ∀ e ∈ f.enums, e.symbol ≠ symbol := by
  unfold addEnumError at h
  split at h
  · cases h
  · next f hfind =>
    split_ifs at h with hsym hcap hdup
    exact ⟨f, hfind, hsym, by omega, by simpa using hdup⟩

theorem BitField.Inv.addEnum {n : Nat} {f : BitField} {symbol : Text} (h : f.Inv n) (value : BitVec 64)
    (hsym : symbol ≠ []) (hcap : f.enums.length < f.enumCap.toNat) (hnew : ∀ e ∈ f.enums, e.symbol ≠ symbol) :
    BitField.Inv n { f with enums := f.enums ++ [⟨symbol, value⟩] } :=
  { h with
    enums_le := by rw [List.length_append]; exact hcap
    symbols_ne := fun e he => by
      rcases List.mem_append.mp he with he | he
      · exact h.symbols_ne e he
      · rwa [List.mem_singleton.mp he]
    symbols_nodup := by
      rw [List.map_append, List.map_singleton, List.nodup_append]
      refine ⟨h.symbols_nodup, List.nodup_singleton _, ?_⟩
      rintro _ hx _ hy rfl
      obtain ⟨e, he, hname⟩ := List.mem_map.mp hx
      exact hnew e he (hname.trans (List.mem_singleton.mp hy)) }

theorem BitField.Inv.withDefault {n v : Nat} {f : BitField} (h : f.Inv n) (hv : v ≤ fieldMask f) :
    BitField.Inv n { f with default := BitVec.ofNat 64 v } :=
  { h with default_le := (Nat.mod_le _ _).trans hv }

/-! ### The BFC commands -/

variable {s : State}

theorem execBfcInit_keepsInv (h : s.UnitsInv) (tsMode : BitVec 3) (nf recordBits : BitVec 16) :
    KeepsInv (execBfcInit tsMode nf recordBits s) := by
  have hcheck := bfcInitMode_yields s.params tsMode nf recordBits
  unfold execBfcInit
  split
  · next he => exact .raise (h.withoutBfc _) (hcheck.of_error he).fits
  · next he => exact .done (h.withBfc fun _ => freshBfc_inv _ _ (hcheck.of_ok he)) _

theorem execBfcDeinit_keepsInv (h : s.UnitsInv) : KeepsInv (execBfcDeinit s) := .done (h.withoutBfc _) _

theorem execBfcAddf_keepsInv (h : s.UnitsInv) (name : Text) (startBit endBit : BitVec 16) (format : BitVec 3)
    (endianness : BitVec 2) (enumCount : BitVec 16) (scaling offset : F64) :
    KeepsInv (execBfcAddf name startBit endBit format endianness enumCount scaling offset s) := by
  have hcheck := addFieldCheck_yields s.params s.bfc name startBit endBit format endianness enumCount
  unfold execBfcAddf
  split
  · next he => exact .raise h (bfcNotReady_small s _ he).fits
  · split
    · next he => exact .raise h (hcheck.of_error he).fits
    · next he =>
      have hfits := hcheck.of_ok he
      refine .done (h.withBfc fun hv => ?_) _
      exact (h.bfc hv).addField hfits {
        name_ne := hfits.name_ne
        range := hfits.range
        width_le := hfits.width_le
        inside := hfits.inside
        default_le := Nat.zero_le _
        scaling_ne := normalScaling_ne scaling
        enums_le := Nat.zero_le _
        symbols_ne := nofun
        symbols_nodup := List.nodup_nil }

theorem execBfcAdde_keepsInv (h : s.UnitsInv) (fieldName symbol : Text) (value : BitVec 64) :
    KeepsInv (execBfcAdde fieldName symbol value s) := by
  unfold execBfcAdde
  split
  · next he => exact .raise h (bfcNotReady_small s _ he).fits
  · split
    · next he => exact .raise h (addEnumError_small _ _ _ _ he).fits
    · next he =>
      obtain ⟨f, hfind, hsym, hcap, hnew⟩ := addEnumError_none he
      refine .done (h.withBfc fun hv => ?_) _
      exact (h.bfc hv).updateField hfind (fun _ => rfl) fun hf => hf.addEnum value hsym hcap hnew

theorem execBfcSetdef_keepsInv (h : s.UnitsInv) (fieldName defaultStr : Text) :
    KeepsInv (execBfcSetdef fieldName defaultStr s) := by
  unfold execBfcSetdef
  split
  · next he => exact .raise h (bfcNotReady_small s _ he).fits
  · split
    · exact .raise h (raisedAs_small _ _).fits
    · next f hfind =>
      have hcheck := strToRaw_yields [s.draws] f defaultStr
      split
      · next he => exact .raise h (hcheck.of_error he).fits
      · next he =>
        refine .done (h.withBfc fun hv => ?_) _
        exact (h.bfc hv).updateField hfind (fun _ => rfl) fun hf => hf.withDefault (hcheck.of_ok he)

theorem execBfcDec_keepsInv (h : s.UnitsInv) (record : List Bool) : KeepsInv (execBfcDec record s) := by
  unfold execBfcDec
  split
  · next he => exact .raise h (bfcNotReady_small s _ he).fits
  · refine .done (h.withBfc fun hv => ?_) _
    exact decodeBody_inv (h.bfc hv) _ _ _

theorem execBfcEnc_keepsInv (h : s.UnitsInv) (pairs : List Pair) (record : List Bool) :
    KeepsInv (execBfcEnc pairs record s) := by
  unfold execBfcEnc
  split
  · next he => exact .raise h (bfcNotReady_small s _ he).fits
  · next hready =>
    obtain ⟨hinv, hfits⟩ := encodeBody_inv (h.bfc (bfc_valid_of_ready hready)) [s.draws] record pairs
    dsimp only
    split
    · next he => exact .raise (h.withBfc fun _ => hinv) (hfits _ he)
    · exact .done (h.withBfc fun _ => hinv) _

theorem execBfcDefdata_keepsInv (h : s.UnitsInv) (record : List Bool) : KeepsInv (execBfcDefdata record s) := by
  unfold execBfcDefdata
  split
  · next he => exact .raise h (bfcNotReady_small s _ he).fits
  · next hready => exact .done (h.withBfc fun _ => defaultsBody_inv (h.bfc (bfc_valid_of_ready hready)) record) _

end Sys2Proof.Machine

namespace Sys2Proof.Machine

/-! ## The BSM: construction (R243 to R245) -/

theorem bsmInitError_small (p : Params) (ns : BitVec 16) (fs : BitVec 32) (msgBits : BitVec 16) (onVal : F32) :
    RaisesSmall (bsmInitError p ns fs msgBits onVal) := by
  unfold bsmInitError; split_ifs <;> simp

/-- What the checks of BSM.INIT establish (R243). -/
theorem bsmInitError_none {p : Params} {ns : BitVec 16} {fs : BitVec 32} {msgBits : BitVec 16} {onVal : F32}
    (h : bsmInitError p ns fs msgBits onVal = none) :
    0 < ns.toNat ∧ ns.toNat ≤ p.nsMax ∧ 0 < fs.toNat ∧ 0 < msgBits.toNat ∧ msgBits.toNat ≤ p.recordBitsMax ∧
      f32IsFinite onVal = true := by
  unfold bsmInitError at h
  split_ifs at h with hzero hmax
  simp only [BitVec.ofNat_eq_ofNat, BitVec.toNat_eq, BitVec.toNat_ofNat, Nat.zero_mod, not_or, Bool.not_eq_false] at hzero
  obtain ⟨hns, hfs, hmsg, hfin⟩ := hzero
  exact ⟨by omega, by omega, by omega, by omega, by omega, hfin⟩

theorem getD_replicate_false (n k : Nat) : (List.replicate n false).getD k false = false :=
  (List.getD_eq_getElem?_getD ..).trans (List.getElem?_getD_replicate_default_eq false n k)

/-- One entry of the state table written anew keeps the machine well-formed when its triggers stay within NT_MAX. -/
theorem Bsm.Inv.setState {p : Params} {b : Bsm} (h : b.Inv p) (i : Nat) {st : StateEntry} (hst : st.trigs.length ≤ p.ntMax) :
    Bsm.Inv p { b with states := b.states.set i st } :=
  { h with
    states_le := by rw [List.length_set]; exact h.states_le
    trigs_le := fun e he => by
      rcases List.mem_or_eq_of_mem_set he with he | rfl
      · exact h.trigs_le e he
      · exact hst
    cur_lt := by rw [List.length_set]; exact h.cur_lt }

/-! ## The BSM: one sample (R250 to R258) -/

/-- Every trigger leads to a state of the table (R43). -/
def NextsInside (b : Bsm) : Prop := ∀ st ∈ b.states, ∀ t ∈ st.trigs, t.next.toNat < b.states.length

theorem nextsInside_of_initialized {b : Bsm} (h : bsmInitialized b = true) : NextsInside b := by
  intro st hst t ht
  simp only [bsmInitialized, triggerValid, Bool.and_eq_true, List.all_eq_true, decide_eq_true_eq] at h
  obtain ⟨-, hstates⟩ := h
  obtain ⟨-, htrigs⟩ := hstates st hst
  obtain ⟨-, hnext⟩ := htrigs t ht
  exact hnext

theorem NextsInside.of_states {b c : Bsm} (h : NextsInside b) (hs : c.states = b.states) : NextsInside c := by
  unfold NextsInside; rwa [hs]

theorem Bsm.Inv.withPrev {p : Params} {b : Bsm} (h : b.Inv p) (x : Bool) : Bsm.Inv p { b with prev := x } := { h with }

theorem Bsm.Inv.states_pos {p : Params} {b : Bsm} (h : b.Inv p) : 0 < b.states.length := Nat.zero_lt_of_lt h.cur_lt

/-- The cursor moved into the table, with no clear pending (R256). -/
theorem Bsm.Inv.withCur {p : Params} {b : Bsm} {n : Nat} (h : b.Inv p) (hn : n < b.states.length)
    (hpending : b.clrPending = false) : Bsm.Inv p { b with cur := n, scount := 0 } :=
  { h with
    cur_lt := hn
    scount_le := Nat.zero_le _
    pending_at_reset := fun hp => absurd (hpending.symm.trans hp) Bool.false_ne_true }

theorem Bsm.Inv.withPending {p : Params} {b : Bsm} (h : b.Inv p) (v : Bool) (hcur : v = true → b.cur = 0) :
    Bsm.Inv p { b with clrPending := v } := { h with pending_at_reset := hcur }

theorem clearAcc_inv {p : Params} {b : Bsm} (h : b.Inv p) : (clearAcc b).Inv p :=
  { h with
    bitcnt_le := Nat.zero_le _
    acc_length := List.length_replicate
    acc_tail := fun k _ => getD_replicate_false _ k }

theorem pendingClear_inv {p : Params} {b : Bsm} (h : b.Inv p) : (pendingClear b).Inv p := by
  unfold pendingClear
  split
  · exact (clearAcc_inv h).withPending false nofun
  · exact h

theorem pendingClear_clrPending (b : Bsm) : (pendingClear b).clrPending = false := by
  unfold pendingClear
  split
  · rfl
  · next h => simpa using h

theorem pendingClear_states (b : Bsm) : (pendingClear b).states = b.states := by
  unfold pendingClear; split <;> rfl

theorem countSample_inv {p : Params} {b : Bsm} (h : b.Inv p) : (countSample b).Inv p :=
  { h with scount_le := Nat.min_le_right _ _ }

/-- The hard reset of a well-formed machine (R258). -/
theorem recover_inv {p : Params} {b : Bsm} (h : b.Inv p) (x : Bool) : (recover b x).Inv p :=
  { clearAcc_inv h with
    cur_lt := h.states_pos
    scount_le := Nat.zero_le _
    pending_at_reset := fun _ => rfl }

/-- A bit appended below `msg_bits` leaves the bits beyond the counter 0 (R49, R254). -/
theorem appendBit_inv {p : Params} {b : Bsm} (h : b.Inv p) (v : Bool) (hroom : b.bitcnt < b.msgBits.toNat) :
    (appendBit b v).Inv p :=
  { h with
    bitcnt_le := hroom
    acc_length := by rw [appendBit_acc, List.length_set]; exact h.acc_length
    acc_tail := fun k hk => by
      have hk : b.bitcnt + 1 ≤ k := hk
      have htail := h.acc_tail k (by omega)
      rw [List.getD_eq_getElem?_getD] at htail ⊢
      rw [appendBit_acc, List.getElem?_set_ne (by omega)]
      exact htail }

/-- The aggregator's action touches the accumulator and the bit counter alone (R254). -/
theorem performAction_inv {p : Params} {b b' : Bsm} {t : Trigger} (h : b.Inv p) (ha : performAction b t = some b') :
    b'.Inv p ∧ b'.states = b.states ∧ b'.clrPending = b.clrPending := by
  have bit : ∀ v, (if b.msgBits.toNat ≤ b.bitcnt then none else some (appendBit b v)) = some b' →
      b'.Inv p ∧ b'.states = b.states ∧ b'.clrPending = b.clrPending := by
    intro v hv
    split_ifs at hv with hfull
    cases hv
    exact ⟨appendBit_inv h v (by omega), rfl, rfl⟩
  unfold performAction at ha
  split at ha
  · exact bit false ha
  · exact bit true ha
  · cases ha; exact ⟨h, rfl, rfl⟩

/-- A transition inside the table; a clear is left pending only in state 0, and only by an output (R256, R257). -/
theorem enterNext_inv {p : Params} {b : Bsm} {t : Trigger} (h : b.Inv p) (hpending : b.clrPending = false)
    (hnext : t.next.toNat < b.states.length) :
    (enterNext b t).Inv p ∧ (outputsData t = false → (enterNext b t).clrPending = false) := by
  have hmoved := h.withCur hnext hpending
  unfold enterNext
  dsimp only
  split
  · next hzero =>
    split
    · next hout => exact ⟨hmoved.withPending true fun _ => hzero, fun hno => by simp [hno] at hout⟩
    · exact ⟨clearAcc_inv hmoved, fun _ => hpending⟩
  · exact ⟨hmoved, fun _ => hpending⟩

theorem firingTrigger_next {p : Params} {b : Bsm} {x : Bool} {t : Trigger} (h : b.Inv p) (hn : NextsInside b)
    (ht : firingTrigger b x = some t) : t.next.toNat < b.states.length := by
  have hmem : currentState b ∈ b.states := by
    rw [currentState, List.getD_eq_getElem _ _ h.cur_lt]
    exact List.getElem_mem _
  exact hn _ hmem t (List.mem_of_find?_eq_some ht)

/-- One sample, taken with no clear pending, keeps the machine well-formed, and leaves a clear pending only with an
output or an error, after which BSM.PROC ends (R250, R257, R259). -/
theorem sampleStep_inv {p : Params} {b : Bsm} (x : Bool) (h : b.Inv p) (hn : NextsInside b) (hpending : b.clrPending = false) :
    (sampleStep b x).1.Inv p ∧ ((sampleStep b x).2 = .noOutputYet → (sampleStep b x).1.clrPending = false) := by
  have hcounted := countSample_inv h
  unfold sampleStep
  dsimp only
  split
  · exact ⟨hcounted.withPrev x, fun _ => hpending⟩
  · next t ht =>
    have hnext := firingTrigger_next hcounted hn ht
    split
    · exact ⟨recover_inv hcounted x, fun _ => rfl⟩
    · split
      · exact ⟨recover_inv hcounted x, fun _ => rfl⟩
      · next b1 ha =>
        obtain ⟨hacted, hstates, hclr⟩ := performAction_inv hcounted ha
        obtain ⟨hentered, hafter⟩ := enterNext_inv hacted (hclr.trans hpending) (hstates ▸ hnext)
        refine ⟨hentered.withPrev x, fun hout => hafter ?_⟩
        simpa using hout

/-- The samples of one BSM.PROC keep the machine well-formed and its table as it is. -/
theorem sampleLoop_inv {p : Params} {b : Bsm} (k : Nat) (xs : List Bool) (h : b.Inv p) (hn : NextsInside b)
    (hpending : b.clrPending = false) : (sampleLoop k b xs).1.Inv p ∧ (sampleLoop k b xs).1.states = b.states := by
  induction xs generalizing k b with
  | nil => exact ⟨h, rfl⟩
  | cons x xs ih =>
    obtain ⟨hinv, hafter⟩ := sampleStep_inv x h hn hpending
    obtain ⟨hstates, -⟩ := sampleStep_config b x
    unfold sampleLoop
    split
    · next b' he =>
      rw [he] at hinv hafter hstates
      obtain ⟨hloop, hsame⟩ := ih (k + 1) hinv (hn.of_states hstates) (hafter rfl)
      exact ⟨hloop, hsame.trans hstates⟩
    · next b' r _ he =>
      rw [he] at hinv hstates
      exact ⟨hinv, hstates⟩

theorem procBody_inv {p : Params} {b : Bsm} (xs : List Bool) (h : b.Inv p) (hn : NextsInside b) :
    (procBody b xs).1.Inv p ∧ NextsInside (procBody b xs).1 := by
  have hstart := hn.of_states (pendingClear_states b)
  obtain ⟨hinv, hstates⟩ := sampleLoop_inv 0 xs (pendingClear_inv h) hstart (pendingClear_clrPending b)
  exact ⟨hinv, hstart.of_states hstates⟩

/-! ## The BSM: the errors of a generate walk (R285, R286, R292, R293) -/

theorem selectionError_small (bit : Option Bool) (selected : Option Trigger) : RaisesSmall (selectionError bit selected) := by
  unfold selectionError
  split
  · simp
  · split_ifs <;> simp

theorem emitSamples_yields (m : Nat) (w : GenWalk) (count : Nat) (a : F32) :
    Yields (fun _ => True) (emitSamples m w count a) := by
  unfold emitSamples; split <;> simp

theorem emitTransition_yields (p : Params) (b : Bsm) (w : GenWalk) (t : Trigger) :
    Yields (fun _ => True) (emitTransition p b w t) := by
  unfold emitTransition
  dsimp only
  split
  · next he => exact (emitSamples_yields _ _ _ _).of_error he
  · exact emitSamples_yields _ _ _ _

theorem genPass_yields (p : Params) (b : Bsm) (w : GenWalk) : Yields (fun _ => True) (genPass p b w) := by
  unfold genPass
  dsimp only
  split
  · next he => exact selectionError_small _ _ _ he
  · simp
  · split
    · next he => exact (emitTransition_yields _ _ _ _).of_error he
    · simp

theorem genLoop_failed_small {p : Params} {b : Bsm} {fuel : Nat} {w : GenWalk} {r : Raised}
    (h : genLoop p b fuel w = .failed r) : r.Small := by
  induction fuel generalizing w with
  | zero => cases h
  | succ fuel ih =>
    unfold genLoop at h
    split at h
    · next he => cases h; exact (genPass_yields p b w).of_error he
    · split_ifs at h
      exact ih h

theorem genBody_failed_small {p : Params} {b : Bsm} {bits : List Bool} {r : Raised} (h : genBody p b bits = .failed r) :
    r.Small := genLoop_failed_small h

/-! ### The BSM commands -/

variable {s : State}

theorem execBsmInit_keepsInv (h : s.UnitsInv) (ns : BitVec 16) (fs : BitVec 32) (msgBits : BitVec 16) (onVal : F32) :
    KeepsInv (execBsmInit ns fs msgBits onVal s) := by
  unfold execBsmInit
  split
  · next he => exact .raise (h.withoutBsm _) (bsmInitError_small _ _ _ _ _ _ he).fits
  · next he =>
    obtain ⟨hns, hnsMax, hfs, hmsg, hmsgMax, hfin⟩ := bsmInitError_none he
    refine .done (h.withBsm fun _ => ?_) _
    exact {
      fs_pos := hfs
      msg_pos := hmsg
      msg_le := hmsgMax
      onVal_finite := hfin
      states_le := by simpa using hnsMax
      trigs_le := fun st hst => by rw [List.eq_of_mem_replicate hst]; exact Nat.zero_le _
      cur_lt := by simpa using hns
      bitcnt_le := Nat.zero_le _
      scount_le := Nat.zero_le _
      acc_length := List.length_replicate
      acc_tail := fun k _ => getD_replicate_false _ k
      pending_at_reset := fun _ => rfl }

theorem execBsmSetstate_keepsInv (h : s.UnitsInv) (state : BitVec 16) (name : Text) (durationUs timeoutUs : BitVec 32) :
    KeepsInv (execBsmSetstate state name durationUs timeoutUs s) := by
  unfold execBsmSetstate
  split
  · next he => exact .raise h (bsmNotReady_small s _ he).fits
  · split
    · exact .raise h (raisedAs_small _ _).fits
    · next st hst =>
      refine .done (h.withBsm fun hv => ?_) _
      exact (h.bsm hv).setState _ ((h.bsm hv).trigs_le st (List.mem_of_getElem? hst))

theorem execBsmAddtrig_keepsInv (h : s.UnitsInv) (state : BitVec 16) (cond action : BitVec 3) (next : BitVec 16)
    (durUs : BitVec 32) : KeepsInv (execBsmAddtrig state cond action next durUs s) := by
  unfold execBsmAddtrig
  split
  · next he => exact .raise h (bsmNotReady_small s _ he).fits
  · split
    · exact .raise h (raisedAs_small _ _).fits
    · split
      · exact .raise h (raisedAs_small _ _).fits
      · next hroom =>
        refine .done (h.withBsm fun hv => ?_) _
        exact (h.bsm hv).setState _ (by rw [List.length_append]; exact Nat.lt_of_not_le hroom)

theorem execBsmDeinit_keepsInv (h : s.UnitsInv) : KeepsInv (execBsmDeinit s) := .done (h.withoutBsm _) _

theorem execBsmRdacc_keepsInv (h : s.UnitsInv) : KeepsInv (execBsmRdacc s) := by
  unfold execBsmRdacc
  split
  · next he => exact .raise h (bsmNotReady_small s _ he).fits
  · exact .done h _

theorem execBsmProc_keepsInv (h : s.UnitsInv) (samples : List Bool) : KeepsInv (execBsmProc samples s) := by
  unfold execBsmProc
  split
  · next he => exact .raise h (bsmNotRunnable_small s _ he).fits
  · next hready =>
    have hinit := bsmInitialized_of_runnable hready
    obtain ⟨hinv, -⟩ := procBody_inv samples (h.bsm (bsmInitialized_valid hinit)) (nextsInside_of_initialized hinit)
    exact .done (h.withBsm fun _ => hinv) _

theorem execBsmGen_keepsInv (h : s.UnitsInv) (bits : List Bool) : KeepsInv (execBsmGen bits s) := by
  unfold execBsmGen
  split
  · next he => exact .raise h (bsmNotRunnable_small s _ he).fits
  · split
    · exact .done h _
    · next he => exact .raise h (genBody_failed_small he).fits
    · exact .fault _

end Sys2Proof.Machine

namespace Sys2Proof.Machine

/-! ## The DEV (R313, R315) -/

/-- What holds of a DEV.PROC at every turn of its loop. -/
structure DevRun.Inv (p : Params) (run : DevRun) : Prop where
  bsm : run.bsm.Inv p
  nexts : NextsInside run.bsm
  bfc : run.bfc.Inv p
  kv_le : run.kv.length ≤ p.kvMax

theorem DevRun.Inv.withBsm {p : Params} {run : DevRun} {b : Bsm} (h : run.Inv p) (hb : b.Inv p) (hn : NextsInside b)
    (nerr : Nat) : DevRun.Inv p { run with bsm := b, nerr := nerr } := { h with bsm := hb, nexts := hn }

/-- The list takes pairs up to its capacity and no further (R313). -/
theorem appendPairs_length_le {m : Nat} {kv : List Pair} (pairs : List Pair) (h : kv.length ≤ m) :
    (appendPairs m kv pairs).1.length ≤ m := by
  rw [appendPairs_spec, List.length_append, List.length_take]
  omega

theorem devMessage_inv {p : Params} {run : DevRun} (site : Site) (h : run.Inv p) :
    (devMessage p site run).1.Inv p ∧ RaisesSmall (devMessage p site run).2 := by
  have hbfc := decodeBody_inv h.bfc p (run.nmsg :: site) run.bsm.acc
  have hkv := appendPairs_length_le (decodeBody p (run.nmsg :: site) run.bfc run.bsm.acc).2 h.kv_le
  unfold devMessage
  dsimp only
  split <;> exact ⟨⟨h.bsm, h.nexts, hbfc, hkv⟩, by simp⟩

/-- The loop of DEV.PROC keeps both units and the list well-formed, and its one error is a full list (R313). -/
theorem devLoop_inv {p : Params} {run : DevRun} (site : Site) (fuel : Nat) (xs : List Bool) (h : run.Inv p) :
    (devLoop p site fuel run xs).1.Inv p ∧ RaisesSmall (devLoop p site fuel run xs).2 := by
  induction fuel generalizing run xs with
  | zero => exact ⟨h, raisesSmall_none⟩
  | succ fuel ih =>
    rcases xs with _ | ⟨x, xs⟩
    · exact ⟨h, raisesSmall_none⟩
    obtain ⟨hbsm, hnexts⟩ := procBody_inv (x :: xs) h.bsm h.nexts
    have hproc := h.withBsm hbsm hnexts
    unfold devLoop
    dsimp only
    split
    · exact ih _ (hproc _)
    · split
      · exact ⟨hproc _, raisesSmall_none⟩
      · exact ih _ (hproc _)
    · obtain ⟨hmsg, hsmall⟩ := devMessage_inv site (hproc run.nerr)
      split
      · next he => rw [he] at hmsg hsmall; exact ⟨hmsg, hsmall⟩
      · next he => rw [he] at hmsg; exact ih _ hmsg

variable {s : State}

theorem execDevProc_keepsInv (h : s.UnitsInv) (samples : List Bool) : KeepsInv (execDevProc samples s) := by
  unfold execDevProc
  split
  · next he => exact .raise h (devNotReady_small s _ he).fits
  · next hready =>
    obtain ⟨hbfc, hinit⟩ := devReady_of_ready hready
    have hstart : DevRun.Inv s.params ⟨s.bsm, s.bfc, [], 0, 0⟩ :=
      ⟨h.bsm (bsmInitialized_valid hinit), nextsInside_of_initialized hinit, h.bfc hbfc, Nat.zero_le _⟩
    obtain ⟨hrun, hsmall⟩ := devLoop_inv [s.draws] samples.length samples hstart
    have hunits := ((h.withBsm fun _ => hrun.bsm).withBfc fun _ => hrun.bfc).withKv hrun.kv_le
    dsimp only
    split
    · next he => exact .raise hunits (hsmall _ he).fits
    · exact .done hunits _

theorem execDevGen_keepsInv (h : s.UnitsInv) (pairs : List Pair) : KeepsInv (execDevGen pairs s) := by
  unfold execDevGen
  split
  · next he => exact .raise h (devNotReady_small s _ he).fits
  · next hready =>
    obtain ⟨hbfc, -⟩ := devReady_of_ready hready
    obtain ⟨hinv, hfits⟩ := encodeBody_inv (defaultsBody_inv (h.bfc hbfc) []) [s.draws] (defaultsBody s.bfc []).record pairs
    have hunits := h.withBfc fun _ => hinv
    dsimp only [devRecord]
    split
    · next he => exact .raise hunits (hfits _ he)
    · split
      · exact .done hunits _
      · next he => exact .raise hunits (genBody_failed_small he).fits
      · exact .fault _

/-! ## The list (R53, R317 to R320) -/

theorem execKvClear_keepsInv (h : s.UnitsInv) : KeepsInv (execKvClear s) := .done (h.withKv (Nat.zero_le _)) _

theorem execKvAppend_keepsInv (h : s.UnitsInv) (key value : Text) : KeepsInv (execKvAppend key value s) := by
  unfold execKvAppend
  split
  · exact .raise h (raisedAs_small _ _).fits
  · next hroom => exact .done (h.withKv (by rw [List.length_append]; exact Nat.lt_of_not_le hroom)) _

theorem execKvGet_keepsInv (h : s.UnitsInv) (index : BitVec 24) : KeepsInv (execKvGet index s) := by
  unfold execKvGet
  split
  · exact .raise h (raisedAs_small _ _).fits
  · exact .done h _

/-! ## Every command, every step -/

/-- Every command keeps the invariant; those that write no unit complete on the units as they are. -/
theorem exec_keepsInv (h : s.UnitsInv) (i : Instr) : KeepsInv (exec i s) := by
  cases i with
  | scTofloat raw => exact .done h _
  | scToraw samples => exact .done h _
  | firInit maxInput stages => exact execFirInit_keepsInv h maxInput stages
  | firReset => exact execFirReset_keepsInv h
  | firTotdec => exact execFirTotdec_keepsInv h
  | firProc outCap samples => exact execFirProc_keepsInv h outCap samples
  | firDeinit => exact execFirDeinit_keepsInv h
  | bfcInit tsMode nf recordBits => exact execBfcInit_keepsInv h tsMode nf recordBits
  | bfcAddf name startBit endBit format endianness enumCount scaling offset =>
    exact execBfcAddf_keepsInv h name startBit endBit format endianness enumCount scaling offset
  | bfcAdde fieldName symbol value => exact execBfcAdde_keepsInv h fieldName symbol value
  | bfcSetdef fieldName defaultStr => exact execBfcSetdef_keepsInv h fieldName defaultStr
  | bfcDec record => exact execBfcDec_keepsInv h record
  | bfcEnc pairs record => exact execBfcEnc_keepsInv h pairs record
  | bfcDefdata record => exact execBfcDefdata_keepsInv h record
  | bfcDeinit => exact execBfcDeinit_keepsInv h
  | bsmInit ns fs msgBits onVal => exact execBsmInit_keepsInv h ns fs msgBits onVal
  | bsmSetstate state name durationUs timeoutUs => exact execBsmSetstate_keepsInv h state name durationUs timeoutUs
  | bsmAddtrig state cond action next durUs => exact execBsmAddtrig_keepsInv h state cond action next durUs
  | bsmReady => exact .done h _
  | bsmProc samples => exact execBsmProc_keepsInv h samples
  | bsmGen bits => exact execBsmGen_keepsInv h bits
  | bsmDeinit => exact execBsmDeinit_keepsInv h
  | bsmRdacc => exact execBsmRdacc_keepsInv h
  | devProc samples => exact execDevProc_keepsInv h samples
  | devGen pairs => exact execDevGen_keepsInv h pairs
  | kvClear => exact execKvClear_keepsInv h
  | kvAppend key value => exact execKvAppend_keepsInv h key value
  | kvGet index => exact execKvGet_keepsInv h index
  | kvCount => exact .done h _
  | thrSet thr => exact .done (s := { s with thr := thr }) { h with } _
  | thrProc samples => exact .done h _

/-- A command refused before it runs is illegal or its unit is not ready: its info word carries a cause alone (R342). -/
theorem fetch_rejected_small {r : Raised} {rest : List Word} (h : s.fetch = .rejected r rest) : r.Small := by
  unfold State.fetch at h
  split at h
  · cases h
  · split at h
    · cases h; exact illegalCommand_small _
    · split at h
      · next he => cases h; exact commandNotReady_small _ s _ he
      · split at h
        · cases h
        · cases h; exact illegalCommand_small _
        all_goals cases h

theorem step_keepsInv (h : s.Inv) : KeepsInv (step s) := by
  unfold step
  split
  · exact .next h
  · next he => exact .raise (h.units.consume _) (fetch_rejected_small he).fits
  · exact exec_keepsInv (h.units.consume _) _

/-- Settles O9: a step waits, refuses a command or runs one, and each of the three keeps the invariant. -/
theorem stepKeepsInvariant : Obligations.StepKeepsInvariant := fun _ t h hstep => step_keepsInv h t hstep

end Sys2Proof.Machine

namespace Sys2Proof.Machine

/-! # A step at words that decode to a command (O4)

The step judges readiness by the row of the command word, `exec` by the command it is given. The two agree because the
decoder answers a command of the row its command word selects, and because every command of a unit looks at its unit's
readiness first, which depends on no word of the queue. -/

/-! ## The row of a decoded command (R128) -/

/-- Every value `p` reads, from any words, well-formed or not, satisfies `P`. -/
def Reads {α : Type} (P : α → Prop) (p : Reader α) : Prop := ∀ ws r, p ws = some r → P r.value

theorem Reads.pure {α : Type} {P : α → Prop} {a : α} (h : P a) : Reads P (readPure a) := by
  rintro ws r ⟨⟩
  exact h

theorem Reads.bind {α β : Type} {P : β → Prop} {p : Reader α} {g : α → Reader β} (h : ∀ a, Reads P (g a)) :
    Reads P (readBind p g) := by
  intro ws r hr
  unfold readBind at hr
  split at hr
  · cases hr
  · split at hr
    · cases hr
    · next q hq => cases hr; exact h _ _ q hq

theorem Reads.map {α β : Type} {P : β → Prop} {p : Reader α} {g : α → β} (h : ∀ a, P (g a)) : Reads P (readMap g p) :=
  .bind fun a => .pure (h a)

theorem Reads.check {α : Type} {P : α → Prop} {ok : Bool} {p : Reader α} (h : Reads P p) : Reads P (readCheck ok p) := by
  intro ws r hr
  unfold readCheck at hr
  split at hr
  · cases hr
  · next q hp => cases hr; exact h _ q hp

/-- A row's payload is read to a command of that row, whatever its words. -/
theorem readPayload_opcode (fr : Frame) (op : Opcode) (arg : BitVec 24) :
    Reads (fun i => opcodeOf i = op) (readPayload fr op arg) := by
  unfold readPayload
  cases op with
  | firReset | firTotdec | firDeinit | bfcDeinit | bsmReady | bsmDeinit | bsmRdacc | kvClear | kvGet | kvCount =>
    exact .pure rfl
  | bfcInit | bfcDec | bfcDefdata | thrSet => exact .map fun _ => rfl
  | scTofloat | scToraw | firInit | bfcSetdef | bsmProc | bsmGen | devProc | devGen | kvAppend | thrProc =>
    exact .bind fun _ => .map fun _ => rfl
  | firProc | bfcAdde | bfcEnc | bsmInit | bsmSetstate => exact .bind fun _ => .bind fun _ => .map fun _ => rfl
  | bsmAddtrig => exact .bind fun _ => .bind fun _ => .check (.pure rfl)
  | bfcAddf => exact .bind fun _ => .bind fun _ => .bind fun _ => .bind fun _ => .bind fun _ => .check (.pure rfl)

/-- A decoded command has a command word in front, and it is a command of the row this word selects. -/
theorem decode_command_header {fr : Frame} {ws rest : List Word} {i : Instr} (h : decode fr ws = .command i rest) :
    ∃ cw payload, ws = cw :: payload ∧ opcodeOfByte (headerOpc cw) = some (opcodeOf i) := by
  rcases ws with _ | ⟨cw, payload⟩
  · cases h
  refine ⟨cw, payload, rfl, ?_⟩
  unfold decode at h
  dsimp only at h
  split at h
  · cases h
  · next op hop =>
    split at h
    · cases h
    · next hread =>
      split at h
      · cases h; rw [readPayload_opcode fr op _ _ _ hread]; exact hop
      · cases h

/-! ## What the CORE takes off the queue (R342) -/

section

variable {s : State} {r : Raised}

/-- A row that is not ready is refused at its command word, its payload unread (R343). -/
theorem fetch_of_notReady {cw : Word} {payload : List Word} {op : Opcode} (hrx : s.rx = cw :: payload)
    (hop : opcodeOfByte (headerOpc cw) = some op) (hr : commandNotReady op s = some r) : s.fetch = .rejected r payload := by
  simp only [State.fetch, hrx, hop, hr]

/-- A command of a ready row is fetched as it decodes. -/
theorem fetch_of_ready {i : Instr} {rest : List Word} (hdec : decode s.frame s.rx = .command i rest)
    (hready : commandNotReady (opcodeOf i) s = none) : s.fetch = .ready i rest := by
  obtain ⟨cw, payload, hrx, hop⟩ := decode_command_header hdec
  rw [hrx] at hdec
  simp only [State.fetch, hrx, hop, hready, hdec]

/-! ## Refusal by `exec` -/

/-- Readiness is judged on the units, not on the queue of words. -/
@[simp] theorem commandNotReady_consume (op : Opcode) (s : State) (ws : List Word) :
    commandNotReady op (s.consume ws) = commandNotReady op s := by
  cases op <;> rfl

/-- A command of a row that is not ready is refused with the row's error before it does anything (R343, R246, R310). -/
theorem exec_of_notReady {i : Instr} (h : commandNotReady (opcodeOf i) s = some r) : exec i s = raise s r := by
  cases i with
  | scTofloat | scToraw | firInit | firDeinit | bfcInit | bfcDeinit | bsmInit | bsmReady | bsmDeinit | kvClear | kvAppend
  | kvGet | kvCount | thrSet | thrProc => cases h
  | firReset | firTotdec | firProc =>
    have h : firNotReady s = some r := h
    simp only [exec, execFirReset, execFirTotdec, execFirProc, h]
  | bfcAddf | bfcAdde | bfcSetdef | bfcDec | bfcEnc | bfcDefdata =>
    have h : bfcNotReady s = some r := h
    simp only [exec, execBfcAddf, execBfcAdde, execBfcSetdef, execBfcDec, execBfcEnc, execBfcDefdata, h]
  | bsmSetstate | bsmAddtrig | bsmRdacc =>
    have h : bsmNotReady s = some r := h
    simp only [exec, execBsmSetstate, execBsmAddtrig, execBsmRdacc, h]
  | bsmProc | bsmGen =>
    have h : bsmNotRunnable s = some r := h
    simp only [exec, execBsmProc, execBsmGen, h]
  | devProc | devGen =>
    have h : devNotReady s = some r := h
    simp only [exec, execDevProc, execDevGen, h]

/-! ## The step -/

/-- A step at a command of a ready row runs it, its words consumed (R81, R100). -/
theorem step_of_ready {i : Instr} {rest : List Word} (hdec : decode s.frame s.rx = .command i rest)
    (hready : commandNotReady (opcodeOf i) s = none) : step s = exec i (s.consume rest) := by
  simp only [step, fetch_of_ready hdec hready]

/-- A step at a row that is not ready ends in the row's error, the command word alone consumed (R343). -/
theorem step_of_notReady {cw : Word} {payload : List Word} {op : Opcode} (hrx : s.rx = cw :: payload)
    (hop : opcodeOfByte (headerOpc cw) = some op) (hr : commandNotReady op s = some r) :
    step s = raise (s.consume payload) r := by
  simp only [step, fetch_of_notReady hrx hop hr]

end

/-- Settles O4, by the readiness of the command's row: a ready one is fetched as decoded, and one that is not ready is
refused by the fetch with the very error `exec` answers. -/
theorem stepRunsTheDecodedCommand : Obligations.StepRunsTheDecodedCommand := by
  intro s i rest hdec
  cases hready : commandNotReady (opcodeOf i) s with
  | none => rw [if_pos rfl]; exact step_of_ready hdec hready
  | some r =>
    obtain ⟨cw, payload, hrx, hop⟩ := decode_command_header hdec
    have hexec : exec i (s.consume payload) = raise (s.consume payload) r := exec_of_notReady (by simpa using hready)
    rw [if_neg (Option.some_ne_none r), hrx]
    exact (step_of_notReady hrx hop hready).trans hexec.symm

end Sys2Proof.Machine

namespace Sys2Proof.Machine

/-! # Words and the commands they stand for (O1, O2, O3, O5, O6, O7)

Laying out and reading back are one relation: a reader answers a well-formed value with `rest` exactly when the words are
that value's layout followed by `rest`. This is stated as an `↔` for each operand form and each way of combining readers,
then for the payload of each row and for the whole command, so that both directions of "decode and encode agree" are
halves of `decode_eq_command_iff`. -/

/-! ## Combining readers -/

theorem readBind_eq_some {α β : Type} {p : Reader α} {g : α → Reader β} {ws rest : List Word} {b : β} :
    readBind p g ws = some ⟨b, true, rest⟩ ↔
      ∃ a mid, p ws = some ⟨a, true, mid⟩ ∧ g a mid = some ⟨b, true, rest⟩ := by
  constructor
  · intro h
    unfold readBind at h
    split at h
    · cases h
    · next r hr =>
      split at h
      · cases h
      · next q hq =>
        obtain ⟨a, ok, mid⟩ := r
        obtain ⟨b', ok', rest'⟩ := q
        simp only [Option.some.injEq, Parsed.mk.injEq, Bool.and_eq_true] at h
        obtain ⟨rfl, ⟨rfl, rfl⟩, rfl⟩ := h
        exact ⟨a, mid, hr, hq⟩
  · rintro ⟨a, mid, hp, hg⟩
    exact readBind_of hp hg

theorem readPure_eq_some {α : Type} {a b : α} {ws rest : List Word} :
    readPure a ws = some ⟨b, true, rest⟩ ↔ a = b ∧ ws = rest := by simp

theorem readMap_eq_some {α β : Type} {p : Reader α} {g : α → β} {ws rest : List Word} {b : β} :
    readMap g p ws = some ⟨b, true, rest⟩ ↔ ∃ a, p ws = some ⟨a, true, rest⟩ ∧ g a = b := by
  simp only [readMap, readBind_eq_some, readPure_eq_some]
  constructor
  · rintro ⟨a, mid, hp, rfl, rfl⟩; exact ⟨a, hp, rfl⟩
  · rintro ⟨a, hp, rfl⟩; exact ⟨a, rest, hp, rfl, rfl⟩

theorem readCheck_eq_some {α : Type} {ok : Bool} {p : Reader α} {ws rest : List Word} {a : α} :
    readCheck ok p ws = some ⟨a, true, rest⟩ ↔ ok = true ∧ p ws = some ⟨a, true, rest⟩ := by
  unfold readCheck
  cases p ws with
  | none => simp
  | some r =>
    obtain ⟨a', ok', rest'⟩ := r
    simp only [Option.some.injEq, Parsed.mk.injEq, Bool.and_eq_true]
    tauto

theorem readWord_eq_some {ws rest : List Word} {w : Word} : readWord ws = some ⟨w, true, rest⟩ ↔ ws = w :: rest := by
  cases ws <;> simp

theorem readWords_eq_some {n : Nat} {ws rest xs : List Word} :
    readWords n ws = some ⟨xs, true, rest⟩ ↔ xs.length = n ∧ ws = xs ++ rest := by
  constructor
  · intro h
    unfold readWords at h
    split at h
    · cases h
    · cases h
      exact ⟨by rw [List.length_take]; omega, (List.take_append_drop n ws).symm⟩
  · rintro ⟨rfl, rfl⟩
    exact readWords_append xs rest

/-! ## Operands (R103 to R105, R107, R112) -/

theorem readNarrow_eq_some {w : Nat} (h : w ≤ 32) {v : BitVec w} {ws rest : List Word} :
    readNarrow w ws = some ⟨v, true, rest⟩ ↔ ws = v.setWidth 32 :: rest := by
  constructor
  · simp only [readNarrow, readBind_eq_some, readWord_eq_some, readCheck_eq_some, readPure_eq_some, decide_eq_true_eq]
    rintro ⟨u, _, rfl, hfits, rfl, rfl⟩
    congr 1
    apply BitVec.eq_of_toNat_eq
    rw [BitVec.toNat_setWidth, BitVec.toNat_setWidth, Nat.mod_eq_of_lt hfits, Nat.mod_eq_of_lt u.isLt]
  · rintro rfl
    exact readNarrow_of h v rest

/-- Two bit vectors side by side, as a number. -/
theorem toNat_append_eq_add {m n : Nat} (x : BitVec m) (y : BitVec n) : (x ++ y).toNat = x.toNat * 2 ^ n + y.toNat := by
  rw [BitVec.toNat_append, ← Nat.shiftLeft_add_eq_or_of_lt y.isLt, Nat.shiftLeft_eq]

theorem readWide_eq_some {v : BitVec 64} {ws rest : List Word} :
    readWide ws = some ⟨v, true, rest⟩ ↔ ws = wideWords v ++ rest := by
  constructor
  · simp only [readWide, readBind_eq_some, readMap_eq_some, readWord_eq_some]
    rintro ⟨low, _, rfl, high, rfl, rfl⟩
    have hnat := toNat_append_eq_add high low
    have hhighLt := high.isLt
    have hlowLt := low.isLt
    have hlow : (high ++ low).setWidth 32 = low := by
      apply BitVec.eq_of_toNat_eq
      rw [BitVec.toNat_setWidth, hnat]; omega
    have hhigh : ((high ++ low) >>> 32).setWidth 32 = high := by
      apply BitVec.eq_of_toNat_eq
      rw [BitVec.toNat_setWidth, BitVec.toNat_ushiftRight, hnat, Nat.shiftRight_eq_div_pow]; omega
    rw [wideWords, hlow, hhigh]
    rfl
  · rintro rfl
    exact readWide_of v rest

theorem textFits_iff {limit : Nat} {t : Text} : textFits limit t = true ↔ t.length ≤ limit ∧ t.length < 2 ^ 32 := by
  simp only [textFits, countFits, Bool.and_eq_true, decide_eq_true_eq]

theorem pairFits_iff {limit : Nat} {p : Pair} :
    pairFits limit p = true ↔ textFits limit p.key = true ∧ textFits limit p.value = true := by
  simp only [pairFits, Bool.and_eq_true]

/-- A list of as many elements as a word says has that word for its count word. -/
theorem countWord_of_length {α : Type} {l : List α} {n : Word} (h : l.length = n.toNat) : countWord l.length = n := by
  rw [countWord, h, BitVec.ofNat_toNat, BitVec.setWidth_eq]

theorem countFits_of_length {α : Type} {l : List α} {n : Word} (h : l.length = n.toNat) : countFits l.length = true := by
  simpa only [countFits, decide_eq_true_eq, h] using n.isLt

theorem countWord_toNat_of_fits {n : Nat} (h : countFits n = true) : (countWord n).toNat = n :=
  countWord_toNat (by simpa only [countFits, decide_eq_true_eq] using h)

theorem readText_eq_some {limit : Nat} {t : Text} {ws rest : List Word} :
    readText limit ws = some ⟨t, true, rest⟩ ↔ textFits limit t = true ∧ ws = textWords t ++ rest := by
  constructor
  · simp only [readText, readBind_eq_some, readWord_eq_some, readWords_eq_some, readCheck_eq_some, readPure_eq_some,
      Bool.and_eq_true, decide_eq_true_eq]
    rintro ⟨len, _, rfl, packed, _, ⟨_, rfl⟩, ⟨hlimit, hpacked⟩, rfl, rfl⟩
    have hlen : (unpackBytes len.toNat packed).length = len.toNat := by simp [unpackBytes]
    refine ⟨textFits_iff.mpr ⟨by rwa [hlen], by rw [hlen]; exact len.isLt⟩, ?_⟩
    have hcount := countWord_of_length hlen
    rw [countWord] at hcount
    rw [textWords, hcount, hpacked, List.cons_append]
  · rintro ⟨hfits, rfl⟩
    obtain ⟨hlimit, h32⟩ := textFits_iff.mp hfits
    exact readText_textWords hlimit h32 rest

theorem readBits_eq_some {n : Nat} {bits : List Bool} {ws rest : List Word} :
    readBits n ws = some ⟨bits, true, rest⟩ ↔ bits.length = n ∧ ws = packBits bits ++ rest := by
  constructor
  · simp only [readBits, readBind_eq_some, readWords_eq_some, readCheck_eq_some, readPure_eq_some, decide_eq_true_eq]
    rintro ⟨packed, _, ⟨_, rfl⟩, hpacked, rfl, rfl⟩
    exact ⟨by simp [unpackBits], by rw [hpacked]⟩
  · rintro ⟨rfl, rfl⟩
    exact readBits_packBits bits rest

/-- Words taken two by two, an even number of them, are the samples' words. -/
theorem flatMap_complexesOfWords (n : Nat) (ws : List Word) (h : ws.length = 2 * n) :
    (complexesOfWords ws).length = n ∧ (complexesOfWords ws).flatMap complexWords = ws := by
  induction n generalizing ws with
  | zero => obtain rfl := List.eq_nil_of_length_eq_zero h; exact ⟨rfl, rfl⟩
  | succ n ih =>
    obtain _ | ⟨re, _ | ⟨im, ws⟩⟩ := ws
    · simp at h
    · simp only [List.length_cons, List.length_nil] at h; omega
    · obtain ⟨hlen, hwords⟩ := ih ws (by simp only [List.length_cons] at h; omega)
      exact ⟨by rw [complexesOfWords, List.length_cons, hlen],
        by rw [complexesOfWords, List.flatMap_cons, hwords]; rfl⟩

theorem readComplexes_eq_some {n : Nat} {cs : List CSample} {ws rest : List Word} :
    readComplexes n ws = some ⟨cs, true, rest⟩ ↔ cs.length = n ∧ ws = cs.flatMap complexWords ++ rest := by
  constructor
  · simp only [readComplexes, readMap_eq_some, readWords_eq_some]
    rintro ⟨xs, ⟨hlen, rfl⟩, rfl⟩
    obtain ⟨hcount, hwords⟩ := flatMap_complexesOfWords n xs hlen
    exact ⟨hcount, by rw [hwords]⟩
  · rintro ⟨rfl, rfl⟩
    exact readComplexes_of cs rest

theorem rawWord_rawOfWord (w : Word) : rawWord (rawOfWord w) = w := by
  have hw := w.isLt
  apply BitVec.eq_of_toNat_eq
  rw [rawWord, rawOfWord, toNat_append_eq_add, BitVec.toNat_setWidth, BitVec.toNat_setWidth, BitVec.toNat_ushiftRight,
    Nat.shiftRight_eq_div_pow]
  omega

theorem readRaws_eq_some {n : Nat} {rs : List RawSample} {ws rest : List Word} :
    readRaws n ws = some ⟨rs, true, rest⟩ ↔ rs.length = n ∧ ws = rs.map rawWord ++ rest := by
  constructor
  · simp only [readRaws, readMap_eq_some, readWords_eq_some]
    rintro ⟨xs, ⟨hlen, rfl⟩, rfl⟩
    refine ⟨by rw [List.length_map, hlen], ?_⟩
    rw [List.map_map, show rawWord ∘ rawOfWord = id from funext rawWord_rawOfWord, List.map_id]
  · rintro ⟨rfl, rfl⟩
    exact readRaws_of rs rest

theorem readPair_eq_some {limit : Nat} {p : Pair} {ws rest : List Word} :
    readPair limit ws = some ⟨p, true, rest⟩ ↔ pairFits limit p = true ∧ ws = pairWords p ++ rest := by
  simp only [readPair, readBind_eq_some, readMap_eq_some, readText_eq_some, pairFits_iff, pairWords, List.append_assoc]
  constructor
  · rintro ⟨key, _, ⟨hkey, rfl⟩, value, ⟨hvalue, rfl⟩, rfl⟩
    exact ⟨⟨hkey, hvalue⟩, rfl⟩
  · rintro ⟨⟨hkey, hvalue⟩, rfl⟩
    exact ⟨p.key, _, ⟨hkey, rfl⟩, p.value, ⟨hvalue, rfl⟩, rfl⟩

theorem readPairs_eq_some {limit n : Nat} {ps : List Pair} {ws rest : List Word} :
    readPairs limit n ws = some ⟨ps, true, rest⟩ ↔
      (ps.length = n ∧ ps.all (pairFits limit) = true) ∧ ws = ps.flatMap pairWords ++ rest := by
  induction n generalizing ps ws with
  | zero =>
    rw [readPairs, readPure_eq_some]
    constructor
    · rintro ⟨rfl, rfl⟩; exact ⟨⟨rfl, rfl⟩, rfl⟩
    · rintro ⟨⟨hlen, _⟩, rfl⟩; obtain rfl := List.eq_nil_of_length_eq_zero hlen; exact ⟨rfl, rfl⟩
  | succ n ih =>
    simp only [readPairs, readBind_eq_some, readMap_eq_some, readPair_eq_some, ih]
    constructor
    · rintro ⟨p, _, ⟨hp, rfl⟩, ps, ⟨⟨rfl, hps⟩, rfl⟩, rfl⟩
      simp [hp, hps]
    · rintro ⟨⟨hlen, hall⟩, rfl⟩
      obtain _ | ⟨p, ps⟩ := ps
      · cases hlen
      rw [List.all_cons, Bool.and_eq_true] at hall
      obtain ⟨hp, hps⟩ := hall
      exact ⟨p, _, ⟨hp, List.append_assoc _ _ _⟩, ps, ⟨⟨Nat.succ.inj hlen, hps⟩, rfl⟩, rfl⟩

theorem readStage_eq_some {st : StageSpec} {ws rest : List Word} :
    readStage ws = some ⟨st, true, rest⟩ ↔ countFits st.taps.length = true ∧ ws = stageWords st ++ rest := by
  constructor
  · simp only [readStage, readBind_eq_some, readMap_eq_some, readWord_eq_some, readWords_eq_some]
    rintro ⟨d, _, rfl, n, _, rfl, taps, ⟨hlen, rfl⟩, rfl⟩
    have hcount := countWord_of_length hlen
    rw [countWord] at hcount
    exact ⟨countFits_of_length hlen, by rw [stageWords, hcount]; rfl⟩
  · rintro ⟨hfits, rfl⟩
    exact readStage_of (by simpa only [countFits, decide_eq_true_eq] using hfits) rest

theorem readStages_eq_some {n : Nat} {sts : List StageSpec} {ws rest : List Word} :
    readStages n ws = some ⟨sts, true, rest⟩ ↔
      (sts.length = n ∧ (sts.all fun st => countFits st.taps.length) = true) ∧ ws = sts.flatMap stageWords ++ rest := by
  induction n generalizing sts ws with
  | zero =>
    rw [readStages, readPure_eq_some]
    constructor
    · rintro ⟨rfl, rfl⟩; exact ⟨⟨rfl, rfl⟩, rfl⟩
    · rintro ⟨⟨hlen, _⟩, rfl⟩; obtain rfl := List.eq_nil_of_length_eq_zero hlen; exact ⟨rfl, rfl⟩
  | succ n ih =>
    simp only [readStages, readBind_eq_some, readMap_eq_some, readStage_eq_some, ih]
    constructor
    · rintro ⟨st, _, ⟨hst, rfl⟩, sts, ⟨⟨rfl, hsts⟩, rfl⟩, rfl⟩
      simp [hst, hsts]
    · rintro ⟨⟨hlen, hall⟩, rfl⟩
      obtain _ | ⟨st, sts⟩ := sts
      · cases hlen
      rw [List.all_cons, Bool.and_eq_true] at hall
      obtain ⟨hst, hsts⟩ := hall
      exact ⟨st, _, ⟨hst, List.append_assoc _ _ _⟩, sts, ⟨⟨Nat.succ.inj hlen, hsts⟩, rfl⟩, rfl⟩

/-! ## Packed words and ARG (R102, R110, R114) -/

/-- A bit of a mask that a word shares no bit with is 0 in the word. -/
theorem getLsbD_of_and_eq_zero {n : Nat} {w m : BitVec n} (h : w &&& m = 0) {i : Nat} (hi : m.getLsbD i = true) :
    w.getLsbD i = false := by
  have hand : (w.getLsbD i && m.getLsbD i) = false := by rw [← BitVec.getLsbD_and, h]; exact BitVec.getLsbD_zero
  simpa [hi] using hand

theorem fieldWord0_eq_iff {startBit endBit : BitVec 16} {w : Word} :
    w = fieldWord0 startBit endBit ↔ w.setWidth 16 = startBit ∧ (w >>> 16).setWidth 16 = endBit := by
  have hs := startBit.isLt
  have he := endBit.isLt
  have hw := w.isLt
  simp only [← BitVec.toNat_inj, fieldWord0_toNat, BitVec.toNat_setWidth, BitVec.toNat_ushiftRight,
    Nat.shiftRight_eq_div_pow]
  omega

/-- FW1 is its three operands with every reserved bit 0. -/
theorem fieldWord1_eq_iff {format : BitVec 3} {endianness : BitVec 2} {enumCount : BitVec 16} {w : Word} :
    w = fieldWord1 format endianness enumCount ↔ w &&& 0x0000FFC8#32 = 0 ∧ w.setWidth 3 = format ∧
      (w >>> 4).setWidth 2 = endianness ∧ (w >>> 16).setWidth 16 = enumCount := by
  constructor
  · rintro rfl
    have hf := format.isLt
    have he := endianness.isLt
    have hc := enumCount.isLt
    constructor
    · apply BitVec.eq_of_getLsbD_eq
      intro i hi
      simp only [fieldWord1, BitVec.getLsbD_and, BitVec.getLsbD_append]
      interval_cases i <;> simp
    · simp only [← BitVec.toNat_inj, fieldWord1_toNat, BitVec.toNat_setWidth, BitVec.toNat_ushiftRight,
        Nat.shiftRight_eq_div_pow]
      omega
  · rintro ⟨hreserved, rfl, rfl, rfl⟩
    apply BitVec.eq_of_getLsbD_eq
    intro i hi
    have hbit := getLsbD_of_and_eq_zero (i := i) hreserved
    clear hreserved
    simp only [fieldWord1, BitVec.getLsbD_append]
    interval_cases i <;> simp_all

/-- TW0 is its three operands with every reserved bit 0. -/
theorem triggerWord0_eq_iff {cond action : BitVec 3} {next : BitVec 16} {w : Word} :
    w = triggerWord0 cond action next ↔ w &&& 0x0000FF88#32 = 0 ∧ w.setWidth 3 = cond ∧
      (w >>> 4).setWidth 3 = action ∧ (w >>> 16).setWidth 16 = next := by
  constructor
  · rintro rfl
    have hc := cond.isLt
    have ha := action.isLt
    have hn := next.isLt
    constructor
    · apply BitVec.eq_of_getLsbD_eq
      intro i hi
      simp only [triggerWord0, BitVec.getLsbD_and, BitVec.getLsbD_append]
      interval_cases i <;> simp
    · simp only [← BitVec.toNat_inj, triggerWord0_toNat, BitVec.toNat_setWidth, BitVec.toNat_ushiftRight,
        Nat.shiftRight_eq_div_pow]
      omega
  · rintro ⟨hreserved, rfl, rfl, rfl⟩
    apply BitVec.eq_of_getLsbD_eq
    intro i hi
    have hbit := getLsbD_of_and_eq_zero (i := i) hreserved
    clear hreserved
    simp only [triggerWord0, BitVec.getLsbD_append]
    interval_cases i <;> simp_all

/-- The ARG of a 16-bit immediate (R102): the bits of the mask are the immediate. -/
theorem low16_eq_iff {arg : BitVec 24} {v : BitVec 16} : v.setWidth 24 = arg &&& 0x00FFFF ↔ arg.setWidth 16 = v := by
  have hv := v.isLt
  have hmask : (0x00FFFF#24).toNat = 2 ^ 16 - 1 := rfl
  simp only [← BitVec.toNat_inj, BitVec.toNat_and, BitVec.ofNat_eq_ofNat, hmask, Nat.and_two_pow_sub_one_eq_mod,
    BitVec.toNat_setWidth]
  omega

/-- The ARG of BFC.INIT (R102, R109): the timestamp mode above the number of fields. -/
theorem low19_eq_iff {arg : BitVec 24} {tsMode : BitVec 3} {nf : BitVec 16} :
    0#5 ++ tsMode ++ nf = arg &&& 0x07FFFF ↔ (arg >>> 16).setWidth 3 = tsMode ∧ arg.setWidth 16 = nf := by
  have ht := tsMode.isLt
  have hn := nf.isLt
  have harg := arg.isLt
  have hmask : (0x07FFFF#24).toNat = 2 ^ 19 - 1 := rfl
  have hzero : (0#5).toNat = 0 := rfl
  simp only [← BitVec.toNat_inj, BitVec.toNat_and, BitVec.ofNat_eq_ofNat, hmask, Nat.and_two_pow_sub_one_eq_mod,
    BitVec.toNat_setWidth, BitVec.toNat_ushiftRight, Nat.shiftRight_eq_div_pow, toNat_append_eq_add, hzero]
  omega

/-- The ARG of FIR.INIT (R102, R107): the number of stages. -/
theorem stageCount_eq_iff {arg : BitVec 24} {n : Nat} :
    n < 2 ^ 16 ∧ BitVec.ofNat 24 n = arg &&& 0x00FFFF ↔ n = (arg.setWidth 16).toNat := by
  have hmask : (0x00FFFF#24).toNat = 2 ^ 16 - 1 := rfl
  simp only [← BitVec.toNat_inj, BitVec.toNat_and, BitVec.ofNat_eq_ofNat, hmask, Nat.and_two_pow_sub_one_eq_mod,
    BitVec.toNat_setWidth, BitVec.toNat_ofNat]
  omega

/-! ## The payload of a row (R106 to R118) -/

/-- A payload read as well-formed is the command's, under the ARG bits of the row's mask. -/
theorem payloadOf_of_readPayload {fr : Frame} {op : Opcode} {arg : BitVec 24} {ws rest : List Word} {i : Instr}
    (h : readPayload fr op arg ws = some ⟨i, true, rest⟩) :
    WellFormed fr i = true ∧ argOf i = arg &&& argMask op ∧ ws = payloadOf i ++ rest := by
  cases op with
  | firReset | firTotdec | firDeinit | bfcDeinit | bsmReady | bsmDeinit | bsmRdacc | kvClear | kvCount =>
    obtain ⟨rfl, rfl⟩ := readPure_eq_some.mp h
    exact ⟨rfl, BitVec.and_zero.symm, rfl⟩
  | kvGet =>
    obtain ⟨rfl, rfl⟩ := readPure_eq_some.mp h
    exact ⟨rfl, BitVec.and_allOnes.symm, rfl⟩
  | scTofloat | scToraw | bsmProc | bsmGen | devProc | thrProc =>
    simp only [readPayload, readBind_eq_some, readMap_eq_some, readWord_eq_some, readRaws_eq_some, readComplexes_eq_some,
      readBits_eq_some] at h
    obtain ⟨n, _, rfl, l, ⟨hlen, rfl⟩, rfl⟩ := h
    exact ⟨countFits_of_length hlen, BitVec.and_zero.symm, by rw [payloadOf, countWord_of_length hlen]; rfl⟩
  | devGen =>
    simp only [readPayload, readBind_eq_some, readMap_eq_some, readWord_eq_some, readPairs_eq_some] at h
    obtain ⟨n, _, rfl, pairs, ⟨⟨hlen, hpairs⟩, rfl⟩, rfl⟩ := h
    exact ⟨by rw [WellFormed, countFits_of_length hlen, hpairs]; rfl, BitVec.and_zero.symm,
      by rw [payloadOf, countWord_of_length hlen]; rfl⟩
  | firInit =>
    simp only [readPayload, readBind_eq_some, readMap_eq_some, readWord_eq_some, readStages_eq_some] at h
    obtain ⟨m, _, rfl, stages, ⟨⟨hlen, htaps⟩, rfl⟩, rfl⟩ := h
    obtain ⟨hfits, harg⟩ := stageCount_eq_iff.mpr hlen
    exact ⟨by rw [WellFormed, htaps, decide_eq_true hfits]; rfl, harg, rfl⟩
  | firProc =>
    simp only [readPayload, readBind_eq_some, readMap_eq_some, readWord_eq_some, readComplexes_eq_some] at h
    obtain ⟨n, _, rfl, cap, _, rfl, samples, ⟨hlen, rfl⟩, rfl⟩ := h
    exact ⟨countFits_of_length hlen, BitVec.and_zero.symm, by rw [payloadOf, countWord_of_length hlen]; rfl⟩
  | bfcInit =>
    simp only [readPayload, readMap_eq_some, readNarrow_eq_some (show 16 ≤ 32 by norm_num)] at h
    obtain ⟨recordBits, rfl, rfl⟩ := h
    exact ⟨rfl, low19_eq_iff.mpr ⟨rfl, rfl⟩, rfl⟩
  | bfcAddf =>
    simp only [readPayload, readBind_eq_some, readCheck_eq_some, readPure_eq_some, readText_eq_some, readWord_eq_some,
      readWide_eq_some, decide_eq_true_eq] at h
    obtain ⟨name, _, ⟨hname, rfl⟩, fw0, _, rfl, fw1, _, rfl, scaling, _, rfl, offset, _, rfl, hreserved, rfl, rfl⟩ := h
    refine ⟨hname, BitVec.and_zero.symm, ?_⟩
    rw [payloadOf, ← fieldWord0_eq_iff.mpr ⟨rfl, rfl⟩, ← fieldWord1_eq_iff.mpr ⟨hreserved, rfl, rfl, rfl⟩]
    simp only [List.append_assoc, List.cons_append, List.nil_append]
  | bfcAdde =>
    simp only [readPayload, readBind_eq_some, readMap_eq_some, readText_eq_some, readWide_eq_some] at h
    obtain ⟨fieldName, _, ⟨hfield, rfl⟩, symbol, _, ⟨hsymbol, rfl⟩, value, rfl, rfl⟩ := h
    exact ⟨by rw [WellFormed, hfield, hsymbol]; rfl, BitVec.and_zero.symm, by simp only [payloadOf, List.append_assoc]⟩
  | bfcSetdef | kvAppend =>
    simp only [readPayload, readBind_eq_some, readMap_eq_some, readText_eq_some] at h
    obtain ⟨t, _, ⟨ht, rfl⟩, u, ⟨hu, rfl⟩, rfl⟩ := h
    exact ⟨by rw [WellFormed, ht, hu]; rfl, BitVec.and_zero.symm, by simp only [payloadOf, List.append_assoc]⟩
  | bfcDec | bfcDefdata =>
    simp only [readPayload, readMap_eq_some, readBits_eq_some] at h
    obtain ⟨record, ⟨hlen, rfl⟩, rfl⟩ := h
    exact ⟨decide_eq_true hlen, BitVec.and_zero.symm, rfl⟩
  | bfcEnc =>
    simp only [readPayload, readBind_eq_some, readMap_eq_some, readWord_eq_some, readPairs_eq_some, readBits_eq_some] at h
    obtain ⟨n, _, rfl, pairs, _, ⟨⟨hlen, hpairs⟩, rfl⟩, record, ⟨hrecord, rfl⟩, rfl⟩ := h
    refine ⟨?_, BitVec.and_zero.symm, ?_⟩
    · rw [WellFormed, countFits_of_length hlen, hpairs, decide_eq_true hrecord]; rfl
    · simp only [payloadOf, countWord_of_length hlen, List.cons_append, List.append_assoc]
  | bsmInit =>
    simp only [readPayload, readBind_eq_some, readMap_eq_some, readWord_eq_some,
      readNarrow_eq_some (show 16 ≤ 32 by norm_num)] at h
    obtain ⟨fs, _, rfl, msgBits, _, rfl, onVal, rfl, rfl⟩ := h
    exact ⟨rfl, low16_eq_iff.mpr rfl, rfl⟩
  | bsmSetstate =>
    simp only [readPayload, readBind_eq_some, readMap_eq_some, readText_eq_some, readWord_eq_some] at h
    obtain ⟨name, _, ⟨hname, rfl⟩, durationUs, _, rfl, timeoutUs, rfl, rfl⟩ := h
    exact ⟨hname, low16_eq_iff.mpr rfl, by simp only [payloadOf, List.append_assoc, List.cons_append, List.nil_append]⟩
  | bsmAddtrig =>
    simp only [readPayload, readBind_eq_some, readCheck_eq_some, readPure_eq_some, readWord_eq_some,
      decide_eq_true_eq] at h
    obtain ⟨tw0, _, rfl, durUs, _, rfl, hreserved, rfl, rfl⟩ := h
    exact ⟨rfl, low16_eq_iff.mpr rfl, by rw [payloadOf, ← triggerWord0_eq_iff.mpr ⟨hreserved, rfl, rfl, rfl⟩]; rfl⟩
  | thrSet =>
    simp only [readPayload, readMap_eq_some, readWord_eq_some] at h
    obtain ⟨thr, rfl, rfl⟩ := h
    exact ⟨rfl, BitVec.and_zero.symm, rfl⟩

/-- The row of a well-formed command reads its payload back, whatever ARG bits stand outside the row's mask. -/
theorem readPayload_payloadOf {fr : Frame} {arg : BitVec 24} {i : Instr} (hfits : WellFormed fr i = true)
    (harg : argOf i = arg &&& argMask (opcodeOf i)) (rest : List Word) :
    readPayload fr (opcodeOf i) arg (payloadOf i ++ rest) = some ⟨i, true, rest⟩ := by
  cases i with
  | firReset | firTotdec | firDeinit | bfcDeinit | bsmReady | bsmDeinit | bsmRdacc | kvClear | kvCount => rfl
  | kvGet index =>
    obtain rfl : index = arg := harg.trans BitVec.and_allOnes
    rfl
  | scTofloat l | scToraw l | bsmProc l | bsmGen l | devProc l | thrProc l =>
    simp only [opcodeOf, readPayload, readBind_eq_some, readMap_eq_some, readWord_eq_some, readRaws_eq_some,
      readComplexes_eq_some, readBits_eq_some]
    exact ⟨_, _, rfl, l, ⟨(countWord_toNat_of_fits hfits).symm, rfl⟩, rfl⟩
  | devGen pairs =>
    simp only [WellFormed, Bool.and_eq_true] at hfits
    obtain ⟨hcount, hpairs⟩ := hfits
    simp only [opcodeOf, readPayload, readBind_eq_some, readMap_eq_some, readWord_eq_some, readPairs_eq_some]
    exact ⟨_, _, rfl, pairs, ⟨⟨(countWord_toNat_of_fits hcount).symm, hpairs⟩, rfl⟩, rfl⟩
  | firInit m stages =>
    simp only [WellFormed, Bool.and_eq_true, decide_eq_true_eq] at hfits
    obtain ⟨hcount, htaps⟩ := hfits
    simp only [opcodeOf, readPayload, readBind_eq_some, readMap_eq_some, readWord_eq_some, readStages_eq_some]
    exact ⟨_, _, rfl, stages, ⟨⟨stageCount_eq_iff.mp ⟨hcount, harg⟩, htaps⟩, rfl⟩, rfl⟩
  | firProc cap samples =>
    simp only [opcodeOf, readPayload, readBind_eq_some, readMap_eq_some, readWord_eq_some, readComplexes_eq_some]
    exact ⟨_, _, rfl, cap, _, rfl, samples, ⟨(countWord_toNat_of_fits hfits).symm, rfl⟩, rfl⟩
  | bfcInit tsMode nf recordBits =>
    obtain ⟨rfl, rfl⟩ := low19_eq_iff.mp harg
    exact readMap_of (readNarrow_of (by norm_num) recordBits rest)
  | bfcAddf name startBit endBit format endianness enumCount scaling offset =>
    obtain ⟨hs, he⟩ := fieldWord0_eq_iff.mp (rfl : fieldWord0 startBit endBit = _)
    obtain ⟨hreserved, hf, hen, hc⟩ := fieldWord1_eq_iff.mp (rfl : fieldWord1 format endianness enumCount = _)
    simp only [opcodeOf, readPayload, payloadOf, readBind_eq_some, readCheck_eq_some, readPure_eq_some, readText_eq_some,
      readWord_eq_some, readWide_eq_some, decide_eq_true_eq, List.append_assoc, List.cons_append, List.nil_append]
    exact ⟨name, _, ⟨hfits, rfl⟩, _, _, rfl, _, _, rfl, scaling, _, rfl, offset, _, rfl, hreserved,
      by rw [hs, he, hf, hen, hc], rfl⟩
  | bfcAdde fieldName symbol value =>
    simp only [WellFormed, Bool.and_eq_true] at hfits
    obtain ⟨hfield, hsymbol⟩ := hfits
    simp only [opcodeOf, readPayload, payloadOf, readBind_eq_some, readMap_eq_some, readText_eq_some, readWide_eq_some,
      List.append_assoc]
    exact ⟨fieldName, _, ⟨hfield, rfl⟩, symbol, _, ⟨hsymbol, rfl⟩, value, rfl, rfl⟩
  | bfcSetdef t u | kvAppend t u =>
    simp only [WellFormed, Bool.and_eq_true] at hfits
    obtain ⟨ht, hu⟩ := hfits
    simp only [opcodeOf, readPayload, payloadOf, readBind_eq_some, readMap_eq_some, readText_eq_some, List.append_assoc]
    exact ⟨t, _, ⟨ht, rfl⟩, u, ⟨hu, rfl⟩, rfl⟩
  | bfcDec record | bfcDefdata record =>
    exact readMap_of (readBits_eq_some.mpr ⟨of_decide_eq_true hfits, rfl⟩)
  | bfcEnc pairs record =>
    simp only [WellFormed, Bool.and_eq_true, decide_eq_true_eq] at hfits
    obtain ⟨⟨hcount, hpairs⟩, hrecord⟩ := hfits
    simp only [opcodeOf, readPayload, payloadOf, readBind_eq_some, readMap_eq_some, readWord_eq_some, readPairs_eq_some,
      readBits_eq_some, List.cons_append, List.append_assoc]
    exact ⟨_, _, rfl, pairs, _, ⟨⟨(countWord_toNat_of_fits hcount).symm, hpairs⟩, rfl⟩, record, ⟨hrecord, rfl⟩, rfl⟩
  | bsmInit ns fs msgBits onVal =>
    obtain rfl := low16_eq_iff.mp harg
    simp only [opcodeOf, readPayload, payloadOf, readBind_eq_some, readMap_eq_some, readWord_eq_some,
      readNarrow_eq_some (show 16 ≤ 32 by norm_num), List.cons_append, List.nil_append]
    exact ⟨fs, _, rfl, msgBits, _, rfl, onVal, rfl, rfl⟩
  | bsmSetstate state name durationUs timeoutUs =>
    obtain rfl := low16_eq_iff.mp harg
    simp only [opcodeOf, readPayload, payloadOf, readBind_eq_some, readMap_eq_some, readText_eq_some, readWord_eq_some,
      List.append_assoc, List.cons_append, List.nil_append]
    exact ⟨name, _, ⟨hfits, rfl⟩, durationUs, _, rfl, timeoutUs, rfl, rfl⟩
  | bsmAddtrig state cond action next durUs =>
    obtain rfl := low16_eq_iff.mp harg
    obtain ⟨hreserved, hc, ha, hn⟩ := triggerWord0_eq_iff.mp (rfl : triggerWord0 cond action next = _)
    simp only [opcodeOf, readPayload, payloadOf, readBind_eq_some, readCheck_eq_some, readPure_eq_some, readWord_eq_some,
      decide_eq_true_eq, List.cons_append, List.nil_append]
    exact ⟨_, _, rfl, durUs, _, rfl, hreserved, by rw [hc, ha, hn], rfl⟩
  | thrSet thr => rfl

/-! ## The command word (R101, R102, R128) -/

theorem opcodeOfByte_opcByte (op : Opcode) : opcodeOfByte (opcByte op) = some op := by cases op <;> rfl

theorem opcodeOfByte_eq_some {b : BitVec 8} {op : Opcode} : opcodeOfByte b = some op ↔ b = opcByte op := by
  constructor
  · intro h
    unfold opcodeOfByte at h
    split at h
    all_goals cases h
    all_goals exact BitVec.eq_of_toNat_eq (by assumption)
  · rintro rfl
    exact opcodeOfByte_opcByte op

theorem opcodeOfByte_eq_none {b : BitVec 8} (h : ∀ op, b ≠ opcByte op) : opcodeOfByte b = none := by
  cases hb : opcodeOfByte b with
  | none => rfl
  | some op => exact absurd (opcodeOfByte_eq_some.mp hb) (h op)

/-- A command word is its OPC byte and its ARG. -/
theorem headerOpc_append_headerArg (cw : Word) : headerOpc cw ++ headerArg cw = cw := by
  have hcw := cw.isLt
  apply BitVec.eq_of_toNat_eq
  rw [commandWord_toNat, headerOpc, headerArg, BitVec.toNat_setWidth, BitVec.toNat_setWidth, BitVec.toNat_ushiftRight,
    Nat.shiftRight_eq_div_pow]
  omega

/-- An ARG is legal when the row's mask leaves it as it is. -/
theorem argLegal_iff {op : Opcode} {arg : BitVec 24} : argLegal op arg = true ↔ arg &&& argMask op = arg := by
  have hsplit : (arg &&& argMask op) ||| (arg &&& ~~~argMask op) = arg := by
    ext k hk
    cases h : arg[k] <;> cases h' : (argMask op)[k] <;> simp [h, h']
  rw [argLegal, decide_eq_true_eq]
  constructor
  · intro h
    rw [h] at hsplit
    simpa using hsplit
  · intro h
    rw [← h]
    ext k hk
    simp

/-- A well-formed command sets ARG bits of its row's mask only. -/
theorem argOf_masked {fr : Frame} {i : Instr} (h : WellFormed fr i = true) : argOf i &&& argMask (opcodeOf i) = argOf i := by
  cases i with
  | firInit m stages =>
    simp only [WellFormed, Bool.and_eq_true, decide_eq_true_eq] at h
    obtain ⟨hcount, _⟩ := h
    refine (stageCount_eq_iff.mpr ?_).2.symm
    rw [argOf, BitVec.toNat_setWidth, BitVec.toNat_ofNat]
    omega
  | bfcInit tsMode nf recordBits =>
    have ht := tsMode.isLt
    have hn := nf.isLt
    refine (low19_eq_iff.mpr ?_).symm
    simp only [argOf, ← BitVec.toNat_inj, BitVec.toNat_setWidth, BitVec.toNat_ushiftRight, Nat.shiftRight_eq_div_pow,
      toNat_append_eq_add]
    omega
  | bsmInit | bsmSetstate | bsmAddtrig => exact (low16_eq_iff.mpr (BitVec.setWidth_setWidth_of_le _ (by norm_num))).symm
  | kvGet index => exact BitVec.and_allOnes
  | _ => exact BitVec.zero_and

theorem headerOpc_headerOf (i : Instr) : headerOpc (headerOf i) = opcByte (opcodeOf i) := headerOpc_append _ _

theorem headerArg_headerOf (i : Instr) : headerArg (headerOf i) = argOf i := headerArg_append _ _

/-- Bits added outside a mask are all that the mask takes away. -/
theorem or_and_eq_left {n : Nat} {a b m : BitVec n} (ha : a &&& m = a) (hb : b &&& m = 0) : (a ||| b) &&& m = a := by
  apply BitVec.eq_of_getLsbD_eq
  intro k hk
  have hak := congrArg (BitVec.getLsbD · k) ha
  have hbk := congrArg (BitVec.getLsbD · k) hb
  simp only [BitVec.getLsbD_and, BitVec.getLsbD_or, BitVec.ofNat_eq_ofNat, BitVec.getLsbD_zero] at hak hbk ⊢
  rw [Bool.and_or_distrib_right, hak, hbk, Bool.or_false]

/-- A bit vector outside a mask that adds nothing to one inside it is 0. -/
theorem eq_zero_of_or_eq_left {n : Nat} {a b m : BitVec n} (ha : a &&& m = a) (hb : b &&& m = 0) (h : a ||| b = a) :
    b = 0 := by
  apply BitVec.eq_of_getLsbD_eq
  intro k hk
  have hak := congrArg (BitVec.getLsbD · k) ha
  have hbk := congrArg (BitVec.getLsbD · k) hb
  have habk := congrArg (BitVec.getLsbD · k) h
  simp only [BitVec.getLsbD_and, BitVec.getLsbD_or, BitVec.ofNat_eq_ofNat, BitVec.getLsbD_zero] at hak hbk habk ⊢
  cases hbit : b.getLsbD k with
  | false => rfl
  | true => simp_all

/-! ## Decoding -/

section

variable {fr : Frame} {op : Opcode} {arg : BitVec 24} {cw : Word} {payload ws rest : List Word} {i : Instr}

/-- A payload that has arrived is judged by its layout rules and by its row's ARG mask (R126 b). -/
theorem decode_of_read {r : Parsed Instr} (hop : headerOpc cw = opcByte op)
    (hread : readPayload fr op (headerArg cw) payload = some r) :
    decode fr (cw :: payload) = if r.ok && argLegal op (headerArg cw) then .command r.value r.rest else .malformed op r.rest := by
  simp only [decode, hop, opcodeOfByte_opcByte, hread]

theorem decode_of_missing (hop : headerOpc cw = opcByte op) (hread : readPayload fr op (headerArg cw) payload = none) :
    decode fr (cw :: payload) = .incomplete op := by
  simp only [decode, hop, opcodeOfByte_opcByte, hread]

/-- The words that decode to a command are its encoding and whatever comes after. -/
theorem decode_eq_command_iff : decode fr ws = .command i rest ↔ WellFormed fr i = true ∧ ws = encode i ++ rest := by
  constructor
  · intro h
    obtain ⟨cw, payload, rfl, hrow⟩ := decode_command_header h
    have hop := opcodeOfByte_eq_some.mp hrow
    cases hread : readPayload fr (opcodeOf i) (headerArg cw) payload with
    | none => rw [decode_of_missing hop hread] at h; cases h
    | some r =>
      rw [decode_of_read hop hread] at h
      split_ifs at h with hlegal
      obtain ⟨j, ok, left⟩ := r
      cases h
      rw [Bool.and_eq_true] at hlegal
      obtain ⟨rfl, harg⟩ := hlegal
      obtain ⟨hfits, hargOf, rfl⟩ := payloadOf_of_readPayload hread
      refine ⟨hfits, ?_⟩
      rw [encode, headerOf, hargOf, argLegal_iff.mp harg, ← hop, headerOpc_append_headerArg]
      rfl
  · rintro ⟨hfits, rfl⟩
    have hmask := argOf_masked hfits
    have hread := readPayload_payloadOf (arg := headerArg (headerOf i)) hfits (by rw [headerArg_headerOf, hmask]) rest
    rw [encode, List.cons_append, decode_of_read (headerOpc_headerOf i) hread, headerArg_headerOf, argLegal_iff.mpr hmask]
    rfl

/-- A malformed command's row is the one its command word selects. -/
theorem decode_malformed_header (h : decode fr ws = .malformed op rest) :
    ∃ cw payload, ws = cw :: payload ∧ headerOpc cw = opcByte op := by
  obtain _ | ⟨cw, payload⟩ := ws
  · cases h
  refine ⟨cw, payload, rfl, ?_⟩
  simp only [decode] at h
  split at h
  · cases h
  · next row hrow =>
    split at h
    · cases h
    · split at h
      · cases h
      · cases h
        exact opcodeOfByte_eq_some.mp hrow

/-- A command with ARG bits added that its row does not have is malformed, and framed as the command is (R126 b). -/
theorem decode_of_reservedArg {bad : BitVec 24} (hfits : WellFormed fr i = true) (hbad : bad ≠ 0)
    (hreserved : bad &&& argMask (opcodeOf i) = 0) (rest : List Word) :
    decode fr (((opcByte (opcodeOf i) ++ (argOf i ||| bad)) :: payloadOf i) ++ rest) = .malformed (opcodeOf i) rest := by
  have hmask : (argOf i ||| bad) &&& argMask (opcodeOf i) = argOf i :=
    or_and_eq_left (argOf_masked hfits) hreserved
  have hread := readPayload_payloadOf hfits hmask.symm rest
  have hillegal : argLegal (opcodeOf i) (argOf i ||| bad) = false := by
    rw [Bool.eq_false_iff, Ne, argLegal_iff, hmask]
    exact fun hsame => hbad (eq_zero_of_or_eq_left (argOf_masked hfits) hreserved hsame.symm)
  rw [← headerArg_append (opcByte (opcodeOf i)) (argOf i ||| bad)] at hread
  rw [List.cons_append, decode_of_read (headerOpc_append _ _) hread, headerArg_append, hillegal]
  rfl

end

/-! ## Words that have not all arrived (R127) -/

/-- A reader that has what it needs reads the same from more words, and leaves these over. -/
def Frames {α : Type} (p : Reader α) : Prop :=
  ∀ ws more r, p ws = some r → p (ws ++ more) = some ⟨r.value, r.ok, r.rest ++ more⟩

theorem Frames.pure {α : Type} (a : α) : Frames (readPure a) := by
  rintro ws more r ⟨⟩
  rfl

theorem Frames.bind {α β : Type} {p : Reader α} {g : α → Reader β} (hp : Frames p) (hg : ∀ a, Frames (g a)) :
    Frames (readBind p g) := by
  intro ws more r h
  unfold readBind at h
  split at h
  · cases h
  · next q hq =>
    split at h
    · cases h
    · next q' hq' =>
      cases h
      simp only [readBind, hp ws more q hq, hg q.value q.rest more q' hq']

theorem Frames.map {α β : Type} {p : Reader α} {g : α → β} (hp : Frames p) : Frames (readMap g p) :=
  hp.bind fun a => .pure (g a)

theorem Frames.check {α : Type} {ok : Bool} {p : Reader α} (hp : Frames p) : Frames (readCheck ok p) := by
  intro ws more r h
  unfold readCheck at h
  split at h
  · cases h
  · next q hq =>
    cases h
    simp only [readCheck, hp ws more q hq]

theorem readWord_frames : Frames readWord := by
  rintro (_ | ⟨w, ws⟩) more r h <;> cases h
  rfl

theorem readWords_frames (n : Nat) : Frames (readWords n) := by
  intro ws more r h
  unfold readWords at h
  split at h
  · cases h
  · next hlen =>
    cases h
    have hle : n ≤ ws.length := Nat.le_of_not_lt hlen
    rw [readWords, if_neg (by rw [List.length_append]; omega), List.take_append_of_le_length hle,
      List.drop_append_of_le_length hle]

theorem readNarrow_frames (w : Nat) : Frames (readNarrow w) := readWord_frames.bind fun _ => .check (.pure _)

theorem readWide_frames : Frames readWide := readWord_frames.bind fun _ => readWord_frames.map

theorem readText_frames (limit : Nat) : Frames (readText limit) :=
  readWord_frames.bind fun _ => (readWords_frames _).bind fun _ => .check (.pure _)

theorem readBits_frames (n : Nat) : Frames (readBits n) := (readWords_frames _).bind fun _ => .check (.pure _)

theorem readComplexes_frames (n : Nat) : Frames (readComplexes n) := (readWords_frames _).map

theorem readRaws_frames (n : Nat) : Frames (readRaws n) := (readWords_frames _).map

theorem readPairs_frames (limit n : Nat) : Frames (readPairs limit n) := by
  induction n with
  | zero => exact .pure []
  | succ n ih => exact .bind (.bind (readText_frames limit) fun _ => (readText_frames limit).map) fun _ => ih.map

theorem readStages_frames (n : Nat) : Frames (readStages n) := by
  induction n with
  | zero => exact .pure []
  | succ n ih =>
    exact .bind (readWord_frames.bind fun _ => readWord_frames.bind fun _ => (readWords_frames _).map) fun _ => ih.map

theorem readPayload_frames (fr : Frame) (op : Opcode) (arg : BitVec 24) : Frames (readPayload fr op arg) := by
  unfold readPayload
  cases op with
  | firReset | firTotdec | firDeinit | bfcDeinit | bsmReady | bsmDeinit | bsmRdacc | kvClear | kvGet | kvCount =>
    exact .pure _
  | scTofloat => exact .bind readWord_frames fun _ => .map (readRaws_frames _)
  | scToraw | thrProc => exact .bind readWord_frames fun _ => .map (readComplexes_frames _)
  | firInit => exact .bind readWord_frames fun _ => .map (readStages_frames _)
  | firProc => exact .bind readWord_frames fun _ => .bind readWord_frames fun _ => .map (readComplexes_frames _)
  | bfcInit => exact .map (readNarrow_frames 16)
  | bfcAddf =>
    exact .bind (readText_frames _) fun _ => .bind readWord_frames fun _ => .bind readWord_frames fun _ =>
      .bind readWide_frames fun _ => .bind readWide_frames fun _ => .check (.pure _)
  | bfcAdde => exact .bind (readText_frames _) fun _ => .bind (readText_frames _) fun _ => .map readWide_frames
  | bfcSetdef | kvAppend => exact .bind (readText_frames _) fun _ => .map (readText_frames _)
  | bfcDec | bfcDefdata => exact .map (readBits_frames _)
  | bfcEnc => exact .bind readWord_frames fun _ => .bind (readPairs_frames _ _) fun _ => .map (readBits_frames _)
  | bsmInit => exact .bind readWord_frames fun _ => .bind (readNarrow_frames 16) fun _ => .map readWord_frames
  | bsmSetstate => exact .bind (readText_frames _) fun _ => .bind readWord_frames fun _ => .map readWord_frames
  | bsmAddtrig => exact .bind readWord_frames fun _ => .bind readWord_frames fun _ => .check (.pure _)
  | bsmProc | bsmGen | devProc => exact .bind readWord_frames fun _ => .map (readBits_frames _)
  | devGen => exact .bind readWord_frames fun _ => .map (readPairs_frames _ _)
  | thrSet => exact .map readWord_frames

/-- Nothing is read while the last of the words that an element takes are missing. -/
theorem Frames.eq_none_of_missing {α : Type} {p : Reader α} (hp : Frames p) {ws more : List Word} {a : α} {ok : Bool}
    (h : p (ws ++ more) = some ⟨a, ok, []⟩) (hmore : more ≠ []) : p ws = none := by
  cases hws : p ws with
  | none => rfl
  | some r =>
    have hsame := (hp ws more r hws).symm.trans h
    simp only [Option.some.injEq, Parsed.mk.injEq, List.append_eq_nil_iff] at hsame
    obtain ⟨_, _, _, hnil⟩ := hsame
    exact absurd hnil hmore

/-- The words of a command decode as incomplete while some of its payload is missing. -/
theorem decode_take_of_missing {fr : Frame} {i : Instr} {k : Nat} (hfits : WellFormed fr i = true)
    (hk : k < (payloadOf i).length) : decode fr (headerOf i :: (payloadOf i).take k) = .incomplete (opcodeOf i) := by
  refine decode_of_missing (headerOpc_headerOf i) ?_
  rw [headerArg_headerOf]
  have hread := readPayload_payloadOf hfits (argOf_masked hfits).symm []
  rw [List.append_nil] at hread
  rw [← List.take_append_drop k (payloadOf i)] at hread
  exact (readPayload_frames fr _ _).eq_none_of_missing hread (by rw [Ne, List.drop_eq_nil_iff]; omega)

/-! ## The step at words that are no command -/

/-- A refusal as IllegalCommand has status 13 and the OPC byte for its info word (R126, R332). -/
theorem raise_illegalCommand (s : State) (rest : List Word) (opc : BitVec 8) :
    raise (s.consume rest) (illegalCommand opc) = .next (State.failedWith { s with rx := rest } 13 (opc.setWidth 32)) := rfl

section

variable {s : State}

theorem step_of_wait (h : s.fetch = .wait) : step s = .next s := by simp only [step, h]

theorem step_of_rejected {r : Raised} {rest : List Word} (h : s.fetch = .rejected r rest) :
    step s = raise (s.consume rest) r := by simp only [step, h]

theorem fetch_of_unknown {cw : Word} {rest : List Word} (hrx : s.rx = cw :: rest) (hop : opcodeOfByte (headerOpc cw) = none) :
    s.fetch = .rejected (illegalCommand (headerOpc cw)) rest := by
  simp only [State.fetch, hrx, hop]

theorem fetch_of_malformed {op : Opcode} {rest : List Word} (hdec : decode s.frame s.rx = .malformed op rest)
    (hready : commandNotReady op s = none) : s.fetch = .rejected (illegalCommand (opcByte op)) rest := by
  obtain ⟨cw, payload, hrx, hop⟩ := decode_malformed_header hdec
  rw [hrx] at hdec
  simp only [State.fetch, hrx, hop, opcodeOfByte_opcByte, hready, hdec]

theorem fetch_of_incomplete {cw : Word} {payload : List Word} {op : Opcode} (hrx : s.rx = cw :: payload)
    (hdec : decode s.frame (cw :: payload) = .incomplete op) (hop : headerOpc cw = opcByte op)
    (hready : commandNotReady op s = none) : s.fetch = .wait := by
  simp only [State.fetch, hrx, hop, opcodeOfByte_opcByte, hready, hdec]

/-- A malformed command of a ready row is refused after its payload is consumed (R126 b). -/
theorem step_of_malformed {op : Opcode} {rest : List Word} (hdec : decode s.frame s.rx = .malformed op rest)
    (hready : commandNotReady op s = none) :
    step s = .next (State.failedWith { s with rx := rest } 13 ((opcByte op).setWidth 32)) :=
  (step_of_rejected (fetch_of_malformed hdec hready)).trans (raise_illegalCommand s rest _)

end

/-! ## The obligations -/

/-- Settles O1: one half of `decode_eq_command_iff`. -/
theorem decodeReadsEncode : Obligations.DecodeReadsEncode := fun _ _ _ hfits => decode_eq_command_iff.mpr ⟨hfits, rfl⟩

/-- Settles O2: the other half. -/
theorem encodeWritesDecoded : Obligations.EncodeWritesDecoded := fun _ _ _ _ hdec => decode_eq_command_iff.mp hdec

/-- Settles O6: a malformed command of a ready row is refused after its payload, and a command with reserved ARG bits added
is malformed. -/
theorem reservedArgIsIllegal : Obligations.ReservedArgIsIllegal := by
  refine ⟨fun _ _ _ hdec hready => step_of_malformed hdec hready, ?_⟩
  intro s i bad rest hfits hready hbad hreserved hrx
  exact step_of_malformed (by rw [hrx]; exact decode_of_reservedArg hfits hbad hreserved rest) hready

/-- Settles O7: with no word there is no row to select, and with the command word the payload is incomplete. -/
theorem partialCommandWaits : Obligations.PartialCommandWaits := by
  intro s i k hfits hready hk hrx
  refine step_of_wait ?_
  cases k with
  | zero => rw [State.fetch, hrx]; rfl
  | succ k =>
    have hmissing : k < (payloadOf i).length := Nat.lt_of_succ_lt_succ hk
    exact fetch_of_incomplete hrx (decode_take_of_missing hfits hmissing) (headerOpc_headerOf i) hready

/-- Settles O3: each list of words is the encoding of its command, which is well-formed. -/
theorem specWordsDecode : Obligations.SpecWordsDecode :=
  ⟨decodeReadsEncode _ (.firInit 8 [⟨2, [0x3F000000#32, 0x3F000000#32]⟩]) [] (by decide),
    decodeReadsEncode _ (.bfcInit 1 8 40) [] rfl,
    decodeReadsEncode _ (.bsmInit 3 10000 2 0x3F800000#32) [] rfl,
    decodeReadsEncode _ (.bsmAddtrig 2 1 2 1 1200) [] rfl,
    decodeReadsEncode _ (.kvGet 0xFFFFFF#24) [] rfl,
    decodeReadsEncode _ (.thrSet 0x3F000000#32) [] rfl⟩

/-- Settles O5: an OPC byte of no row is refused before anything else is looked at. -/
theorem unknownOpcodeIsIllegal : Obligations.UnknownOpcodeIsIllegal := by
  intro s cw rest hrx hunknown
  exact (step_of_rejected (fetch_of_unknown hrx (opcodeOfByte_eq_none hunknown))).trans (raise_illegalCommand s rest _)

end Sys2Proof.Machine

namespace Sys2Proof.Machine

/-! # Exact operations (R11)

An operation rounds its exact result once, so it is exact when a pattern represents that result. A magnitude of
`k * 2 ^ e` units is representable when `k` fits the fraction with its hidden bit and `e` is in range. -/

/-- A finite magnitude pattern has exactly `n` units. -/
def FpRepresentable (w f n : Nat) : Prop := ∃ m, m < fpInfMag w f ∧ fpUnits f m = n

/-! ## Which magnitudes are representable -/

theorem fpUnits_eq_scaled (f m : Nat) : ∃ k e, k < 2 ^ (f + 1) ∧ (e = 0 ∨ 2 ^ f ≤ k) ∧ fpUnits f m = k * 2 ^ e := by
  have hf := Nat.two_pow_pos f
  have hfrac := Nat.mod_lt m hf
  by_cases hexp : m / 2 ^ f = 0
  · have hm : m < 2 ^ f := (Nat.div_eq_zero_iff_lt hf).mp hexp
    exact ⟨m, 0, by omega, .inl rfl, by simp [fpUnits, hexp]⟩
  · exact ⟨2 ^ f + m % 2 ^ f, m / 2 ^ f - 1, by omega, .inr (Nat.le_add_right _ _), by simp only [fpUnits, if_neg hexp]⟩

theorem exists_fpUnits_eq (f k e : Nat) (hk : k < 2 ^ (f + 1)) : ∃ m, m < (e + 2) * 2 ^ f ∧ fpUnits f m = k * 2 ^ e := by
  induction e generalizing k with
  | zero =>
    refine ⟨k, by omega, ?_⟩
    unfold fpUnits
    split_ifs with hexp
    · simp
    · have hlt : k / 2 ^ f < 2 := Nat.div_lt_of_lt_mul (by rwa [← Nat.pow_succ])
      have hone : k / 2 ^ f = 1 := Nat.le_antisymm (Nat.le_of_lt_succ hlt) (Nat.pos_of_ne_zero hexp)
      have hsplit := Nat.div_add_mod k (2 ^ f)
      rw [hone, Nat.mul_one] at hsplit
      rw [hone, hsplit]
  | succ e ih =>
    by_cases hsmall : k < 2 ^ f
    · obtain ⟨m, hm, hunits⟩ := ih (2 * k) (by omega)
      exact ⟨m, hm.trans_le (Nat.mul_le_mul_right _ (by omega)), by rw [hunits]; ring⟩
    · obtain ⟨r, rfl⟩ := Nat.exists_eq_add_of_le (Nat.le_of_not_lt hsmall)
      have hr : r < 2 ^ f := by omega
      refine ⟨(e + 2) * 2 ^ f + r, by rw [show e + 1 + 2 = e + 2 + 1 by omega, Nat.succ_mul (e + 2)]; omega, ?_⟩
      have hexp : ((e + 2) * 2 ^ f + r) / 2 ^ f = e + 2 := by
        rw [Nat.mul_comm, Nat.mul_add_div (Nat.two_pow_pos f), Nat.div_eq_of_lt hr, Nat.add_zero]
      have hfrac : ((e + 2) * 2 ^ f + r) % 2 ^ f = r := by rw [Nat.mul_comm, Nat.mul_add_mod, Nat.mod_eq_of_lt hr]
      rw [fpUnits, hexp, hfrac, if_neg (by omega)]
      rfl

theorem fpRepresentable_of_scaled {w f k e : Nat} (hk : k < 2 ^ (f + 1)) (he : e + 2 ≤ 2 ^ (w - 1 - f) - 1) :
    FpRepresentable w f (k * 2 ^ e) := by
  obtain ⟨m, hm, hunits⟩ := exists_fpUnits_eq f k e hk
  exact ⟨m, hm.trans_le (Nat.mul_le_mul_right _ he), hunits⟩

/-! ## The value of a pattern -/

section

variable {w f : Nat}

theorem fpInfMag_lt (hf : f < w) : fpInfMag w f < 2 ^ (w - 1) := by
  calc fpInfMag w f < 2 ^ (w - 1 - f) * 2 ^ f :=
        Nat.mul_lt_mul_of_pos_right (Nat.sub_lt (Nat.two_pow_pos _) Nat.one_pos) (Nat.two_pow_pos f)
    _ = 2 ^ (w - 1) := by rw [← Nat.pow_add, Nat.sub_add_cancel (by omega)]

theorem fpPack_toNat (hw : 0 < w) (neg : Bool) {m : Nat} (hm : m < 2 ^ (w - 1)) :
    (fpPack w neg m).toNat = (if neg then 2 ^ (w - 1) else 0) + m := by
  have hdouble : 2 ^ w = 2 * 2 ^ (w - 1) := by rw [← Nat.pow_succ', Nat.succ_eq_add_one, Nat.sub_add_cancel hw]
  rw [fpPack, BitVec.toNat_ofNat, Nat.mod_eq_of_lt]
  split_ifs <;> omega

theorem fpPack_msb (hw : 0 < w) (neg : Bool) {m : Nat} (hm : m < 2 ^ (w - 1)) : (fpPack w neg m).msb = neg := by
  rw [BitVec.msb_eq_decide, fpPack_toNat hw neg hm]
  cases neg
  · simpa using hm
  · simp

theorem fpMag_fpPack (hw : 0 < w) (neg : Bool) {m : Nat} (hm : m < 2 ^ (w - 1)) : fpMag (fpPack w neg m) = m := by
  rw [fpMag, fpPack_toNat hw neg hm]
  cases neg
  · simpa using Nat.mod_eq_of_lt hm
  · simpa using Nat.mod_eq_of_lt hm

theorem fpUnits_fpMag (f : Nat) (a : BitVec w) : fpUnits f (fpMag a) = (fpValue f a).natAbs := by
  unfold fpValue
  split_ifs <;> simp

/-- Dropping the fraction is division of the value toward zero. -/
theorem fpTrunc_eq_tdiv (f : Nat) (a : BitVec w) : fpTrunc f a = (fpValue f a).tdiv (2 ^ fpOne w f) := by
  unfold fpTrunc fpValue
  split_ifs <;> simp [Int.neg_tdiv, Int.tdiv_eq_ediv_of_nonneg]

/-! ## Rounding and the operations that round once -/

theorem fpRound_exact (hf : f < w) (neg : Bool) {n den : Nat} (hn : FpRepresentable w f n) (hden : 0 < den) :
    fpIsFinite f (fpRound w f neg (n * den) den) = true ∧
      fpValue f (fpRound w f neg (n * den) den) = if neg then -(n : Int) else n := by
  obtain ⟨m, hm, rfl⟩ := hn
  have hw : 0 < w := by omega
  have hfits : m < 2 ^ (w - 1) := hm.trans (fpInfMag_lt hf)
  rw [fpRound, fpRoundMag_units w f m den hden hm.le]
  simp only [fpIsFinite, fpValue, fpMag_fpPack hw neg hfits, fpPack_msb hw neg hfits, hm, decide_true, and_self]

theorem fpOfInt_exact (hf : f < w) {x : Int} (hx : FpRepresentable w f (x.natAbs * 2 ^ fpOne w f)) :
    fpIsFinite f (fpOfInt w f x) = true ∧ fpValue f (fpOfInt w f x) = x * 2 ^ fpOne w f := by
  obtain ⟨hfinite, hvalue⟩ := fpRound_exact hf (decide (x < 0)) hx Nat.one_pos
  rw [Nat.mul_one] at hfinite hvalue
  refine ⟨hfinite, hvalue.trans ?_⟩
  push_cast
  by_cases hneg : x < 0
  · simp [hneg, abs_of_neg hneg]
  · simp [hneg, abs_of_nonneg (not_lt.mp hneg)]

theorem not_fpIsNaN_of_finite {a : BitVec w} (ha : fpIsFinite f a = true) : fpIsNaN f a = false := by
  simp only [fpIsFinite, fpIsNaN, decide_eq_true_eq, decide_eq_false_iff_not] at ha ⊢
  omega

theorem not_fpIsInf_of_finite {a : BitVec w} (ha : fpIsFinite f a = true) : fpIsInf f a = false := by
  simp only [fpIsFinite, fpIsInf, decide_eq_true_eq, decide_eq_false_iff_not] at ha ⊢
  omega

/-- The product of two finite values is exact when its magnitude `n` is representable; `2 ^ fpOne w f` units are `1.0`. -/
theorem fpMul_exact (hf : f < w) (nan : BitVec w) {a b : BitVec w} {n : Nat} (ha : fpIsFinite f a = true)
    (hb : fpIsFinite f b = true) (hn : FpRepresentable w f n)
    (hprod : (fpValue f a * fpValue f b).natAbs = n * 2 ^ fpOne w f) :
    fpIsFinite f (fpMul f nan a b) = true ∧
      fpValue f (fpMul f nan a b) * 2 ^ fpOne w f = fpValue f a * fpValue f b := by
  have hunits : fpUnits f (fpMag a) * fpUnits f (fpMag b) = n * 2 ^ fpOne w f := by
    rw [fpUnits_fpMag, fpUnits_fpMag, ← Int.natAbs_mul, hprod]
  have hround : fpMul f nan a b = fpRound w f (a.msb != b.msb) (n * 2 ^ fpOne w f) (2 ^ fpOne w f) := by
    simp [fpMul, not_fpIsNaN_of_finite, not_fpIsInf_of_finite, ha, hb, hunits]
  obtain ⟨hfinite, hvalue⟩ := fpRound_exact hf (a.msb != b.msb) hn (Nat.two_pow_pos (fpOne w f))
  have hcast : (n : Int) * 2 ^ fpOne w f = fpUnits f (fpMag a) * fpUnits f (fpMag b) := by exact_mod_cast hunits.symm
  rw [hround]
  refine ⟨hfinite, ?_⟩
  rw [hvalue]
  cases hsa : a.msb <;> cases hsb : b.msb <;> simp [fpValue, hsa, hsb, hcast]

end

/-- `fpMul_exact` for binary32, where `1.0` is `2 ^ 149` units. -/
theorem f32Mul_exact (site : Site) {a b : F32} {n : Nat} (ha : f32IsFinite a = true) (hb : f32IsFinite b = true)
    (hn : FpRepresentable 32 23 n) (hprod : (fpValue 23 a * fpValue 23 b).natAbs = n * 2 ^ 149) :
    f32IsFinite (f32Mul site a b) = true ∧ fpValue 23 (f32Mul site a b) * 2 ^ 149 = fpValue 23 a * fpValue 23 b :=
  fpMul_exact (by decide) (nan32 site) ha hb hn hprod

end Sys2Proof.Machine

namespace Sys2Proof.Machine

/-! # The sample codec (O15 to O17)

Both scales are powers of two, so the product of a lane and a scale is exact wherever the rules say what the lane
becomes (R141, R142); each lane fact then speaks of values alone. -/

/-! ## The scales -/

theorem fpValue_scScaleInv : fpValue 23 Config.scScaleInv = 2 ^ 138 := by decide +kernel

theorem fpValue_scScale : fpValue 23 Config.scScale = 2 ^ 160 := by decide +kernel

/-! ## One lane -/

/-- An `s16` fits the 24 bits of an `f32` fraction with its hidden bit. -/
theorem natAbs_toInt_lt (v : BitVec 16) : v.toInt.natAbs < 2 ^ (23 + 1) := by
  have := v.toInt_lt
  have := v.le_toInt
  omega

/-- An `s16` is an exact `f32`, one being `2 ^ 149` units (R141). -/
theorem f32OfInt_exact (v : BitVec 16) :
    f32IsFinite (f32OfInt v.toInt) = true ∧ fpValue 23 (f32OfInt v.toInt) = v.toInt * 2 ^ 149 :=
  fpOfInt_exact (by decide) (fpRepresentable_of_scaled (natAbs_toInt_lt v) (by decide))

/-- R141: a lane of SC.TOFLOAT is finite and `2 ^ 138` units, that is 1/2048, for each unit of the `s16`. -/
theorem toFloatLane_exact (site : Site) (v : BitVec 16) :
    f32IsFinite (toFloatLane site v) = true ∧ fpValue 23 (toFloatLane site v) = v.toInt * 2 ^ 138 := by
  obtain ⟨hint, hvalue⟩ := f32OfInt_exact v
  have hprod : (fpValue 23 (f32OfInt v.toInt) * fpValue 23 Config.scScaleInv).natAbs =
      v.toInt.natAbs * 2 ^ 138 * 2 ^ 149 := by
    rw [hvalue, fpValue_scScaleInv]; omega
  obtain ⟨hfinite, hscaled⟩ := f32Mul_exact site hint (by decide)
    (fpRepresentable_of_scaled (natAbs_toInt_lt v) (by decide)) hprod
  refine ⟨hfinite, ?_⟩
  rw [hvalue, fpValue_scScaleInv] at hscaled
  rw [toFloatLane]
  omega

/-- R141: the lane 0 gives `+0.0`, not `-0.0`. -/
theorem toFloatLane_zero (site : Site) : toFloatLane site 0 = 0 := rfl

/-- The product of a lane below 32 (`2 ^ 154` units) in magnitude and 2048 is exact: only the exponent moves (R142). -/
theorem f32Mul_scScale_exact (site : Site) {v : F32} (hfinite : f32IsFinite v = true)
    (hsmall : (fpValue 23 v).natAbs < 2 ^ 154) :
    f32IsFinite (f32Mul site v Config.scScale) = true ∧
      fpValue 23 (f32Mul site v Config.scScale) = fpValue 23 v * 2 ^ 11 := by
  obtain ⟨k, e, hk, hnormal, hunits⟩ := fpUnits_eq_scaled 23 (fpMag v)
  rw [fpUnits_fpMag] at hunits
  have he : e + 11 + 2 ≤ 2 ^ (32 - 1 - 23) - 1 := by
    rcases hnormal with rfl | hnormal
    · decide
    · have hpow : 2 ^ (23 + e) < 2 ^ 154 := by
        rw [Nat.pow_add]
        exact (Nat.mul_le_mul_right _ hnormal).trans_lt (hunits ▸ hsmall)
      have := (Nat.pow_lt_pow_iff_right (by decide)).mp hpow
      omega
  have hprod : (fpValue 23 v * fpValue 23 Config.scScale).natAbs = k * 2 ^ (e + 11) * 2 ^ 149 := by
    calc
      _ = k * 2 ^ e * 2 ^ 160 := by rw [Int.natAbs_mul, hunits, fpValue_scScale]; rfl
      _ = k * 2 ^ (e + 11) * 2 ^ 149 := by ring
  obtain ⟨hres, hscaled⟩ := f32Mul_exact site hfinite (by decide)
    (fpRepresentable_of_scaled hk he) hprod
  refine ⟨hres, ?_⟩
  rw [fpValue_scScale] at hscaled
  omega

theorem convS16_toInt (site : Site) {p : F32} (hfinite : f32IsFinite p = true) (hlo : -32768 ≤ f32Trunc p)
    (hhi : f32Trunc p ≤ 32767) : (convS16 site p).toInt = f32Trunc p := by
  rw [convS16, if_pos ⟨hfinite, hlo, hhi⟩, BitVec.toInt_ofInt]
  exact Int.bmod_eq_of_le (by omega) (by omega)

/-- Truncation of a quotient strictly between -32769 and 32768 fits `s16` (R142). -/
theorem tdiv_fits_s16 {x : Int} (hlo : -32769 * 2 ^ 138 < x) (hhi : x < 32768 * 2 ^ 138) :
    -32768 ≤ x.tdiv (2 ^ 138) ∧ x.tdiv (2 ^ 138) ≤ 32767 := by
  rcases le_total 0 x with hpos | hneg
  · rw [Int.tdiv_eq_ediv_of_nonneg hpos]; omega
  · rw [← neg_neg x, Int.neg_tdiv, Int.tdiv_eq_ediv_of_nonneg (neg_nonneg.mpr hneg)]; omega

/-- R142: a finite lane whose product by 2048 lies strictly between -32769 and 32768 is truncated toward zero. -/
theorem toRawLane_truncates (site : Site) {v : F32} (hfinite : f32IsFinite v = true)
    (hlo : -32769 * 2 ^ 138 < fpValue 23 v) (hhi : fpValue 23 v < 32768 * 2 ^ 138) :
    (toRawLane site v).toInt = (fpValue 23 v).tdiv (2 ^ 138) := by
  obtain ⟨hres, hvalue⟩ := f32Mul_scScale_exact site hfinite (by omega)
  have htrunc : f32Trunc (f32Mul site v Config.scScale) = (fpValue 23 v).tdiv (2 ^ 138) := by
    rw [f32Trunc, fpTrunc_eq_tdiv, hvalue, show fpOne 32 23 = 138 + 11 from rfl, pow_add]
    exact Int.mul_tdiv_mul_of_pos_left _ _ (by decide)
  obtain ⟨hle, hge⟩ := tdiv_fits_s16 hlo hhi
  rw [toRawLane, convS16_toInt site hres (htrunc ▸ hle) (htrunc ▸ hge), htrunc]

/-- R143, one lane: the value is an integer times 1/2048, and truncation leaves an integer alone. -/
theorem toRawLane_toFloatLane (site site' : Site) (v : BitVec 16) : toRawLane site' (toFloatLane site v) = v := by
  obtain ⟨hfinite, hvalue⟩ := toFloatLane_exact site v
  have := v.toInt_lt
  have := v.le_toInt
  refine BitVec.eq_of_toInt_eq ?_
  rw [toRawLane_truncates site' hfinite (by omega) (by omega), hvalue]
  exact Int.mul_tdiv_cancel _ (by decide)

theorem toRawSample_toFloatSample (site site' : Site) (r : RawSample) :
    toRawSample site' (toFloatSample site r) = r := by
  simp only [toRawSample, toFloatSample, toRawLane_toFloatLane]

/-! ## The commands -/

/-- The complex samples SC.TOFLOAT answers in state `s` (R141). -/
def toFloatSamples (s : State) (raw : List RawSample) : List CSample :=
  raw.mapIdx fun k r => toFloatSample [k, s.draws] r

/-- The raw samples SC.TORAW answers in state `s` (R142). -/
def toRawSamples (s : State) (xs : List CSample) : List RawSample :=
  xs.mapIdx fun k c => toRawSample [k, s.draws] c

theorem exec_scTofloat (raw : List RawSample) (s : State) :
    exec (.scTofloat raw) s = .next (s.completedWith ((toFloatSamples s raw).flatMap complexWords)) := rfl

theorem exec_scToraw (xs : List CSample) (s : State) :
    exec (.scToraw xs) s = .next (s.completedWith ((toRawSamples s xs).map rawWord)) := rfl

/-- Elementwise (R140): what every element and its image satisfy holds along the whole list. -/
theorem forall₂_mapIdx {α β : Type} {R : α → β → Prop} {g : Nat → α → β} (h : ∀ k a, R a (g k a)) (l : List α) :
    List.Forall₂ R l (l.mapIdx g) := by
  refine List.forall₂_iff_get.mpr ⟨List.length_mapIdx.symm, fun i _ _ => ?_⟩
  simpa using h i _

theorem toRawSamples_toFloatSamples (s u : State) (raw : List RawSample) :
    toRawSamples u (toFloatSamples s raw) = raw := by
  refine List.ext_getElem (by simp [toRawSamples, toFloatSamples]) fun k _ _ => ?_
  simp [toRawSamples, toFloatSamples, toRawSample_toFloatSample]

/-! ## The obligations -/

/-- Settles O15: by `toFloatLane_exact` in both lanes of every sample. -/
theorem toFloatIsExact : Obligations.ToFloatIsExact := by
  intro raw s
  refine ⟨toFloatSamples s raw, exec_scTofloat raw s, forall₂_mapIdx (fun k r => ?_) raw⟩
  have hlane (site : Site) (v : BitVec 16) : f32IsFinite (toFloatLane site v) = true ∧
      fpValue 23 (toFloatLane site v) = v.toInt * 2 ^ 138 ∧ (v = 0 → toFloatLane site v = 0) := by
    obtain ⟨hfinite, hvalue⟩ := toFloatLane_exact site v
    exact ⟨hfinite, hvalue, fun hzero => hzero ▸ toFloatLane_zero site⟩
  exact List.forall_mem_cons.mpr ⟨hlane _ r.i, List.forall_mem_singleton.mpr (hlane _ r.q)⟩

/-- Settles O16: by `toRawLane_truncates` in both lanes of every sample. -/
theorem toRawTruncates : Obligations.ToRawTruncates := by
  intro xs s
  refine ⟨toRawSamples s xs, exec_scToraw xs s, forall₂_mapIdx (fun k c => ?_) xs⟩
  exact List.forall_mem_cons.mpr ⟨toRawLane_truncates _, List.forall_mem_singleton.mpr (toRawLane_truncates _)⟩

/-- Settles O17: by `toRawSamples_toFloatSamples`, whatever the two states. -/
theorem rawRoundTrip : Obligations.RawRoundTrip := by
  intro raw s u
  refine ⟨toFloatSamples s raw, _, _, by simp [toFloatSamples], exec_scTofloat raw s, rfl, exec_scToraw _ u, ?_⟩
  rw [toRawSamples_toFloatSamples]
  rfl

end Sys2Proof.Machine

namespace Sys2Proof.Machine

/-! # The FIR commands but for the cascade (O14, O18 to O21, O23)

Each command is a check, then `raise` or `done`; so each fact below is a fact about one check, or about the list of
stages the command leaves. -/

/-! ## Ending a command -/

theorem raise_eq (s : State) (r : Raised) : raise s r = .next (s.failedWith (statusCode r.code) r.info) := rfl

theorem done_eq (s : State) (ws : List Word) : done s ws = .next (s.completedWith ws) := rfl

/-- Settles O14: no DEINIT looks at the state, and each drops its unit's valid bit. -/
theorem deinitAlwaysSucceeds : Obligations.DeinitAlwaysSucceeds := fun s =>
  ⟨⟨{ Config.unspecifiedFir [s.draws] with valid := false }, rfl, rfl⟩,
   ⟨{ Config.unspecifiedBfc [s.draws] with valid := false }, rfl, rfl⟩,
   ⟨{ Config.unspecifiedBsm [s.draws] with valid := false }, rfl, rfl⟩⟩

/-! ## Readiness (R343) -/

section

variable {s : State}

theorem firNotReady_of_valid (h : s.fir.valid = true) : firNotReady s = none := by simp [firNotReady, h]

theorem firNotReady_of_invalid (h : s.fir.valid = false) : firNotReady s = some (raisedAs .notReady 1) := by
  simp [firNotReady, h]

theorem exec_firReset_of_invalid (h : s.fir.valid = false) : exec .firReset s = .next (s.failedWith 12 1) :=
  exec_of_notReady (i := .firReset) (firNotReady_of_invalid h)

theorem exec_firTotdec_of_invalid (h : s.fir.valid = false) : exec .firTotdec s = .next (s.failedWith 12 1) :=
  exec_of_notReady (i := .firTotdec) (firNotReady_of_invalid h)

/-! ## FIR.RESET (R152) and FIR.TOTDEC (R153) -/

theorem exec_firReset_of_valid (h : s.fir.valid = true) :
    exec .firReset s =
      .next (State.completedWith { s with fir := { s.fir with stages := s.fir.stages.map resetStage } } []) := by
  simp only [exec, execFirReset, firNotReady_of_valid h, done_eq]

theorem exec_firTotdec_of_valid (h : s.fir.valid = true) :
    exec .firTotdec s = .next (s.completedWith [BitVec.ofNat 32 (min (totalDecimation s.fir.stages) (2 ^ 32 - 1))]) := by
  simp only [exec, execFirTotdec, firNotReady_of_valid h, done_eq]

/-- The filter after a FIR.RESET, with a filter or without. -/
theorem fir_of_exec_firReset {t : State} (h : exec .firReset s = .next t) :
    t.fir = if s.fir.valid then { s.fir with stages := s.fir.stages.map resetStage } else s.fir := by
  cases hv : s.fir.valid with
  | false => rw [exec_firReset_of_invalid hv] at h; cases h; rfl
  | true => rw [exec_firReset_of_valid hv] at h; cases h; simp [hv, State.completedWith]

theorem resetStage_resetStage (st : Stage) : resetStage (resetStage st) = resetStage st := by simp [resetStage]

end

/-- Settles O20: the reset of a stage is idempotent, stage by stage. -/
theorem firResetZeroesState : Obligations.FirResetZeroesState := by
  refine ⟨by decide, fun s => ⟨exec_firReset_of_invalid, exec_firReset_of_valid, fun t u ht hu => ?_⟩⟩
  rw [fir_of_exec_firReset hu, fir_of_exec_firReset ht]
  cases hv : s.fir.valid <;> simp [hv, Function.comp_def, resetStage_resetStage]

/-- Settles O21. -/
theorem firTotdecIsProduct : Obligations.FirTotdecIsProduct :=
  ⟨by decide, fun _ => ⟨exec_firTotdec_of_invalid, exec_firTotdec_of_valid⟩⟩

/-! ## The checks of FIR.PROC (R155) -/

section

variable {s : State} {outCap : BitVec 32} {xs : List CSample}

theorem exec_firProc_of_error {r : Raised} (hv : s.fir.valid = true)
    (he : firProcError s.fir xs.length outCap.toNat = some r) :
    exec (.firProc outCap xs) s = .next (s.failedWith (statusCode r.code) r.info) := by
  simp only [exec, execFirProc, firNotReady_of_valid hv, he, raise_eq]

/-- The state after a FIR.PROC that R155 lets pass: the stages and the samples of the cascade (R154). -/
def State.afterFirProc (s : State) (xs : List CSample) : State :=
  State.completedWith { s with fir := { s.fir with stages := (cascade [s.draws] 0 s.fir.stages xs).1 } }
    (countWord (cascade [s.draws] 0 s.fir.stages xs).2.length ::
      (cascade [s.draws] 0 s.fir.stages xs).2.flatMap complexWords)

/-- A call within the bounds of R155 runs the cascade. -/
theorem exec_firProc_of_fits (hv : s.fir.valid = true) (hcount : xs.length ≤ s.fir.maxInput.toNat)
    (hcap : ceilDiv xs.length (totalDecimation s.fir.stages) ≤ outCap.toNat) :
    exec (.firProc outCap xs) s = .next (s.afterFirProc xs) := by
  have he : firProcError s.fir xs.length outCap.toNat = none := by
    rw [firProcError, if_neg (by omega), if_neg (by omega)]
  simp only [exec, execFirProc, firNotReady_of_valid hv, he, done_eq, State.afterFirProc]

end

/-- Settles O23: the count is looked at before the room for the outputs. -/
theorem firProcChecksBuffers : Obligations.FirProcChecksBuffers := by
  refine fun outCap xs s hv => ⟨fun hcount => ?_, fun hcount hcap => ?_⟩
  · exact exec_firProc_of_error (r := raisedAs .bufferTooSmall 1) hv (if_pos hcount)
  · exact exec_firProc_of_error (r := raisedAs .bufferTooSmall 2) hv
      ((if_neg (Nat.not_lt.mpr hcount)).trans (if_pos hcap))

/-! ## FIR.INIT: what its checks answer (R151, R342) -/

/-- Well-formed stages are passed over, the index of the stage under test counted on. -/
theorem stageConfigError_append {pre : List StageSpec} (rest : List StageSpec) (i : Nat) (h : ∀ sp ∈ pre, LegalStage sp) :
    stageConfigError i (pre ++ rest) = stageConfigError (i + pre.length) rest := by
  induction pre generalizing i with
  | nil => rfl
  | cons sp pre ih =>
    obtain ⟨⟨htaps, hpos, hlt⟩, hpre⟩ := List.forall_mem_cons.mp h
    rw [List.cons_append, stageConfigError, if_neg (by omega), if_neg (by omega), ih _ hpre, List.length_cons]
    congr 1
    omega

theorem stageConfigError_of_legal {specs : List StageSpec} (i : Nat) (h : ∀ sp ∈ specs, LegalStage sp) :
    stageConfigError i specs = none := by
  simpa [stageConfigError] using stageConfigError_append [] i h

/-- Stages with no more than T_MAX taps are passed over. -/
theorem stageTapError_append {tMax : Nat} {pre : List StageSpec} (rest : List StageSpec) (i : Nat)
    (h : ∀ sp ∈ pre, sp.taps.length ≤ tMax) :
    stageTapError tMax i (pre ++ rest) = stageTapError tMax (i + pre.length) rest := by
  induction pre generalizing i with
  | nil => rfl
  | cons sp pre ih =>
    obtain ⟨hsp, hpre⟩ := List.forall_mem_cons.mp h
    rw [List.cons_append, stageTapError, if_neg (by omega), ih _ hpre, List.length_cons]
    congr 1
    omega

theorem stageTapError_of_le {tMax : Nat} {specs : List StageSpec} (i : Nat) (h : ∀ sp ∈ specs, sp.taps.length ≤ tMax) :
    stageTapError tMax i specs = none := by
  simpa [stageTapError] using stageTapError_append [] i h

/-- The cells of a filter, stage by stage, each output buffer behind the stages up to and with its own (R151). -/
theorem firCells_eq_sum (m c : Nat) (specs : List StageSpec) :
    firCells m c specs = ((List.range specs.length).map fun i => 2 * (specs.getD i default).taps.length +
      ceilDiv m (c * ((specs.take (i + 1)).map fun sp => sp.decimation.toNat).prod)).sum := by
  induction specs generalizing c with
  | nil => rfl
  | cons sp rest ih =>
    rw [firCells, ih, List.length_cons, List.range_succ_eq_map]
    simp [Function.comp_def, Nat.mul_assoc]

section

variable {p : Params} {m : Nat} {specs : List StageSpec}

/-- The checks FIR.INIT makes once every stage is well-formed. -/
theorem firInitError_of_legal (hne : specs ≠ []) (h : ∀ sp ∈ specs, LegalStage sp) :
    firInitError p m specs =
      if p.sMax < specs.length then some (raisedAs .allocationError 1)
      else (stageTapError p.tMax 0 specs).or
        (if p.firMemMax < firCells m 1 specs then some (raisedAs .allocationError 3) else none) := by
  rw [firInitError, if_neg (mt List.eq_nil_of_length_eq_zero hne), stageConfigError_of_legal 0 h]
  cases stageTapError p.tMax 0 specs <;> rfl

theorem firInitError_of_stage {r : Raised} (h : stageConfigError 0 specs = some r) : firInitError p m specs = some r := by
  cases specs with
  | nil => cases h
  | cons sp rest => rw [firInitError, if_neg (by simp), h]

end

/-- The index of a stage fits its field of the info word (R332). -/
theorem infoWord_of_lt {cause i : Nat} (hc : cause < 256) (hi : i < 2 ^ 16) :
    infoWord cause i = BitVec.ofNat 32 (cause + 256 * i) := by
  rw [infoWord, Nat.mod_eq_of_lt hc, Nat.mod_eq_of_lt (show i < 65536 from hi)]

/-- A FIR.INIT that fails a check leaves no filter. -/
theorem exec_firInit_of_error {s : State} {maxInput : BitVec 32} {specs : List StageSpec} {r : Raised}
    (h : firInitError s.params maxInput.toNat specs = some r) :
    ∃ f : Fir, f.valid = false ∧ exec (.firInit maxInput specs) s =
      .next (State.failedWith { s with fir := f } (statusCode r.code) r.info) :=
  ⟨{ Config.unspecifiedFir [s.draws] with valid := false }, rfl, by simp only [exec, execFirInit, h, raise_eq]⟩

/-- Settles O19: each clause names the check that answers, the checks before it passed. -/
theorem firInitReportsFirstFault : Obligations.FirInitReportsFirstFault := by
  intro maxInput s fails legal
  refine ⟨exec_firInit_of_error (r := raisedAs .configError 1) rfl, ?_, ?_⟩
  · intro pre bad post hlen hpre
    have hconfig := stageConfigError_append (bad :: post) 0 hpre
    rw [Nat.zero_add] at hconfig
    refine ⟨fun htaps => ?_, fun htaps hdecim => ?_, fun hbad hpost hcount hfit hwide => ?_⟩
    · rw [← infoWord_of_lt (by decide) hlen]
      refine exec_firInit_of_error (r := ⟨.configError, infoWord 2 pre.length⟩) (firInitError_of_stage ?_)
      rw [hconfig, stageConfigError, if_pos (by rw [htaps]; rfl)]
    · rw [← infoWord_of_lt (by decide) hlen]
      refine exec_firInit_of_error (r := ⟨.configError, infoWord 3 pre.length⟩) (firInitError_of_stage ?_)
      rw [hconfig, stageConfigError, if_neg (mt List.eq_nil_of_length_eq_zero htaps), if_pos hdecim]
    · rw [← infoWord_of_lt (by decide) hlen]
      refine exec_firInit_of_error (r := ⟨.allocationError, infoWord 2 pre.length⟩) ?_
      have hall : ∀ sp ∈ pre ++ bad :: post, LegalStage sp :=
        List.forall_mem_append.mpr ⟨hpre, List.forall_mem_cons.mpr ⟨hbad, hpost⟩⟩
      rw [firInitError_of_legal (by simp) hall, if_neg (Nat.not_lt.mpr hcount), stageTapError_append _ 0 hfit,
        stageTapError, if_pos hwide, Nat.zero_add, Option.some_or]
  · intro specs hne hall
    refine ⟨fun hcount => ?_, fun hcount hfit hcells => ?_⟩
    · refine exec_firInit_of_error (r := raisedAs .allocationError 1) ?_
      rw [firInitError_of_legal hne hall, if_pos hcount]
    · refine exec_firInit_of_error (r := raisedAs .allocationError 3) ?_
      rw [firInitError_of_legal hne hall, if_neg (Nat.not_lt.mpr hcount), stageTapError_of_le 0 hfit]
      exact if_pos (by simpa [firCells_eq_sum] using hcells)

/-! ## FIR.INIT: the stages it builds (R151, R23) -/

/-- Stage `i` is fresh behind the stages before it. -/
theorem freshStages_getElem? (m c : Nat) (specs : List StageSpec) (i : Nat) :
    (freshStages m c specs)[i]? =
      specs[i]?.map (freshStage m (c * ((specs.take i).map fun sp => sp.decimation.toNat).prod)) := by
  induction specs generalizing c i with
  | nil => rfl
  | cons sp rest ih =>
    cases i with
    | zero => simp [freshStages]
    | succ i => simp [freshStages, ih, Nat.mul_assoc]

/-- The decimation up to and with stage `i`. -/
theorem prod_take_succ {specs : List StageSpec} {i : Nat} {sp : StageSpec} (h : specs[i]? = some sp) :
    ((specs.take (i + 1)).map fun q => q.decimation.toNat).prod =
      ((specs.take i).map fun q => q.decimation.toNat).prod * sp.decimation.toNat := by
  simp [List.take_add_one, h]

/-- Settles O18: every check passes, and each stage is the fresh one of its descriptor. -/
theorem firInitBuildsFilter : Obligations.FirInitBuildsFilter := by
  intro maxInput specs s hne hcount hspecs hcells
  have hok : firInitError s.params maxInput.toNat specs = none := by
    rw [firInitError_of_legal hne fun sp hsp => ?legal, if_neg (Nat.not_lt.mpr hcount),
      stageTapError_of_le 0 fun sp hsp => ?taps]
    case legal => obtain ⟨htaps, -, hpos, hlt⟩ := hspecs sp hsp; exact ⟨htaps, hpos, hlt⟩
    case taps => obtain ⟨-, hle, -⟩ := hspecs sp hsp; exact hle
    exact if_neg (by simpa [firCells_eq_sum] using hcells)
  refine ⟨freshStages maxInput.toNat 1 specs, by simp only [exec, execFirInit, hok, done_eq], freshStages_length _ _ _, ?_⟩
  intro i sp st hsp hst
  rw [freshStages_getElem?, hsp, Option.map_some, Option.some.injEq] at hst
  rw [← hst, prod_take_succ hsp, freshStage, Nat.one_mul]

end Sys2Proof.Machine

namespace Sys2Proof.Machine

/-! # What a stage does with its inputs (O24)

A stage over a list of inputs is described by four things that do not speak of its buffers: its counter, its delay line,
the samples it emits, and (for room alone) how many of them. -/

/-! ## What one sample leaves in each register (R156) -/

theorem stageStep_hist (site : Site) (st : Stage) (x : CSample) : (stageStep site st x).hist = (histInsert st x).hist := by
  rcases stageStep_cases site st x with ⟨-, y, h⟩ | ⟨-, h⟩ <;> rw [h] <;> rfl

theorem stageStep_wp (site : Site) (st : Stage) (x : CSample) : (stageStep site st x).wp = (advancePointer st).wp := by
  rcases stageStep_cases site st x with ⟨-, y, h⟩ | ⟨-, h⟩ <;> rw [h] <;> rfl

theorem stageStep_cnt (site : Site) (st : Stage) (x : CSample) :
    (stageStep site st x).cnt = if st.cnt ≤ 1 then st.decim.toNat else st.cnt - 1 := by
  rcases stageStep_cases site st x with ⟨hcnt, y, h⟩ | ⟨hcnt, h⟩
  · rw [h, if_pos hcnt]; rfl
  · rw [h, if_neg (by omega)]; rfl

theorem stageStep_ocount (site : Site) (st : Stage) (x : CSample) :
    (stageStep site st x).ocount = if st.cnt ≤ 1 then st.ocount + 1 else st.ocount := by
  rcases stageStep_cases site st x with ⟨hcnt, y, h⟩ | ⟨hcnt, h⟩
  · rw [h, if_pos hcnt]; rfl
  · rw [h, if_neg (by omega)]; rfl

/-! ## Runs -/

theorem stageRun_append (site : Site) (k : Nat) (st : Stage) (xs ys : List CSample) :
    stageRun site k st (xs ++ ys) = stageRun site (k + xs.length) (stageRun site k st xs) ys := by
  induction xs generalizing k st with
  | nil => rfl
  | cons x xs ih => simp only [List.cons_append, stageRun, ih, List.length_cons, Nat.add_assoc, Nat.add_comm 1]

@[simp] theorem stageRun_decim (site : Site) (k : Nat) (st : Stage) (xs : List CSample) :
    (stageRun site k st xs).decim = st.decim := by
  induction xs generalizing k st with
  | nil => rfl
  | cons x xs ih => rw [stageRun, ih, stageStep_decim]

@[simp] theorem stageRun_taps (site : Site) (k : Nat) (st : Stage) (xs : List CSample) :
    (stageRun site k st xs).taps = st.taps := by
  induction xs generalizing k st with
  | nil => rfl
  | cons x xs ih => rw [stageRun, ih, stageStep_taps]

@[simp] theorem stageProc_decim (site : Site) (st : Stage) (xs : List CSample) : (stageProc site st xs).decim = st.decim :=
  stageRun_decim site 0 _ xs

@[simp] theorem stageProc_taps (site : Site) (st : Stage) (xs : List CSample) : (stageProc site st xs).taps = st.taps :=
  stageRun_taps site 0 _ xs

/-! ## The counter and the number of outputs (R159) -/

/-- The decimation counter is in its range (R27). -/
structure Stage.CounterInv (st : Stage) : Prop where
  cnt_pos : 0 < st.cnt
  cnt_le : st.cnt ≤ st.decim.toNat

theorem Stage.Inv.counter {cap : Nat} {st : Stage} (h : st.Inv cap) : st.CounterInv := ⟨h.cnt_pos, h.cnt_le⟩

/-- A sample keeps the counter in its range, and takes one input off what is still to come. -/
theorem stageStep_counter (site : Site) {st : Stage} (x : CSample) (h : st.CounterInv) (m : Nat) :
    (stageStep site st x).CounterInv ∧ counterAfter (stageStep site st x) m = counterAfter st (m + 1) ∧
      outputsAfter (stageStep site st x) m = outputsAfter st (m + 1) := by
  obtain ⟨hpos, hle⟩ := h
  have hdecim : 0 < st.decim.toNat := by omega
  by_cases hcnt : st.cnt ≤ 1
  · have htotal : m + 1 + st.decim.toNat - st.cnt = m + st.decim.toNat := by omega
    refine ⟨⟨?_, ?_⟩, ?_, ?_⟩
    · rw [stageStep_cnt, if_pos hcnt]; exact hdecim
    · rw [stageStep_cnt, if_pos hcnt, stageStep_decim]
    · rw [counterAfter, counterAfter, stageStep_cnt, if_pos hcnt, stageStep_decim, htotal, Nat.add_sub_cancel,
        Nat.add_mod_right]
    · rw [outputsAfter, outputsAfter, stageStep_cnt, if_pos hcnt, stageStep_ocount, if_pos hcnt, stageStep_decim, htotal,
        Nat.add_sub_cancel, Nat.add_div_right _ hdecim]
      omega
  · have htotal : m + st.decim.toNat - (st.cnt - 1) = m + 1 + st.decim.toNat - st.cnt := by omega
    refine ⟨⟨?_, ?_⟩, ?_, ?_⟩
    · rw [stageStep_cnt, if_neg hcnt]; omega
    · rw [stageStep_cnt, if_neg hcnt, stageStep_decim]; omega
    · rw [counterAfter, counterAfter, stageStep_cnt, if_neg hcnt, stageStep_decim, htotal]
    · rw [outputsAfter, outputsAfter, stageStep_cnt, if_neg hcnt, stageStep_ocount, if_neg hcnt, stageStep_decim, htotal]

/-- R159 for any stretch of inputs. -/
theorem stageRun_counter (site : Site) (k : Nat) {st : Stage} (xs : List CSample) (h : st.CounterInv) :
    (stageRun site k st xs).cnt = counterAfter st xs.length ∧
      (stageRun site k st xs).ocount = outputsAfter st xs.length := by
  induction xs generalizing k st with
  | nil =>
    obtain ⟨hpos, hle⟩ := h
    have hlt : 0 + st.decim.toNat - st.cnt < st.decim.toNat := by omega
    constructor
    · rw [stageRun, List.length_nil, counterAfter, Nat.mod_eq_of_lt hlt]; omega
    · rw [stageRun, List.length_nil, outputsAfter, Nat.div_eq_of_lt hlt, Nat.add_zero]
  | cons x xs ih =>
    obtain ⟨hstep, hcnt, hout⟩ := stageStep_counter (k :: site) x h xs.length
    obtain ⟨hcnt', hout'⟩ := ih (k + 1) hstep
    exact ⟨hcnt'.trans hcnt, hout'.trans hout⟩

theorem stageProc_counter (site : Site) {st : Stage} (xs : List CSample) (h : st.CounterInv) :
    (stageProc site st xs).cnt = counterAfter st xs.length ∧
      (stageProc site st xs).ocount = (xs.length + st.decim.toNat - st.cnt) / st.decim.toNat := by
  obtain ⟨hcnt, hout⟩ := stageRun_counter site 0 (st := { st with ocount := 0 }) xs ⟨h.cnt_pos, h.cnt_le⟩
  exact ⟨hcnt, hout.trans (Nat.zero_add _)⟩

theorem ceilDiv_mono {n m : Nat} (d : Nat) (h : n ≤ m) : ceilDiv n d ≤ ceilDiv m d := Nat.div_le_div_right (by omega)

/-- Rounding up twice is rounding up once (R159). -/
theorem ceilDiv_ceilDiv (m : Nat) {a b : Nat} (ha : 0 < a) (hb : 0 < b) : ceilDiv (ceilDiv m a) b = ceilDiv m (a * b) := by
  refine Nat.le_antisymm (ceilDiv_ceilDiv_le m ha hb) ?_
  rw [ceilDiv_le_iff (Nat.mul_pos ha hb), Nat.mul_assoc, ← ceilDiv_le_iff ha, ← ceilDiv_le_iff hb]

/-- Settles O24: `stageProc_counter`, read at a full counter, at a counter of 1, and as a bound. -/
theorem stageOutputCount : Obligations.StageOutputCount := by
  refine ⟨fun site st xs hpos hle => ?_, fun m a b => ceilDiv_ceilDiv m⟩
  obtain ⟨hcnt, hout⟩ := stageProc_counter site xs ⟨hpos, hle⟩
  refine ⟨hout, hcnt, fun hfull => ?_, fun hone => ?_, ?_⟩
  · rw [hout, hfull, Nat.add_sub_cancel]
  · rw [hout, hone, ceilDiv]
  · rw [hout, ceilDiv]
    exact Nat.div_le_div_right (by omega)

end Sys2Proof.Machine

namespace Sys2Proof.Machine

/-! # FIR.PROC is the cascade's convolution (O22, O26)

Two facts of one stage, kept apart: its output buffer holds the samples it emits (which needs room, R155), and the samples
it emits are the dot products of the taps with its delay line (which needs the delay line alone). -/

/-! ## The samples a stage emits (R154, R156) -/

/-- What a stage emits at one sample: the dot product, when the counter runs out. -/
def emitted (site : Site) (st : Stage) (x : CSample) : List CSample :=
  if st.cnt - 1 = 0 then [conv site (histInsert st x) st.wp] else []

/-- What a stage emits over its input samples from index `k` on. -/
def stageEmits (site : Site) (k : Nat) (st : Stage) : List CSample → List CSample
  | [] => []
  | x :: rest => emitted (k :: site) st x ++ stageEmits site (k + 1) (stageStep (k :: site) st x) rest

theorem stageEmits_append (site : Site) (k : Nat) (st : Stage) (xs ys : List CSample) :
    stageEmits site k st (xs ++ ys) =
      stageEmits site k st xs ++ stageEmits site (k + xs.length) (stageRun site k st xs) ys := by
  induction xs generalizing k st with
  | nil => rfl
  | cons x xs ih =>
    simp only [List.cons_append, stageEmits, stageRun, ih, List.append_assoc, List.length_cons, Nat.add_assoc, Nat.add_comm 1]

/-- The output buffer takes the emitted sample at its end, where there is room (R28). -/
theorem stageOutput_stageStep (site : Site) {st : Stage} (x : CSample) (hroom : st.cnt ≤ 1 → st.ocount < st.obuf.length) :
    stageOutput (stageStep site st x) = stageOutput st ++ emitted site st x := by
  by_cases hcnt : st.cnt - 1 = 0
  · have hlt := hroom (by omega)
    simp only [stageStep, emitted, if_pos hcnt, stageOutput, advancePointer_obuf, advancePointer_ocount, obufAppend_obuf,
      obufAppend_ocount, histInsert_obuf, histInsert_ocount]
    rw [List.take_add_one, List.take_set_of_le (Nat.le_refl _), List.getElem?_set_self hlt, Option.toList_some]
  · simp [stageStep, emitted, if_neg hcnt, stageOutput]

/-- The output buffer after some inputs: what it held, then what was emitted. -/
theorem stageOutput_stageRun {cap : Nat} (site : Site) (k : Nat) {st : Stage} (xs : List CSample) (h : st.Inv cap)
    (hroom : outputsAfter st xs.length ≤ cap) :
    stageOutput (stageRun site k st xs) = stageOutput st ++ stageEmits site k st xs := by
  induction xs generalizing k st with
  | nil => simp [stageRun, stageEmits]
  | cons x xs ih =>
    obtain ⟨hinv, hcount⟩ := stageStep_inv (k :: site) x h hroom
    have hspace : st.cnt ≤ 1 → st.ocount < st.obuf.length := fun hcnt => by
      have hpos : 0 < (xs.length + 1 + st.decim.toNat - st.cnt) / st.decim.toNat :=
        Nat.div_pos (by omega) h.decim_pos
      rw [List.length_cons, outputsAfter] at hroom
      rw [h.obuf_length]
      omega
    rw [stageRun, stageEmits, ih (k + 1) hinv (hcount.trans_le hroom), stageOutput_stageStep _ x hspace, List.append_assoc]

/-- A stage at the start of a FIR.PROC: no output yet (R154). -/
def Stage.restart (st : Stage) : Stage := { st with ocount := 0 }

/-- What a stage hands on, when its buffer has room for it (R154, R159). -/
theorem stageOutput_stageProc {cap : Nat} (site : Site) {st : Stage} (xs : List CSample) (h : st.Inv cap)
    (hroom : ceilDiv xs.length st.decim.toNat ≤ cap) :
    stageOutput (stageProc site st xs) = stageEmits site 0 st.restart xs := by
  have hle : outputsAfter st.restart xs.length ≤ cap := by
    refine Nat.le_trans ?_ hroom
    have hpos := h.cnt_pos
    calc
      outputsAfter st.restart xs.length = (xs.length + st.decim.toNat - st.cnt) / st.decim.toNat := Nat.zero_add _
      _ ≤ ceilDiv xs.length st.decim.toNat := Nat.div_le_div_right (by omega)
  exact stageOutput_stageRun site 0 xs h.restart hle

/-! ## The delay line (R25, R29) -/

/-- The doubled history holds two equal copies and the pointer stands in the first (R25, R26). -/
structure Stage.LineInv (st : Stage) : Prop where
  hist_length : st.hist.length = 2 * st.taps.length
  mirrored : ∀ j < st.taps.length, st.hist.getD j CSample.zero = st.hist.getD (j + st.taps.length) CSample.zero
  wp_lt : st.wp < st.taps.length

theorem Stage.Inv.line {cap : Nat} {st : Stage} (h : st.Inv cap) : st.LineInv := ⟨h.hist_length, h.mirrored, h.wp_lt⟩

theorem histInsert_line {st : Stage} (x : CSample) (h : st.LineInv) : (histInsert st x).LineInv :=
  ⟨(histInsert_hist_length st x).trans h.hist_length, histInsert_mirrored x h.hist_length h.wp_lt h.mirrored, h.wp_lt⟩

/-- The pointer wraps at the end of the first copy (R156). -/
theorem advancePointer_wp_eq (st : Stage) :
    (advancePointer st).wp = if st.wp + 1 = st.taps.length then 0 else st.wp + 1 :=
  (advancePointer_wp st).trans (if_congr (by rw [stageTaps]; omega) rfl rfl)

theorem advancePointer_line {st : Stage} (h : st.LineInv) : (advancePointer st).LineInv where
  hist_length := h.hist_length
  mirrored := h.mirrored
  wp_lt := by
    have hwp := h.wp_lt
    rw [advancePointer_wp_eq, advancePointer_taps]
    split_ifs <;> omega

theorem stageStep_line (site : Site) {st : Stage} (x : CSample) (h : st.LineInv) : (stageStep site st x).LineInv := by
  obtain ⟨hlen, hmirror, hwp⟩ := advancePointer_line (histInsert_line x h)
  constructor
  · rw [stageStep_hist, stageStep_taps]; exact hlen
  · rw [stageStep_hist, stageStep_taps]; exact hmirror
  · rw [stageStep_wp, stageStep_taps]; exact hwp

/-- Because the copies are equal, the delay line lies below the pointer's second copy without wrapping (R29). -/
theorem delayLine_eq {st : Stage} (h : st.LineInv) :
    delayLine st = (List.range st.taps.length).map fun k => st.hist.getD (st.wp + st.taps.length - 1 - k) CSample.zero := by
  refine List.map_congr_left fun k hk => ?_
  have hkt : k < st.taps.length := List.mem_range.mp hk
  have hwp := h.wp_lt
  rw [stageTaps]
  by_cases hlow : k < st.wp
  · have hmod : (st.wp + (2 * st.taps.length - 1 - k)) % st.taps.length = st.wp - 1 - k := by
      rw [show st.wp + (2 * st.taps.length - 1 - k) = st.wp - 1 - k + 2 * st.taps.length by omega, Nat.add_mul_mod_self_right,
        Nat.mod_eq_of_lt (by omega)]
    rw [hmod]
    congr 1
    omega
  · have hmod : (st.wp + (2 * st.taps.length - 1 - k)) % st.taps.length = st.wp + st.taps.length - 1 - k := by
      rw [show st.wp + (2 * st.taps.length - 1 - k) = st.wp + st.taps.length - 1 - k + st.taps.length by omega,
        Nat.add_mod_right, Nat.mod_eq_of_lt (by omega)]
    rw [hmod]
    exact (h.mirrored _ (by omega)).symm

/-- Advancing the pointer makes the window just used the delay line (R29, R156). -/
theorem delayLine_advancePointer {st : Stage} (h : st.LineInv) :
    delayLine (advancePointer st) = convWindow st st.wp := by
  rw [delayLine_eq (advancePointer_line h), convWindow]
  refine List.map_congr_left fun k hk => ?_
  have hkt : k < st.taps.length := List.mem_range.mp hk
  have hwp := h.wp_lt
  rw [advancePointer_hist, advancePointer_taps, advancePointer_wp_eq, stageTaps]
  split_ifs with hwrap
  · rw [h.mirrored _ (by omega)]
    congr 1
    omega
  · congr 1
    omega

/-- The window just after an insert: the sample, then the delay line (R157). -/
theorem convWindow_histInsert {st : Stage} (x : CSample) (h : st.LineInv) :
    convWindow (histInsert st x) st.wp = (x :: delayLine st).take st.taps.length := by
  have hwp := h.wp_lt
  have hlen := h.hist_length
  refine List.ext_getElem (by simp [convWindow, stageTaps]) fun k hk _ => ?_
  have hkt : k < st.taps.length := by simpa [convWindow, stageTaps] using hk
  simp only [convWindow, stageTaps, histInsert_taps, histInsert_hist, List.getElem_map, List.getElem_range,
    List.getElem_take, delayLine_eq h]
  cases k with
  | zero => simp [hlen, show st.wp + st.taps.length < 2 * st.taps.length by omega]
  | succ k =>
    simp only [List.getElem_cons_succ, List.getElem_map, List.getElem_range, List.getD_eq_getElem?_getD]
    rw [List.getElem?_set_ne (by omega), List.getElem?_set_ne (by omega)]
    congr 2
    omega

/-- A sample enters the delay line in front, the oldest leaves (R29). -/
theorem delayLine_stageStep (site : Site) {st : Stage} (x : CSample) (h : st.LineInv) :
    delayLine (stageStep site st x) = (x :: delayLine st).take st.taps.length := by
  have hstep : delayLine (stageStep site st x) = delayLine (advancePointer (histInsert st x)) := by
    simp only [delayLine, stageTaps, stageStep_hist, stageStep_wp, stageStep_taps]
    rfl
  rw [hstep, delayLine_advancePointer (histInsert_line x h)]
  exact convWindow_histInsert x h

theorem take_append_take {α : Type} (n : Nat) (a b : List α) : (a ++ b.take n).take n = (a ++ b).take n := by
  simp [List.take_append, List.take_take]

/-- The delay line after some inputs holds the last samples, newest first (R29). -/
theorem delayLine_stageRun (site : Site) (k : Nat) {st : Stage} (xs : List CSample) (h : st.LineInv) :
    (stageRun site k st xs).LineInv ∧
      delayLine (stageRun site k st xs) = (xs.reverse ++ delayLine st).take st.taps.length := by
  induction xs generalizing k st with
  | nil => exact ⟨h, (List.take_of_length_le (by simp)).symm⟩
  | cons x xs ih =>
    obtain ⟨hline, heq⟩ := ih (k + 1) (stageStep_line (k :: site) x h)
    refine ⟨hline, ?_⟩
    rw [stageRun, heq, delayLine_stageStep _ x h, stageStep_taps, take_append_take, List.reverse_cons, List.append_assoc,
      List.singleton_append]

/-! ## The dot product (R157) -/

/-- The dot product of the taps with samples, newest first, lane by lane. -/
def dotProduct (site : Site) (taps : List F32) (window : List CSample) : CSample where
  re := convLane (0 :: site) (taps.zip (window.map CSample.re))
  im := convLane (1 :: site) (taps.zip (window.map CSample.im))

theorem conv_eq (site : Site) (st : Stage) (p : Nat) : conv site st p = dotProduct site st.taps (convWindow st p) := rfl

theorem directOutput_eq (site : Site) (st : Stage) (xs : List CSample) (n : Nat) :
    directOutput site st xs n = dotProduct (n :: site) st.taps (seenAt st xs n) := rfl

/-- No more samples count than there are taps. -/
theorem dotProduct_take (site : Site) (taps : List F32) (window : List CSample) :
    dotProduct site taps (window.take taps.length) = dotProduct site taps window := by
  have hzip (lane : List F32) : taps.zip (lane.take taps.length) = taps.zip lane := by
    conv_rhs => rw [List.zip_eq_zip_take_min]
    conv_lhs => rw [List.zip_eq_zip_take_min]
    simp [List.take_take]
  simp only [dotProduct, List.map_take, hzip]

/-- The emitted sample as a plain dot product with the delay line. -/
theorem emitted_eq (site : Site) {st : Stage} (x : CSample) (h : st.LineInv) :
    emitted site st x = if st.cnt ≤ 1 then [dotProduct site st.taps (x :: delayLine st)] else [] := by
  rw [emitted, conv_eq, convWindow_histInsert x h, histInsert_taps, dotProduct_take]
  simp only [Nat.sub_eq_zero_iff_le]

/-! ## One stage is a plain convolution of its input (R157, R159) -/

/-- A stage emits at input `n` exactly when its counter stands at 1 after `n` inputs (R159). -/
theorem emitsAt_iff {st : Stage} (h : st.CounterInv) (n : Nat) : emitsAt st n = true ↔ counterAfter st n ≤ 1 := by
  obtain ⟨hpos, hle⟩ := h
  have hlt : (n + st.decim.toNat - st.cnt) % st.decim.toNat < st.decim.toNat := Nat.mod_lt _ (by omega)
  rw [emitsAt, beq_iff_eq, counterAfter, show n + 1 + st.decim.toNat - st.cnt = n + st.decim.toNat - st.cnt + 1 by omega,
    ← Nat.mod_add_mod]
  by_cases hlast : (n + st.decim.toNat - st.cnt) % st.decim.toNat + 1 = st.decim.toNat
  · rw [hlast, Nat.mod_self]
    omega
  · rw [Nat.mod_eq_of_lt (by omega)]
    omega

/-- An input more adds the output at that input, if the stage emits there, and changes none before. -/
theorem directOutputs_append_singleton (site : Site) (st : Stage) (xs : List CSample) (x : CSample) :
    directOutputs site st (xs ++ [x]) = directOutputs site st xs ++
      if emitsAt st xs.length then [dotProduct (xs.length :: site) st.taps (x :: (xs.reverse ++ delayLine st))] else [] := by
  have hbefore : ∀ n ∈ (List.range xs.length).filter (emitsAt st),
      directOutput site st (xs ++ [x]) n = directOutput site st xs n := fun n hn => by
    have hlt : n < xs.length := List.mem_range.mp (List.mem_of_mem_filter hn)
    rw [directOutput_eq, directOutput_eq, seenAt, seenAt, List.take_append_of_le_length hlt]
  have hlast : directOutput site st (xs ++ [x]) xs.length =
      dotProduct (xs.length :: site) st.taps (x :: (xs.reverse ++ delayLine st)) := by
    rw [directOutput_eq, seenAt, List.take_of_length_le (by simp), List.reverse_append]
    rfl
  rw [directOutputs, List.length_append, List.length_singleton, List.range_succ, List.filter_append, List.map_append,
    List.map_congr_left hbefore, directOutputs, List.filter_singleton]
  cases emitsAt st xs.length with
  | false => rfl
  | true => rw [← hlast]; rfl

/-- The samples a stage emits are its plain convolution. -/
theorem stageEmits_eq_directOutputs (site : Site) {st : Stage} (xs : List CSample) (hcounter : st.CounterInv)
    (hline : st.LineInv) : stageEmits site 0 st xs = directOutputs site st xs := by
  induction xs using List.reverseRecOn with
  | nil => rfl
  | append_singleton xs x ih =>
    obtain ⟨hcnt, -⟩ := stageRun_counter site 0 xs hcounter
    obtain ⟨hline', hdelay⟩ := delayLine_stageRun site 0 xs hline
    have hwindow : dotProduct (xs.length :: site) st.taps (x :: (xs.reverse ++ delayLine st).take st.taps.length) =
        dotProduct (xs.length :: site) st.taps (x :: (xs.reverse ++ delayLine st)) := by
      rw [← dotProduct_take, ← dotProduct_take _ _ (x :: (xs.reverse ++ delayLine st))]
      exact congrArg _ (take_append_take _ [x] _)
    rw [stageEmits_append, directOutputs_append_singleton, ih, Nat.zero_add]
    simp only [stageEmits, List.append_nil, emitted_eq _ x hline', hcnt, hdelay, stageRun_taps, hwindow,
      emitsAt_iff hcounter]

/-- A stage of FIR.PROC with room for its outputs hands on its plain convolution. -/
theorem stageOutput_eq_directOutputs {cap : Nat} (site : Site) {st : Stage} (xs : List CSample) (h : st.Inv cap)
    (hroom : ceilDiv xs.length st.decim.toNat ≤ cap) :
    stageOutput (stageProc site st xs) = directOutputs site st xs :=
  (stageOutput_stageProc site xs h hroom).trans
    (stageEmits_eq_directOutputs site xs h.restart.counter h.restart.line)

/-! ## The cascade (R150, R154) -/

theorem stagesInv_mem {m c : Nat} {stages : List Stage} (h : StagesInv m c stages) {st : Stage} (hst : st ∈ stages) :
    ∃ cap, st.Inv cap := by
  induction stages generalizing c with
  | nil => cases hst
  | cons st' rest ih =>
    obtain ⟨hhead, hrest⟩ := h
    rcases List.mem_cons.mp hst with rfl | hmem
    · exact ⟨_, hhead⟩
    · exact ih hrest hmem

/-- A stage behind a decimation of `c` has room for what it makes of `ceil(m / c)` samples (R23, R155). -/
theorem stage_room {m c d n : Nat} (hc : 0 < c) (hd : 0 < d) (hn : n ≤ ceilDiv m c) : ceilDiv n d ≤ ceilDiv m (c * d) :=
  (ceilDiv_mono d hn).trans (ceilDiv_ceilDiv_le m hc hd)

/-- The cascade hands on the plain convolutions, and stage `j` has processed what the stages before it emitted. -/
theorem cascade_eq_direct {m c : Nat} (site : Site) (i : Nat) {stages : List Stage} (xs : List CSample) (hc : 0 < c)
    (h : StagesInv m c stages) (hxs : xs.length ≤ ceilDiv m c) :
    (cascade site i stages xs).2 = directCascade site i stages xs ∧
      ∀ j, (cascade site i stages xs).1[j]? =
        stages[j]?.map fun st => stageProc ((i + j) :: site) st (directCascade site i (stages.take j) xs) := by
  induction stages generalizing c i xs with
  | nil => exact ⟨rfl, fun _ => rfl⟩
  | cons st rest ih =>
    obtain ⟨hst, hrest⟩ := h
    have hroom := stage_room hc hst.decim_pos hxs
    obtain ⟨-, -, hlen⟩ := stageProc_inv (i :: site) xs hst hroom
    obtain ⟨hout, hstages⟩ := ih (i + 1) (stageOutput (stageProc (i :: site) st xs)) (Nat.mul_pos hc hst.decim_pos) hrest
      (hlen.trans hroom)
    rw [stageOutput_eq_directOutputs (i :: site) xs hst hroom] at hout hstages
    simp only [cascade, stageOutput_eq_directOutputs (i :: site) xs hst hroom]
    refine ⟨hout, fun j => ?_⟩
    cases j with
    | zero => rfl
    | succ j => simp [hstages, directCascade, Nat.add_assoc, Nat.add_comm 1]

/-! ## The obligations -/

section

variable {s : State} {outCap : BitVec 32} {xs : List CSample}

/-- FIR.PROC answers the cascade of plain convolutions. -/
theorem exec_firProc_direct (hv : s.fir.valid = true) (hinv : s.fir.Inv s.params)
    (hcount : xs.length ≤ s.fir.maxInput.toNat)
    (hcap : ceilDiv xs.length (totalDecimation s.fir.stages) ≤ outCap.toNat) :
    exec (.firProc outCap xs) s = .next (State.completedWith
      { s with fir := { s.fir with stages := (cascade [s.draws] 0 s.fir.stages xs).1 } }
      (countWord (directCascade [s.draws] 0 s.fir.stages xs).length ::
        (directCascade [s.draws] 0 s.fir.stages xs).flatMap complexWords)) := by
  obtain ⟨hout, -⟩ := cascade_eq_direct [s.draws] 0 xs Nat.one_pos hinv.stages_inv (by rwa [ceilDiv_one])
  rw [exec_firProc_of_fits hv hcount hcap, State.afterFirProc, hout]

end

/-- Settles O22: `cascade_eq_direct` for the samples, and for each stage `stageProc_counter` and `delayLine_stageRun` on
what the stages before it emitted. -/
theorem firProcConvolves : Obligations.FirProcConvolves := by
  intro outCap xs s hv hinv hcount hcap
  refine ⟨_, exec_firProc_direct hv hinv hcount hcap, cascade_length _ _ _ _, fun i st st' hst hst' => ?_⟩
  obtain ⟨-, hstages⟩ := cascade_eq_direct [s.draws] 0 xs Nat.one_pos hinv.stages_inv (by rwa [ceilDiv_one])
  rw [hstages, hst, Option.map_some, Option.some.injEq] at hst'
  obtain ⟨cap, hstage⟩ := stagesInv_mem hinv.stages_inv (List.mem_of_getElem? hst)
  subst hst'
  obtain ⟨hcnt, -⟩ := stageProc_counter _ _ hstage.counter
  obtain ⟨-, hdelay⟩ := delayLine_stageRun _ 0 (directCascade [s.draws] 0 (s.fir.stages.take i) xs) hstage.restart.line
  exact ⟨stageProc_decim _ _ _, stageProc_taps _ _ _, hcnt, hdelay⟩

/-! ## The identity filter (R162) -/

/-- A pattern is its sign and its magnitude. -/
theorem fpPack_msb_fpMag {w : Nat} (hw : 0 < w) (a : BitVec w) : fpPack w a.msb (fpMag a) = a := by
  have hdouble : 2 ^ w = 2 * 2 ^ (w - 1) := by rw [← Nat.pow_succ', Nat.succ_eq_add_one, Nat.sub_add_cancel hw]
  have hlt := a.isLt
  refine BitVec.eq_of_toNat_eq ?_
  have hmag : fpMag a < 2 ^ (w - 1) := Nat.mod_lt _ (Nat.two_pow_pos _)
  rw [fpPack_toNat hw _ hmag, fpMag, BitVec.msb_eq_decide]
  by_cases hneg : 2 ^ (w - 1) ≤ a.toNat
  · have hmod : a.toNat % 2 ^ (w - 1) = a.toNat - 2 ^ (w - 1) := by
      rw [Nat.mod_eq_sub_mod hneg, Nat.mod_eq_of_lt (by omega)]
    simp only [hneg, decide_true, if_true, hmod]
    omega
  · simp [hneg, Nat.mod_eq_of_lt (Nat.lt_of_not_le hneg)]

/-- `1.0` is `2 ^ 149` units. -/
theorem fpUnits_one : fpUnits 23 (fpMag 0x3F800000#32) = 2 ^ fpOne 32 23 := by decide +kernel

/-- A product with 1.0 is exact, infinities and zeros with their signs included (R162). -/
theorem f32Mul_one_left (site : Site) {x : F32} (hx : f32IsNaN x = false) : f32Mul site 0x3F800000#32 x = x := by
  have hmag : fpMag x ≤ fpInfMag 32 23 := by simpa [f32IsNaN, fpIsNaN] using hx
  have hpack := fpPack_msb_fpMag (by decide) x
  have hone : fpIsNaN 23 0x3F800000#32 = false ∧ fpIsInf 23 0x3F800000#32 = false ∧ fpIsZero 0x3F800000#32 = false := by
    decide
  obtain ⟨hnan, hinf, hzero⟩ := hone
  rw [f32IsNaN] at hx
  simp only [f32Mul, fpMul, hnan, hinf, hzero, hx, Bool.or_false, Bool.false_or, fpUnits_one,
    show BitVec.msb 0x3F800000#32 = false from rfl, Bool.false_bne]
  cases hi : fpIsInf 23 x with
  | true =>
    have heq : fpMag x = fpInfMag 32 23 := by simpa [fpIsInf] using hi
    have hne : fpIsZero x = false := by simp [fpIsZero, heq, fpInfMag]
    rw [heq] at hpack
    simpa [hne, fpInf] using hpack
  | false =>
    rw [Nat.mul_comm, fpRound, fpRoundMag_units 32 23 (fpMag x) _ (Nat.two_pow_pos _) hmag]
    simpa using hpack

/-- Settles O26: every input makes an output, whose one product is with 1.0. -/
theorem firIdentity : Obligations.FirIdentity := by
  intro outCap xs s st hv hinv hstages htaps hdecim hnan hcount hcap
  have htotal : totalDecimation s.fir.stages = 1 := by simp [totalDecimation, hstages, hdecim]
  have hout : directCascade [s.draws] 0 s.fir.stages xs = xs := by
    rw [hstages]
    have hall : (List.range xs.length).filter (emitsAt st) = List.range xs.length :=
      List.filter_eq_self.mpr fun n _ => by simp [emitsAt, hdecim, Nat.mod_one]
    simp only [directCascade, directOutputs, hall]
    refine List.ext_getElem (by simp) fun n hn hn' => ?_
    obtain ⟨hre, him⟩ := hnan xs[n] (List.getElem_mem hn')
    have hseen : seenAt st xs n = xs[n] :: ((xs.take n).reverse ++ delayLine st) := by
      rw [seenAt, ← List.take_concat_get' xs n hn', List.reverse_append]
      rfl
    simp [directOutput, hseen, htaps, convLane, convSum, f32Mul_one_left, hre, him]
  refine ⟨_, exec_firProc_direct hv hinv hcount (by rw [htotal, ceilDiv_one]; exact hcap), ?_⟩
  rw [hout]
  rfl

end Sys2Proof.Machine

namespace Sys2Proof.Machine

/-! # One call and two calls of FIR.PROC (O25)

Two calls differ from one in the sites their NaN payloads are drawn at, and in nothing else a stage reads. So two stages
that are the same up to NaN payloads (`Stage.Same`), given inputs that are (`sampleSame`), emit outputs that are and stay
so: a simulation, one sample at a time. -/

/-! ## The same up to NaN payloads (R158) -/

theorem f32Same.refl (a : F32) : f32Same a a := .inl rfl

theorem sampleSame.refl (c : CSample) : sampleSame c c := ⟨.refl _, .refl _⟩

/-- Drawn NaNs are the same, wherever they are drawn. -/
theorem f32Same.nan32 (site₁ site₂ : Site) : f32Same (nan32 site₁) (nan32 site₂) := .inr ⟨nan32_isNaN _, nan32_isNaN _⟩

theorem f32Mul_of_nan (site : Site) {a b : F32} (h : f32IsNaN a = true ∨ f32IsNaN b = true) :
    f32Mul site a b = nan32 site := if_pos (Bool.or_eq_true_iff.mpr h)

theorem f32Add_of_nan (site : Site) {a b : F32} (h : f32IsNaN a = true ∨ f32IsNaN b = true) :
    f32Add site a b = nan32 site := if_pos (Bool.or_eq_true_iff.mpr h)

/-- The site of a product reaches its result as a NaN's payload alone. -/
theorem f32Mul_same_site (site₁ site₂ : Site) (a b : F32) : f32Same (f32Mul site₁ a b) (f32Mul site₂ a b) := by
  simp only [f32Mul, fpMul]
  split_ifs
  · exact .nan32 _ _
  · exact .nan32 _ _
  · exact .refl _
  · exact .refl _

/-- The site of a sum reaches its result as a NaN's payload alone. -/
theorem f32Add_same_site (site₁ site₂ : Site) (a b : F32) : f32Same (f32Add site₁ a b) (f32Add site₂ a b) := by
  simp only [f32Add, fpAdd]
  split_ifs
  · exact .nan32 _ _
  · exact .nan32 _ _
  all_goals exact .refl _

theorem f32Mul_same (site₁ site₂ : Site) (tap : F32) {x y : F32} (h : f32Same x y) :
    f32Same (f32Mul site₁ tap x) (f32Mul site₂ tap y) := by
  rcases h with rfl | ⟨hx, hy⟩
  · exact f32Mul_same_site _ _ _ _
  · rw [f32Mul_of_nan _ (.inr hx), f32Mul_of_nan _ (.inr hy)]
    exact .nan32 _ _

theorem f32Add_same (site₁ site₂ : Site) {a b x y : F32} (hab : f32Same a b) (hxy : f32Same x y) :
    f32Same (f32Add site₁ a x) (f32Add site₂ b y) := by
  rcases hab with rfl | ⟨ha, hb⟩
  · rcases hxy with rfl | ⟨hx, hy⟩
    · exact f32Add_same_site _ _ _ _
    · rw [f32Add_of_nan _ (.inr hx), f32Add_of_nan _ (.inr hy)]
      exact .nan32 _ _
  · rw [f32Add_of_nan _ (.inl ha), f32Add_of_nan _ (.inl hb)]
    exact .nan32 _ _

/-! ## The dot product -/

/-- One term of the dot product: the same tap, and samples that are the same. -/
def termSame (p q : F32 × F32) : Prop := p.1 = q.1 ∧ f32Same p.2 q.2

theorem zip_termSame (taps : List F32) {us vs : List F32} (h : List.Forall₂ f32Same us vs) :
    List.Forall₂ termSame (taps.zip us) (taps.zip vs) := by
  induction h generalizing taps with
  | nil => simp
  | cons hxy _ ih =>
    cases taps with
    | nil => exact .nil
    | cons tap taps => exact .cons ⟨rfl, hxy⟩ (ih taps)

theorem convSum_same (site₁ site₂ : Site) (k : Nat) {acc₁ acc₂ : F32} {us vs : List (F32 × F32)}
    (hacc : f32Same acc₁ acc₂) (h : List.Forall₂ termSame us vs) :
    f32Same (convSum site₁ k acc₁ us) (convSum site₂ k acc₂ vs) := by
  induction h generalizing k acc₁ acc₂ with
  | nil => exact hacc
  | @cons p q _ _ hpq _ ih =>
    obtain ⟨tap, x⟩ := p
    obtain ⟨_, y⟩ := q
    obtain ⟨rfl, hxy⟩ := hpq
    exact ih (k + 1) (f32Add_same _ _ hacc (f32Mul_same _ _ tap hxy))

theorem convLane_same (site₁ site₂ : Site) {us vs : List (F32 × F32)} (h : List.Forall₂ termSame us vs) :
    f32Same (convLane site₁ us) (convLane site₂ vs) := by
  cases h with
  | nil => exact .refl _
  | @cons p q _ _ hpq hrest =>
    obtain ⟨tap, x⟩ := p
    obtain ⟨_, y⟩ := q
    obtain ⟨rfl, hxy⟩ := hpq
    exact convSum_same _ _ 1 (f32Mul_same _ _ tap hxy) hrest

theorem dotProduct_same (site₁ site₂ : Site) (taps : List F32) {us vs : List CSample} (h : List.Forall₂ sampleSame us vs) :
    sampleSame (dotProduct site₁ taps us) (dotProduct site₂ taps vs) :=
  ⟨convLane_same _ _ (zip_termSame taps (List.rel_map (fun _ _ hc => hc.1) h)),
   convLane_same _ _ (zip_termSame taps (List.rel_map (fun _ _ hc => hc.2) h))⟩

/-! ## One sample -/

theorem forall₂_set {α β : Type} {R : α → β → Prop} {us : List α} {vs : List β} {x : α} {y : β}
    (h : List.Forall₂ R us vs) (hxy : R x y) (n : Nat) : List.Forall₂ R (us.set n x) (vs.set n y) := by
  induction h generalizing n with
  | nil => exact .nil
  | cons huv hrest ih =>
    cases n with
    | zero => exact .cons hxy hrest
    | succ n => exact .cons huv (ih n)

theorem forall₂_getD {α β : Type} {R : α → β → Prop} {us : List α} {vs : List β} {x : α} {y : β}
    (h : List.Forall₂ R us vs) (hxy : R x y) (n : Nat) : R (us.getD n x) (vs.getD n y) := by
  induction h generalizing n with
  | nil => exact hxy
  | cons huv hrest ih =>
    cases n with
    | zero => exact huv
    | succ n => exact ih n

theorem Stage.Same.refl (st : Stage) : Stage.Same st st :=
  ⟨rfl, rfl, rfl, rfl, List.forall₂_same.mpr fun c _ => sampleSame.refl c⟩

section

variable {a b : Stage}

/-- The number of samples produced carries nothing on to the next call (R161). -/
theorem Stage.Same.restart (h : Stage.Same a b) : Stage.Same a b.restart := { h with }

theorem histInsert_same (h : Stage.Same a b) {x y : CSample} (hxy : sampleSame x y) :
    Stage.Same (histInsert a x) (histInsert b y) :=
  { h with
    hist := by
      simp only [histInsert_hist, stageTaps, h.wp, h.taps]
      exact forall₂_set (forall₂_set h.hist hxy _) hxy _ }

theorem convWindow_same (h : Stage.Same a b) (p : Nat) :
    List.Forall₂ sampleSame (convWindow a p) (convWindow b p) := by
  simp only [convWindow, stageTaps, h.taps, List.forall₂_map_left_iff, List.forall₂_map_right_iff]
  exact List.forall₂_same.mpr fun k _ => forall₂_getD h.hist (.refl _) _

theorem stageStep_same (site₁ site₂ : Site) (h : Stage.Same a b) {x y : CSample} (hxy : sampleSame x y) :
    Stage.Same (stageStep site₁ a x) (stageStep site₂ b y) where
  decim := by rw [stageStep_decim, stageStep_decim, h.decim]
  taps := by rw [stageStep_taps, stageStep_taps, h.taps]
  wp := by rw [stageStep_wp, stageStep_wp, advancePointer_wp_eq, advancePointer_wp_eq, h.wp, h.taps]
  cnt := by rw [stageStep_cnt, stageStep_cnt, h.cnt, h.decim]
  hist := by rw [stageStep_hist, stageStep_hist]; exact (histInsert_same h hxy).hist

theorem emitted_same (site₁ site₂ : Site) (h : Stage.Same a b) {x y : CSample} (hxy : sampleSame x y) :
    List.Forall₂ sampleSame (emitted site₁ a x) (emitted site₂ b y) := by
  have hins := histInsert_same h hxy
  rw [emitted, emitted, conv_eq, conv_eq, hins.taps, h.cnt, h.wp]
  split_ifs
  · exact .cons (dotProduct_same _ _ _ (convWindow_same hins _)) .nil
  · exact .nil

/-! ## A stage over its input -/

theorem stageRun_same (site₁ site₂ : Site) (j k : Nat) (h : Stage.Same a b) {xs ys : List CSample}
    (hxy : List.Forall₂ sampleSame xs ys) :
    List.Forall₂ sampleSame (stageEmits site₁ j a xs) (stageEmits site₂ k b ys) ∧
      Stage.Same (stageRun site₁ j a xs) (stageRun site₂ k b ys) := by
  induction hxy generalizing a b j k with
  | nil => exact ⟨.nil, h⟩
  | cons hhead _ ih =>
    obtain ⟨hemits, hrun⟩ := ih (j + 1) (k + 1) (stageStep_same (j :: site₁) (k :: site₂) h hhead)
    exact ⟨List.rel_append (emitted_same _ _ h hhead) hemits, hrun⟩

end

/-- One stage in one call against two: the outputs split where the calls do. -/
theorem stageProc_split {cap : Nat} (site₁ site₂ site : Site) {st : Stage} {us vs xs ys : List CSample} (h : st.Inv cap)
    (hus : List.Forall₂ sampleSame us xs) (hvs : List.Forall₂ sampleSame vs ys)
    (hroom : ceilDiv (xs.length + ys.length) st.decim.toNat ≤ cap) :
    ∃ o₁ o₂, stageOutput (stageProc site st (us ++ vs)) = o₁ ++ o₂ ∧
      List.Forall₂ sampleSame o₁ (stageOutput (stageProc site₁ st xs)) ∧
      List.Forall₂ sampleSame o₂ (stageOutput (stageProc site₂ (stageProc site₁ st xs) ys)) ∧
      Stage.Same (stageProc site st (us ++ vs)) (stageProc site₂ (stageProc site₁ st xs) ys) := by
  have hxs : ceilDiv xs.length st.decim.toNat ≤ cap := (ceilDiv_mono _ (Nat.le_add_right _ _)).trans hroom
  have hys : ceilDiv ys.length (stageProc site₁ st xs).decim.toNat ≤ cap := by
    rw [stageProc_decim]
    exact (ceilDiv_mono _ (Nat.le_add_left _ _)).trans hroom
  have hall : ceilDiv (us ++ vs).length st.decim.toNat ≤ cap := by
    rwa [List.length_append, hus.length_eq, hvs.length_eq]
  obtain ⟨hfirst, -, -⟩ := stageProc_inv site₁ xs h hxs
  obtain ⟨hemits₁, hrun₁⟩ := stageRun_same site site₁ 0 0 (.refl st.restart) hus
  obtain ⟨hemits₂, hrun₂⟩ := stageRun_same site site₂ (0 + us.length) 0 hrun₁.restart hvs
  rw [stageOutput_stageProc site (us ++ vs) h hall, stageOutput_stageProc site₁ xs h hxs,
    stageOutput_stageProc site₂ ys hfirst hys]
  refine ⟨_, _, stageEmits_append _ _ _ _ _, hemits₁, hemits₂, ?_⟩
  rw [stageProc, stageRun_append]
  exact hrun₂

/-! ## The cascade in one call and in two -/

/-- Each stage's outputs split where its inputs do, so the cascade's do. -/
theorem cascade_split {m c : Nat} (site₁ site₂ site : Site) (i : Nat) {stages : List Stage} {us vs xs ys : List CSample}
    (hc : 0 < c) (h : StagesInv m c stages) (hus : List.Forall₂ sampleSame us xs) (hvs : List.Forall₂ sampleSame vs ys)
    (hlen : xs.length + ys.length ≤ ceilDiv m c) :
    List.Forall₂ sampleSame (cascade site i stages (us ++ vs)).2
        ((cascade site₁ i stages xs).2 ++ (cascade site₂ i (cascade site₁ i stages xs).1 ys).2) ∧
      List.Forall₂ Stage.Same (cascade site i stages (us ++ vs)).1
        (cascade site₂ i (cascade site₁ i stages xs).1 ys).1 := by
  induction stages generalizing c i us vs xs ys with
  | nil => exact ⟨List.rel_append hus hvs, .nil⟩
  | cons st rest ih =>
    obtain ⟨hst, hrest⟩ := h
    have hroom := stage_room hc hst.decim_pos hlen
    obtain ⟨o₁, o₂, hout, h₁, h₂, hsame⟩ := stageProc_split (i :: site₁) (i :: site₂) (i :: site) hst hus hvs hroom
    have hwhole : ceilDiv (us ++ vs).length st.decim.toNat ≤ ceilDiv m (c * st.decim.toNat) := by
      rwa [List.length_append, hus.length_eq, hvs.length_eq]
    obtain ⟨-, -, hcount⟩ := stageProc_inv (i :: site) (us ++ vs) hst hwhole
    rw [hout, List.length_append, h₁.length_eq, h₂.length_eq] at hcount
    obtain ⟨houts, hstages⟩ := ih (i + 1) (Nat.mul_pos hc hst.decim_pos) hrest h₁ h₂ (hcount.trans hwhole)
    simp only [cascade, hout]
    exact ⟨houts, .cons hsame hstages⟩

@[simp] theorem totalDecimation_cascade (site : Site) (i : Nat) (stages : List Stage) (xs : List CSample) :
    totalDecimation (cascade site i stages xs).1 = totalDecimation stages := by
  induction stages generalizing i xs with
  | nil => rfl
  | cons st rest ih =>
    have hrest := ih (i + 1) (stageOutput (stageProc (i :: site) st xs))
    simp only [totalDecimation, cascade, List.map_cons, List.prod_cons, stageProc_decim] at hrest ⊢
    rw [hrest]

/-- Settles O25: all three calls run the cascade, and `cascade_split` compares them. -/
theorem firStreamingEquivalence : Obligations.FirStreamingEquivalence := by
  intro s xs ys c₁ c₂ c₁₂ hv hinv hcount hcap₁ hcap₂ hcap₁₂
  have hfirst := exec_firProc_of_fits hv (Nat.le_of_add_right_le hcount) hcap₁
  have htotal : totalDecimation (s.afterFirProc xs).fir.stages = totalDecimation s.fir.stages :=
    totalDecimation_cascade _ _ _ _
  have hsecond : exec (.firProc c₂ ys) (s.afterFirProc xs) = .next ((s.afterFirProc xs).afterFirProc ys) :=
    exec_firProc_of_fits hv (Nat.le_of_add_left_le hcount) (by rw [htotal]; exact hcap₂)
  have hwhole : exec (.firProc c₁₂ (xs ++ ys)) s = .next (s.afterFirProc (xs ++ ys)) :=
    exec_firProc_of_fits hv (by rwa [List.length_append]) (by rwa [List.length_append])
  have hrefl (zs : List CSample) : List.Forall₂ sampleSame zs zs := List.forall₂_same.mpr fun c _ => .refl c
  obtain ⟨houts, hstages⟩ := cascade_split [s.draws] [s.draws + 1] [s.draws] 0 Nat.one_pos hinv.stages_inv
    (hrefl xs) (hrefl ys) (by rwa [ceilDiv_one])
  exact ⟨_, _, _, _, _, _, hfirst, rfl, hsecond, rfl, hwhole, rfl, houts, hstages⟩

end Sys2Proof.Machine

namespace Sys2Proof.Machine

/-! # Construction and the field table of the BFC (O27 to O32)

Each command is a check, then `raise` or `done`. The facts below say what each check answers, and where `findField` and
`updateField` look: at the first slot of a name (R183). -/

/-! ## Codes (R125) -/

theorem tsModeOfCode_eq_none_iff : ∀ c : BitVec 3, tsModeOfCode c = none ↔ 4 < c.toNat := by decide

theorem formatOfCode_eq_none_iff : ∀ c : BitVec 3, formatOfCode c = none ↔ 5 < c.toNat := by decide

theorem endianOfCode_eq_none_iff : ∀ c : BitVec 2, endianOfCode c = none ↔ 1 < c.toNat := by decide

/-- A code of at most 8 bits reported as the cause of an info word is the info word (R332). -/
theorem infoWord_code {w : Nat} (hw : w ≤ 8) (c : BitVec w) : infoWord c.toNat 0 = c.setWidth 32 := by
  have hc : c.toNat < 256 := c.isLt.trans_le (Nat.pow_le_pow_right (by decide) hw)
  rw [infoWord_of_lt hc (by decide), Nat.mul_zero, Nat.add_zero, BitVec.ofNat_toNat]

/-! ## BFC.INIT and BSM.INIT (R180, R243) -/

/-- A record loaded from no operand is zero (R180). -/
theorem loadRecord_nil (n : Nat) : loadRecord n [] = List.replicate (8 * ((n + 7) / 8)) false := by
  simp [loadRecord, List.map_const']

section

variable {s : State} {r : Raised}

/-- A BFC.INIT that fails a check leaves no formatter (R333). -/
theorem exec_bfcInit_of_error {tsMode : BitVec 3} {nf recordBits : BitVec 16}
    (h : bfcInitMode s.params tsMode nf recordBits = .error r) :
    ∃ b : Bfc, b.valid = false ∧ exec (.bfcInit tsMode nf recordBits) s =
      .next (State.failedWith { s with bfc := b } (statusCode r.code) r.info) :=
  ⟨{ Config.unspecifiedBfc [s.draws] with valid := false }, rfl, by simp only [exec, execBfcInit, h, raise_eq]⟩

/-- A BSM.INIT that fails a check leaves no machine (R333). -/
theorem exec_bsmInit_of_error {ns msgBits : BitVec 16} {fs : BitVec 32} {onVal : F32}
    (h : bsmInitError s.params ns fs msgBits onVal = some r) :
    ∃ b : Bsm, b.valid = false ∧ exec (.bsmInit ns fs msgBits onVal) s =
      .next (State.failedWith { s with bsm := b } (statusCode r.code) r.info) :=
  ⟨{ Config.unspecifiedBsm [s.draws] with valid := false }, rfl, by simp only [exec, execBsmInit, h, raise_eq]⟩

end

section

variable {p : Params} {tsMode : BitVec 3} {nf recordBits : BitVec 16}

theorem bfcInitMode_of_malformed (h : 4 < tsMode.toNat ∨ nf = 0 ∨ recordBits = 0) :
    bfcInitMode p tsMode nf recordBits = .error (raisedAs .configError 0x10) := by
  unfold bfcInitMode
  cases hmode : tsModeOfCode tsMode with
  | none => rfl
  | some mode =>
    have hcode : ¬ 4 < tsMode.toNat := by simp [← tsModeOfCode_eq_none_iff, hmode]
    exact if_pos (h.resolve_left hcode)

/-- With legal operands only the capacities are left to check. -/
theorem bfcInitMode_of_mode {mode : TsMode} (hmode : tsModeOfCode tsMode = some mode) (hnf : nf ≠ 0)
    (hbits : recordBits ≠ 0) :
    bfcInitMode p tsMode nf recordBits =
      if p.nfMax < nf.toNat ∨ p.recordBitsMax < recordBits.toNat then .error (raisedAs .allocationError 0x10)
      else .ok mode := by
  simp only [bfcInitMode, hmode, if_neg (not_or.mpr ⟨hnf, hbits⟩)]

end

/-- Settles O27: the eight codes, and a BFC.INIT that passes its checks. -/
theorem bfcInitBuildsTable : Obligations.BfcInitBuildsTable := by
  refine ⟨by decide, fun tsMode mode nf recordBits s hmode hnf hbits hnfMax hbitsMax => ?_⟩
  have hcheck : bfcInitMode s.params tsMode nf recordBits = .ok mode :=
    (bfcInitMode_of_mode hmode hnf hbits).trans (if_neg (by omega))
  exact ⟨Config.unspecifiedSpt [s.draws], by simp only [exec, execBfcInit, hcheck, done_eq, loadRecord_nil]⟩

/-- Settles O28: both constructors check their operands, then their capacities. -/
theorem constructorsRejectBadSizes : Obligations.ConstructorsRejectBadSizes := by
  refine ⟨fun tsMode nf recordBits s => ⟨fun hbad => ?_, fun hcode hnf hbits hbig => ?_⟩,
    fun ns msgBits fs onVal s => ⟨fun hbad => ?_, fun hns hfs hbits hfinite hbig => ?_⟩⟩
  · exact exec_bfcInit_of_error (r := raisedAs .configError 0x10) (bfcInitMode_of_malformed hbad)
  · have hsome : tsModeOfCode tsMode ≠ none := mt (tsModeOfCode_eq_none_iff tsMode).mp (Nat.not_lt.mpr hcode)
    obtain ⟨mode, hmode⟩ := Option.ne_none_iff_exists'.mp hsome
    exact exec_bfcInit_of_error (r := raisedAs .allocationError 0x10)
      ((bfcInitMode_of_mode hmode hnf hbits).trans (if_pos hbig))
  · exact exec_bsmInit_of_error (r := raisedAs .configError 0x20) (if_pos hbad)
  · have hlegal : ¬ (ns = 0 ∨ fs = 0 ∨ msgBits = 0 ∨ f32IsFinite onVal = false) := by
      rw [hfinite]
      rintro (h | h | h | h)
      exacts [hns h, hfs h, hbits h, Bool.noConfusion h]
    exact exec_bsmInit_of_error (r := raisedAs .allocationError 0x20) ((if_neg hlegal).trans (if_pos hbig))

/-! ## The first slot of a name (R183) -/

theorem mem_usedFields {b : Bfc} {f : BitField} : f ∈ usedFields b ↔ some f ∈ b.slots := by simp [usedFields]

theorem findField_of_unknown {b : Bfc} {name : Text} (h : ∀ f, some f ∈ b.slots → f.name ≠ name) :
    findField b name = none := by
  by_contra hne
  obtain ⟨f, hf⟩ := Option.ne_none_iff_exists'.mp hne
  obtain ⟨hmem, hname⟩ := findField_some hf
  exact h f (mem_usedFields.mp hmem) hname

theorem findField_isSome (b : Bfc) (name : Text) :
    (findField b name).isSome = (usedFields b).any fun f => decide (f.name = name) := by
  cases hfind : findField b name with
  | none => simpa using findField_none hfind
  | some f => simpa using ⟨f, findField_some hfind⟩

/-- Slot `n` of a slot table holds `f`, and no slot before it holds a field of that name. -/
structure FirstNamed (slots : List (Option BitField)) (name : Text) (n : Nat) (f : BitField) : Prop where
  slot : slots[n]? = some (some f)
  named : f.name = name
  first : ∀ m < n, ∀ g, slots[m]? = some (some g) → g.name ≠ name

theorem FirstNamed.findField_eq {b : Bfc} {name : Text} {n : Nat} {f : BitField} (h : FirstNamed b.slots name n f) :
    findField b name = some f := by
  obtain ⟨hn, hslot⟩ := List.getElem?_eq_some_iff.mp h.slot
  have hfind : b.slots.find? (fun o => o.any fun g => decide (g.name = name)) = some (some f) := by
    refine List.find?_eq_some_iff_getElem.mpr ⟨by simp [h.named], n, hn, hslot, fun m hm => ?_⟩
    cases hm' : b.slots[m] with
    | none => rfl
    | some g =>
      have hne : g.name ≠ name := h.first m hm g (List.getElem?_eq_some_iff.mpr ⟨hm.trans hn, hm'⟩)
      simp [hne]
  rw [findField, hfind, Option.getD_some]

theorem FirstNamed.tail {o : Option BitField} {rest : List (Option BitField)} {name : Text} {n : Nat} {f : BitField}
    (h : FirstNamed (o :: rest) name (n + 1) f) : FirstNamed rest name n f :=
  ⟨h.slot, h.named, fun m hm g hg => h.first (m + 1) (Nat.succ_lt_succ hm) g hg⟩

theorem FirstNamed.updateField_eq {slots : List (Option BitField)} {name : Text} {n : Nat} {f : BitField}
    (g : BitField → BitField) (h : FirstNamed slots name n f) :
    updateField name g slots = slots.set n (some (g f)) := by
  induction slots generalizing n with
  | nil => rfl
  | cons o rest ih =>
    cases n with
    | zero =>
      obtain rfl : o = some f := Option.some.inj h.slot
      simp [updateField, h.named]
    | succ n =>
      have hrest := ih h.tail
      cases o with
      | none => simp [updateField, hrest]
      | some f' =>
        have hne : f'.name ≠ name := h.first 0 n.succ_pos f' rfl
        simp [updateField, hne, hrest]

/-! ## BFC.ADDF: the checks (R181) -/

theorem bfcNotReady_of_valid {s : State} (h : s.bfc.valid = true) : bfcNotReady s = none := by simp [bfcNotReady, h]

theorem findIdx?_isNone_eq_none_iff {slots : List (Option BitField)} :
    slots.findIdx? Option.isNone = none ↔ none ∉ slots := by
  rw [List.findIdx?_eq_none_iff]
  constructor
  · intro h hmem
    exact Bool.noConfusion (h none hmem)
  · rintro h (_ | f) ho
    · exact absurd ho h
    · rfl

/-- The first slot that is empty is the one BFC.ADDF finds. -/
theorem findIdx?_isNone_of_first {slots : List (Option BitField)} {n : Nat} (hslot : slots[n]? = some none)
    (hfirst : ∀ m < n, slots[m]? ≠ some none) : slots.findIdx? Option.isNone = some n := by
  obtain ⟨hn, hnone⟩ := List.getElem?_eq_some_iff.mp hslot
  refine List.findIdx?_eq_some_iff_getElem.mpr ⟨hn, by rw [hnone]; rfl, fun m hm hempty => hfirst m hm ?_⟩
  exact List.getElem?_eq_some_iff.mpr ⟨hm.trans hn, Option.isNone_iff_eq_none.mp hempty⟩

section

variable {s : State} {name : Text} {startBit endBit enumCount : BitVec 16} {format : BitVec 3} {endianness : BitVec 2}
  {scaling offset : F64}

theorem exec_bfcAddf_of_error {r : Raised} (hv : s.bfc.valid = true)
    (h : addFieldCheck s.params s.bfc name startBit endBit format endianness enumCount = .error r) :
    exec (.bfcAddf name startBit endBit format endianness enumCount scaling offset) s =
      .next (s.failedWith (statusCode r.code) r.info) := by
  simp only [exec, execBfcAddf, bfcNotReady_of_valid hv, h, raise_eq]

/-- With a name and a range that fit, only the codes and the enum count are left to check. -/
theorem addFieldCheck_of_fits {p : Params} {b : Bfc} {n : Nat} (h : FieldFits b name startBit endBit n) :
    addFieldCheck p b name startBit endBit format endianness enumCount =
      match formatOfCode format, endianOfCode endianness with
      | none, _ => .error (raisedAs .invalidFormat format.toNat)
      | some _, none => .error (raisedAs .invalidEndianness endianness.toNat)
      | some fmt, some e =>
        if p.enumMax < enumCount.toNat then .error (raisedAs .allocationError 0x11) else .ok (n, fmt, e) := by
  have hnew : ¬ (findField b name).isSome = true := by simp [h.name_new]
  have hwidth : ¬ Config.fieldMaxW < endBit.toNat - startBit.toNat + 1 := Nat.not_lt.mpr h.width_le
  rw [addFieldCheck, if_neg h.name_ne, h.slot_free]
  simp only [if_neg hnew, if_neg (Nat.not_lt.mpr h.range), if_neg hwidth, if_neg (Nat.not_le.mpr h.inside)]
  cases formatOfCode format <;> cases endianOfCode endianness <;> rfl

end

/-- Settles O30: each link of the chain is the check that answers, the checks before it passed. -/
theorem addFieldFaultOrder : Obligations.AddFieldFaultOrder := by
  intro name startBit endBit enumCount format endianness scaling offset s hv fails
  have hfails {r : Raised}
      (h : addFieldCheck s.params s.bfc name startBit endBit format endianness enumCount = .error r) :
      fails (statusCode r.code) r.info := exec_bfcAddf_of_error hv h
  by_cases hname : name = []
  · rw [if_pos hname]
    exact hfails (r := raisedAs .configError 0x11) (if_pos hname)
  by_cases hfull : none ∉ s.bfc.slots
  · rw [if_neg hname, if_pos hfull]
    refine hfails (r := raisedAs .duplicateOrFull 1) ?_
    rw [addFieldCheck, if_neg hname, findIdx?_isNone_eq_none_iff.mpr hfull]
  obtain ⟨n, hslot⟩ := Option.ne_none_iff_exists'.mp (mt findIdx?_isNone_eq_none_iff.mp hfull)
  rw [if_neg hname, if_neg hfull, ← findField_isSome]
  split_ifs with hused hrange hwidth hinside hformat hendian
  · refine hfails (r := raisedAs .duplicateOrFull 2) ?_
    simp only [addFieldCheck, if_neg hname, hslot, if_pos hused]
  · refine hfails (r := raisedAs .invalidRange 1) ?_
    simp only [addFieldCheck, if_neg hname, hslot, if_neg hused, if_pos hrange]
  · refine hfails (r := raisedAs .invalidRange 2) ?_
    simp only [addFieldCheck, if_neg hname, hslot, if_neg hused, if_neg hrange,
      if_pos (show Config.fieldMaxW < _ from hwidth)]
  · refine hfails (r := raisedAs .invalidRange 3) ?_
    simp only [addFieldCheck, if_neg hname, hslot, if_neg hused, if_neg hrange,
      if_neg (show ¬ Config.fieldMaxW < _ from hwidth), if_pos hinside]
  all_goals
    have hfits : FieldFits s.bfc name startBit endBit n :=
      ⟨hname, hslot, Option.not_isSome_iff_eq_none.mp hused, Nat.not_lt.mp hrange, Nat.not_lt.mp hwidth,
        Nat.not_le.mp hinside⟩
  · rw [← infoWord_code (w := 3) (by decide)]
    refine hfails (r := raisedAs .invalidFormat format.toNat) ?_
    rw [addFieldCheck_of_fits hfits, (formatOfCode_eq_none_iff format).mpr hformat]
  all_goals
    obtain ⟨fmt, hfmt⟩ := Option.ne_none_iff_exists'.mp (mt (formatOfCode_eq_none_iff format).mp hformat)
  · rw [← infoWord_code (w := 2) (by decide)]
    refine hfails (r := raisedAs .invalidEndianness endianness.toNat) ?_
    rw [addFieldCheck_of_fits hfits, hfmt, (endianOfCode_eq_none_iff endianness).mpr hendian]
  · obtain ⟨e, he⟩ := Option.ne_none_iff_exists'.mp (mt (endianOfCode_eq_none_iff endianness).mp hendian)
    intro hcount
    refine hfails (r := raisedAs .allocationError 0x11) ?_
    rw [addFieldCheck_of_fits hfits, hfmt, he]
    exact if_pos hcount

/-! ## BFC.ADDF: the field it stores (R181, R182) -/

theorem fpIsZero_f64_iff (x : F64) : fpIsZero x = true ↔ x = 0#64 ∨ x = 0x8000000000000000#64 := by
  rw [fpIsZero, decide_eq_true_eq, fpMag, BitVec.toNat_eq, BitVec.toNat_eq, BitVec.toNat_ofNat, BitVec.toNat_ofNat]
  omega

theorem normalScaling_eq (x : F64) :
    normalScaling x = if x = 0#64 ∨ x = 0x8000000000000000#64 then 0x3FF0000000000000#64 else x := by
  simp only [normalScaling, fpIsZero_f64_iff]

/-- Settles O29: the codes of R125, and a BFC.ADDF that passes its checks. -/
theorem addFieldFillsLowestSlot : Obligations.AddFieldFillsLowestSlot := by
  refine ⟨by decide, by decide, ?_⟩
  intro name startBit endBit enumCount format endianness scaling offset fmt e n s hv hname hslot hfirst hnew hrange hwidth
    hinside hfmt he hcount
  have hfits : FieldFits s.bfc name startBit endBit n :=
    ⟨hname, findIdx?_isNone_of_first hslot hfirst, findField_of_unknown hnew, hrange, hwidth, hinside⟩
  have hcheck : addFieldCheck s.params s.bfc name startBit endBit format endianness enumCount = .ok (n, fmt, e) := by
    rw [addFieldCheck_of_fits hfits, hfmt, he]
    exact if_neg (Nat.not_lt.mpr hcount)
  simp only [exec, execBfcAddf, bfcNotReady_of_valid hv, hcheck, done_eq, normalScaling_eq, countWord]

/-! ## BFC.ADDE (R184) and BFC.SETDEF (R186) -/

section

variable {s : State} {fieldName : Text}

theorem exec_bfcAdde_of_error {symbol : Text} {value : BitVec 64} {r : Raised} (hv : s.bfc.valid = true)
    (h : addEnumError s.bfc fieldName symbol = some r) :
    exec (.bfcAdde fieldName symbol value) s = .next (s.failedWith (statusCode r.code) r.info) := by
  simp only [exec, execBfcAdde, bfcNotReady_of_valid hv, h, raise_eq]

theorem addEnumError_of_found {b : Bfc} {f : BitField} (hfind : findField b fieldName = some f) (symbol : Text) :
    addEnumError b fieldName symbol =
      if symbol = [] then some (raisedAs .configError 0x12)
      else if f.enumCap.toNat ≤ f.enums.length then some (raisedAs .duplicateOrFull 3)
      else if f.enums.any fun x => decide (x.symbol = symbol) then some (raisedAs .duplicateOrFull 4)
      else none := by
  simp only [addEnumError, hfind]

theorem exec_bfcSetdef_of_found {f : BitField} (hv : s.bfc.valid = true) (hfind : findField s.bfc fieldName = some f)
    (defaultStr : Text) :
    exec (.bfcSetdef fieldName defaultStr) s =
      match strToRaw [s.draws] f defaultStr with
      | .error r => .next (s.failedWith (statusCode r.code) r.info)
      | .ok v => .next (State.completedWith { s with bfc := { s.bfc with
          slots := updateField fieldName (fun g => { g with default := BitVec.ofNat 64 v }) s.bfc.slots } } []) := by
  simp only [exec, execBfcSetdef, bfcNotReady_of_valid hv, hfind]
  cases strToRaw [s.draws] f defaultStr <;> rfl

end

/-- Settles O31: each link of the chain is the check that answers, on the field `findField` finds. -/
theorem addEnumAppends : Obligations.AddEnumAppends := by
  intro fieldName symbol value s hv adds
  have hfails {r : Raised} (h : addEnumError s.bfc fieldName symbol = some r) :
      adds (s.failedWith (statusCode r.code) r.info) := exec_bfcAdde_of_error hv h
  refine ⟨fun hunknown => ?_, fun n f hslot hname hfirst => ?_⟩
  · refine hfails (r := raisedAs .unknownField 1) ?_
    rw [addEnumError, findField_of_unknown hunknown]
  · have hat : FirstNamed s.bfc.slots fieldName n f := ⟨hslot, hname, hfirst⟩
    have hcheck := addEnumError_of_found hat.findField_eq symbol
    split_ifs at hcheck ⊢
    · exact hfails hcheck
    · exact hfails hcheck
    · exact hfails hcheck
    · change exec _ s = _
      simp only [exec, execBfcAdde, bfcNotReady_of_valid hv, hcheck, done_eq, hat.updateField_eq]

/-- Settles O32: the text is parsed for the field `findField` finds. -/
theorem setDefaultStoresPattern : Obligations.SetDefaultStoresPattern := by
  intro fieldName defaultStr s hv
  refine ⟨fun n f hslot hname hfirst => ?_, fun hunknown => ?_⟩
  · have hat : FirstNamed s.bfc.slots fieldName n f := ⟨hslot, hname, hfirst⟩
    have hrun := exec_bfcSetdef_of_found hv hat.findField_eq defaultStr
    refine ⟨fun v hparse => ?_, fun r hparse => ?_⟩
    · simp only [hrun, hparse, hat.updateField_eq]
    · rw [hrun, hparse]
  · have hrun : exec (.bfcSetdef fieldName defaultStr) s = raise s (raisedAs .unknownField 2) := by
      simp only [exec, execBfcSetdef, bfcNotReady_of_valid hv, findField_of_unknown hunknown]
    exact hrun

end Sys2Proof.Machine

namespace Sys2Proof.Machine

/-! # The threshold detector (O59, O60)

THR.PROC decides each sample on its own against one squared threshold, and a square does not see a sign. -/

/-- Sign change keeps the magnitude (R11). -/
theorem fpMag_fpNeg {w : Nat} (hw : 0 < w) (a : BitVec w) : fpMag (fpNeg a) = fpMag a :=
  fpMag_fpPack hw _ (Nat.mod_lt _ (Nat.two_pow_pos _))

/-- A square is the square of the magnitude: every case of the product looks at magnitudes and at equal signs (R240). -/
theorem f32Mul_fpNeg_self (site : Site) (a : F32) : f32Mul site (fpNeg a) (fpNeg a) = f32Mul site a a := by
  simp only [f32Mul, fpMul, fpIsNaN, fpIsInf, fpIsZero, fpMag_fpNeg (w := 32) (by decide), bne_self_eq_false]

/-- The bits THR.PROC answers in state `s` (R240). -/
def detectedBits (s : State) (xs : List CSample) : List Bool :=
  xs.mapIdx fun k c => detect [k, s.draws] (squaredThreshold [s.draws] s.thr) c

theorem exec_thrProc (xs : List CSample) (s : State) :
    exec (.thrProc xs) s = .next (s.completedWith (packBits (detectedBits s xs))) := rfl

theorem detectedBits_fpNeg (s : State) (xs : List CSample) :
    detectedBits { s with thr := fpNeg s.thr } xs = detectedBits s xs := by
  simp only [detectedBits, squaredThreshold, f32Mul_fpNeg_self]

/-- The command word of THR.SET carries no operand (R118). -/
theorem headerOf_thrSet (v : F32) : headerOf (.thrSet v) = 0x60000000#32 := by
  change opcByte .thrSet ++ 0#24 = _
  decide

/-- Settles O59: THR.SET looks at nothing but its operand. -/
theorem thrSetLoads : Obligations.ThrSetLoads := fun v _ =>
  ⟨congrArg (· :: [v]) (headerOf_thrSet v), rfl⟩

/-- Settles O60: each bit is `detect` of its sample, and the squared threshold is the same for `thr` and `-thr`. -/
theorem thresholdDetects : Obligations.ThresholdDetects := by
  intro xs s
  refine ⟨detectedBits s xs, List.length_mapIdx, exec_thrProc xs s, ?_, fun k c hc => ⟨[2, k, s.draws], [k, s.draws], ?_⟩⟩
  · rw [exec_thrProc, detectedBits_fpNeg]
  · rw [detectedBits, List.getElem?_mapIdx, hc]
    rfl

end Sys2Proof.Machine

namespace Sys2Proof.Machine

/-! # The state table of the BSM and its readiness (O40 to O42)

Each command is a check, then `raise` or `done`; BSM.READY is `bsmInitialized`, spelled out once in the codes of R125. -/

/-! ## Readiness (R43) -/

theorem condOfCode_isSome_iff : ∀ c : BitVec 3, (condOfCode c).isSome = true ↔ c.toNat ≤ 4 := by decide

theorem actionOfCode_isSome_iff : ∀ c : BitVec 3, (actionOfCode c).isSome = true ↔ c.toNat ≤ 3 := by decide

theorem triggerValid_iff (ns : Nat) (t : Trigger) :
    triggerValid ns t = true ↔ t.cond.toNat ≤ 4 ∧ t.action.toNat ≤ 3 ∧ t.next.toNat < ns := by
  simp only [triggerValid, Bool.and_eq_true, condOfCode_isSome_iff, actionOfCode_isSome_iff, decide_eq_true_eq, and_assoc]

theorem bsmInitialized_iff (b : Bsm) :
    bsmInitialized b = true ↔ b.valid = true ∧ ∀ st ∈ b.states, st.name ≠ [] ∧
      ∀ t ∈ st.trigs, t.cond.toNat ≤ 4 ∧ t.action.toNat ≤ 3 ∧ t.next.toNat < b.states.length := by
  simp only [bsmInitialized, Bool.and_eq_true, List.all_eq_true, decide_eq_true_eq, triggerValid_iff]

theorem bsmNotReady_of_valid {s : State} (h : s.bsm.valid = true) : bsmNotReady s = none := by simp [bsmNotReady, h]

/-! ## The commands -/

theorem exec_bsmReady (s : State) :
    exec .bsmReady s = .next (s.completedWith [if bsmInitialized s.bsm = true then 1 else 0]) := rfl

section

variable {s : State} {n : BitVec 16}

/-- BSM.SETSTATE outside the table (R244). -/
theorem exec_bsmSetstate_of_outside (hv : s.bsm.valid = true) (hn : s.bsm.states[n.toNat]? = none) (name : Text)
    (dur tmo : BitVec 32) : exec (.bsmSetstate n name dur tmo) s = .next (s.failedWith 1 0x21) := by
  simp only [exec, execBsmSetstate, bsmNotReady_of_valid hv, hn]
  rfl

/-- BSM.SETSTATE of an entry of the table (R244). -/
theorem exec_bsmSetstate_of_entry {st : StateEntry} (hv : s.bsm.valid = true) (hn : s.bsm.states[n.toNat]? = some st)
    (name : Text) (dur tmo : BitVec 32) :
    exec (.bsmSetstate n name dur tmo) s = .next (State.completedWith { s with bsm := { s.bsm with
      states := s.bsm.states.set n.toNat ⟨name, dur, tmo, st.trigs⟩ } } []) := by
  simp only [exec, execBsmSetstate, bsmNotReady_of_valid hv, hn, done_eq]

/-- BSM.ADDTRIG outside the table (R245). -/
theorem exec_bsmAddtrig_of_outside (hv : s.bsm.valid = true) (hn : s.bsm.states[n.toNat]? = none)
    (cond action : BitVec 3) (next : BitVec 16) (durUs : BitVec 32) :
    exec (.bsmAddtrig n cond action next durUs) s = .next (s.failedWith 1 0x21) := by
  simp only [exec, execBsmAddtrig, bsmNotReady_of_valid hv, hn]
  rfl

/-- BSM.ADDTRIG of an entry of the table: appended where there is room (R245). -/
theorem exec_bsmAddtrig_of_entry {st : StateEntry} (hv : s.bsm.valid = true) (hn : s.bsm.states[n.toNat]? = some st)
    (cond action : BitVec 3) (next : BitVec 16) (durUs : BitVec 32) :
    exec (.bsmAddtrig n cond action next durUs) s =
      if s.params.ntMax ≤ st.trigs.length then .next (s.failedWith 1 0x23)
      else .next (State.completedWith { s with bsm := { s.bsm with states := (s.bsm.states.set n.toNat
        ⟨st.name, st.durationUs, st.timeoutUs, st.trigs ++ [⟨cond, durUs, action, next⟩]⟩) } }
        [BitVec.ofNat 32 st.trigs.length]) := by
  simp only [exec, execBsmAddtrig, bsmNotReady_of_valid hv, hn]
  rfl

end

/-! ## The obligations -/

/-- Settles O40: with legal operands none of the checks of BSM.INIT answers. -/
theorem bsmInitBuildsMachine : Obligations.BsmInitBuildsMachine := by
  intro ns msgBits fs onVal s hns hfs hbits hfinite hnsMax hbitsMax
  have hcheck : bsmInitError s.params ns fs msgBits onVal = none := by
    have hlegal : ¬ (ns = 0 ∨ fs = 0 ∨ msgBits = 0 ∨ f32IsFinite onVal = false) :=
      not_or.mpr ⟨hns, not_or.mpr ⟨hfs, not_or.mpr ⟨hbits, by simp [hfinite]⟩⟩⟩
    rw [bsmInitError, if_neg hlegal, if_neg (by omega)]
  simp only [exec, execBsmInit, hcheck, done_eq, StateEntry.blank]

/-- Settles O41: the index is in the table or not, and the list has room or not. -/
theorem stateTableCommands : Obligations.StateTableCommands := by
  intro n next name dur tmo durUs cond action s hv
  refine ⟨fun st hn => ?_, fun hout => ?_⟩
  · have hadd := exec_bsmAddtrig_of_entry hv hn cond action next durUs
    exact ⟨exec_bsmSetstate_of_entry hv hn name dur tmo, fun hroom => hadd.trans (if_neg (Nat.not_le.mpr hroom)),
      fun hfull => hadd.trans (if_pos hfull.ge)⟩
  · have hn : s.bsm.states[n.toNat]? = none := List.getElem?_eq_none hout
    exact ⟨exec_bsmSetstate_of_outside hv hn name dur tmo, exec_bsmAddtrig_of_outside hv hn cond action next durUs⟩

/-- Settles O42: by `bsmInitialized_iff`. -/
theorem bsmReadyReports : Obligations.BsmReadyReports := by
  refine ⟨rfl, fun s => ?_⟩
  rw [← bsmInitialized_iff, exec_bsmReady]
  exact ⟨fun h => by rw [if_pos h], fun h => by rw [if_neg h]⟩

end Sys2Proof.Machine

namespace Sys2Proof.Machine

/-! # One sample of BSM.PROC (O46 to O48, O50)

A sample is counted, then the first trigger that takes part and whose condition holds decides everything. So each
statement here is one equation about `firingTrigger` and one about `sampleStep`. -/

/-! ## Time (R248) -/

theorem inTolerance_iff (fs scount dur : Nat) :
    inTolerance fs scount dur = true ↔
      85 * dur * fs ≤ 100 * scount * 1000000 ∧ 100 * scount * 1000000 ≤ 115 * dur * fs := by
  rw [inTolerance, Bool.and_eq_true, decide_eq_true_eq, decide_eq_true_eq]
  rfl

theorem timedOut_iff (fs scount tmo : Nat) :
    timedOut fs scount tmo = true ↔ tmo ≠ 0 ∧ tmo * fs ≤ scount * 1000000 := by
  rw [timedOut, Bool.and_eq_true, decide_eq_true_eq, decide_eq_true_eq]
  rfl

/-- `p` percent of a duration, in samples, against a sample count: the fractions cleared (R248). -/
theorem percent_le_iff (p fs scount dur : Nat) :
    (p / 100 : ℚ) * dur * fs / 1000000 ≤ scount ↔ p * dur * fs ≤ 100 * scount * 1000000 := by
  rw [div_le_iff₀ (by norm_num), ← Nat.cast_le (α := ℚ)]
  push_cast
  constructor <;> intro h <;> linarith

theorem le_percent_iff (p fs scount dur : Nat) :
    (scount : ℚ) ≤ (p / 100 : ℚ) * dur * fs / 1000000 ↔ 100 * scount * 1000000 ≤ p * dur * fs := by
  rw [le_div_iff₀ (by norm_num), ← Nat.cast_le (α := ℚ)]
  push_cast
  constructor <;> intro h <;> linarith

section

variable {fs : Nat} (hfs : 0 < fs) (scount : Nat) (x : ℚ)
include hfs

/-- The elapsed time of a sample count, compared in microseconds or in samples (R248). -/
theorem le_elapsed_iff : x ≤ (scount : ℚ) * 1000000 / fs ↔ x * fs / 1000000 ≤ scount := by
  rw [le_div_iff₀ (by exact_mod_cast hfs), div_le_iff₀ (by norm_num)]

theorem elapsed_le_iff : (scount : ℚ) * 1000000 / fs ≤ x ↔ (scount : ℚ) ≤ x * fs / 1000000 := by
  rw [div_le_iff₀ (by exact_mod_cast hfs), le_div_iff₀ (by norm_num)]

end

/-- Settles O50: the three forms of the band are one pair of comparisons of natural numbers. -/
theorem toleranceIsExact : Obligations.ToleranceIsExact := by
  intro fs scount dur tmo hfs _
  have hlow := percent_le_iff 85 fs scount dur
  have hhigh := le_percent_iff 115 fs scount dur
  rw [Nat.cast_ofNat] at hlow hhigh
  refine ⟨?_, ?_, ?_⟩
  · rw [inTolerance_iff, le_elapsed_iff hfs, elapsed_le_iff hfs, hlow, hhigh]
  · rw [inTolerance_iff, Nat.ceil_le, Nat.le_floor_iff (by positivity), hlow, hhigh]
  · rw [timedOut_iff, le_elapsed_iff hfs, div_le_iff₀ (by norm_num)]
    norm_cast

/-! ## The codes of a trigger (R125, R252 to R255) -/

theorem condHolds_always (b : Bsm) (st : StateEntry) (x : Bool) : condHolds b st 0 x = true := rfl

theorem condHolds_pulseStart_iff (b : Bsm) (st : StateEntry) (x : Bool) :
    condHolds b st 1 x = true ↔ b.prev = false ∧ x = true := by
  change (!b.prev && x) = true ↔ _
  simp

theorem condHolds_pulseEnd_iff (b : Bsm) (st : StateEntry) (x : Bool) :
    condHolds b st 2 x = true ↔ b.prev = true ∧ x = false := by
  change (b.prev && !x) = true ↔ _
  simp

theorem condHolds_timeout_iff (b : Bsm) (st : StateEntry) (x : Bool) :
    condHolds b st 3 x = true ↔ st.timeoutUs ≠ 0 ∧ st.timeoutUs.toNat * b.fs.toNat ≤ b.scount * 1000000 := by
  change timedOut _ _ _ = true ↔ _
  rw [timedOut_iff, ne_eq, ne_eq, BitVec.toNat_eq]
  rfl

theorem condHolds_msgComplete_iff (b : Bsm) (st : StateEntry) (x : Bool) :
    condHolds b st 4 x = true ↔ b.msgBits.toNat ≤ b.bitcnt :=
  decide_eq_true_iff

theorem triggerParticipates_iff (b : Bsm) (t : Trigger) :
    triggerParticipates b t = true ↔ t.durUs = 0 ∨ inTolerance b.fs.toNat b.scount t.durUs.toNat = true := by
  simp only [triggerParticipates, Bool.or_eq_true, decide_eq_true_eq]

theorem edgeCondition_iff : ∀ c : BitVec 3, edgeCondition c = true ↔ c = 1 ∨ c = 2 := by decide

theorem durationMismatch_iff (b : Bsm) (st : StateEntry) (t : Trigger) :
    durationMismatch b st t = true ↔ (t.cond = 1 ∨ t.cond = 2) ∧ st.durationUs ≠ 0 ∧
      inTolerance b.fs.toNat b.scount st.durationUs.toNat = false := by
  simp only [durationMismatch, Bool.and_eq_true, edgeCondition_iff, decide_eq_true_eq, Bool.not_eq_true', and_assoc]

theorem outputsData_iff (t : Trigger) : outputsData t = true ↔ t.action = 3 := by
  have hcode : ∀ c : BitVec 3, actionOfCode c = some .outputData ↔ c = 3 := by decide
  simp only [outputsData, decide_eq_true_eq, hcode]

/-- What the aggregator does, by the code of the action: the codes 1 and 2 append, where there is room (R254). -/
theorem performAction_eq (b : Bsm) (t : Trigger) :
    performAction b t =
      if t.action = 1 ∨ t.action = 2 then
        if b.msgBits.toNat ≤ b.bitcnt then none else some (appendBit b (decide (t.action = 2)))
      else some b := by
  have hzero : ∀ c : BitVec 3, actionOfCode c = some .append0 ↔ c = 1 := by decide
  have hone : ∀ c : BitVec 3, actionOfCode c = some .append1 ↔ c = 2 := by decide
  unfold performAction
  split
  · next hcode =>
    rw [(hzero _).mp hcode]
    rfl
  · next hcode =>
    rw [(hone _).mp hcode]
    rfl
  · next hne0 hne1 => rw [if_neg (not_or.mpr ⟨mt (hzero _).mpr hne0, mt (hone _).mpr hne1⟩)]

theorem performAction_of_full {b : Bsm} {t : Trigger} (hact : t.action = 1 ∨ t.action = 2)
    (hfull : b.msgBits.toNat ≤ b.bitcnt) : performAction b t = none := by
  rw [performAction_eq, if_pos hact, if_pos hfull]

/-- The machine after the action of a trigger that has room for the bit it appends (R254). -/
def acted (b : Bsm) (t : Trigger) : Bsm :=
  if t.action = 1 ∨ t.action = 2 then appendBit b (decide (t.action = 2)) else b

theorem performAction_of_room {b : Bsm} {t : Trigger} (hroom : t.action = 1 ∨ t.action = 2 → b.bitcnt < b.msgBits.toNat) :
    performAction b t = some (acted b t) := by
  rw [performAction_eq, acted]
  split_ifs with hact hfull
  · exact absurd (hroom hact) (Nat.not_lt.mpr hfull)
  · rfl
  · rfl

theorem acted_of_output {b : Bsm} {t : Trigger} (hout : t.action = 3) : acted b t = b := by
  rw [acted, hout]
  exact if_neg (by decide)

/-! ## The transition (R256, R257) -/

section

variable {b : Bsm} {t : Trigger}

theorem enterNext_of_ne (hnext : t.next ≠ 0) : enterNext b t = { b with cur := t.next.toNat, scount := 0 } :=
  if_neg (by simpa [BitVec.toNat_eq] using hnext)

theorem enterNext_of_output (hnext : t.next = 0) (hout : t.action = 3) :
    enterNext b t = { b with cur := t.next.toNat, scount := 0, clrPending := true } :=
  (if_pos (by rw [hnext]; rfl)).trans (if_pos ((outputsData_iff t).mpr hout))

theorem enterNext_of_clear (hnext : t.next = 0) (hout : t.action ≠ 3) :
    enterNext b t = clearAcc { b with cur := t.next.toNat, scount := 0 } :=
  (if_pos (by rw [hnext]; rfl)).trans (if_neg (mt (outputsData_iff t).mp hout))

end

/-! ## The sample -/

section

variable {b : Bsm} {x : Bool} {pre post : List Trigger} {t : Trigger}

/-- No trigger fires when each one that takes part has a condition that does not hold (R251, R260). -/
theorem firingTrigger_eq_none (h : ∀ u ∈ (currentState b).trigs, triggerParticipates b u = true →
    condHolds b (currentState b) u.cond x = false) : firingTrigger b x = none :=
  List.find?_eq_none.mpr fun u hu hfires => by
    obtain ⟨hpart, hcond⟩ := (Bool.and_eq_true _ _).mp hfires
    exact Bool.false_ne_true ((h u hu hpart).symm.trans hcond)

/-- The first trigger in the list that takes part and whose condition holds is the one that fires (R251). -/
theorem firingTrigger_eq_some (htrigs : (currentState b).trigs = pre ++ t :: post)
    (hpre : ∀ u ∈ pre, triggerParticipates b u = true → condHolds b (currentState b) u.cond x = false)
    (hpart : triggerParticipates b t = true) (hcond : condHolds b (currentState b) t.cond x = true) :
    firingTrigger b x = some t := by
  refine List.find?_eq_some_iff_append.mpr ⟨by rw [hpart, hcond]; rfl, pre, post, htrigs, fun u hu => ?_⟩
  cases hu' : triggerParticipates b u with
  | false => rfl
  | true => rw [hpre u hu hu']; rfl

/-- A sample on which nothing fires (R260). -/
theorem sampleStep_of_silent (h : firingTrigger (countSample b) x = none) :
    sampleStep b x = ({ countSample b with prev := x }, .noOutputYet) := by
  simp only [sampleStep, h]

/-- A sample whose trigger fires against the state's duration or has no room for its bit (R253, R254). -/
theorem sampleStep_of_anomaly (h : firingTrigger (countSample b) x = some t)
    (hbad : durationMismatch (countSample b) (currentState b) t = true ∨ performAction (countSample b) t = none) :
    sampleStep b x = (recover (countSample b) x, .error) := by
  change durationMismatch _ (currentState (countSample b)) _ = true ∨ _ at hbad
  by_cases hdur : durationMismatch (countSample b) (currentState (countSample b)) t = true
  · simp only [sampleStep, h, if_pos hdur]
  · simp only [sampleStep, h, if_neg hdur, hbad.resolve_left hdur]

/-- A sample whose trigger fires as the state's duration and the record allow (R250). -/
theorem sampleStep_of_fires (h : firingTrigger (countSample b) x = some t)
    (hdur : durationMismatch (countSample b) (currentState b) t ≠ true)
    (hroom : t.action = 1 ∨ t.action = 2 → b.bitcnt < b.msgBits.toNat) :
    sampleStep b x = ({ enterNext (acted (countSample b) t) t with prev := x },
      if t.action = 3 then .outputReady else .noOutputYet) := by
  change durationMismatch _ (currentState (countSample b)) _ ≠ true at hdur
  have hact : performAction (countSample b) t = some (acted (countSample b) t) := performAction_of_room hroom
  simp only [sampleStep, h, if_neg hdur, hact, outputsData_iff]

/-- All that one sample can do (R250). -/
theorem sampleStep_cases (b : Bsm) (x : Bool) :
    sampleStep b x = ({ countSample b with prev := x }, .noOutputYet) ∨
      sampleStep b x = (recover (countSample b) x, .error) ∨
      ∃ t, sampleStep b x = ({ enterNext (acted (countSample b) t) t with prev := x },
        if t.action = 3 then .outputReady else .noOutputYet) := by
  cases hfires : firingTrigger (countSample b) x with
  | none => exact .inl (sampleStep_of_silent hfires)
  | some t =>
    by_cases hbad : durationMismatch (countSample b) (currentState b) t = true ∨ performAction (countSample b) t = none
    · exact .inr (.inl (sampleStep_of_anomaly hfires hbad))
    · obtain ⟨hdur, hacts⟩ := not_or.mp hbad
      have hroom : t.action = 1 ∨ t.action = 2 → b.bitcnt < b.msgBits.toNat := fun hact =>
        Nat.lt_of_not_le fun hfull => hacts (performAction_of_full hact hfull)
      exact .inr (.inr ⟨t, sampleStep_of_fires hfires hdur hroom⟩)

end

/-! ## BSM.PROC -/

section

variable {s : State}

theorem bsmNotRunnable_of_initialized (h : bsmInitialized s.bsm = true) : bsmNotRunnable s = none := by
  simp [bsmNotRunnable, bsmInitialized_valid h, h]

/-- BSM.PROC on an initialized machine answers its body (R250). -/
theorem exec_bsmProc (h : bsmInitialized s.bsm = true) (xs : List Bool) :
    exec (.bsmProc xs) s = .next (State.completedWith { s with bsm := (procBody s.bsm xs).1 }
      [BitVec.ofNat 32 (procBody s.bsm xs).2.1, resultCode (procBody s.bsm xs).2.2]) := by
  simp only [exec, execBsmProc, bsmNotRunnable_of_initialized h]
  rfl

/-- With no clear pending the body is the loop alone (R257). -/
theorem procBody_of_not_pending {b : Bsm} (h : b.clrPending = false) (xs : List Bool) :
    procBody b xs = sampleLoop 0 b xs := by
  simp [procBody, pendingClear, h]

/-- A sample that gives no output lets the loop go on. -/
theorem sampleLoop_cons_of_silent {k : Nat} {b : Bsm} {x : Bool} {xs : List Bool} (h : (sampleStep b x).2 = .noOutputYet) :
    sampleLoop k b (x :: xs) = sampleLoop (k + 1) (sampleStep b x).1 xs := by
  rcases hs : sampleStep b x with ⟨b', r⟩
  rw [hs] at h
  cases h
  simp only [sampleLoop, hs]

/-- A sample that gives an output or an error ends the loop (R259). -/
theorem sampleLoop_cons_of_event {k : Nat} {b : Bsm} {x : Bool} {xs : List Bool} (h : (sampleStep b x).2 ≠ .noOutputYet) :
    sampleLoop k b (x :: xs) = ((sampleStep b x).1, k + 1, (sampleStep b x).2) := by
  rcases hs : sampleStep b x with ⟨b', r⟩
  rw [hs] at h
  cases r with
  | noOutputYet => exact absurd rfl h
  | outputReady => simp only [sampleLoop, hs]
  | error => simp only [sampleLoop, hs]

theorem sampleLoop_singleton (k : Nat) (b : Bsm) (x : Bool) :
    sampleLoop k b [x] = ((sampleStep b x).1, k + 1, (sampleStep b x).2) := by
  by_cases h : (sampleStep b x).2 = .noOutputYet
  · rw [sampleLoop_cons_of_silent h, h]
    rfl
  · exact sampleLoop_cons_of_event h

/-- BSM.PROC of one sample is that sample's step (R250). -/
theorem exec_bsmProc_singleton (h : bsmInitialized s.bsm = true) (hclr : s.bsm.clrPending = false) {x : Bool} {b : Bsm}
    {r : SampleResult} (hstep : sampleStep s.bsm x = (b, r)) :
    exec (.bsmProc [x]) s = .next (State.completedWith { s with bsm := b } [1, resultCode r]) := by
  rw [exec_bsmProc h, procBody_of_not_pending hclr, sampleLoop_singleton, hstep]
  rfl

end

/-! ## The obligations -/

/-- Settles O46: the scan finds no trigger. -/
theorem silentSampleAges : Obligations.SilentSampleAges := fun _ _ hinit hclr hsilent =>
  exec_bsmProc_singleton hinit hclr (sampleStep_of_silent (firingTrigger_eq_none hsilent))

/-- Settles O47: the scan finds `t`, and either the duration or the full record makes it an anomaly. -/
theorem hardResetOnAnomaly : Obligations.HardResetOnAnomaly := by
  intro x s pre post t hinit hclr htrigs hpre hpart hcond hbad
  have hfires : firingTrigger (countSample s.bsm) x = some t := firingTrigger_eq_some htrigs hpre hpart hcond
  refine exec_bsmProc_singleton hinit hclr (sampleStep_of_anomaly hfires ?_)
  refine hbad.imp (fun hdur => (durationMismatch_iff _ _ t).mpr hdur) fun hfull => ?_
  obtain ⟨hact, hfull⟩ := hfull
  exact performAction_of_full hact hfull

/-- Settles O48: the codes one by one, and for a trigger that fires the three ways into its next state. -/
theorem triggerTransition : Obligations.TriggerTransition := by
  refine ⟨fun b st x => ⟨condHolds_always b st x, condHolds_pulseStart_iff b st x, condHolds_pulseEnd_iff b st x,
      condHolds_timeout_iff b st x, condHolds_msgComplete_iff b st x⟩,
    fun b t => by rw [triggerParticipates_iff, inTolerance_iff], fun b => rfl, ?_⟩
  intro x s pre post t hinit hclr htrigs hpre hpart hcond hdur hroom b appended
  have hfires : firingTrigger (countSample s.bsm) x = some t := firingTrigger_eq_some htrigs hpre hpart hcond
  have hmatch : durationMismatch (countSample s.bsm) (currentState s.bsm) t ≠ true := by
    rw [ne_eq, durationMismatch_iff]
    rintro ⟨hedge, hne, hout⟩
    exact Bool.false_ne_true (hout.symm.trans (hdur hedge hne))
  have hstep := sampleStep_of_fires hfires hmatch hroom
  have happended : { acted (countSample s.bsm) t with cur := t.next.toNat, scount := 0, prev := x } = appended := by
    simp only [acted, appended]
    split_ifs <;> rfl
  rw [exec_bsmProc_singleton hinit hclr hstep]
  by_cases hnext : t.next ≠ 0
  · rw [if_pos hnext, enterNext_of_ne hnext, ← happended]
    split_ifs <;> rfl
  rw [if_neg hnext]
  rw [ne_eq, not_not] at hnext
  by_cases hout : t.action = 3
  · rw [if_pos hout, if_pos hout, enterNext_of_output hnext hout, acted_of_output hout]
    rfl
  · rw [if_neg hout, if_neg hout, enterNext_of_clear hnext hout, acted]
    split_ifs <;> rfl

end Sys2Proof.Machine

namespace Sys2Proof.Machine

/-! # A stream of samples (O44, O45, O49)

BSM.PROC clears what is pending, then runs its samples one by one on a machine whose table never changes. No sample that
gives no output leaves a clear pending, so a second call starts where the first one ended. -/

/-! ## What BSM.PROC keeps (R40, R41) -/

/-- The two machines have the same table and the same configuration registers. -/
structure Bsm.SameConfig (b c : Bsm) : Prop where
  states : b.states = c.states
  fs : b.fs = c.fs
  msgBits : b.msgBits = c.msgBits
  onVal : b.onVal = c.onVal
  valid : b.valid = c.valid

theorem Bsm.SameConfig.trans {b c d : Bsm} (h : b.SameConfig c) (h' : c.SameConfig d) : b.SameConfig d :=
  ⟨h.states.trans h'.states, h.fs.trans h'.fs, h.msgBits.trans h'.msgBits, h.onVal.trans h'.onVal, h.valid.trans h'.valid⟩

/-- The table and the valid bit decide readiness (R43). -/
theorem Bsm.SameConfig.initialized {b c : Bsm} (h : b.SameConfig c) (hc : bsmInitialized c = true) :
    bsmInitialized b = true := by
  rw [bsmInitialized, h.states, h.valid]
  exact hc

theorem sampleStep_sameConfig (b : Bsm) (x : Bool) : (sampleStep b x).1.SameConfig b := by
  obtain ⟨hstates, hfs, hmsgBits, honVal, hvalid⟩ := sampleStep_config b x
  exact ⟨hstates, hfs, hmsgBits, honVal, hvalid⟩

theorem sampleLoop_sameConfig (k : Nat) (b : Bsm) (xs : List Bool) : (sampleLoop k b xs).1.SameConfig b := by
  induction xs generalizing k b with
  | nil => exact ⟨rfl, rfl, rfl, rfl, rfl⟩
  | cons x xs ih =>
    by_cases h : (sampleStep b x).2 = .noOutputYet
    · rw [sampleLoop_cons_of_silent h]
      exact (ih _ _).trans (sampleStep_sameConfig b x)
    · rw [sampleLoop_cons_of_event h]
      exact sampleStep_sameConfig b x

theorem pendingClear_sameConfig (b : Bsm) : (pendingClear b).SameConfig b := by
  unfold pendingClear
  split <;> exact ⟨rfl, rfl, rfl, rfl, rfl⟩

theorem procBody_sameConfig (b : Bsm) (xs : List Bool) : (procBody b xs).1.SameConfig b :=
  (sampleLoop_sameConfig 0 _ xs).trans (pendingClear_sameConfig b)

/-! ## The pending clear (R257) -/

theorem acted_clrPending (b : Bsm) (t : Trigger) : (acted b t).clrPending = b.clrPending := by
  unfold acted
  split <;> rfl

theorem enterNext_clrPending {b : Bsm} {t : Trigger} (hout : t.action ≠ 3) :
    (enterNext b t).clrPending = b.clrPending := by
  by_cases hnext : t.next = 0
  · rw [enterNext_of_clear hnext hout]
    rfl
  · rw [enterNext_of_ne hnext]

/-- Only an output leaves a clear pending (R257). -/
theorem sampleStep_clrPending {b : Bsm} {x : Bool} (hclr : b.clrPending = false) (h : (sampleStep b x).2 = .noOutputYet) :
    (sampleStep b x).1.clrPending = false := by
  obtain hs | hs | ⟨t, hs⟩ := sampleStep_cases b x
  · rw [hs]
    exact hclr
  · rw [hs]
    rfl
  · rw [hs] at h ⊢
    have hout : t.action ≠ 3 := fun hout => by simp [hout] at h
    exact (enterNext_clrPending hout).trans ((acted_clrPending _ t).trans hclr)

theorem sampleLoop_clrPending {k : Nat} {b : Bsm} {xs : List Bool} (hclr : b.clrPending = false)
    (h : (sampleLoop k b xs).2.2 = .noOutputYet) : (sampleLoop k b xs).1.clrPending = false := by
  induction xs generalizing k b with
  | nil => exact hclr
  | cons x xs ih =>
    by_cases hx : (sampleStep b x).2 = .noOutputYet
    · rw [sampleLoop_cons_of_silent hx] at h ⊢
      exact ih (sampleStep_clrPending hclr hx) h
    · rw [sampleLoop_cons_of_event hx] at h
      exact absurd h hx

/-! ## One call and two (R259) -/

/-- The index a loop starts from is added to the count of samples examined, and to nothing else. -/
theorem sampleLoop_index (k : Nat) (b : Bsm) (xs : List Bool) :
    sampleLoop k b xs = ((sampleLoop 0 b xs).1, k + (sampleLoop 0 b xs).2.1, (sampleLoop 0 b xs).2.2) := by
  induction xs generalizing k b with
  | nil => rfl
  | cons x xs ih =>
    by_cases hx : (sampleStep b x).2 = .noOutputYet
    · rw [sampleLoop_cons_of_silent hx, sampleLoop_cons_of_silent hx, ih (k + 1), ih (0 + 1)]
      simp only [Nat.add_assoc, Nat.zero_add]
    · rw [sampleLoop_cons_of_event hx, sampleLoop_cons_of_event hx, Nat.zero_add]

/-- A loop whose first samples give no output goes on from the machine they leave. -/
theorem sampleLoop_append {k : Nat} {b : Bsm} {xs : List Bool} (ys : List Bool)
    (h : (sampleLoop k b xs).2.2 = .noOutputYet) :
    sampleLoop k b (xs ++ ys) = sampleLoop (k + xs.length) (sampleLoop k b xs).1 ys := by
  induction xs generalizing k b with
  | nil => rfl
  | cons x xs ih =>
    by_cases hx : (sampleStep b x).2 = .noOutputYet
    · rw [sampleLoop_cons_of_silent hx] at h
      rw [List.cons_append, sampleLoop_cons_of_silent hx, sampleLoop_cons_of_silent hx, ih h, List.length_cons,
        Nat.add_assoc, Nat.add_comm 1]
    · rw [sampleLoop_cons_of_event hx] at h
      exact absurd h hx

/-- A stream cut where its first part gives no output. -/
theorem procBody_append {b : Bsm} {xs : List Bool} (ys : List Bool) (h : (procBody b xs).2.2 = .noOutputYet) :
    procBody b (xs ++ ys) = ((procBody (procBody b xs).1 ys).1, xs.length + (procBody (procBody b xs).1 ys).2.1,
      (procBody (procBody b xs).1 ys).2.2) := by
  have hnotPending : (procBody b xs).1.clrPending = false := sampleLoop_clrPending (pendingClear_clrPending b) h
  have hsplit : procBody b (xs ++ ys) = sampleLoop (0 + xs.length) (procBody b xs).1 ys := sampleLoop_append ys h
  rw [hsplit, sampleLoop_index, procBody_of_not_pending hnotPending, Nat.zero_add]

theorem resultCode_eq_zero {r : SampleResult} (h : resultCode r = 0) : r = .noOutputYet := by
  cases r with
  | noOutputYet => rfl
  | outputReady => exact absurd h (by decide)
  | error => exact absurd h (by decide)

/-- A clear performed before the call is the clear the call would perform (R257). -/
theorem procBody_pendingClear (b : Bsm) (xs : List Bool) : procBody (pendingClear b) xs = procBody b xs :=
  procBody_of_not_pending (pendingClear_clrPending b) xs

/-! ## The obligations -/

/-- Settles O44: the body keeps the configuration, and looks at a pending clear only to perform it. -/
theorem bsmProcCompletes : Obligations.BsmProcCompletes := by
  refine ⟨fun xs s hinit => ?_, fun xs s hinit hpending => ?_⟩
  · have hsame := procBody_sameConfig s.bsm xs
    refine ⟨(procBody s.bsm xs).1, (procBody s.bsm xs).2.1, (procBody s.bsm xs).2.2, exec_bsmProc hinit xs,
      procBody_le s.bsm xs, fun h => ?_, hsame.states, hsame.fs, hsame.msgBits, hsame.onVal, hsame.valid⟩
    exact (sampleLoop_noOutput xs 0 _ h).trans (Nat.zero_add _)
  · intro cleared
    have hcleared : pendingClear s.bsm = cleared := if_pos hpending
    have hinit' : bsmInitialized cleared = true := hcleared ▸ (pendingClear_sameConfig s.bsm).initialized hinit
    refine ⟨?_, ?_⟩
    · rw [exec_bsmProc hinit, ← procBody_pendingClear, hcleared]
      exact (exec_bsmProc (s := { s with bsm := cleared }) hinit' xs).symm
    · rw [exec_bsmProc hinit, procBody, hcleared]
      rfl

/-- Settles O45: `procBody_append`, on the machine the first call leaves. -/
theorem bsmProcSplits : Obligations.BsmProcSplits := by
  intro xs ys s t hinit hexec hreply
  rw [exec_bsmProc hinit] at hexec
  cases hexec
  have hresult : (procBody s.bsm xs).2.2 = .noOutputYet := by
    simp only [State.completedWith, List.cons.injEq] at hreply
    obtain ⟨-, -, hcode, -⟩ := hreply
    exact resultCode_eq_zero hcode
  have hinit' : bsmInitialized (procBody s.bsm xs).1 = true := (procBody_sameConfig s.bsm xs).initialized hinit
  have hwhole := exec_bsmProc hinit (xs ++ ys)
  rw [procBody_append ys hresult] at hwhole
  exact ⟨_, _, _, _, exec_bsmProc hinit' ys, hwhole, rfl, rfl, rfl⟩

/-- A sample on a table whose current state has the one trigger (always, output, next 0) is handed over (R261 a). -/
theorem sampleStep_of_always_output {b : Bsm} (x : Bool) (htrigs : (currentState b).trigs = [⟨0, 0, 3, 0⟩]) :
    sampleStep b x = ({ countSample b with cur := 0, scount := 0, clrPending := true, prev := x }, .outputReady) := by
  have hfires : firingTrigger (countSample b) x = some ⟨0, 0, 3, 0⟩ :=
    firingTrigger_eq_some (pre := []) htrigs nofun rfl rfl
  rw [sampleStep_of_fires hfires nofun (fun h => absurd h (by decide)), acted_of_output rfl, enterNext_of_output rfl rfl]
  rfl

/-- Settles O49: the machine is initialized, and its first sample ends the call with an output. -/
theorem alwaysOutputNeverErrs : Obligations.AlwaysOutputNeverErrs := by
  intro x xs name dur tmo s hv hcur hname hstates
  have hinit : bsmInitialized s.bsm = true := by
    rw [bsmInitialized_iff, hstates]
    simp [hv, hname]
  have hsame := pendingClear_sameConfig s.bsm
  have hcur' : (pendingClear s.bsm).cur = 0 := by
    rw [← hcur, pendingClear]
    split <;> rfl
  have htrigs : (currentState (pendingClear s.bsm)).trigs = [⟨0, 0, 3, 0⟩] := by
    rw [currentState, hsame.states, hcur', hstates]
    rfl
  have hstep := sampleStep_of_always_output x htrigs
  have hbody := sampleLoop_cons_of_event (k := 0) (xs := xs) (by rw [hstep]; nofun)
  rw [hstep] at hbody
  refine ⟨(procBody s.bsm (x :: xs)).1, ?_, ?_⟩
  · rw [exec_bsmProc hinit, procBody, hbody]
    rfl
  · rw [procBody, hbody]
    exact ⟨rfl, rfl, rfl, hsame.states, hsame.valid.trans hv⟩

end Sys2Proof.Machine

namespace Sys2Proof.Machine

/-! # A pass of the generate walk (O51, O52)

A pass selects a trigger, refuses it or emits its samples, and moves. The two emissions of a pass answer as one emission
of `genEmits` would: what matters to R292 is the capacities that doubling can reach, and these compose. -/

/-! ## Samples and triggers in the terms of R280 to R290 -/

theorem samplesOf_zero (fs : Nat) : samplesOf fs 0 = 0 := by
  rw [samplesOf, Nat.mul_zero, Nat.zero_mul]
  rfl

/-- Settles O51: both sides are the quotient of `2*us*Fs + 10^6` by `2*10^6`. -/
theorem sampleCountRounds : Obligations.SampleCountRounds := by
  refine ⟨fun fs us => ?_, by decide, by decide, by decide, by decide, by decide⟩
  have hquot : (us : ℚ) * fs / 1000000 + 1 / 2 = ((2 * us * fs + 1000000 : ℕ) : ℚ) / ((2 * 1000000 : ℕ) : ℚ) := by
    push_cast
    ring
  rw [hquot, Nat.floor_div_eq_div]
  rfl

theorem condOfCode_timeout_iff : ∀ c : BitVec 3, condOfCode c = some .timeout ↔ c = 3 := by decide

theorem appendsBit_iff (t : Trigger) : appendsBit t = true ↔ t.action = 1 ∨ t.action = 2 := by
  have hcode : ∀ a : BitVec 3, appendsBit ⟨0, 0, a, 0⟩ = true ↔ a = 1 ∨ a = 2 := by decide
  exact hcode t.action

theorem levelAfter_eq_genLevel (w : GenWalk) (t : Trigger) : levelAfter w.level t = genLevel w t := by
  have hcode : ∀ (c : BitVec 3) (l : Bool),
      levelAfter l ⟨c, 0, 0, 0⟩ = if c = 1 then true else if c = 2 then false else l := by decide
  exact hcode t.cond w.level

/-- The gap of a trigger under either mode (R289). -/
theorem gapSamples_eq (mode : GenGapMode) (fs : Nat) (t : Trigger) (nx : StateEntry) :
    gapSamples mode fs t nx = if t.durUs = 0 then 0
      else samplesOf fs (if mode = .difference then t.durUs.toNat - nx.durationUs.toNat else t.durUs.toNat) := by
  cases mode <;> rfl

/-! ## The capacities of the buffer (R292) -/

theorem GenCapacity.refl (p : Params) (cap : Nat) : GenCapacity p cap cap := ⟨0, (Nat.one_mul cap).symm, .inl rfl⟩

theorem GenCapacity.trans {p : Params} {a b c : Nat} (hab : GenCapacity p a b) (hbc : GenCapacity p b c) :
    GenCapacity p a c := by
  obtain ⟨i, rfl, hi⟩ := hab
  obtain ⟨j, rfl, hj⟩ := hbc
  refine ⟨j + i, by rw [pow_add, mul_assoc], ?_⟩
  rcases hj with rfl | hj
  · simpa using hi
  · exact .inr hj

/-- Of two capacities that can be reached, the larger can be reached from the smaller. -/
theorem GenCapacity.of_lt {p : Params} {a b c : Nat} (hab : GenCapacity p a b) (hac : GenCapacity p a c) (hlt : b < c) :
    GenCapacity p b c := by
  obtain ⟨i, rfl, -⟩ := hab
  obtain ⟨j, rfl, hj⟩ := hac
  have hij : i < j := (Nat.pow_lt_pow_iff_right Nat.one_lt_two).mp (Nat.lt_of_mul_lt_mul_right hlt)
  refine ⟨j - i, ?_, .inr (hj.resolve_left (by omega))⟩
  rw [← mul_assoc, ← pow_add, Nat.sub_add_cancel hij.le]

theorem GenCapacity.le_max {p : Params} {a c : Nat} (h : GenCapacity p a c) : c ≤ max a p.genMaxSamples := by
  obtain ⟨k, rfl, rfl | hk⟩ := h
  · simp
  · exact hk.trans (Nat.le_max_right _ _)

/-- A buffer with room does not grow. -/
theorem growCapacity_of_le {m need cap : Nat} (h : need ≤ cap) (fuel : Nat) : growCapacity m need fuel cap = some cap := by
  cases fuel <;> exact if_pos h

/-! ## Emitting (R288, R289, R292) -/

section

variable {p : Params} {b : Bsm} {w : GenWalk} {t : Trigger}

theorem emitSamples_of_room {m count : Nat} (h : w.buf.length + count ≤ w.gcap) (a : F32) :
    emitSamples m w count a = .ok { w with buf := w.buf ++ List.replicate count a } := by
  rw [emitSamples, growCapacity_of_le h]

/-- An emission that succeeds reaches a capacity (R292). -/
theorem emitSamples_capacity {count : Nat} {a : F32} {w' : GenWalk} (h : emitSamples p.genMaxSamples w count a = .ok w') :
    GenCapacity p w.gcap w'.gcap := by
  unfold emitSamples at h
  split at h
  · cases h
  · next hc =>
    cases h
    exact growCapacity_reached hc

/-- An emission that fails raises AllocationError, and no capacity that can be reached is enough (R292). -/
theorem emitSamples_error {count : Nat} {a : F32} {r : Raised} (h : emitSamples p.genMaxSamples w count a = .error r) :
    r = ⟨.allocationError, 0x30⟩ ∧ ∀ c, GenCapacity p w.gcap c → c < w.buf.length + count := by
  unfold emitSamples at h
  split at h
  · next hc =>
    cases h
    have hfuel : w.gcap = 0 ∨ p.genMaxSamples < 2 ^ (p.genMaxSamples.log2 + 1) * w.gcap := by
      rcases Nat.eq_zero_or_pos w.gcap with hz | hpos
      · exact .inl hz
      · exact .inr (Nat.lt_log2_self.trans_le (Nat.le_mul_of_pos_right _ hpos))
    exact ⟨rfl, growCapacity_none hfuel hc⟩
  · cases h

/-- The walk's count of idle passes plays no part in an emission. -/
theorem emitSamples_withIdle {m count : Nat} {a : F32} {w' : GenWalk} (h : emitSamples m w count a = .ok w') (k : Nat) :
    emitSamples m { w with idle := k } count a = .ok { w' with idle := k } := by
  unfold emitSamples at h ⊢
  split at h
  · cases h
  · next hc =>
    cases h
    simp only [hc]

/-- The two emissions of a transition, with the amplitudes of `genEmits`. -/
theorem genEmits_eq (p : Params) (b : Bsm) (w : GenWalk) (t : Trigger) :
    genEmits p b w t =
      List.replicate (gapSamples p.genGapMode b.fs.toNat t (b.states.getD t.next.toNat StateEntry.blank)) 0 ++
      List.replicate (samplesOf b.fs.toNat (b.states.getD t.next.toNat StateEntry.blank).durationUs.toNat)
        (if levelAfter w.level t then b.onVal else 0) := by
  rw [gapSamples_eq, levelAfter_eq_genLevel]
  rfl

theorem emitTransition_ok {w' : GenWalk} (h : emitTransition p b w t = .ok w') :
    w'.buf = w.buf ++ genEmits p b w t ∧ GenCapacity p w.gcap w'.gcap ∧ w'.buf.length ≤ w'.gcap ∧
      w'.cur = w.cur ∧ w'.level = w.level ∧ w'.bits = w.bits ∧ w'.idle = w.idle := by
  unfold emitTransition at h
  dsimp only at h
  split at h
  · cases h
  · next w1 h1 =>
    obtain ⟨hbuf1, hcur1, hlevel1, hbits1, hidle1, -, -⟩ := emitSamples_ok h1
    obtain ⟨hbuf2, hcur2, hlevel2, hbits2, hidle2, hroom, -⟩ := emitSamples_ok h
    refine ⟨?_, (emitSamples_capacity h1).trans (emitSamples_capacity h), ?_, hcur2.trans hcur1,
      hlevel2.trans hlevel1, hbits2.trans hbits1, hidle2.trans hidle1⟩
    · rw [hbuf2, hbuf1, List.append_assoc, genEmits_eq]
    · rw [hbuf2, List.length_append, List.length_replicate]
      exact hroom

theorem emitTransition_error {r : Raised} (h : emitTransition p b w t = .error r) :
    r = ⟨.allocationError, 0x30⟩ ∧ ∀ c, GenCapacity p w.gcap c → c < (w.buf ++ genEmits p b w t).length := by
  rw [genEmits_eq, List.length_append, List.length_append, List.length_replicate, List.length_replicate]
  unfold emitTransition at h
  dsimp only at h
  split at h
  · next h1 =>
    cases h
    obtain ⟨hr, hfull⟩ := emitSamples_error h1
    exact ⟨hr, fun c hc => (hfull c hc).trans_le (by omega)⟩
  · next w1 h1 =>
    obtain ⟨hbuf1, -, -, -, -, hroom1, -⟩ := emitSamples_ok h1
    obtain ⟨hr, hfull⟩ := emitSamples_error h
    rw [hbuf1, List.length_append, List.length_replicate] at hfull
    refine ⟨hr, fun c hc => ?_⟩
    rcases Nat.lt_or_ge w1.gcap c with hlt | hle
    · have := hfull c ((emitSamples_capacity h1).of_lt hc hlt)
      omega
    · have := hfull w1.gcap (.refl p _)
      omega

/-- A transition whose samples the buffer has room for. -/
theorem emitTransition_of_room (h : (w.buf ++ genEmits p b w t).length ≤ w.gcap) :
    emitTransition p b w t = .ok { w with buf := w.buf ++ genEmits p b w t } := by
  rw [genEmits_eq] at h ⊢
  simp only [List.length_append, List.length_replicate] at h
  have hgap := emitSamples_of_room (m := p.genMaxSamples) (w := w)
    (count := gapSamples p.genGapMode b.fs.toNat t (b.states.getD t.next.toNat StateEntry.blank)) (by omega) 0
  simp only [emitTransition, hgap]
  rw [emitSamples_of_room (by simp only [List.length_append, List.length_replicate]; omega), List.append_assoc]

theorem emitTransition_withIdle {w' : GenWalk} (h : emitTransition p b w t = .ok w') (k : Nat) :
    emitTransition p b { w with idle := k } t = .ok { w' with idle := k } := by
  unfold emitTransition at h ⊢
  dsimp only at h ⊢
  split at h
  · cases h
  · next w1 h1 =>
    rw [emitSamples_withIdle h1 k]
    exact emitSamples_withIdle h k

end

/-! ## Selecting (R283 to R286, R293) -/

theorem find?_eq_some_of_firstWith {P : Trigger → Prop} {f : Trigger → Bool} (hf : ∀ u, f u = true ↔ P u)
    {trigs : List Trigger} {t : Trigger} (h : FirstWith P trigs t) : trigs.find? f = some t := by
  obtain ⟨pre, post, rfl, ht, hpre⟩ := h
  refine List.find?_eq_some_iff_append.mpr ⟨(hf t).mpr ht, pre, post, rfl, fun u hu => ?_⟩
  rw [Bool.not_eq_true', ← Bool.not_eq_true, hf]
  exact hpre u hu

/-- The first scan of a pass looks for a trigger that matches and is possible (R283). -/
theorem matchesPossible_iff (w : GenWalk) (u : Trigger) :
    (generateActMatch w.bit u && generateCondOk w.level w.bit.isNone u) = true ↔ GenMatches w u ∧ GenPossible w u := by
  rw [Bool.and_eq_true, generateActMatch_iff, generateCondOk_iff]

theorem selectTrigger_of_selects {w : GenWalk} {trigs : List Trigger} {t : Trigger} (h : GenSelects w trigs t) :
    selectTrigger w.level w.bit trigs = some t := by
  rcases h with hfirst | ⟨hnone, hfirst⟩
  · simp only [selectTrigger, find?_eq_some_of_firstWith (matchesPossible_iff w) hfirst]
  · have hscan : trigs.find? (fun u => generateActMatch w.bit u && generateCondOk w.level w.bit.isNone u) = none :=
      List.find?_eq_none.mpr fun u hu => (matchesPossible_iff w u).not.mpr (hnone u hu)
    simp only [selectTrigger, hscan, find?_eq_some_of_firstWith (generateCondOk_iff w) hfirst]

theorem selectTrigger_of_impossible {w : GenWalk} {trigs : List Trigger} (h : ∀ t ∈ trigs, ¬ GenPossible w t) :
    selectTrigger w.level w.bit trigs = none := by
  have hmatch : trigs.find? (fun u => generateActMatch w.bit u && generateCondOk w.level w.bit.isNone u) = none :=
    List.find?_eq_none.mpr fun u hu => (matchesPossible_iff w u).not.mpr fun ⟨_, hpossible⟩ => h u hu hpossible
  have hany : trigs.find? (generateCondOk w.level w.bit.isNone) = none :=
    List.find?_eq_none.mpr fun u hu => (generateCondOk_iff w u).not.mpr (h u hu)
  simp only [selectTrigger, hmatch, hany]

/-- A selected timeout is refused (R286). -/
theorem selectionError_of_timeout {bit : Option Bool} {t : Trigger} (h : t.cond = 3) :
    selectionError bit (some t) = some ⟨.protocolError, 2⟩ :=
  if_pos ((condOfCode_timeout_iff _).mpr h)

theorem selectionError_of_not_timeout {t : Trigger} (h : t.cond ≠ 3) (bit : Option Bool) :
    selectionError bit (some t) =
      if appendsBit t && !generateActMatch bit t then some (raisedAs .protocolError 3) else none :=
  if_neg (mt (condOfCode_timeout_iff _).mp h)

/-- A selected trigger that would append another bit is refused (R285). -/
theorem selectionError_of_wrong_bit {w : GenWalk} {t : Trigger} (h : t.cond ≠ 3) (happ : t.action = 1 ∨ t.action = 2)
    (hmatch : ¬ GenMatches w t) : selectionError w.bit (some t) = some ⟨.protocolError, 3⟩ := by
  have hno : generateActMatch w.bit t = false := Bool.eq_false_iff.mpr (mt (generateActMatch_iff w t).mp hmatch)
  rw [selectionError_of_not_timeout h, (appendsBit_iff t).mpr happ, hno]
  rfl

/-- A selected trigger that is neither is taken. -/
theorem selectionError_of_taken {w : GenWalk} {t : Trigger} (h : t.cond ≠ 3)
    (hmatch : t.action = 1 ∨ t.action = 2 → GenMatches w t) : selectionError w.bit (some t) = none := by
  rw [selectionError_of_not_timeout h]
  refine if_neg fun hrefused => ?_
  obtain ⟨happ, hno⟩ := (Bool.and_eq_true _ _).mp hrefused
  rw [(generateActMatch_iff w t).mpr (hmatch ((appendsBit_iff t).mp happ))] at hno
  exact Bool.false_ne_true hno

/-! ## The pass -/

section

variable {p : Params} {b : Bsm} {w : GenWalk} {t : Trigger}

theorem genPass_of_refused {r : Raised}
    (h : selectionError w.bit (selectTrigger w.level w.bit (b.states.getD w.cur StateEntry.blank).trigs) = some r) :
    genPass p b w = .error r := by
  simp only [genPass, h]

theorem genPass_of_impossible (h : ∀ t ∈ (b.states.getD w.cur StateEntry.blank).trigs, ¬ GenPossible w t) :
    genPass p b w = .error ⟨.protocolError, 1⟩ :=
  genPass_of_refused (by rw [selectTrigger_of_impossible h]; rfl)

/-- A pass that takes its trigger is the trigger's transition, then the move (R280). -/
theorem genPass_of_taken (hsel : selectTrigger w.level w.bit (b.states.getD w.cur StateEntry.blank).trigs = some t)
    (herr : selectionError w.bit (some t) = none) :
    genPass p b w = (emitTransition p b w t).map fun w1 => countIdle w (advanceWalk w1 t) := by
  simp only [genPass, hsel, herr]
  cases emitTransition p b w t <;> rfl

/-- All that a pass which raises nothing can do: it took a trigger of the current state. -/
theorem genPass_ok {w' : GenWalk} (h : genPass p b w = .ok w') :
    ∃ t w1, selectTrigger w.level w.bit (b.states.getD w.cur StateEntry.blank).trigs = some t ∧
      selectionError w.bit (some t) = none ∧ emitTransition p b w t = .ok w1 ∧ w' = countIdle w (advanceWalk w1 t) := by
  unfold genPass at h
  dsimp only at h
  split at h
  · cases h
  · cases h
  · next t herr hsel =>
    rw [hsel] at herr
    split at h
    · cases h
    · next w1 hemit =>
      cases h
      exact ⟨t, w1, hsel, herr, hemit, rfl⟩

/-- A pass that selects a trigger it does not refuse, with room for the samples. -/
theorem genPass_of_selects {emits : List F32} (hselects : GenSelects w (b.states.getD w.cur StateEntry.blank).trigs t)
    (hcond : t.cond ≠ 3) (hmatch : t.action = 1 ∨ t.action = 2 → GenMatches w t) (hemits : genEmits p b w t = emits)
    (hroom : w.buf.length + emits.length ≤ w.gcap) :
    genPass p b w = .ok (countIdle w (advanceWalk { w with buf := w.buf ++ emits } t)) := by
  subst hemits
  rw [genPass_of_taken (selectTrigger_of_selects hselects) (selectionError_of_taken hcond hmatch),
    emitTransition_of_room (by rwa [List.length_append])]
  rfl

end

/-- The clause of O52 about a pass that takes its trigger: AllocationError when no capacity suffices, else the samples,
the cursor, the level and the bits of R280. -/
theorem genPass_takes {p : Params} {b : Bsm} {w : GenWalk} {t : Trigger}
    (hsel : selectTrigger w.level w.bit (b.states.getD w.cur StateEntry.blank).trigs = some t)
    (herr : selectionError w.bit (some t) = none) :
    ((∀ c, GenCapacity p w.gcap c → c < (w.buf ++ genEmits p b w t).length) →
      genPass p b w = .error ⟨.allocationError, 0x30⟩) ∧
    ((∃ c, GenCapacity p w.gcap c ∧ (w.buf ++ genEmits p b w t).length ≤ c) →
      ∃ w' : GenWalk, genPass p b w = .ok w' ∧ w'.buf = w.buf ++ genEmits p b w t ∧ GenCapacity p w.gcap w'.gcap ∧
        (w.buf ++ genEmits p b w t).length ≤ w'.gcap ∧ w'.cur = t.next.toNat ∧ w'.level = genLevel w t ∧
        w'.bits = if t.action = 1 ∨ t.action = 2 then w.bits.tail else w.bits) := by
  rw [genPass_of_taken hsel herr]
  cases hemit : emitTransition p b w t with
  | error r =>
    obtain ⟨rfl, hfull⟩ := emitTransition_error hemit
    exact ⟨fun _ => rfl, fun ⟨c, hc, hle⟩ => absurd (hfull c hc) (Nat.not_lt.mpr hle)⟩
  | ok w1 =>
    obtain ⟨hbuf, hcap, hroom, -, hlevel, hbits, -⟩ := emitTransition_ok hemit
    rw [hbuf] at hroom
    refine ⟨fun hfull => absurd (hfull _ hcap) (Nat.not_lt.mpr hroom),
      fun _ => ⟨_, rfl, hbuf, hcap, hroom, rfl, ?_, ?_⟩⟩
    · rw [← levelAfter_eq_genLevel, ← hlevel]
      rfl
    · simp only [← appendsBit_iff, ← hbits]
      rfl

end Sys2Proof.Machine

namespace Sys2Proof.Machine

/-! # BSM.GEN decides the generate walk (O52)

A walk that stops has at every pass a number of passes still to come, and a pass does not look at the count of idle
passes. So the walks of one idle stretch, which agree in all but cursor and level, differ there: there are at most
`idleLimit` of them. The passes between idle stretches consume a bit or fill the buffer, which bounds them too. -/

/-! ## The model's loop -/

section

variable {p : Params} {b : Bsm} {w w' : GenWalk} {fuel : Nat}

theorem genLoop_of_error {r : Raised} (h : genPass p b w = .error r) : genLoop p b (fuel + 1) w = .failed r := by
  simp only [genLoop, h]

theorem genLoop_of_last (h : genPass p b w = .ok w') (hbits : w.bits = []) :
    genLoop p b (fuel + 1) w = .samples w'.buf := by
  simp [genLoop, h, hbits]

theorem genLoop_of_more (h : genPass p b w = .ok w') (hbits : w.bits ≠ []) :
    genLoop p b (fuel + 1) w = if idleLimit b < w'.idle then .stuck else genLoop p b fuel w' := by
  simp [genLoop, h, hbits]

/-- Where the loop goes on it has fuel, and its next walk is not past the idle limit. -/
theorem genLoop_more_of_not_stuck (h : genPass p b w = .ok w') (hbits : w.bits ≠ []) (hns : genLoop p b fuel w ≠ .stuck) :
    ∃ k, genLoop p b fuel w = genLoop p b k w' ∧ genLoop p b k w' ≠ .stuck := by
  cases fuel with
  | zero => exact absurd rfl hns
  | succ k =>
    rw [genLoop_of_more h hbits] at hns ⊢
    split_ifs at hns ⊢ with hidle
    · exact absurd rfl hns
    · exact ⟨k, rfl, hns⟩

/-- A loop that is not stuck answers as the walk ends, or as it fails. -/
theorem genLoop_of_ends {amps : List F32} (h : GenEnds p b w amps) (hns : genLoop p b fuel w ≠ .stuck) :
    genLoop p b fuel w = .samples amps := by
  induction h generalizing fuel with
  | last w w' hpass hbits =>
    cases fuel with
    | zero => exact absurd rfl hns
    | succ fuel => exact genLoop_of_last hpass hbits
  | more w w' amps hpass hbits _ ih =>
    obtain ⟨k, hloop, hns'⟩ := genLoop_more_of_not_stuck hpass hbits hns
    exact hloop.trans (ih hns')

theorem genLoop_of_fails {r : Raised} (h : GenFails p b w r) (hns : genLoop p b fuel w ≠ .stuck) :
    genLoop p b fuel w = .failed r := by
  induction h generalizing fuel with
  | here w r hpass =>
    cases fuel with
    | zero => exact absurd rfl hns
    | succ fuel => exact genLoop_of_error hpass
  | more w w' r hpass hbits _ ih =>
    obtain ⟨k, hloop, hns'⟩ := genLoop_more_of_not_stuck hpass hbits hns
    exact hloop.trans (ih hns')

/-- A loop that is not stuck has followed a walk that ends or fails. -/
theorem ends_or_fails_of_genLoop (h : genLoop p b fuel w ≠ .stuck) :
    (∃ amps, GenEnds p b w amps) ∨ ∃ r, GenFails p b w r := by
  induction fuel generalizing w with
  | zero => exact absurd rfl h
  | succ fuel ih =>
    cases hpass : genPass p b w with
    | error r => exact .inr ⟨r, .here w r hpass⟩
    | ok w' =>
      by_cases hbits : w.bits = []
      · exact .inl ⟨w'.buf, .last w w' hpass hbits⟩
      · rw [genLoop_of_more hpass hbits] at h
        split_ifs at h with hidle
        · exact absurd rfl h
        · exact (ih h).imp (fun ⟨amps, he⟩ => ⟨amps, .more w w' amps hpass hbits he⟩)
            fun ⟨r, hf⟩ => ⟨r, .more w w' r hpass hbits hf⟩

end

/-! ## Passes still to come -/

/-- The walk from `w` stops after `n` more passes and one: the last one is the DONE pass or raises an error. -/
inductive GenStops (p : Params) (b : Bsm) : Nat → GenWalk → Prop where
  | last (w : GenWalk) : (∀ w', genPass p b w = .ok w' → w.bits = []) → GenStops p b 0 w
  | more (n : Nat) (w w' : GenWalk) : genPass p b w = .ok w' → w.bits ≠ [] → GenStops p b n w' → GenStops p b (n + 1) w

section

variable {p : Params} {b : Bsm} {w w' : GenWalk}

theorem GenEnds.stops {amps : List F32} (h : GenEnds p b w amps) : ∃ n, GenStops p b n w := by
  induction h with
  | last w w' _ hbits => exact ⟨0, .last w fun _ _ => hbits⟩
  | more w w' amps hpass hbits _ ih =>
    obtain ⟨n, hn⟩ := ih
    exact ⟨n + 1, .more n w w' hpass hbits hn⟩

theorem GenFails.stops {r : Raised} (h : GenFails p b w r) : ∃ n, GenStops p b n w := by
  induction h with
  | here w r hpass => exact ⟨0, .last w fun w' hok => by rw [hpass] at hok; cases hok⟩
  | more w w' r hpass hbits _ ih =>
    obtain ⟨n, hn⟩ := ih
    exact ⟨n + 1, .more n w w' hpass hbits hn⟩

theorem GenStops.unique {n m : Nat} (h : GenStops p b n w) (h' : GenStops p b m w) : n = m := by
  induction h generalizing m with
  | last w hlast =>
    cases h' with
    | last => rfl
    | more m _ w' hpass hbits _ => exact absurd (hlast w' hpass) hbits
  | more n w w' hpass hbits _ ih =>
    cases h' with
    | last _ hlast => exact absurd (hlast w' hpass) hbits
    | more m _ w'' hpass' _ hrest =>
      cases hpass.symm.trans hpass'
      rw [ih hrest]

/-- A pass does not look at the count of idle passes. -/
theorem genPass_withIdle (h : genPass p b w = .ok w') (k : Nat) :
    ∃ k', genPass p b { w with idle := k } = .ok { w' with idle := k' } := by
  obtain ⟨t, w1, hsel, herr, hemit, rfl⟩ := genPass_ok h
  have hpass := genPass_of_taken (p := p) (b := b) (w := { w with idle := k }) hsel herr
  rw [emitTransition_withIdle hemit k] at hpass
  exact ⟨_, hpass⟩

theorem GenStops.withIdle {n : Nat} (h : GenStops p b n w) (k : Nat) : GenStops p b n { w with idle := k } := by
  induction h generalizing k with
  | last w hlast =>
    refine .last _ fun w' hpass => ?_
    obtain ⟨k', hpass'⟩ := genPass_withIdle hpass w.idle
    exact hlast _ hpass'
  | more n w w' hpass hbits _ ih =>
    obtain ⟨k', hpass'⟩ := genPass_withIdle hpass k
    exact .more n _ _ hpass' hbits (ih k')

/-- A pass that raises nothing starts at a state of the table: a cursor beyond it finds no trigger. -/
theorem genPass_cur_lt (h : genPass p b w = .ok w') : w.cur < b.states.length := by
  by_contra hout
  have hblank : b.states.getD w.cur StateEntry.blank = StateEntry.blank := by
    rw [List.getD_eq_getElem?_getD, List.getElem?_eq_none (Nat.le_of_not_lt hout)]
    rfl
  have himpossible : ∀ t ∈ (b.states.getD w.cur StateEntry.blank).trigs, ¬ GenPossible w t := by
    rw [hblank]
    exact fun t ht => absurd ht List.not_mem_nil
  rw [genPass_of_impossible himpossible] at h
  cases h

end

/-! ## What a pass does to the counters -/

/-- The buffer is within its capacity, and the capacity within what doubling can reach (R292). -/
structure GenWalk.Bounded (p : Params) (w : GenWalk) : Prop where
  buf_le : w.buf.length ≤ w.gcap
  gcap_le : w.gcap ≤ max p.genInitCap p.genMaxSamples

/-- Two walks that agree in bits, buffer and capacity: one idle stretch. -/
structure GenWalk.SameStretch (w w' : GenWalk) : Prop where
  bits : w'.bits = w.bits
  buf : w'.buf = w.buf
  gcap : w'.gcap = w.gcap

section

variable {p : Params} {b : Bsm} {w w' : GenWalk}

theorem genPass_bounded (hb : w.Bounded p) (h : genPass p b w = .ok w') : w'.Bounded p := by
  obtain ⟨t, w1, -, -, hemit, rfl⟩ := genPass_ok h
  obtain ⟨-, hcap, hroom, -⟩ := emitTransition_ok hemit
  exact ⟨hroom, hcap.le_max.trans (max_le hb.gcap_le (Nat.le_max_right _ _))⟩

/-- A transition that emits nothing leaves the walk as it is. -/
theorem emitTransition_silent {t : Trigger} (hb : w.Bounded p) (h : emitTransition p b w t = .ok w')
    (hlen : w'.buf.length = w.buf.length) : w' = w := by
  obtain ⟨hbuf, -⟩ := emitTransition_ok h
  have hnil : genEmits p b w t = [] := by
    rw [hbuf, List.length_append] at hlen
    exact List.eq_nil_of_length_eq_zero (by omega)
  rw [emitTransition_of_room (by rw [hnil, List.append_nil]; exact hb.buf_le), hnil, List.append_nil] at h
  exact (Except.ok.inj h).symm

/-- A pass is one more of an idle stretch, or begins a new one with a sample more or a bit less (log 14). -/
theorem genPass_progress (hb : w.Bounded p) (h : genPass p b w = .ok w') (hbits : w.bits ≠ []) :
    (w'.idle = w.idle + 1 ∧ w.SameStretch w') ∨
      (w'.idle = 0 ∧ w.buf.length ≤ w'.buf.length ∧ w'.bits.length ≤ w.bits.length ∧
        w.buf.length + w'.bits.length < w'.buf.length + w.bits.length) := by
  obtain ⟨t, w1, -, -, hemit, rfl⟩ := genPass_ok h
  obtain ⟨hbuf, -, -, -, -, hbits1, -⟩ := emitTransition_ok hemit
  have hpos : 0 < w.bits.length := List.length_pos_iff.mpr hbits
  have hbuf_le : w.buf.length ≤ w1.buf.length := by rw [hbuf, List.length_append]; omega
  have hadv : (advanceWalk w1 t).bits = if appendsBit t then w.bits.tail else w.bits := by rw [← hbits1]; rfl
  by_cases hsame : w1.buf.length = w.buf.length ∧ (advanceWalk w1 t).bits.length = w.bits.length
  · obtain ⟨hlen, hbitslen⟩ := hsame
    have hw1 : w1 = w := emitTransition_silent hb hemit hlen
    refine .inl ⟨if_pos ⟨hlen, hbitslen⟩, ?_, by rw [← hw1]; rfl, by rw [← hw1]; rfl⟩
    change (advanceWalk w1 t).bits = w.bits
    rw [hadv] at hbitslen ⊢
    split_ifs at hbitslen ⊢
    · rw [List.length_tail] at hbitslen
      omega
    · rfl
  · have hbits_le : (advanceWalk w1 t).bits.length ≤ w.bits.length := by
      rw [hadv]
      split_ifs
      · rw [List.length_tail]
        omega
      · exact le_rfl
    refine .inr ⟨if_neg hsame, hbuf_le, hbits_le, ?_⟩
    change w.buf.length + (advanceWalk w1 t).bits.length < w1.buf.length + w.bits.length
    omega

end

/-! ## An idle stretch is short (log 14) -/

/-- The walk that stops after `n` passes has behind it an idle stretch of `w.idle` passes, `i + 1` passes ago at some
cursor and level with `n + i + 1` passes still to come. -/
def IdleTrail (p : Params) (b : Bsm) (n : Nat) (w : GenWalk) : Prop :=
  ∀ i < w.idle, ∃ (cur : Nat) (level : Bool), GenStops p b (n + i + 1) { w with cur := cur, level := level }

section

variable {p : Params} {b : Bsm} {n : Nat} {w w' : GenWalk}

/-- Each pass of an idle stretch has a cursor and a level of its own, so there are at most `idleLimit`. -/
theorem IdleTrail.idle_le (h : IdleTrail p b n w) : w.idle ≤ idleLimit b := by
  choose cur level hstops using fun i : Fin w.idle => h i i.isLt
  have hcur : ∀ i, cur i < b.states.length := fun i => by
    cases hstops i with
    | more _ _ _ hpass _ _ => exact genPass_cur_lt hpass
  have hinj : Function.Injective fun i => ((⟨cur i, hcur i⟩ : Fin b.states.length), level i) := fun i j hij => by
    obtain ⟨hc, hl⟩ := Prod.mk.inj hij
    have hj := hstops j
    rw [← Fin.mk.inj hc, ← hl] at hj
    have := (hstops i).unique hj
    exact Fin.ext (by omega)
  have hcard := Fintype.card_le_of_injective _ hinj
  simpa [idleLimit, Nat.mul_comm] using hcard

/-- The trail one pass later: the pass just made joins an idle stretch, or the stretch begins anew. -/
theorem IdleTrail.step (h : IdleTrail p b (n + 1) w) (hb : w.Bounded p) (hstops : GenStops p b (n + 1) w)
    (hpass : genPass p b w = .ok w') (hbits : w.bits ≠ []) : IdleTrail p b n w' := by
  rcases genPass_progress hb hpass hbits with ⟨hidle, hsame⟩ | ⟨hidle, -⟩
  · have hback : ∀ (cur : Nat) (level : Bool), { w' with cur := cur, level := level } =
        { w with cur := cur, level := level, idle := w'.idle } := fun cur level => by
      rw [← hsame.bits, ← hsame.buf, ← hsame.gcap]
    intro i hi
    cases i with
    | zero => exact ⟨w.cur, w.level, by rw [hback]; exact hstops.withIdle _⟩
    | succ i =>
      obtain ⟨cur, level, hprev⟩ := h i (by omega)
      refine ⟨cur, level, ?_⟩
      rw [Nat.add_right_comm n 1 i] at hprev
      rw [hback]
      exact hprev.withIdle _
  · intro i hi
    omega

end

/-! ## The fuel suffices -/

/-- Passes that a bounded walk has left at most: those of this idle stretch, and a whole stretch after each bit and each
sample to come. -/
def passesLeft (p : Params) (b : Bsm) (w : GenWalk) : Nat :=
  (w.bits.length + (max p.genInitCap p.genMaxSamples - w.buf.length)) * (idleLimit b + 1) + (idleLimit b - w.idle)

section

variable {p : Params} {b : Bsm} {w w' : GenWalk}

theorem genPass_passesLeft (hb : w.Bounded p) (h : genPass p b w = .ok w') (hbits : w.bits ≠ [])
    (hidle : w'.idle ≤ idleLimit b) : passesLeft p b w' < passesLeft p b w := by
  have hb' := genPass_bounded hb h
  have hbuf' : w'.buf.length ≤ max p.genInitCap p.genMaxSamples := hb'.buf_le.trans hb'.gcap_le
  unfold passesLeft
  rcases genPass_progress hb h hbits with ⟨hstep, hsame⟩ | ⟨hzero, hbuf, hbitslen, hprogress⟩
  · rw [hsame.bits, hsame.buf]
    omega
  · have hfewer : w'.bits.length + (max p.genInitCap p.genMaxSamples - w'.buf.length) + 1 ≤
        w.bits.length + (max p.genInitCap p.genMaxSamples - w.buf.length) := by omega
    have hmul := Nat.mul_le_mul_right (idleLimit b + 1) hfewer
    rw [Nat.add_mul, Nat.one_mul] at hmul
    omega

/-- A walk that stops does not leave the loop stuck. -/
theorem genLoop_not_stuck {n fuel : Nat} (hstops : GenStops p b n w) (htrail : IdleTrail p b n w) (hb : w.Bounded p)
    (hfuel : passesLeft p b w < fuel) : genLoop p b fuel w ≠ .stuck := by
  induction hstops generalizing fuel with
  | last w hlast =>
    obtain ⟨fuel, rfl⟩ := Nat.exists_eq_add_of_lt (Nat.zero_lt_of_lt hfuel)
    rw [Nat.zero_add]
    cases hpass : genPass p b w with
    | error r => rw [genLoop_of_error hpass]; nofun
    | ok w' => rw [genLoop_of_last hpass (hlast w' hpass)]; nofun
  | more n w w' hpass hbits hrest ih =>
    obtain ⟨fuel, rfl⟩ := Nat.exists_eq_add_of_lt (Nat.zero_lt_of_lt hfuel)
    have htrail' : IdleTrail p b n w' := htrail.step hb (.more n w w' hpass hbits hrest) hpass hbits
    have hleft := genPass_passesLeft hb hpass hbits htrail'.idle_le
    rw [Nat.zero_add, genLoop_of_more hpass hbits, if_neg (Nat.not_lt.mpr htrail'.idle_le)]
    exact ih htrail' (genPass_bounded hb hpass) (by omega)

end

/-- The body of BSM.GEN is not stuck on a walk that stops. -/
theorem genBody_not_stuck {p : Params} {b : Bsm} {bits : List Bool} {n : Nat}
    (h : GenStops p b n (genStart p bits)) : genBody p b bits ≠ .stuck := by
  refine genLoop_not_stuck h (fun i hi => absurd hi (Nat.not_lt_zero i))
    ⟨Nat.zero_le _, Nat.le_max_left _ _⟩ ?_
  change (bits.length + max p.genInitCap p.genMaxSamples) * (idleLimit b + 1) + idleLimit b <
    (bits.length + max p.genInitCap p.genMaxSamples + 1) * (idleLimit b + 1) + 1
  rw [Nat.add_mul _ 1]
  omega

/-! ## The command -/

section

variable {s : State} {bits : List Bool} (hinit : bsmInitialized s.bsm = true)
include hinit

theorem exec_bsmGen_of_ends {amps : List F32} (h : GenEnds s.params s.bsm (genStart s.params bits) amps) :
    exec (.bsmGen bits) s = .next (s.completedWith (BitVec.ofNat 32 amps.length :: amps)) := by
  obtain ⟨n, hstops⟩ := h.stops
  have hbody : genBody s.params s.bsm bits = .samples amps := genLoop_of_ends h (genBody_not_stuck hstops)
  simp only [exec, execBsmGen, bsmNotRunnable_of_initialized hinit, hbody]
  rfl

theorem exec_bsmGen_of_fails {r : Raised} (h : GenFails s.params s.bsm (genStart s.params bits) r) :
    exec (.bsmGen bits) s = .next (s.failedWith (statusCode r.code) r.info) := by
  obtain ⟨n, hstops⟩ := h.stops
  have hbody : genBody s.params s.bsm bits = .failed r := genLoop_of_fails h (genBody_not_stuck hstops)
  simp only [exec, execBsmGen, bsmNotRunnable_of_initialized hinit, hbody]
  rfl

theorem exec_bsmGen_of_endless (hends : ∀ amps, ¬ GenEnds s.params s.bsm (genStart s.params bits) amps)
    (hfails : ∀ r, ¬ GenFails s.params s.bsm (genStart s.params bits) r) :
    exec (.bsmGen bits) s = .fault .generateNeverCompletes := by
  have hbody : genBody s.params s.bsm bits = .stuck := by
    by_contra hns
    rcases ends_or_fails_of_genLoop hns with ⟨amps, he⟩ | ⟨r, hf⟩
    · exact hends amps he
    · exact hfails r hf
  simp only [exec, execBsmGen, bsmNotRunnable_of_initialized hinit, hbody]

end

/-- Settles O52: the loop is stuck exactly on the walks that do not stop, and a pass selects, refuses or takes. -/
theorem generateDecidesTheWalk : Obligations.GenerateDecidesTheWalk := by
  refine ⟨fun bits s hinit => ⟨fun amps => exec_bsmGen_of_ends hinit, fun r => exec_bsmGen_of_fails hinit,
    exec_bsmGen_of_endless hinit⟩, fun p b w => ⟨genPass_of_impossible, fun t hselects => ?_⟩⟩
  have hsel := selectTrigger_of_selects hselects
  refine ⟨fun htimeout => genPass_of_refused ?_, fun hcond happ hmatch => genPass_of_refused ?_,
    fun hcond hmatch _ => genPass_takes hsel (selectionError_of_taken hcond hmatch)⟩
  · rw [hsel]
    exact selectionError_of_timeout htimeout
  · rw [hsel]
    exact selectionError_of_wrong_bit hcond happ hmatch

end Sys2Proof.Machine

namespace Sys2Proof.Machine

/-! # The walk on two tables (O53, O54)

On each table the passes are written out one by one with `genPass_of_selects`, and O52's first half turns the walk into the
command. -/

/-! ## The silent loop (R294) -/

section

variable {p : Params} {b : Bsm} {name : Text} {tmo : BitVec 32} {w : GenWalk}
  (hstates : b.states = [⟨name, 0, tmo, [⟨0, 0, 0, 0⟩]⟩])
include hstates

/-- A pass of the silent loop emits nothing and moves nowhere: only the idle count changes. -/
theorem silentLoop_pass (hcur : w.cur = 0) (hroom : w.buf.length ≤ w.gcap) :
    genPass p b w = .ok { w with idle := w.idle + 1 } := by
  have hselects : GenSelects w (b.states.getD w.cur StateEntry.blank).trigs ⟨0, 0, 0, 0⟩ := by
    rw [hstates, hcur]
    exact .inr ⟨by simp [GenMatches], [], [], rfl, .inl rfl, nofun⟩
  have hemits : genEmits p b w ⟨0, 0, 0, 0⟩ = [] := by
    simp [genEmits, hstates, samplesOf_zero]
  rw [genPass_of_selects hselects (by decide) (fun happend => absurd happend (by decide)) hemits hroom, List.append_nil]
  obtain ⟨cur, level, bits, buf, gcap, idle⟩ := w
  cases hcur
  exact congrArg Except.ok (congrArg (GenWalk.mk 0 level bits buf gcap) (if_pos ⟨rfl, rfl⟩))

/-- The silent loop ends only where no bit is left. -/
theorem silentLoop_bits_of_ends {amps : List F32} (h : GenEnds p b w amps) (hcur : w.cur = 0) (hroom : w.buf.length ≤ w.gcap) :
    w.bits = [] := by
  induction h with
  | last _ _ _ hbits => exact hbits
  | more w w' amps hpass _ _ ih =>
    rw [silentLoop_pass hstates hcur hroom] at hpass
    cases hpass
    exact ih hcur hroom

theorem silentLoop_not_fails {r : Raised} (hcur : w.cur = 0) (hroom : w.buf.length ≤ w.gcap) : ¬ GenFails p b w r := by
  intro h
  induction h with
  | here w r hpass =>
    rw [silentLoop_pass hstates hcur hroom] at hpass
    cases hpass
  | more w w' r hpass _ _ ih =>
    rw [silentLoop_pass hstates hcur hroom] at hpass
    cases hpass
    exact ih hcur hroom

end

/-- Settles O54: each pass leaves the walk where it is, so it neither fails nor, with a bit left, ends. -/
theorem silentLoopNeverCompletes : Obligations.SilentLoopNeverCompletes := by
  intro bits name tmo s hvalid hname hstates
  have hinit : bsmInitialized s.bsm = true := by
    rw [bsmInitialized_iff, hstates]
    simp [hvalid, hname]
  refine ⟨fun hbits => exec_bsmGen_of_endless hinit (fun amps he => hbits ?_) (fun r hf => ?_), ?_⟩
  · exact silentLoop_bits_of_ends hstates he rfl (Nat.zero_le _)
  · exact silentLoop_not_fails hstates rfl (Nat.zero_le _) hf
  · rintro rfl
    have hpass := silentLoop_pass (p := s.params) (w := genStart s.params []) hstates rfl (Nat.zero_le _)
    exact exec_bsmGen_of_ends hinit (.last _ _ hpass rfl)

/-! ## The pulse-distance device (R263, R295) -/

/-- The waveform of one bit: a gap of 4 or 12 samples, then a pulse of 4. -/
def bitWave (onVal : F32) (v : Bool) : List F32 := List.replicate (if v then 12 else 4) 0#32 ++ List.replicate 4 onVal

theorem bitWave_length_le (onVal : F32) (v : Bool) : (bitWave onVal v).length ≤ 16 := by
  cases v <;> simp [bitWave]

/-- The trigger of the gap state that sends a bit. -/
def gapTrigger (v : Bool) : Trigger := if v then ⟨1, 1200, 2, 1⟩ else ⟨1, 400, 1, 1⟩

section

variable {p : Params} {b : Bsm} {bits : List Bool} {buf : List F32} {gcap idle : Nat}
  (hstates : b.states = pdmStates)
include hstates

/-- The first pulse: four samples (R295). -/
theorem pdm_pass_reset (hfs : b.fs = 10000) (hroom : buf.length + 4 ≤ gcap) : ∃ k,
    genPass p b ⟨0, false, bits, buf, gcap, idle⟩ = .ok ⟨1, true, bits, buf ++ List.replicate 4 b.onVal, gcap, k⟩ := by
  have hselects : GenSelects ⟨0, false, bits, buf, gcap, idle⟩ (b.states.getD 0 StateEntry.blank).trigs ⟨1, 0, 0, 1⟩ := by
    rw [hstates]
    exact .inr ⟨by simp [pdmStates, GenMatches], [], [], rfl, .inr (.inl ⟨rfl, rfl⟩), nofun⟩
  have hemits : genEmits p b ⟨0, false, bits, buf, gcap, idle⟩ ⟨1, 0, 0, 1⟩ = List.replicate 4 b.onVal := by
    simp only [genEmits, hstates, hfs]
    rfl
  exact ⟨_, genPass_of_selects hselects (by decide) (fun happend => absurd happend (by decide)) hemits
    (by rwa [List.length_replicate])⟩

/-- The end of a pulse: no sample, and the gap state is entered. -/
theorem pdm_pass_pulse (hroom : buf.length ≤ gcap) : ∃ k,
    genPass p b ⟨1, true, bits, buf, gcap, idle⟩ = .ok ⟨2, false, bits, buf, gcap, k⟩ := by
  have hselects : GenSelects ⟨1, true, bits, buf, gcap, idle⟩ (b.states.getD 1 StateEntry.blank).trigs ⟨2, 0, 0, 2⟩ := by
    rw [hstates]
    exact .inr ⟨by simp [pdmStates, GenMatches], [], [], rfl, .inr (.inr (.inl ⟨rfl, rfl⟩)), nofun⟩
  have hemits : genEmits p b ⟨1, true, bits, buf, gcap, idle⟩ ⟨2, 0, 0, 2⟩ = [] := by
    simp [genEmits, hstates, pdmStates, samplesOf_zero]
  rw [genPass_of_selects hselects (by decide) (fun happend => absurd happend (by decide)) hemits hroom, List.append_nil]
  exact ⟨_, rfl⟩

/-- One bit: its gap and a pulse (R289, R295). -/
theorem pdm_pass_gap (v : Bool) (hfs : b.fs = 10000) (hmode : p.genGapMode = .full) (hroom : buf.length + 16 ≤ gcap) : ∃ k,
    genPass p b ⟨2, false, v :: bits, buf, gcap, idle⟩ =
      .ok ⟨1, true, bits, buf ++ bitWave b.onVal v, gcap, k⟩ := by
  have hselects : GenSelects ⟨2, false, v :: bits, buf, gcap, idle⟩ (b.states.getD 2 StateEntry.blank).trigs
      (gapTrigger v) := by
    rw [hstates]
    cases v with
    | false =>
      exact .inl ⟨[⟨4, 0, 3, 0⟩], [⟨1, 1200, 2, 1⟩, ⟨3, 0, 0, 0⟩], rfl, by simp [gapTrigger, GenMatches, GenPossible],
        by simp [GenMatches, GenPossible]⟩
    | true =>
      exact .inl ⟨[⟨4, 0, 3, 0⟩, ⟨1, 400, 1, 1⟩], [⟨3, 0, 0, 0⟩], rfl, by simp [gapTrigger, GenMatches, GenPossible],
        by simp [GenMatches, GenPossible]⟩
  have hmatches : GenMatches ⟨2, false, v :: bits, buf, gcap, idle⟩ (gapTrigger v) := by
    cases v <;> simp [GenMatches, gapTrigger]
  have hemits : genEmits p b ⟨2, false, v :: bits, buf, gcap, idle⟩ (gapTrigger v) = bitWave b.onVal v := by
    cases v <;> simp only [genEmits, hstates, hfs, hmode] <;> rfl
  have hlen := bitWave_length_le b.onVal v
  rw [genPass_of_selects hselects (by cases v <;> decide) (fun _ => hmatches) hemits
    ((Nat.add_le_add_left hlen _).trans hroom)]
  cases v <;> exact ⟨_, rfl⟩

/-- From the pulse state on: the waveform of the bits left, after what the buffer holds. -/
theorem pdm_ends_from_pulse (hfs : b.fs = 10000) (hmode : p.genGapMode = .full) (hroom : buf.length + 16 * bits.length ≤ gcap) :
    GenEnds p b ⟨1, true, bits, buf, gcap, idle⟩ (buf ++ bits.flatMap (bitWave b.onVal)) := by
  induction bits generalizing buf idle with
  | nil =>
    obtain ⟨k, hpass⟩ := pdm_pass_pulse (p := p) (bits := []) (idle := idle) hstates (Nat.le_of_add_right_le hroom)
    rw [List.flatMap_nil, List.append_nil]
    exact .last _ _ hpass rfl
  | cons v bits ih =>
    rw [List.length_cons] at hroom
    obtain ⟨k, hpulse⟩ := pdm_pass_pulse (p := p) (bits := v :: bits) (idle := idle) hstates (Nat.le_of_add_right_le hroom)
    obtain ⟨k', hgap⟩ := pdm_pass_gap (p := p) (bits := bits) (buf := buf) (gcap := gcap) (idle := k) hstates v hfs hmode
      (by omega)
    refine .more _ _ _ hpulse (List.cons_ne_nil _ _) (.more _ _ _ hgap (List.cons_ne_nil _ _) ?_)
    have hlen := bitWave_length_le b.onVal v
    rw [List.flatMap_cons, ← List.append_assoc]
    exact ih (by rw [List.length_append]; omega)

/-- The whole walk: a pulse, then the bits (R295). -/
theorem pdm_ends (hfs : b.fs = 10000) (hmode : p.genGapMode = .full) (hroom : 4 + 16 * bits.length ≤ p.genInitCap) :
    GenEnds p b (genStart p bits) (List.replicate 4 b.onVal ++ bits.flatMap (bitWave b.onVal)) := by
  obtain ⟨k, hpass⟩ := pdm_pass_reset (p := p) (bits := bits) (buf := []) (gcap := p.genInitCap) (idle := 0) hstates hfs
    (by rw [List.length_nil]; omega)
  cases bits with
  | nil => exact .last _ _ hpass rfl
  | cons v bits => exact .more _ _ _ hpass (List.cons_ne_nil _ _) (pdm_ends_from_pulse hstates hfs hmode hroom)

end

/-- Settles O53: the walk on the table of R263 ends with the waveform, and BSM.GEN answers it. -/
theorem generatePulseDistance : Obligations.GeneratePulseDistance := by
  intro bits s hvalid hstates hfs hmode hroom
  have hinit : bsmInitialized s.bsm = true := by
    rw [bsmInitialized, hvalid, hstates]
    decide
  exact exec_bsmGen_of_ends hinit (pdm_ends hstates hfs hmode hroom)

end Sys2Proof.Machine

namespace Sys2Proof.Machine

/-! # The accumulator port and the key-value list (O43, O58)

BSM.RDACC answers the accumulator packed, so each of its bits is read off a packed bit vector; the KV commands answer or
change the list alone. -/

/-! ## Packed bits (R103) -/

/-- Bit `j` of word `k` of a bit vector is bit `32 * k + j` of the vector. -/
theorem packBitsWord_getLsbD (bits : List Bool) (k : Nat) {j : Nat} (hj : j < 32) :
    (packBitsWord bits k).getLsbD j = bits.getD (32 * k + j) false := by
  rw [packBitsWord, BitVec.getLsbD_ofFnLE, dif_pos hj]

/-- Bit `b` of a packed bit vector stands in bit `b mod 32` of word `b / 32`, and every other bit is 0. -/
theorem packBits_getD_getLsbD (bits : List Bool) (b : Nat) :
    ((packBits bits).getD (b / 32) 0).getLsbD (b % 32) = bits.getD b false := by
  have hlen := packBits_length bits
  by_cases hword : b / 32 < (packBits bits).length
  · have hbit : b % 32 < 32 := Nat.mod_lt _ (by decide)
    have hget : (packBits bits).getD (b / 32) 0 = packBitsWord bits (b / 32) := by
      rw [List.getD_eq_getElem _ _ hword]
      simp only [packBits, List.getElem_map, List.getElem_range]
    rw [hget, packBitsWord_getLsbD bits _ hbit, Nat.div_add_mod]
  · have houtside : bits.length ≤ b := by omega
    rw [List.getD_eq_default _ _ (Nat.le_of_not_lt hword), List.getD_eq_default _ _ houtside]
    exact BitVec.getLsbD_zero

/-! ## BSM.RDACC (R312) -/

section

variable {s : State}

theorem bsmNotReady_of_invalid (h : s.bsm.valid = false) : bsmNotReady s = some (raisedAs .notReady 3) := by
  simp [bsmNotReady, h]

theorem exec_bsmRdacc_of_invalid (h : s.bsm.valid = false) : exec .bsmRdacc s = .next (s.failedWith 12 3) :=
  exec_of_notReady (i := .bsmRdacc) (bsmNotReady_of_invalid h)

theorem exec_bsmRdacc_of_valid (h : s.bsm.valid = true) :
    exec .bsmRdacc s = .next (s.completedWith (BitVec.ofNat 32 s.bsm.bitcnt :: packBits s.bsm.acc)) := by
  simp only [exec, execBsmRdacc, bsmNotReady_of_valid h, done_eq, countWord]

end

/-- Settles O43: the reply is the packed accumulator, read back bit by bit with `packBits_getD_getLsbD`. -/
theorem rdaccReadsAccumulator : Obligations.RdaccReadsAccumulator := by
  refine ⟨rfl, fun s => ⟨exec_bsmRdacc_of_invalid, fun hvalid hlen => ?_⟩⟩
  refine ⟨packBits s.bsm.acc, exec_bsmRdacc_of_valid hvalid, ?_, packBits_getD_getLsbD s.bsm.acc⟩
  rw [packBits_length, hlen]

/-! ## KV (R317 to R320) -/

section

variable {s : State}

theorem exec_kvAppend_of_room (h : s.kv.length < s.params.kvMax) (key value : Text) :
    exec (.kvAppend key value) s = .next (State.completedWith { s with kv := s.kv ++ [⟨key, value⟩] } []) := by
  simp only [exec, execKvAppend, if_neg (Nat.not_le.mpr h), done_eq]

theorem exec_kvAppend_of_full (h : s.params.kvMax ≤ s.kv.length) (key value : Text) :
    exec (.kvAppend key value) s = .next (s.failedWith 2 0x50) := by
  simp only [exec, execKvAppend, if_pos h, raise_eq]
  rfl

theorem exec_kvGet_of_entry {i : BitVec 24} {p : Pair} (h : s.kv[i.toNat]? = some p) :
    exec (.kvGet i) s = .next (s.completedWith (textWords p.key ++ textWords p.value)) := by
  simp only [exec, execKvGet, h, done_eq, pairWords]

theorem exec_kvGet_of_outside {i : BitVec 24} (h : s.kv.length ≤ i.toNat) :
    exec (.kvGet i) s = .next (s.failedWith 5 4) := by
  simp only [exec, execKvGet, List.getElem?_eq_none h, raise_eq]
  rfl

end

/-- The command word of KV.APPEND carries no operand (R117). -/
theorem headerOf_kvAppend (key value : Text) : headerOf (.kvAppend key value) = 0x51000000#32 := by
  change opcByte .kvAppend ++ 0#24 = _
  decide

theorem encode_kvAppend (key value : Text) :
    encode (.kvAppend key value) = 0x51000000#32 :: (textWords key ++ textWords value) :=
  congrArg (· :: (textWords key ++ textWords value)) (headerOf_kvAppend key value)

/-- Settles O58: KV.CLEAR and KV.COUNT look at nothing; KV.APPEND asks whether there is room, KV.GET whether the index is in
the list. -/
theorem kvCommands : Obligations.KvCommands := fun _ =>
  ⟨⟨rfl, rfl⟩,
   fun key value => ⟨encode_kvAppend key value, fun hroom => exec_kvAppend_of_room hroom key value,
     fun hfull => exec_kvAppend_of_full hfull.ge key value⟩,
   fun _ => ⟨rfl, fun _ => exec_kvGet_of_entry, exec_kvGet_of_outside⟩,
   ⟨rfl, rfl⟩⟩

end Sys2Proof.Machine

namespace Sys2Proof.Machine

/-! # DEV.PROC (O55, O56)

A turn of the loop runs BSM.PROC on the samples left, and what it does next depends on the event alone. So the loop is
given here by one equation per event (`devRun_of_…`), without fuel; the command is then the loop's end, written out in
`devEnd`. -/

/-! ## Readiness (R54, R310) -/

theorem devReady_iff (s : State) :
    devReady s = true ↔ s.bfc.valid = true ∧ bsmInitialized s.bsm = true ∧ s.bfc.recordBits = s.bsm.msgBits := by
  simp only [devReady, Bool.and_eq_true, decide_eq_true_eq, and_assoc]

theorem devNotReady_of_ready {s : State} (h : devReady s = true) : devNotReady s = none := if_pos h

theorem bsmInitialized_of_devReady {s : State} (h : devReady s = true) : bsmInitialized s.bsm = true := by
  obtain ⟨-, hinit, -⟩ := (devReady_iff s).mp h
  exact hinit

/-- A device stays ready while its table, its configuration and its record's size stay. -/
theorem devReady_of_sameConfig {s s' : State} (h : devReady s = true) (hbsm : s'.bsm.SameConfig s.bsm)
    (hvalid : s'.bfc.valid = s.bfc.valid) (hbits : s'.bfc.recordBits = s.bfc.recordBits) : devReady s' = true := by
  obtain ⟨hbfc, hinit, hwidth⟩ := (devReady_iff s).mp h
  exact (devReady_iff s').mpr ⟨hvalid.trans hbfc, hbsm.initialized hinit, by rw [hbits, hwidth, hbsm.msgBits]⟩

/-! ## The event BSM.PROC replies (R115, R125) -/

theorem resultCode_injective : Function.Injective resultCode := by
  intro a b
  cases a <;> cases b <;> decide

/-- The reply of BSM.PROC gives back the samples examined and the event. -/
theorem procBody_of_reply {s t : State} {xs : List Bool} {n : Nat} {r : Word} (hinit : bsmInitialized s.bsm = true)
    (hexec : exec (.bsmProc xs) s = .next t) (hreply : t.reply = [0, BitVec.ofNat 32 n, r]) (hn : n ≤ xs.length)
    (hlen : xs.length < 2 ^ 32) : ∃ event, procBody s.bsm xs = (t.bsm, n, event) ∧ resultCode event = r := by
  rw [exec_bsmProc hinit] at hexec
  cases hexec
  simp only [State.completedWith, List.cons.injEq] at hreply
  obtain ⟨-, hcount, hcode, -⟩ := hreply
  have hle := procBody_le s.bsm xs
  have hcount' : (procBody s.bsm xs).2.1 = n := by
    have := congrArg BitVec.toNat hcount
    rwa [BitVec.toNat_ofNat, BitVec.toNat_ofNat, Nat.mod_eq_of_lt (by omega), Nat.mod_eq_of_lt (by omega)] at this
  exact ⟨_, by rw [← hcount']; rfl, hcode⟩

theorem count_pos_of_procBody {b c : Bsm} {xs : List Bool} {n : Nat} {event : SampleResult} (hne : xs ≠ [])
    (hproc : procBody b xs = (c, n, event)) : 0 < n := by
  have hpos := procBody_pos b xs hne
  rwa [hproc] at hpos

/-! ## One turn of the loop (R313, R314) -/

section

variable {p : Params} {site : Site} {run : DevRun} {f : Bfc} {message : List Pair}

/-- A message whose pairs fit. -/
theorem devMessage_of_fits (hdec : decodeBody p (run.nmsg :: site) run.bfc run.bsm.acc = (f, message))
    (hfits : run.kv.length + message.length ≤ p.kvMax) :
    devMessage p site run = ({ run with bfc := f, kv := run.kv ++ message, nmsg := run.nmsg + 1 }, none) := by
  have hroom : message.length ≤ p.kvMax - run.kv.length := by omega
  simp only [devMessage, hdec, appendPairs_spec, List.take_of_length_le hroom, decide_eq_true_eq,
    if_neg (Nat.not_lt.mpr hroom)]

/-- A message whose pairs do not all fit. -/
theorem devMessage_of_full (hdec : decodeBody p (run.nmsg :: site) run.bfc run.bsm.acc = (f, message))
    (hkv : run.kv.length ≤ p.kvMax) (hfull : p.kvMax < run.kv.length + message.length) :
    devMessage p site run = ({ run with bfc := f, kv := run.kv ++ message.take (p.kvMax - run.kv.length) },
      some (raisedAs .allocationError 0x40)) := by
  have hshort : p.kvMax - run.kv.length < message.length := by omega
  simp only [devMessage, hdec, appendPairs_spec, decide_eq_true_eq, if_pos hshort]

end

theorem devLoop_nil (p : Params) (site : Site) (fuel : Nat) (run : DevRun) : devLoop p site fuel run [] = (run, none) := by
  cases fuel <;> rfl

section

variable {p : Params} {site : Site} {fuel : Nat} {run : DevRun} {xs : List Bool} {b : Bsm} {n : Nat} (hne : xs ≠ [])
include hne

theorem devLoop_of_silent (hproc : procBody run.bsm xs = (b, n, .noOutputYet)) :
    devLoop p site (fuel + 1) run xs = ({ run with bsm := b }, none) := by
  have hall : n = xs.length := by
    have hlen := sampleLoop_noOutput xs 0 (pendingClear run.bsm) (congrArg (·.2.2) hproc)
    exact (congrArg (·.2.1) hproc).symm.trans (hlen.trans (Nat.zero_add _))
  obtain ⟨x, xs, rfl⟩ := List.exists_cons_of_ne_nil hne
  simp only [devLoop, hproc, hall, List.drop_length, devLoop_nil]

theorem devLoop_of_error_stop (hproc : procBody run.bsm xs = (b, n, .error)) (hpolicy : p.devErrPolicy = .stop) :
    devLoop p site (fuel + 1) run xs = ({ run with bsm := b, nerr := run.nerr + 1 }, none) := by
  obtain ⟨x, xs, rfl⟩ := List.exists_cons_of_ne_nil hne
  simp only [devLoop, hproc, hpolicy]

theorem devLoop_of_error_goOn (hproc : procBody run.bsm xs = (b, n, .error)) (hpolicy : p.devErrPolicy = .goOn) :
    devLoop p site (fuel + 1) run xs =
      devLoop p site fuel { run with bsm := b, nerr := run.nerr + 1 } (xs.drop n) := by
  obtain ⟨x, xs, rfl⟩ := List.exists_cons_of_ne_nil hne
  simp only [devLoop, hproc, hpolicy]

theorem devLoop_of_message {run' : DevRun} (hproc : procBody run.bsm xs = (b, n, .outputReady))
    (hmsg : devMessage p site { run with bsm := b } = (run', none)) :
    devLoop p site (fuel + 1) run xs = devLoop p site fuel run' (xs.drop n) := by
  obtain ⟨x, xs, rfl⟩ := List.exists_cons_of_ne_nil hne
  simp only [devLoop, hproc, hmsg]

theorem devLoop_of_no_room {run' : DevRun} {e : Raised} (hproc : procBody run.bsm xs = (b, n, .outputReady))
    (hmsg : devMessage p site { run with bsm := b } = (run', some e)) :
    devLoop p site (fuel + 1) run xs = (run', some e) := by
  obtain ⟨x, xs, rfl⟩ := List.exists_cons_of_ne_nil hne
  simp only [devLoop, hproc, hmsg]

end

/-! ## The loop does not look at its fuel or its errors -/

/-- The same run with `c` errors more. -/
def DevRun.withErrors (run : DevRun) (c : Nat) : DevRun := { run with nerr := run.nerr + c }

theorem devMessage_withErrors (p : Params) (site : Site) (run : DevRun) (c : Nat) :
    devMessage p site (run.withErrors c) = ((devMessage p site run).1.withErrors c, (devMessage p site run).2) := by
  unfold devMessage DevRun.withErrors
  dsimp only
  split <;> rfl

/-- The loop counts its errors and looks neither at the count nor at the fuel, while there is fuel for each sample. -/
theorem devLoop_withErrors (p : Params) (site : Site) (c : Nat) {f g : Nat} {xs : List Bool} (run : DevRun)
    (hf : xs.length ≤ f) (hg : xs.length ≤ g) :
    devLoop p site f (run.withErrors c) xs =
      ((devLoop p site g run xs).1.withErrors c, (devLoop p site g run xs).2) := by
  induction f generalizing xs g run with
  | zero =>
    obtain rfl := List.eq_nil_of_length_eq_zero (Nat.le_zero.mp hf)
    rw [devLoop_nil, devLoop_nil]
  | succ f ih =>
    by_cases hne : xs = []
    · rw [hne, devLoop_nil, devLoop_nil]
    obtain ⟨g, rfl⟩ := Nat.exists_eq_succ_of_ne_zero ((List.length_pos_of_ne_nil hne).trans_le hg).ne'
    rcases hproc : procBody run.bsm xs with ⟨b, n, event⟩
    have hproc' : procBody (run.withErrors c).bsm xs = (b, n, event) := hproc
    have hpos := count_pos_of_procBody hne hproc
    have hleft : ∀ k, xs.length ≤ k + 1 → (xs.drop n).length ≤ k := fun k hk => by
      rw [List.length_drop]
      exact Nat.sub_le_of_le_add (hk.trans (Nat.add_le_add_left hpos k))
    have goOn := fun run' => ih run' (hleft f hf) (hleft g hg)
    cases event with
    | noOutputYet =>
      rw [devLoop_of_silent hne hproc', devLoop_of_silent hne hproc]
      rfl
    | error =>
      have hcount : { run.withErrors c with bsm := b, nerr := (run.withErrors c).nerr + 1 } =
          DevRun.withErrors { run with bsm := b, nerr := run.nerr + 1 } c := by
        simp only [DevRun.withErrors, Nat.add_right_comm]
      cases hpolicy : p.devErrPolicy with
      | stop => rw [devLoop_of_error_stop hne hproc' hpolicy, devLoop_of_error_stop hne hproc hpolicy, hcount]
      | goOn =>
        rw [devLoop_of_error_goOn hne hproc' hpolicy, devLoop_of_error_goOn hne hproc hpolicy, hcount]
        exact goOn _
    | outputReady =>
      have hmsg' := devMessage_withErrors p site { run with bsm := b } c
      rcases hmsg : devMessage p site { run with bsm := b } with ⟨run', _ | e⟩ <;> rw [hmsg] at hmsg'
      · rw [devLoop_of_message hne hproc' hmsg', devLoop_of_message hne hproc hmsg]
        exact goOn run'
      · rw [devLoop_of_no_room hne hproc' hmsg', devLoop_of_no_room hne hproc hmsg]

/-- The loop of DEV.PROC with a turn for each sample. -/
def devRun (p : Params) (site : Site) (run : DevRun) (xs : List Bool) : DevRun × Option Raised :=
  devLoop p site xs.length run xs

theorem devLoop_eq_devRun {p : Params} {site : Site} {fuel : Nat} {xs : List Bool} (run : DevRun)
    (h : xs.length ≤ fuel) : devLoop p site fuel run xs = devRun p site run xs :=
  devLoop_withErrors p site 0 run h le_rfl

theorem devRun_withErrors (p : Params) (site : Site) (run : DevRun) (c : Nat) (xs : List Bool) :
    devRun p site (run.withErrors c) xs = ((devRun p site run xs).1.withErrors c, (devRun p site run xs).2) :=
  devLoop_withErrors p site c run le_rfl le_rfl

section

variable {p : Params} {site : Site} {run : DevRun} {xs : List Bool} {b : Bsm} {n : Nat} (hne : xs ≠ [])
include hne

/-- A turn of `devRun` has a turn for each sample left. -/
theorem devRun_eq_of_turn {run' : DevRun} {event : SampleResult} (hproc : procBody run.bsm xs = (b, n, event))
    (hturn : ∀ fuel, devLoop p site (fuel + 1) run xs = devLoop p site fuel run' (xs.drop n)) :
    devRun p site run xs = devRun p site run' (xs.drop n) := by
  have hpos := count_pos_of_procBody hne hproc
  obtain ⟨k, hk⟩ := Nat.exists_eq_succ_of_ne_zero (List.length_pos_of_ne_nil hne).ne'
  rw [devRun, hk, hturn k]
  refine devLoop_eq_devRun _ ?_
  rw [List.length_drop, hk]
  omega

end

/-! ## What a DEV.PROC that has room leaves (R313) -/

/-- A message's pairs are judged by the slots and the timestamp mode alone. -/
theorem messagePairs_of_slots {p : Params} {b c : Bfc} {bits : List Bool} {message : List Pair} (hslots : b.slots = c.slots)
    (hmode : b.tsMode = c.tsMode) (h : MessagePairs p b bits message) : MessagePairs p c bits message := by
  simpa only [MessagePairs, usedFields, hslots, hmode] using h

theorem messageKeys_length_le (b : Bfc) : (messageKeys b).length ≤ (usedFields b).length + 1 := by
  rw [messageKeys, List.length_append, List.length_map, Nat.add_comm]
  split <;> simp

/-- A message has a pair for each of its keys. -/
theorem messagePairs_length {p : Params} {b : Bfc} {bits : List Bool} {message : List Pair}
    (h : MessagePairs p b bits message) : message.length = (messageKeys b).length := by
  rw [← messagePairs_keys p b bits message h, List.length_map]

/-- The keys of a list of messages: each message's, one after another. -/
theorem flatten_map_key {p : Params} {b : Bfc} {messages : List (List Pair)}
    (h : ∀ m ∈ messages, ∃ bits, MessagePairs p b bits m) :
    messages.flatten.map Pair.key = (List.replicate messages.length (messageKeys b)).flatten := by
  induction messages with
  | nil => rfl
  | cons m messages ih =>
    obtain ⟨⟨bits, hm⟩, hrest⟩ := List.forall_mem_cons.mp h
    rw [List.flatten_cons, List.map_append, messagePairs_keys p b bits m hm, ih hrest, List.length_cons,
      List.replicate_succ, List.flatten_cons]

/-- What holds of a DEV.PROC that has examined `used` samples, of a device with this state table and these fields. -/
structure DevRun.Tally (p : Params) (states : List StateEntry) (b : Bfc) (used : Nat) (run : DevRun) : Prop where
  states : run.bsm.states = states
  slots : run.bfc.slots = b.slots
  tsMode : run.bfc.tsMode = b.tsMode
  messages : ∃ messages : List (List Pair), run.kv = messages.flatten ∧ messages.length = run.nmsg ∧
    ∀ m ∈ messages, ∃ bits, MessagePairs p b bits m
  events : run.nmsg + run.nerr ≤ used

section

variable {p : Params} {states : List StateEntry} {b : Bfc} {used : Nat} {run : DevRun}

theorem DevRun.Tally.mono {used' : Nat} (h : run.Tally p states b used) (hle : used ≤ used') :
    run.Tally p states b used' := { h with events := h.events.trans hle }

theorem DevRun.Tally.withBsm {c : Bsm} (h : run.Tally p states b used) (hc : c.states = run.bsm.states) :
    DevRun.Tally p states b used { run with bsm := c } := { h with states := hc.trans h.states }

theorem DevRun.Tally.withError (h : run.Tally p states b used) :
    DevRun.Tally p states b (used + 1) { run with nerr := run.nerr + 1 } :=
  { h with events := Nat.succ_le_succ h.events }

/-- One more message, of a formatter with the same fields. -/
theorem DevRun.Tally.withMessage {f : Bfc} {bits : List Bool} {message : List Pair} (h : run.Tally p states b used)
    (hslots : f.slots = run.bfc.slots) (hmode : f.tsMode = run.bfc.tsMode) (hmessage : MessagePairs p f bits message) :
    DevRun.Tally p states b (used + 1) { run with bfc := f, kv := run.kv ++ message, nmsg := run.nmsg + 1 } := by
  have hslots' := hslots.trans h.slots
  have hmode' := hmode.trans h.tsMode
  obtain ⟨messages, hkv, hcount, hall⟩ := h.messages
  refine ⟨h.states, hslots', hmode', ⟨messages ++ [message], ?_, ?_, ?_⟩, ?_⟩
  · simp [hkv]
  · simp [hcount]
  · rintro m hm
    rcases List.mem_append.mp hm with hm | hm
    · exact hall m hm
    · rw [List.mem_singleton.mp hm]
      exact ⟨bits, messagePairs_of_slots hslots' hmode' hmessage⟩
  · rw [Nat.add_right_comm]
    exact Nat.succ_le_succ h.events

theorem DevRun.Tally.kv_length (h : run.Tally p states b used) : run.kv.length = run.nmsg * (messageKeys b).length := by
  obtain ⟨messages, hkv, hcount, hall⟩ := h.messages
  have hkeys := congrArg List.length (flatten_map_key hall)
  rw [← hkv, hcount, List.length_map] at hkeys
  simpa using hkeys

/-- A list with room for another sample's message has room for the message. -/
theorem DevRun.Tally.fits {f : Bfc} {bits : List Bool} {message : List Pair} (h : run.Tally p states b used)
    (hslots : f.slots = run.bfc.slots) (hmode : f.tsMode = run.bfc.tsMode) (hmessage : MessagePairs p f bits message)
    (hroom : (used + 1) * ((usedFields b).length + 1) ≤ p.kvMax) : run.kv.length + message.length ≤ p.kvMax := by
  have hlen : message.length = (messageKeys b).length :=
    messagePairs_length (messagePairs_of_slots (hslots.trans h.slots) (hmode.trans h.tsMode) hmessage)
  have hcount : run.nmsg + 1 ≤ used + 1 := Nat.succ_le_succ (Nat.le_of_add_right_le h.events)
  calc run.kv.length + message.length = (run.nmsg + 1) * (messageKeys b).length := by rw [h.kv_length, hlen, Nat.succ_mul]
    _ ≤ (used + 1) * ((usedFields b).length + 1) := Nat.mul_le_mul hcount (messageKeys_length_le b)
    _ ≤ p.kvMax := hroom

/-- With room for each sample's message the loop raises nothing, and every message is one of the device's. -/
theorem devLoop_tally {site : Site} {fuel : Nat} {xs : List Bool} (h : run.Tally p states b used)
    (hroom : (used + xs.length) * ((usedFields b).length + 1) ≤ p.kvMax) :
    ∃ run', devLoop p site fuel run xs = (run', none) ∧ run'.Tally p states b (used + xs.length) := by
  induction fuel generalizing run used xs with
  | zero => exact ⟨run, rfl, h.mono (Nat.le_add_right _ _)⟩
  | succ fuel ih =>
    by_cases hne : xs = []
    · exact ⟨run, by rw [hne, devLoop_nil], h.mono (Nat.le_add_right _ _)⟩
    have hlen := List.length_pos_of_ne_nil hne
    have hstates := (procBody_sameConfig run.bsm xs).states
    rcases hproc : procBody run.bsm xs with ⟨c, n, event⟩
    rw [hproc] at hstates
    have hpos := count_pos_of_procBody hne hproc
    have hleft : used + 1 + (xs.drop n).length ≤ used + xs.length := by
      rw [List.length_drop]
      omega
    have goOn : ∀ run' : DevRun, run'.Tally p states b (used + 1) →
        ∃ run'', devLoop p site fuel run' (xs.drop n) = (run'', none) ∧ run''.Tally p states b (used + xs.length) :=
      fun run' h' => by
        obtain ⟨run'', hloop, htally⟩ := ih h' ((Nat.mul_le_mul_right _ hleft).trans hroom)
        exact ⟨run'', hloop, htally.mono hleft⟩
    have hturn := h.withBsm hstates
    cases event with
    | noOutputYet => exact ⟨_, devLoop_of_silent hne hproc, hturn.mono (Nat.le_add_right _ _)⟩
    | error =>
      cases hpolicy : p.devErrPolicy with
      | stop => exact ⟨_, devLoop_of_error_stop hne hproc hpolicy, hturn.withError.mono (Nat.add_le_add_left hlen _)⟩
      | goOn =>
        rw [devLoop_of_error_goOn hne hproc hpolicy]
        exact goOn _ hturn.withError
    | outputReady =>
      have hmessage := decodeBody_message p (run.nmsg :: site) run.bfc c.acc
      have hone : (used + 1) * ((usedFields b).length + 1) ≤ p.kvMax :=
        (Nat.mul_le_mul_right _ (Nat.add_le_add_left hlen _)).trans hroom
      have hmsg := devMessage_of_fits (run := { run with bsm := c }) (site := site) rfl (hturn.fits rfl rfl hmessage hone)
      rw [devLoop_of_message hne hproc hmsg]
      exact goOn _ (hturn.withMessage rfl rfl hmessage)

end

/-! ## The command (R313, R330) -/

/-- The run DEV.PROC starts with. -/
def devStart (s : State) : DevRun := ⟨s.bsm, s.bfc, [], 0, 0⟩

/-- The state DEV.PROC ends in after its loop. -/
def devEnd (s : State) (r : DevRun × Option Raised) : State :=
  let after := { s with bsm := r.1.bsm, bfc := r.1.bfc, kv := r.1.kv }
  match r.2 with
  | some e => after.failedWith (statusCode e.code) e.info
  | none => after.completedWith [BitVec.ofNat 32 r.1.kv.length, BitVec.ofNat 32 r.1.nmsg, BitVec.ofNat 32 r.1.nerr]

theorem exec_devProc {s : State} (h : devReady s = true) (xs : List Bool) :
    exec (.devProc xs) s = .next (devEnd s (devRun s.params [s.draws] (devStart s) xs)) := by
  simp only [exec, execDevProc, devNotReady_of_ready h, devEnd, devRun, devStart]
  generalize devLoop _ _ _ _ _ = r
  rcases r with ⟨run, _ | e⟩ <;> rfl

theorem devEnd_kv (s : State) (r : DevRun × Option Raised) : (devEnd s r).kv = r.1.kv := by
  obtain ⟨run, _ | e⟩ := r <;> rfl

/-- The end of a run with one error more: one word of the reply tells, where there are counts in it. -/
theorem devEnd_withErrors (s : State) (r : DevRun × Option Raised) :
    devEnd s (r.1.withErrors 1, r.2) = { devEnd s r with
      reply := if (devEnd s r).status = 0 then
        [0, (devEnd s r).reply.getD 1 0, (devEnd s r).reply.getD 2 0, (devEnd s r).reply.getD 3 0 + 1]
      else (devEnd s r).reply } := by
  obtain ⟨run, _ | e⟩ := r
  · simp [devEnd, DevRun.withErrors, State.completedWith, BitVec.ofNat_add]
  · simpa [devEnd, DevRun.withErrors, State.failedWith] using statusCode_ne_zero e.code

/-- The end of a run that has `message` before another run's pairs and counts a message more. -/
theorem devEnd_of_runRel {s : State} {q : Params} {message : List Pair} {r u : DevRun × Option Raised}
    (hrel : RunRel s.params s.bfc message 1 0 r.1 u.1) (hraised : r.2 = u.2) :
    ∃ rest, List.Forall₂ (SamePair s.params s.bfc) rest (devEnd { s with params := q } u).kv ∧
      devEnd s r = { devEnd { s with params := q } u with
        params := s.params, kv := message ++ rest
        reply := if (devEnd { s with params := q } u).status = 0 then
          [0, (devEnd { s with params := q } u).reply.getD 1 0 + BitVec.ofNat 32 message.length,
            (devEnd { s with params := q } u).reply.getD 2 0 + 1, (devEnd { s with params := q } u).reply.getD 3 0]
        else (devEnd { s with params := q } u).reply } := by
  obtain ⟨⟨b, f, kv, nmsg, nerr⟩, e⟩ := r
  obtain ⟨⟨b', f', kv', nmsg', nerr'⟩, e'⟩ := u
  obtain ⟨hbsm, hbfc, -, -, ⟨rest, hkv, hsame⟩, hnmsg, hnerr⟩ := hrel
  simp only at hbsm hbfc hkv hsame hnmsg hnerr hraised
  subst hbsm hbfc hkv hnmsg hnerr hraised
  refine ⟨rest, by rw [devEnd_kv]; exact hsame, ?_⟩
  rcases e with _ | e
  · simp [devEnd, State.completedWith, BitVec.ofNat_add, hsame.length_eq, BitVec.add_comm]
  · simpa [devEnd, State.failedWith] using statusCode_ne_zero e.code

/-! ## DEV.PROC by its first event (R313, R314) -/

theorem exec_devProc_nil {s : State} (h : devReady s = true) :
    exec (.devProc []) s = .next (State.completedWith { s with kv := [] } [0, 0, 0]) := exec_devProc h []

/-- What the first output of a DEV.PROC decodes (R311, R313). -/
def firstMessage (s : State) (b : Bsm) : Bfc × List Pair := decodeBody s.params [0, s.draws] s.bfc b.acc

/-- The state whose DEV.PROC goes on after the first message: its list has that much less room. -/
def afterMessage (s : State) (b : Bsm) : State :=
  { s with bsm := b, bfc := (firstMessage s b).1,
           params := { s.params with kvMax := s.params.kvMax - (firstMessage s b).2.length } }

theorem firstMessage_pairs (s : State) (b : Bsm) :
    MessagePairs s.params s.bfc (loadRecord s.bfc.recordBits.toNat b.acc) (firstMessage s b).2 :=
  decodeBody_message s.params [0, s.draws] s.bfc b.acc

theorem devReady_afterMessage {s : State} {xs : List Bool} {b : Bsm} {n : Nat} (hready : devReady s = true)
    (hproc : procBody s.bsm xs = (b, n, .outputReady)) :
    devReady (afterMessage s b) = true := by
  have hconfig := procBody_sameConfig s.bsm xs
  rw [hproc] at hconfig
  exact devReady_of_sameConfig hready hconfig rfl rfl

section

variable {s : State} {xs : List Bool} {b : Bsm} {n : Nat} (hready : devReady s = true) (hne : xs ≠ [])
include hready hne

theorem exec_devProc_of_silent (hproc : procBody s.bsm xs = (b, n, .noOutputYet)) :
    exec (.devProc xs) s = .next (State.completedWith { s with bsm := b, kv := [] } [0, 0, 0]) := by
  have hloop := devLoop_of_silent (p := s.params) (site := [s.draws]) (run := devStart s) (fuel := xs.length) hne hproc
  rw [exec_devProc hready, ← devLoop_eq_devRun _ (Nat.le_succ _), hloop]
  rfl

theorem exec_devProc_of_error_stop (hproc : procBody s.bsm xs = (b, n, .error)) (hpolicy : s.params.devErrPolicy = .stop) :
    exec (.devProc xs) s = .next (State.completedWith { s with bsm := b, kv := [] } [0, 0, 1]) := by
  have hloop := devLoop_of_error_stop (site := [s.draws]) (run := devStart s) (fuel := xs.length) hne hproc hpolicy
  rw [exec_devProc hready, ← devLoop_eq_devRun _ (Nat.le_succ _), hloop]
  rfl

/-- After an error that does not stop it, DEV.PROC does what it does with the samples left and counts the error. -/
theorem exec_devProc_of_error_goOn (hproc : procBody s.bsm xs = (b, n, .error)) (hpolicy : s.params.devErrPolicy = .goOn) :
    ∃ u, exec (.devProc (xs.drop n)) { s with bsm := b } = .next u ∧
      exec (.devProc xs) s = .next { u with
        reply := if u.status = 0 then [0, u.reply.getD 1 0, u.reply.getD 2 0, u.reply.getD 3 0 + 1] else u.reply } := by
  have hconfig := procBody_sameConfig s.bsm xs
  rw [hproc] at hconfig
  have hready' : devReady { s with bsm := b } = true := devReady_of_sameConfig hready hconfig rfl rfl
  have hloop := devRun_eq_of_turn (p := s.params) (site := [s.draws]) (run := devStart s) hne hproc fun _ =>
    devLoop_of_error_goOn hne hproc hpolicy
  have hcount := devRun_withErrors s.params [s.draws] (devStart { s with bsm := b }) 1 (xs.drop n)
  refine ⟨_, exec_devProc hready' (xs.drop n), ?_⟩
  rw [exec_devProc hready, hloop]
  exact congrArg Host.Outcome.next ((congrArg (devEnd s) hcount).trans (devEnd_withErrors { s with bsm := b } _))

theorem exec_devProc_of_output_full (hproc : procBody s.bsm xs = (b, n, .outputReady))
    (hfull : s.params.kvMax < (firstMessage s b).2.length) :
    exec (.devProc xs) s = .next (State.failedWith
      { s with bsm := b, bfc := (firstMessage s b).1, kv := (firstMessage s b).2.take s.params.kvMax } 2 0x40) := by
  have hmsg := devMessage_of_full (p := s.params) (run := { devStart s with bsm := b }) (site := [s.draws])
    (f := (firstMessage s b).1) (message := (firstMessage s b).2) rfl (Nat.zero_le _) (by simpa [devStart] using hfull)
  have hloop := devLoop_of_no_room (p := s.params) (site := [s.draws]) (run := devStart s) (fuel := xs.length) hne hproc hmsg
  rw [exec_devProc hready, ← devLoop_eq_devRun _ (Nat.le_succ _), hloop]
  rfl

/-- After an output whose pairs fit, DEV.PROC does what it does with the samples left on a list with that much less room, the
message's pairs first. -/
theorem exec_devProc_of_output_fits (hproc : procBody s.bsm xs = (b, n, .outputReady))
    (hfits : (firstMessage s b).2.length ≤ s.params.kvMax) :
    ∃ u rest, exec (.devProc (xs.drop n)) (afterMessage s b) = .next u ∧
      List.Forall₂ (SamePair s.params s.bfc) rest u.kv ∧
      exec (.devProc xs) s = .next { u with
        params := s.params, kv := (firstMessage s b).2 ++ rest
        reply := if u.status = 0 then
          [0, u.reply.getD 1 0 + BitVec.ofNat 32 (firstMessage s b).2.length, u.reply.getD 2 0 + 1, u.reply.getD 3 0]
        else u.reply } := by
  have hmsg := devMessage_of_fits (p := s.params) (run := { devStart s with bsm := b }) (site := [s.draws])
    (f := (firstMessage s b).1) (message := (firstMessage s b).2) rfl (by simpa [devStart] using hfits)
  have hloop := devRun_eq_of_turn (p := s.params) (site := [s.draws]) (run := devStart s) hne hproc fun _ =>
    devLoop_of_message hne hproc hmsg
  have hrel : RunRel s.params s.bfc (firstMessage s b).2 1 0
      ⟨b, (firstMessage s b).1, (firstMessage s b).2, 1, 0⟩ (devStart (afterMessage s b)) :=
    ⟨rfl, rfl, rfl, rfl, ⟨[], (List.append_nil _).symm, .nil⟩, rfl, rfl⟩
  obtain ⟨hends, hraised⟩ := devLoop_continues s.params s.bfc (firstMessage s b).2 1 0 [s.draws]
    (xs.drop n).length (xs.drop n) (xs.drop n).length _ _ le_rfl le_rfl hrel
  obtain ⟨rest, hsame, hend⟩ := devEnd_of_runRel (q := (afterMessage s b).params) hends hraised
  refine ⟨_, rest, exec_devProc (devReady_afterMessage hready hproc) (xs.drop n), hsame, ?_⟩
  rw [exec_devProc hready, hloop]
  exact congrArg Host.Outcome.next hend

/-- A message after which nothing more is output is the whole list. -/
theorem exec_devProc_of_only_output {c : Bsm} (hproc : procBody s.bsm xs = (b, n, .outputReady))
    (hfits : (firstMessage s b).2.length ≤ s.params.kvMax)
    (hleft : exec (.devProc (xs.drop n)) (afterMessage s b) =
      .next (State.completedWith { afterMessage s b with bsm := c, kv := [] } [0, 0, 0])) :
    exec (.devProc xs) s = .next (State.completedWith
      { s with bsm := c, bfc := (firstMessage s b).1, kv := (firstMessage s b).2 }
      [BitVec.ofNat 32 (firstMessage s b).2.length, 1, 0]) := by
  obtain ⟨u, rest, hexec, hsame, hall⟩ := exec_devProc_of_output_fits hready hne hproc hfits
  cases hleft.symm.trans hexec
  obtain rfl := List.forall₂_nil_right_iff.mp hsame
  rw [hall]
  simp [State.completedWith, afterMessage]

end

/-! ## The obligations -/

/-- A DEV.PROC with room completes; its list holds whole messages and its counts are the list's. -/
theorem exec_devProc_with_room {s : State} {xs : List Bool} (hready : devReady s = true)
    (hroom : xs.length * ((usedFields s.bfc).length + 1) ≤ s.params.kvMax) :
    ∃ run : DevRun, run.Tally s.params s.bsm.states s.bfc xs.length ∧
      exec (.devProc xs) s = .next (State.completedWith { s with bsm := run.bsm, bfc := run.bfc, kv := run.kv }
        [BitVec.ofNat 32 run.kv.length, BitVec.ofNat 32 run.nmsg, BitVec.ofNat 32 run.nerr]) := by
  have hstart : (devStart s).Tally s.params s.bsm.states s.bfc 0 := ⟨rfl, rfl, rfl, ⟨[], rfl, rfl, nofun⟩, le_rfl⟩
  obtain ⟨run, hloop, htally⟩ := devLoop_tally (site := [s.draws]) (fuel := xs.length) (xs := xs) hstart
    (by rwa [Nat.zero_add])
  rw [Nat.zero_add] at htally
  exact ⟨run, htally, by rw [exec_devProc hready, devRun, hloop]; rfl⟩

/-- Settles O55: with no sample the loop does nothing, with room its tally is the answer, and each first event has its
equation. -/
theorem devProcCompletes : Obligations.DevProcCompletes := by
  refine ⟨fun s => exec_devProc_nil, fun xs s hready hroom => ?_, ?_⟩
  · obtain ⟨run, ⟨hstates, hslots, -, ⟨messages, hkv, hcount, hall⟩, hevents⟩, hexec⟩ := exec_devProc_with_room hready hroom
    rw [hkv] at hexec
    exact ⟨run.bsm, run.bfc, messages, run.nmsg, run.nerr, hexec, hcount, hall, hcount ▸ flatten_map_key hall, hevents,
      hstates, hslots⟩
  · intro xs s t n r hready hne hlen hexec hreply hn
    obtain ⟨event, hproc, hcode⟩ := procBody_of_reply (bsmInitialized_of_devReady hready) hexec hreply hn hlen
    have hevent : ∀ e, r = resultCode e → procBody s.bsm xs = (t.bsm, n, e) := fun e he => by
      rw [hproc, resultCode_injective (hcode.trans he)]
    refine ⟨fun hr => exec_devProc_of_silent hready hne (hevent .noOutputYet hr),
      fun hr => exec_devProc_of_error_stop hready hne (hevent .error hr),
      fun hr => exec_devProc_of_error_goOn hready hne (hevent .error hr), fun hr => ?_⟩
    have hproc := hevent .outputReady hr
    have hpairs := firstMessage_pairs s t.bsm
    refine ⟨(firstMessage s t.bsm).1.spt, (firstMessage s t.bsm).2, hpairs, messagePairs_keys _ _ _ _ hpairs,
      exec_devProc_of_output_full hready hne hproc, fun hfits => ?_⟩
    exact exec_devProc_of_output_fits hready hne hproc hfits

/-- Settles O56: the message comes first whatever follows it, and where nothing follows or nothing more is output, it is all
that DEV.PROC adds to what it does with the samples left. -/
theorem devProcDecodesTheAccumulator : Obligations.DevProcDecodesTheAccumulator := by
  intro xs s t n hready hexec hreply hn hlen hkeys
  obtain ⟨event, hproc, hcode⟩ := procBody_of_reply (bsmInitialized_of_devReady hready) hexec hreply hn hlen
  obtain rfl : event = .outputReady := resultCode_injective hcode
  have hne : xs ≠ [] := by
    rintro rfl
    cases congrArg (·.2.2) hproc
  have hpairs := firstMessage_pairs s t.bsm
  have hfits : (firstMessage s t.bsm).2.length ≤ s.params.kvMax := (messagePairs_length hpairs).trans_le hkeys
  have hready' := devReady_afterMessage hready hproc
  obtain ⟨u, rest, -, -, hall⟩ := exec_devProc_of_output_fits hready hne hproc hfits
  refine ⟨(firstMessage s t.bsm).1.spt, (firstMessage s t.bsm).2, hpairs, fun hlast => ?_, fun v hmore hexec' hreply' => ?_,
    ⟨_, rest, hall, rfl⟩⟩
  · refine exec_devProc_of_only_output hready hne hproc hfits ?_
    rw [hlast, List.drop_length]
    exact exec_devProc_nil hready'
  · have hinit : bsmInitialized t.bsm = true := bsmInitialized_of_devReady (s := afterMessage s t.bsm) hready'
    have hdrop : (xs.drop n).length = xs.length - n := List.length_drop
    obtain ⟨event, hproc', hcode'⟩ := procBody_of_reply hinit hexec' hreply' hdrop.ge (by omega)
    obtain rfl := resultCode_eq_zero hcode'
    have hne' : xs.drop n ≠ [] := List.ne_nil_of_length_pos (by omega)
    exact exec_devProc_of_only_output hready hne hproc hfits (exec_devProc_of_silent hready' hne' hproc')

end Sys2Proof.Machine

namespace Sys2Proof.Machine

/-! # The record DEV.GEN builds and what it generates (O57)

The defaults and the pairs are writes of fields. What a write leaves of the record is said once (`WritesWithin`): nothing
changes but the record and the spt cell, and no bit outside the fields written. So a field keeps the value of its last
write that no later write overlaps. -/

/-! ## Writing a field (R201, R202) -/

/-- A field that lies inside the record reads back what was written into it (R202). -/
theorem extractField_insertField {f : BitField} {bits : List Bool} {raw : Nat} (hrange : f.startBit.toNat ≤ f.endBit.toNat)
    (hinside : f.endBit.toNat < bits.length) (hraw : raw ≤ fieldMask f) :
    extractField f (insertField f bits raw) = raw := by
  have hwidth : fieldWidth f = f.endBit.toNat - f.startBit.toNat + 1 := rfl
  have hlt : raw < 2 ^ fieldWidth f := hraw.trans_lt (Nat.sub_lt (Nat.two_pow_pos _) Nat.one_pos)
  refine Nat.eq_of_testBit_eq fun j => ?_
  by_cases hj : j < fieldWidth f
  · have hoff := bitOffset_lt f hj
    rw [extractField_testBit f _ hj, insertField_getD f bits raw _ (by omega), if_pos (by omega), Nat.add_sub_cancel_left,
      bitOffset_bitOffset f hj]
  · have hpow : 2 ^ fieldWidth f ≤ 2 ^ j := Nat.pow_le_pow_right Nat.two_pos (Nat.le_of_not_lt hj)
    rw [Nat.testBit_lt_two_pow ((extractField_lt f _).trans_le hpow), Nat.testBit_lt_two_pow (hlt.trans_le hpow)]

/-- A field's value is decided by the bits of its range. -/
theorem extractField_congr {f : BitField} {bits bits' : List Bool} (hrange : f.startBit.toNat ≤ f.endBit.toNat)
    (h : ∀ k, f.startBit.toNat ≤ k → k ≤ f.endBit.toNat → bits.getD k false = bits'.getD k false) :
    extractField f bits = extractField f bits' := by
  have hwidth : fieldWidth f = f.endBit.toNat - f.startBit.toNat + 1 := rfl
  refine congrArg Nat.ofBits (funext fun j => ?_)
  have hoff := bitOffset_lt f j.isLt
  exact h _ (by omega) (by omega)

/-- `c` is `b` but for the record and the spt cell. -/
structure Bfc.SameTable (b c : Bfc) : Prop where
  valid : c.valid = b.valid
  recordBits : c.recordBits = b.recordBits
  tsMode : c.tsMode = b.tsMode
  slots : c.slots = b.slots

theorem Bfc.SameTable.trans {b c d : Bfc} (h : b.SameTable c) (h' : c.SameTable d) : b.SameTable d :=
  ⟨h'.valid.trans h.valid, h'.recordBits.trans h.recordBits, h'.tsMode.trans h.tsMode, h'.slots.trans h.slots⟩

theorem Bfc.SameTable.eq {b c : Bfc} (h : b.SameTable c) : c = { b with record := c.record, spt := c.spt } := by
  rw [← h.valid, ← h.recordBits, ← h.tsMode, ← h.slots]

theorem Bfc.SameTable.findField_eq {b c : Bfc} (h : b.SameTable c) (name : Text) : findField c name = findField b name := by
  rw [findField, findField, h.slots]

theorem loadScratch_sameTable (b : Bfc) (operand : List Bool) : b.SameTable (loadScratch b operand) := ⟨rfl, rfl, rfl, rfl⟩

/-- `c` is `b` after writes into fields with property `P`. -/
structure Bfc.WritesWithin (P : BitField → Prop) (b c : Bfc) : Prop where
  table : b.SameTable c
  length : c.record.length = b.record.length
  outside : ∀ k, (∀ g, P g → k < g.startBit.toNat ∨ g.endBit.toNat < k) → c.record.getD k false = b.record.getD k false

section

variable {P : BitField → Prop} {b c d : Bfc} {f : BitField}

theorem Bfc.WritesWithin.refl (P : BitField → Prop) (b : Bfc) : Bfc.WritesWithin P b b := ⟨⟨rfl, rfl, rfl, rfl⟩, rfl, fun _ _ => rfl⟩

theorem Bfc.WritesWithin.trans (h : Bfc.WritesWithin P b c) (h' : Bfc.WritesWithin P c d) : Bfc.WritesWithin P b d :=
  ⟨h.table.trans h'.table, h'.length.trans h.length, fun k hk => (h'.outside k hk).trans (h.outside k hk)⟩

theorem writeField_writesWithin (hf : P f) (b : Bfc) (raw : Nat) : Bfc.WritesWithin P b (writeField b f raw) :=
  ⟨⟨rfl, rfl, rfl, rfl⟩, insertField_length _ _ _, fun _ hk => insertField_getD_outside f _ _ _ (hk f hf)⟩

/-- Writes leave a field alone that overlaps none of theirs. -/
theorem Bfc.WritesWithin.extractField_eq (h : Bfc.WritesWithin P b c) (hrange : f.startBit.toNat ≤ f.endBit.toNat)
    (hdisjoint : ∀ g, P g → f.Disjoint g) : extractField f c.record = extractField f b.record :=
  extractField_congr hrange fun k hstart hend => h.outside k fun g hg => by
    rcases hdisjoint g hg with hbelow | habove
    · exact .inr (hbelow.trans_le hstart)
    · exact .inl (hend.trans_lt habove)

/-- Writes after that of a field which overlap it nowhere leave the value written (R222). -/
theorem extractField_of_written {raw : Nat} (h : Bfc.WritesWithin P (writeField b f raw) c)
    (hrange : f.startBit.toNat ≤ f.endBit.toNat) (hinside : f.endBit.toNat < b.record.length) (hraw : raw ≤ fieldMask f)
    (hdisjoint : ∀ g, P g → f.Disjoint g) : extractField f c.record = raw :=
  (h.extractField_eq hrange hdisjoint).trans (extractField_insertField hrange hinside hraw)

end

/-! ## The defaults (R224) -/

theorem writeDefaults_writesWithin (b : Bfc) (fields : List BitField) :
    Bfc.WritesWithin (· ∈ fields) b (writeDefaults b fields) := by
  suffices h : ∀ (rest : List BitField) (b : Bfc), (∀ f ∈ rest, f ∈ fields) →
      Bfc.WritesWithin (· ∈ fields) b (writeDefaults b rest) from h fields b fun _ hf => hf
  intro rest
  induction rest with
  | nil => exact fun b _ => .refl _ b
  | cons f rest ih =>
    intro b hrest
    obtain ⟨hf, hrest⟩ := List.forall_mem_cons.mp hrest
    exact (writeField_writesWithin hf b _).trans (ih _ hrest)

theorem writeDefaults_append (b : Bfc) (pre post : List BitField) :
    writeDefaults b (pre ++ post) = writeDefaults (writeDefaults b pre) post := by
  induction pre generalizing b with
  | nil => rfl
  | cons f pre ih => exact ih _

/-- Defaults start from a record that is zero. -/
theorem defaultsBody_writesWithin (b : Bfc) :
    Bfc.WritesWithin (· ∈ usedFields b) (loadScratch b []) (defaultsBody b []) := writeDefaults_writesWithin _ _

/-! ## The pairs (R220, R221) -/

/-- The fields the pairs name. -/
def namedBy (b : Bfc) (pairs : List Pair) (g : BitField) : Prop := ∃ kv ∈ pairs, findField b kv.key = some g

theorem encodePairs_writesWithin (site : Site) (n : Nat) (b : Bfc) (pairs : List Pair) :
    Bfc.WritesWithin (namedBy b pairs) b (encodePairs site n b pairs).1 := by
  suffices h : ∀ (rest : List Pair) (n : Nat) (c : Bfc), (∀ kv ∈ rest, kv ∈ pairs) → Bfc.WritesWithin (namedBy b pairs) b c →
      Bfc.WritesWithin (namedBy b pairs) b (encodePairs site n c rest).1 from h pairs n b (fun _ h => h) (.refl _ b)
  intro rest
  induction rest with
  | nil => exact fun _ _ _ h => h
  | cons kv rest ih =>
    intro n c hrest h
    obtain ⟨hkv, hrest⟩ := List.forall_mem_cons.mp hrest
    rw [encodePairs]
    split
    · exact h
    · next f hfind =>
      split
      · exact h
      · next raw _ =>
        have hf : namedBy b pairs f := ⟨kv, hkv, (h.table.findField_eq kv.key).symm.trans hfind⟩
        exact ih _ _ hrest (h.trans (writeField_writesWithin hf c raw))

/-- A pair that names a field and parses is written, and the pairs after it go on. -/
theorem encodePairs_cons_of_parse {site : Site} {n : Nat} {b : Bfc} {kv : Pair} {f : BitField} {raw : Nat}
    (hfind : findField b kv.key = some f) (hparse : strToRaw (n :: site) f kv.value = .ok raw) (rest : List Pair) :
    encodePairs site n b (kv :: rest) = encodePairs site (n + 1) (writeField b f raw) rest := by
  simp only [encodePairs, hfind, hparse]

/-- A pair that names no field ends the encode there (R221). -/
theorem encodePairs_cons_of_unknown {b : Bfc} {kv : Pair} (hfind : findField b kv.key = none) (site : Site) (n : Nat)
    (rest : List Pair) : encodePairs site n b (kv :: rest) = (b, some (raisedAtPair n (raisedAs .unknownField 3))) := by
  simp only [encodePairs, hfind]

/-- A pair whose text does not parse ends the encode there (R221). -/
theorem encodePairs_cons_of_error {site : Site} {n : Nat} {b : Bfc} {kv : Pair} {f : BitField} {r : Raised}
    (hfind : findField b kv.key = some f) (hparse : strToRaw (n :: site) f kv.value = .error r) (rest : List Pair) :
    encodePairs site n b (kv :: rest) = (b, some (raisedAtPair n r)) := by
  simp only [encodePairs, hfind, hparse]

/-- Pairs that all parse raise nothing (R220). -/
theorem encodePairs_of_parse {draws n : Nat} {b : Bfc} {pairs : List Pair}
    (h : ∀ i kv, pairs[i]? = some kv → ∃ f v, findField b kv.key = some f ∧ strToRaw [n + i, draws] f kv.value = .ok v) :
    (encodePairs [draws] n b pairs).2 = none := by
  induction pairs generalizing n b with
  | nil => rfl
  | cons kv rest ih =>
    obtain ⟨f, v, hfind, hparse⟩ := h 0 kv rfl
    rw [Nat.add_zero] at hparse
    rw [encodePairs_cons_of_parse hfind hparse]
    refine ih fun i kv' hi => ?_
    rw [Nat.add_right_comm]
    exact h (i + 1) kv' hi

theorem PairsParse.encodePairs_none {b c : Bfc} {draws : Nat} {pairs : List Pair} (h : PairsParse b draws pairs)
    (htable : b.SameTable c) : (encodePairs [draws] 0 c pairs).2 = none :=
  encodePairs_of_parse fun i kv hi => by simpa only [Nat.zero_add, htable.findField_eq] using h i kv hi

theorem PairsParse.of_append {b : Bfc} {draws : Nat} {pre post : List Pair} (h : PairsParse b draws (pre ++ post)) :
    PairsParse b draws pre := fun i kv hi => by
  obtain ⟨hlt, -⟩ := List.getElem?_eq_some_iff.mp hi
  exact h i kv ((List.getElem?_append_left hlt).trans hi)

/-! ## The record of DEV.GEN (R315) -/

/-- A record of the right size with its tail bits 0 is loaded as it is. -/
theorem loadRecord_self {n : Nat} {bits : List Bool} (hlen : bits.length = 8 * ((n + 7) / 8))
    (htail : ∀ k, n ≤ k → bits.getD k false = false) : loadRecord n bits = bits := by
  refine List.ext_getElem ((loadRecord_length n bits).trans hlen.symm) fun k h h' => ?_
  have hk := loadRecord_getD n bits k
  rw [List.getD_eq_getElem _ _ h, List.getD_eq_getElem _ _ h'] at hk
  rw [hk]
  by_cases hin : k < n
  · simp [hin]
  · have := htail k (Nat.le_of_not_lt hin)
    rw [List.getD_eq_getElem _ _ h'] at this
    simp [this]

/-- What DEV.GEN writes the pairs into: the defaults, loaded as the operand of an encode. -/
def seedBfc (b : Bfc) : Bfc := loadScratch (defaultsBody b []) (defaultsBody b []).record

theorem devRecord_eq (site : Site) (b : Bfc) (pairs : List Pair) : devRecord site b pairs = encodePairs site 0 (seedBfc b) pairs :=
  rfl

theorem seedBfc_sameTable (b : Bfc) : b.SameTable (seedBfc b) :=
  ((loadScratch_sameTable b []).trans (defaultsBody_writesWithin b).table).trans (loadScratch_sameTable _ _)

theorem seedBfc_record_length (b : Bfc) : (seedBfc b).record.length = 8 * ((b.recordBits.toNat + 7) / 8) := by
  rw [← (seedBfc_sameTable b).recordBits]
  exact loadRecord_length _ _

/-- On a formatter that meets its invariant, loading the defaults again changes nothing. -/
theorem seedBfc_of_inv {p : Params} {b : Bfc} (h : b.Inv p) : seedBfc b = defaultsBody b [] := by
  have hinv := defaultsBody_inv h []
  rw [seedBfc, loadScratch, loadRecord_self hinv.record_length hinv.record_tail]

theorem devRecord_sameTable (site : Site) (b : Bfc) (pairs : List Pair) : b.SameTable (devRecord site b pairs).1 :=
  (seedBfc_sameTable b).trans (encodePairs_writesWithin site 0 _ pairs).table

theorem devRecord_length (site : Site) (b : Bfc) (pairs : List Pair) :
    (devRecord site b pairs).1.record.length = 8 * ((b.recordBits.toNat + 7) / 8) :=
  (encodePairs_writesWithin site 0 _ pairs).length.trans (seedBfc_record_length b)

/-- The fields named in a formatter are those named in any of the same table. -/
theorem namedBy_of_sameTable {b c : Bfc} (h : b.SameTable c) (pairs : List Pair) : namedBy c pairs = namedBy b pairs := by
  unfold namedBy
  simp only [h.findField_eq]

/-- Pairs that all parse raise nothing, and the pairs after them go on from there (R220). -/
theorem devRecord_append {b : Bfc} {draws : Nat} {pre : List Pair} (h : PairsParse b draws pre) (post : List Pair) :
    devRecord [draws] b (pre ++ post) = encodePairs [draws] pre.length (devRecord [draws] b pre).1 post := by
  have hpre : encodePairs [draws] 0 (seedBfc b) pre = ((devRecord [draws] b pre).1, none) :=
    Prod.ext rfl (h.encodePairs_none (seedBfc_sameTable b))
  obtain ⟨-, hgo⟩ := encodePairs_append [draws] post pre 0 (seedBfc b) _ hpre
  rw [devRecord_eq, hgo, Nat.zero_add]

section

variable {p : Params} {b : Bfc} (hinv : b.Inv p)
include hinv

theorem devRecord_writesWithin (site : Site) (pairs : List Pair) :
    Bfc.WritesWithin (namedBy b pairs) (defaultsBody b []) (devRecord site b pairs).1 := by
  have h := encodePairs_writesWithin site 0 (seedBfc b) pairs
  rwa [namedBy_of_sameTable (seedBfc_sameTable b), ← devRecord_eq, seedBfc_of_inv hinv] at h

/-- A bit of no field stays 0. -/
theorem devRecord_uncovered (site : Site) (pairs : List Pair) {k : Nat}
    (hk : ∀ f ∈ usedFields b, k < f.startBit.toNat ∨ f.endBit.toNat < k) :
    (devRecord site b pairs).1.record.getD k false = false := by
  rw [(devRecord_writesWithin hinv site pairs).outside k ?_, (defaultsBody_writesWithin b).outside k hk]
  · rw [loadScratch_record, loadRecord_getD, List.getD_nil, Bool.and_false]
  · rintro g ⟨kv, -, hfind⟩
    exact hk g (findField_some hfind).1

/-- A default that no later default and no pair overlaps stays (R224). -/
theorem devRecord_default (site : Site) (pairs : List Pair) {pre post : List BitField} {f : BitField}
    (hused : usedFields b = pre ++ f :: post) (hpost : ∀ g ∈ post, f.Disjoint g)
    (hpairs : ∀ kv ∈ pairs, ∀ g, findField b kv.key = some g → f.Disjoint g) :
    extractField f (devRecord site b pairs).1.record = f.default.toNat := by
  have hf : f.Inv b.recordBits.toNat := hinv.fields f (by simp [hused])
  have hpre := writeDefaults_writesWithin (loadScratch b []) pre
  have hlen : f.endBit.toNat < (writeDefaults (loadScratch b []) pre).record.length := by
    have hinside := hf.inside
    rw [hpre.length, loadScratch_record, loadRecord_length]
    omega
  have hdefaults : defaultsBody b [] =
      writeDefaults (writeField (writeDefaults (loadScratch b []) pre) f f.default.toNat) post := by
    rw [defaultsBody, hused, writeDefaults_append]
    rfl
  rw [(devRecord_writesWithin hinv site pairs).extractField_eq hf.range fun g ⟨kv, hkv, hfind⟩ => hpairs kv hkv g hfind,
    hdefaults]
  exact extractField_of_written (writeDefaults_writesWithin _ post) hf.range hlen hf.default_le hpost

/-- The pattern of a pair that no later pair overlaps stays (R220). -/
theorem devRecord_named {draws : Nat} {pre post : List Pair} {kv : Pair} {f : BitField} {v : Nat}
    (hparse : PairsParse b draws pre) (hfind : findField b kv.key = some f)
    (hv : strToRaw [pre.length, draws] f kv.value = .ok v)
    (hpost : ∀ kv' ∈ post, ∀ g, findField b kv'.key = some g → f.Disjoint g) :
    extractField f (devRecord [draws] b (pre ++ kv :: post)).1.record = v := by
  have hf : f.Inv b.recordBits.toNat := hinv.fields f (findField_some hfind).1
  have htable := devRecord_sameTable [draws] b pre
  have hinside : f.endBit.toNat < (devRecord [draws] b pre).1.record.length := by
    have hinside := hf.inside
    rw [devRecord_length]
    omega
  rw [devRecord_append hparse, encodePairs_cons_of_parse ((htable.findField_eq _).trans hfind) hv]
  refine extractField_of_written (encodePairs_writesWithin _ _ _ post) hf.range hinside
    ((strToRaw_yields _ _ _).of_ok hv) ?_
  rintro g ⟨kv', hkv', hfind'⟩
  exact hpost kv' hkv' g ((htable.findField_eq _).symm.trans hfind')

theorem devRecord_seeded {draws : Nat} {pairs : List Pair} (hparse : PairsParse b draws pairs) :
    SeededRecord b draws pairs (devRecord [draws] b pairs).1.record where
  uncovered _ hk := devRecord_uncovered hinv [draws] pairs hk
  defaults _ _ _ hused hpost hpairs := devRecord_default hinv [draws] pairs hused hpost hpairs
  named i kv f v hi hfind hv hlater := by
    obtain ⟨hlt, hget⟩ := List.getElem?_eq_some_iff.mp hi
    have hsplit : pairs = pairs.take i ++ kv :: pairs.drop (i + 1) := by
      rw [← hget, ← List.drop_eq_getElem_cons hlt, List.take_append_drop]
    have hlen : (pairs.take i).length = i := List.length_take_of_le hlt.le
    rw [hsplit] at hparse ⊢
    refine devRecord_named hinv hparse.of_append hfind (by rwa [hlen]) fun kv' hkv' g hg => ?_
    obtain ⟨j, hj⟩ := List.mem_iff_getElem?.mp hkv'
    rw [List.getElem?_drop] at hj
    exact hlater (i + 1 + j) kv' g (by omega) hj hg

end

/-! ## What BSM.GEN of the record answers (R280, R315) -/

section

variable {s : State} {bits : List Bool} (hinit : bsmInitialized s.bsm = true)
include hinit

theorem genBody_of_completed {w : Word} {amps : List F32}
    (h : exec (.bsmGen bits) s = .next (s.completedWith (w :: amps))) : genBody s.params s.bsm bits = .samples amps := by
  simp only [exec, execBsmGen, bsmNotRunnable_of_initialized hinit] at h
  cases hbody : genBody s.params s.bsm bits with
  | samples amps' =>
    rw [hbody] at h
    have hreply := congrArg State.reply (Host.Outcome.next.inj h)
    exact congrArg GenResult.samples (List.cons.inj (List.cons.inj hreply).2).2
  | failed r =>
    rw [hbody] at h
    exact absurd (congrArg State.status (Host.Outcome.next.inj h)) (statusCode_ne_zero r.code)
  | stuck =>
    rw [hbody] at h
    cases h

theorem genBody_of_failed {code : BitVec 8} {info : BitVec 32} (hcode : code ≠ 0)
    (h : exec (.bsmGen bits) s = .next (s.failedWith code info)) :
    ∃ r, genBody s.params s.bsm bits = .failed r ∧ statusCode r.code = code ∧ r.info = info := by
  simp only [exec, execBsmGen, bsmNotRunnable_of_initialized hinit] at h
  cases hbody : genBody s.params s.bsm bits with
  | samples amps =>
    rw [hbody] at h
    exact absurd (congrArg State.status (Host.Outcome.next.inj h)).symm hcode
  | failed r =>
    rw [hbody] at h
    have hnext := Host.Outcome.next.inj h
    exact ⟨r, rfl, congrArg State.status hnext, congrArg State.info hnext⟩
  | stuck =>
    rw [hbody] at h
    cases h

theorem genBody_of_fault {e : Fault} (h : exec (.bsmGen bits) s = .fault e) : genBody s.params s.bsm bits = .stuck := by
  simp only [exec, execBsmGen, bsmNotRunnable_of_initialized hinit] at h
  cases hbody : genBody s.params s.bsm bits with
  | samples amps =>
    rw [hbody] at h
    cases h
  | failed r =>
    rw [hbody] at h
    cases h
  | stuck => rfl

end

/-! ## The command (R315) -/

section

variable {s : State} {pairs : List Pair} (hready : devReady s = true)
include hready

theorem exec_devGen_of_error {r : Raised} (h : (devRecord [s.draws] s.bfc pairs).2 = some r) :
    exec (.devGen pairs) s = .next (State.failedWith { s with bfc := (devRecord [s.draws] s.bfc pairs).1 }
      (statusCode r.code) r.info) := by
  simp only [exec, execDevGen, devNotReady_of_ready hready, h, raise_eq]

variable (hparse : PairsParse s.bfc s.draws pairs)
include hparse

/-- Where the pairs parse, DEV.GEN answers as the walk of the record's bits ends. -/
theorem exec_devGen_of_parse {bits : List Bool}
    (hbits : (devRecord [s.draws] s.bfc pairs).1.record.take s.bfc.recordBits.toNat = bits) :
    (∀ amps, genBody s.params s.bsm bits = .samples amps →
      exec (.devGen pairs) s = .next (State.completedWith { s with bfc := (devRecord [s.draws] s.bfc pairs).1 }
        (BitVec.ofNat 32 amps.length :: amps.flatMap fun a => [a, 0#32]))) ∧
    (∀ r, genBody s.params s.bsm bits = .failed r →
      exec (.devGen pairs) s = .next (State.failedWith { s with bfc := (devRecord [s.draws] s.bfc pairs).1 }
        (statusCode r.code) r.info)) ∧
    (genBody s.params s.bsm bits = .stuck → exec (.devGen pairs) s = .fault .generateNeverCompletes) := by
  have hnone : (devRecord [s.draws] s.bfc pairs).2 = none := hparse.encodePairs_none (seedBfc_sameTable s.bfc)
  have hreply : recordReply (devRecord [s.draws] s.bfc pairs).1 = bits := by
    rw [recordReply, (devRecord_sameTable _ _ _).recordBits, hbits]
  simp only [exec, execDevGen, devNotReady_of_ready hready, hnone, hreply]
  refine ⟨fun amps hbody => ?_, fun r hbody => ?_, fun hbody => ?_⟩ <;> rw [hbody] <;> rfl

end

/-- The info word of an error at a pair: the pair's index above the cause (R332). -/
theorem raisedAtPair_info {n : Nat} (hn : n < 2 ^ 16) (r : Raised) :
    (raisedAtPair n r).info = r.info + BitVec.ofNat 32 (256 * n) := by
  rw [raisedAtPair, infoWord_of_lt (by decide) hn, Nat.zero_add]

/-- A pair that fails after pairs that parse ends DEV.GEN with its index, and the record keeps the pairs before it. -/
theorem exec_devGen_of_bad_pair {s : State} {pre post : List Pair} {bad : Pair} {r : Raised} (hready : devReady s = true)
    (hlen : pre.length < 2 ^ 16) (hparse : PairsParse s.bfc s.draws pre)
    (hbad : encodePairs [s.draws] pre.length (devRecord [s.draws] s.bfc pre).1 (bad :: post) =
      ((devRecord [s.draws] s.bfc pre).1, some (raisedAtPair pre.length r))) :
    exec (.devGen (pre ++ bad :: post)) s = .next (State.failedWith { s with bfc := (devRecord [s.draws] s.bfc pre).1 }
      (statusCode r.code) (r.info + BitVec.ofNat 32 (256 * pre.length))) := by
  have hrecord := (devRecord_append hparse (bad :: post)).trans hbad
  rw [exec_devGen_of_error hready (congrArg Prod.snd hrecord), hrecord, raisedAtPair_info hlen]
  rfl

/-- Settles O57: the record is the defaults with the pairs written over them, and DEV.GEN goes on from its bits as BSM.GEN
does; the first pair that fails ends the encode where it stands. -/
theorem devGenSynthesizes : Obligations.DevGenSynthesizes := by
  refine ⟨fun pairs s hready hparse => ?_, fun pre post bad s hready hlen hparse => ?_⟩
  · have hinit := bsmInitialized_of_devReady hready
    have htable := devRecord_sameTable [s.draws] s.bfc pairs
    obtain ⟨hsamples, hfailed, hstuck⟩ := exec_devGen_of_parse hready hparse rfl
    refine ⟨(devRecord [s.draws] s.bfc pairs).1.record, (devRecord [s.draws] s.bfc pairs).1.spt, ?_⟩
    rw [← htable.eq]
    intro sent written
    have hcompletes := fun amps (hgen : exec (.bsmGen sent) s =
      .next (s.completedWith (BitVec.ofNat 32 amps.length :: amps))) => hsamples amps (genBody_of_completed hinit hgen)
    refine ⟨devRecord_length _ _ _, fun hinv => devRecord_seeded hinv hparse, hcompletes, fun code info hcode hgen => ?_,
      fun e hgen => ?_, fun hstates hfs hmode hroom => ?_⟩
    · obtain ⟨r, hbody, rfl, rfl⟩ := genBody_of_failed hinit hcode hgen
      exact hfailed r hbody
    · cases e
      exact hstuck (genBody_of_fault hinit hgen)
    · have hsent : sent.length ≤ s.bfc.recordBits.toNat := List.length_take_le _ _
      exact hcompletes _ (generatePulseDistance sent s (bsmInitialized_valid hinit) hstates hfs hmode (by omega))
  · have htable := devRecord_sameTable [s.draws] s.bfc pre
    refine ⟨(devRecord [s.draws] s.bfc pre).1.record, (devRecord [s.draws] s.bfc pre).1.spt, ?_⟩
    rw [← htable.eq]
    refine ⟨fun hinv => devRecord_seeded hinv hparse, fun hunknown => ?_, fun f r hfind hbad => ?_⟩
    · have hnone := (htable.findField_eq bad.key).trans hunknown
      have hinfo : (raisedAs .unknownField 3).info + BitVec.ofNat 32 (256 * pre.length) =
          BitVec.ofNat 32 (3 + 256 * pre.length) := (BitVec.ofNat_add _ _).symm
      rw [← hinfo]
      exact exec_devGen_of_bad_pair hready hlen hparse (encodePairs_cons_of_unknown hnone _ _ post)
    · have hsome := (htable.findField_eq bad.key).trans hfind
      exact exec_devGen_of_bad_pair hready hlen hparse (encodePairs_cons_of_error hsome hbad post)

end Sys2Proof.Machine

namespace Sys2Proof.Machine

/-! # How a command ends (O8, O12, O13)

No invariant is assumed here. A command completes, fails, or never answers; one lemma (`exec_endsWell`) says for every
command what a failure leaves behind and what its info word holds, and the obligations about failures read it off. -/

/-! ## The info words of the two loops that carry a unit (R332) -/

/-- An encode fails at a pair, whose index stands above the cause, whatever the table holds (R221). -/
theorem encodePairs_fits {site : Site} {n : Nat} {b : Bfc} {pairs : List Pair} {r : Raised}
    (h : (encodePairs site n b pairs).2 = some r) : r.Fits := by
  induction pairs generalizing n b with
  | nil => cases h
  | cons kv rest ih =>
    unfold encodePairs at h
    split at h
    · cases h; exact raisedAtPair_fits n (raisedAs_small _ _)
    · split at h
      · next he => cases h; exact raisedAtPair_fits n ((strToRaw_yields _ _ _).of_error he)
      · exact ih h

/-- The one error of a turn of DEV.PROC is a full list (R313). -/
theorem devMessage_small (p : Params) (site : Site) (run : DevRun) : RaisesSmall (devMessage p site run).2 := by
  unfold devMessage
  dsimp only
  split <;> simp

theorem devLoop_small (p : Params) (site : Site) (fuel : Nat) (run : DevRun) (xs : List Bool) :
    RaisesSmall (devLoop p site fuel run xs).2 := by
  induction fuel generalizing run xs with
  | zero => exact raisesSmall_none
  | succ fuel ih =>
    rcases xs with _ | ⟨x, xs⟩
    · exact raisesSmall_none
    unfold devLoop
    dsimp only
    split
    · exact ih _ _
    · split
      · exact raisesSmall_none
      · exact ih _ _
    · have hmsg := devMessage_small p site { run with bsm := (procBody run.bsm (x :: xs)).1 }
      split
      · next he => rwa [he] at hmsg
      · exact ih _ _

/-! ## Completion, failure or no answer (R330) -/

/-- A reaction of a command that started at `s`: its next state, where it has one, completes the command or fails it with
an info word that keeps bits 31:24 zero, and without `trace` a failure finds the units as they were at `s`. -/
def EndsWell (trace : Bool) (s : State) (o : Reaction) : Prop :=
  ∀ t, o = .next t →
    (∃ (u : State) (ws : List Word), t = u.complete ws) ∨
    ∃ (u : State) (r : Raised), t = u.fail r ∧ r.Fits ∧ (trace = false → u = s)

section

variable {trace : Bool} {s : State} {r : Raised}

theorem EndsWell.done (u : State) (ws : List Word) : EndsWell trace s (done u ws) :=
  fun _ ht => .inl ⟨u, ws, done_next ht⟩

/-- A failure that leaves a trace. -/
theorem EndsWell.raise (u : State) (hr : r.Fits) : EndsWell true s (raise u r) :=
  fun _ ht => .inr ⟨u, r, raise_next ht, hr, nofun⟩

/-- A failure of the state the command started at. -/
theorem EndsWell.refuse (hr : r.Fits) : EndsWell trace s (Machine.raise s r) :=
  fun _ ht => .inr ⟨s, r, raise_next ht, hr, fun _ => rfl⟩

theorem EndsWell.fault (e : Fault) : EndsWell trace s (.fault e) := nofun

/-! ## The constructors (R333) -/

theorem execFirInit_endsWell (maxInput : BitVec 32) (stages : List StageSpec) :
    EndsWell true s (execFirInit maxInput stages s) := by
  unfold execFirInit
  split
  · next he => exact .raise _ (firInitError_fits he)
  · exact .done _ _

theorem execBfcInit_endsWell (tsMode : BitVec 3) (nf recordBits : BitVec 16) :
    EndsWell true s (execBfcInit tsMode nf recordBits s) := by
  unfold execBfcInit
  split
  · next he => exact .raise _ ((bfcInitMode_yields _ _ _ _).of_error he).fits
  · exact .done _ _

theorem execBsmInit_endsWell (ns : BitVec 16) (fs : BitVec 32) (msgBits : BitVec 16) (onVal : F32) :
    EndsWell true s (execBsmInit ns fs msgBits onVal s) := by
  unfold execBsmInit
  split
  · next he => exact .raise _ (bsmInitError_small _ _ _ _ _ _ he).fits
  · exact .done _ _

/-! ## The commands that check before they write (R344 a) -/

theorem execFirProc_endsWell (hready : firNotReady s = none) (cap : BitVec 32) (xs : List CSample) :
    EndsWell false s (execFirProc cap xs s) := by
  simp only [execFirProc, hready]
  split
  · next he => exact .refuse (firProcError_small _ _ _ _ he).fits
  · exact .done _ _

theorem execBfcAddf_endsWell (hready : bfcNotReady s = none) (name : Text) (startBit endBit : BitVec 16) (format : BitVec 3)
    (endianness : BitVec 2) (enumCount : BitVec 16) (scaling offset : F64) :
    EndsWell false s (execBfcAddf name startBit endBit format endianness enumCount scaling offset s) := by
  simp only [execBfcAddf, hready]
  split
  · next he => exact .refuse ((addFieldCheck_yields _ _ _ _ _ _ _ _).of_error he).fits
  · exact .done _ _

theorem execBfcAdde_endsWell (hready : bfcNotReady s = none) (fieldName symbol : Text) (value : BitVec 64) :
    EndsWell false s (execBfcAdde fieldName symbol value s) := by
  simp only [execBfcAdde, hready]
  split
  · next he => exact .refuse (addEnumError_small _ _ _ _ he).fits
  · exact .done _ _

theorem execBfcSetdef_endsWell (hready : bfcNotReady s = none) (fieldName defaultStr : Text) :
    EndsWell false s (execBfcSetdef fieldName defaultStr s) := by
  simp only [execBfcSetdef, hready]
  split
  · exact .refuse (raisedAs_small _ _).fits
  · split
    · next he => exact .refuse ((strToRaw_yields _ _ _).of_error he).fits
    · exact .done _ _

theorem execBsmSetstate_endsWell (hready : bsmNotReady s = none) (state : BitVec 16) (name : Text)
    (durationUs timeoutUs : BitVec 32) : EndsWell false s (execBsmSetstate state name durationUs timeoutUs s) := by
  simp only [execBsmSetstate, hready]
  split
  · exact .refuse (raisedAs_small _ _).fits
  · exact .done _ _

theorem execBsmAddtrig_endsWell (hready : bsmNotReady s = none) (state : BitVec 16) (cond action : BitVec 3)
    (next : BitVec 16) (durUs : BitVec 32) : EndsWell false s (execBsmAddtrig state cond action next durUs s) := by
  simp only [execBsmAddtrig, hready]
  split
  · exact .refuse (raisedAs_small _ _).fits
  · split
    · exact .refuse (raisedAs_small _ _).fits
    · exact .done _ _

theorem execBsmGen_endsWell (hready : bsmNotRunnable s = none) (bits : List Bool) :
    EndsWell false s (execBsmGen bits s) := by
  simp only [execBsmGen, hready]
  split
  · exact .done _ _
  · next he => exact .refuse (genBody_failed_small he).fits
  · exact .fault _

theorem execKvAppend_endsWell (key value : Text) : EndsWell false s (execKvAppend key value s) := by
  unfold execKvAppend
  split
  · exact .refuse (raisedAs_small _ _).fits
  · exact .done _ _

theorem execKvGet_endsWell (index : BitVec 24) : EndsWell false s (execKvGet index s) := by
  unfold execKvGet
  split
  · exact .refuse (raisedAs_small _ _).fits
  · exact .done _ _

/-! ## The commands that fail part of the way (R221, R313, R315) -/

theorem execBfcEnc_endsWell (hready : bfcNotReady s = none) (pairs : List Pair) (record : List Bool) :
    EndsWell true s (execBfcEnc pairs record s) := by
  simp only [execBfcEnc, hready]
  split
  · next he => exact .raise _ (encodePairs_fits he)
  · exact .done _ _

theorem execDevProc_endsWell (hready : devNotReady s = none) (samples : List Bool) :
    EndsWell true s (execDevProc samples s) := by
  simp only [execDevProc, hready]
  split
  · next he => exact .raise _ (devLoop_small _ _ _ _ _ _ he).fits
  · exact .done _ _

theorem execDevGen_endsWell (hready : devNotReady s = none) (pairs : List Pair) :
    EndsWell true s (execDevGen pairs s) := by
  simp only [execDevGen, hready]
  split
  · next he => exact .raise _ (encodePairs_fits he)
  · split
    · exact .done _ _
    · next he => exact .raise _ (genBody_failed_small he).fits
    · exact .fault _

/-! ## Every command -/

/-- Every command ends well: refused while its unit is not ready (R343), else by its own checks. -/
theorem exec_endsWell (i : Instr) (s : State) : EndsWell (leavesTraceOnFailure i) s (exec i s) := by
  cases hready : commandNotReady (opcodeOf i) s with
  | some r =>
    rw [exec_of_notReady hready]
    exact .refuse (commandNotReady_small _ s r hready).fits
  | none =>
    cases i with
    | scTofloat | scToraw | firDeinit | bfcDeinit | bsmReady | bsmDeinit | kvClear | kvCount | thrSet | thrProc =>
      exact .done _ _
    | firReset | firTotdec =>
      have hready : firNotReady s = none := hready
      simp only [exec, execFirReset, execFirTotdec, hready]
      exact .done _ _
    | bfcDec | bfcDefdata =>
      have hready : bfcNotReady s = none := hready
      simp only [exec, execBfcDec, execBfcDefdata, hready]
      exact .done _ _
    | bsmRdacc =>
      have hready : bsmNotReady s = none := hready
      simp only [exec, execBsmRdacc, hready]
      exact .done _ _
    | bsmProc =>
      have hready : bsmNotRunnable s = none := hready
      simp only [exec, execBsmProc, hready]
      exact .done _ _
    | firInit maxInput stages => exact execFirInit_endsWell maxInput stages
    | bfcInit tsMode nf recordBits => exact execBfcInit_endsWell tsMode nf recordBits
    | bsmInit ns fs msgBits onVal => exact execBsmInit_endsWell ns fs msgBits onVal
    | firProc cap xs => exact execFirProc_endsWell hready cap xs
    | bfcAddf name startBit endBit format endianness enumCount scaling offset =>
      exact execBfcAddf_endsWell hready name startBit endBit format endianness enumCount scaling offset
    | bfcAdde fieldName symbol value => exact execBfcAdde_endsWell hready fieldName symbol value
    | bfcSetdef fieldName defaultStr => exact execBfcSetdef_endsWell hready fieldName defaultStr
    | bsmSetstate state name durationUs timeoutUs => exact execBsmSetstate_endsWell hready state name durationUs timeoutUs
    | bsmAddtrig state cond action next durUs => exact execBsmAddtrig_endsWell hready state cond action next durUs
    | bsmGen bits => exact execBsmGen_endsWell hready bits
    | kvAppend key value => exact execKvAppend_endsWell key value
    | kvGet index => exact execKvGet_endsWell index
    | bfcEnc pairs record => exact execBfcEnc_endsWell hready pairs record
    | devProc samples => exact execDevProc_endsWell hready samples
    | devGen pairs => exact execDevGen_endsWell hready pairs

end

theorem statusCode_pos (e : ErrorCode) : 1 ≤ (statusCode e).toNat := by cases e <;> decide

/-- Settles O12: a completed command has status, info and status word 0, and a failed one the code of its error, an info
word that fits, and the word that packs both. -/
theorem everyCommandReports : Obligations.EveryCommandReports := by
  intro i s t hexec
  obtain ⟨u, ws, rfl⟩ | ⟨u, r, rfl, hfits, -⟩ := exec_endsWell i s t hexec
  · exact .inl ⟨rfl, rfl, rfl⟩
  · exact .inr ⟨statusCode_pos r.code, statusCode_le r.code, hfits, rfl⟩

/-- Settles O13: a command without a trace fails on the state it started at. -/
theorem failureLeavesState : Obligations.FailureLeavesState := by
  intro i s t hno hexec hstatus
  obtain ⟨u, ws, rfl⟩ | ⟨u, r, rfl, -, hsame⟩ := exec_endsWell i s t hexec
  · exact absurd rfl hstatus
  · rw [hsame hno]
    exact s.fail_eq r

/-! ## NotReady (R343, R246, R310) -/

section

variable {s : State}

theorem bfcNotReady_of_invalid (h : s.bfc.valid = false) : bfcNotReady s = some (raisedAs .notReady 2) := by
  simp [bfcNotReady, h]

theorem bsmNotRunnable_of_invalid (h : s.bsm.valid = false) : bsmNotRunnable s = some (raisedAs .notReady 3) := by
  simp [bsmNotRunnable, h]

theorem bsmNotRunnable_of_uninitialized (hvalid : s.bsm.valid = true) (h : bsmInitialized s.bsm = false) :
    bsmNotRunnable s = some (raisedAs .notReady 4) := by
  simp [bsmNotRunnable, hvalid, h]

theorem devNotReady_of_unready (h : devReady s = false) : devNotReady s = some (raisedAs .notReady 5) := by
  simp [devNotReady, h]

/-- At the command word of one of some rows that are all refused with one cause, a step ends in `NotReady` of that cause, the
command word alone consumed. -/
theorem step_of_notReady_rows {cw : Word} {rest : List Word} {ops : List Opcode} {cause : Nat} (hrx : s.rx = cw :: rest)
    (hop : headerOpc cw ∈ ops.map opcByte) (hr : ∀ op ∈ ops, commandNotReady op s = some (raisedAs .notReady cause)) :
    step s = .next (State.failedWith { s with rx := rest } 12 (infoWord cause 0)) := by
  obtain ⟨op, hmem, hbyte⟩ := List.mem_map.mp hop
  exact step_of_notReady hrx (opcodeOfByte_eq_some.mpr hbyte.symm) (hr op hmem)

end

/-- Settles O8: each clause names rows that look at one unit's readiness, and the cause that unit then has. -/
theorem notReadyBeforePayload : Obligations.NotReadyBeforePayload := by
  refine ⟨devReady_iff, fun s cw rest hrx => ⟨fun hop hfir => ?_, fun hop hbfc => ?_, fun hop hbsm => ?_,
    fun hop hbsm hinit => ?_, fun hop hdev => ?_⟩⟩
  · refine step_of_notReady_rows (ops := [.firReset, .firTotdec, .firProc]) (cause := 1) hrx hop ?_
    simp [commandNotReady, firNotReady_of_invalid hfir]
  · refine step_of_notReady_rows (ops := [.bfcAddf, .bfcAdde, .bfcSetdef, .bfcDec, .bfcEnc, .bfcDefdata]) (cause := 2) hrx
      hop ?_
    simp [commandNotReady, bfcNotReady_of_invalid hbfc]
  · refine step_of_notReady_rows (ops := [.bsmSetstate, .bsmAddtrig, .bsmProc, .bsmGen, .bsmRdacc]) (cause := 3) hrx hop ?_
    simp [commandNotReady, bsmNotReady_of_invalid hbsm, bsmNotRunnable_of_invalid hbsm]
  · refine step_of_notReady_rows (ops := [.bsmProc, .bsmGen]) (cause := 4) hrx hop ?_
    simp [commandNotReady, bsmNotRunnable_of_uninitialized hbsm hinit]
  · refine step_of_notReady_rows (ops := [.devProc, .devGen]) (cause := 5) hrx hop ?_
    simp [commandNotReady, devNotReady_of_unready hdev]

end Sys2Proof.Machine

namespace Sys2Proof.Machine

/-! # Reset (O10) -/

/-- A machine with no unit constructed, an empty list and no error meets the invariant, whatever its units hold (R360). -/
theorem State.Inv.of_unconstructed {s : State} (hfir : s.fir.valid = false) (hbfc : s.bfc.valid = false)
    (hbsm : s.bsm.valid = false) (hkv : s.kv = []) (hstatus : s.status = 0) (hinfo : s.info = 0) : s.Inv where
  fir hv := absurd (hfir.symm.trans hv) Bool.false_ne_true
  bfc hv := absurd (hbfc.symm.trans hv) Bool.false_ne_true
  bsm hv := absurd (hbsm.symm.trans hv) Bool.false_ne_true
  kv_le := by simp [hkv]
  status_le := by simp [hstatus]
  info_lt := by simp [hinfo]
  ok_info _ := hinfo
  failed_reply hne := absurd hstatus hne

theorem State.reset_inv : State.reset.Inv := .of_unconstructed rfl rfl rfl rfl rfl rfl

theorem State.hardwareReset_inv (s : State) : s.hardwareReset.Inv := .of_unconstructed rfl rfl rfl rfl rfl rfl

/-- Settles O10: both resets leave no unit constructed, no pair and no error, and that is all the invariant asks. -/
theorem resetMeetsInvariant : Obligations.ResetMeetsInvariant :=
  ⟨State.reset_inv, ⟨rfl, rfl, rfl, rfl, rfl, rfl, rfl⟩,
    fun s => ⟨s.hardwareReset_inv, rfl, rfl, rfl, rfl, rfl, rfl, rfl, rfl⟩⟩

end Sys2Proof.Machine

namespace Sys2Proof.Machine

/-! # What a command writes (O11)

Before it answers, a command writes the items its unit owns and no others. `Writes` lists them once, and one lemma
(`exec_endsIn_writes`) says for every command that nothing else is written; ending a command then touches `STATUS`, `INFO`,
the reply and the counter only. -/

/-- `u` is `s` with at most the items written that `i` may write: those of its own unit (R361), of the BFC for a DEV command
(R315), and of the BFC, the BSM and the list for DEV.PROC (R313). -/
inductive Writes (s : State) : Instr → State → Prop
  | nothing {i : Instr} : Writes s i s
  | fir {i : Instr} (hunit : unitOf i = .fir) (f : Fir) : Writes s i { s with fir := f }
  | bfc {i : Instr} (hunit : unitOf i = .bfc ∨ unitOf i = .dev) (b : Bfc) : Writes s i { s with bfc := b }
  | bsm {i : Instr} (hunit : unitOf i = .bsm) (b : Bsm) : Writes s i { s with bsm := b }
  | kv {i : Instr} (hunit : unitOf i = .kv) (kv : List Pair) : Writes s i { s with kv := kv }
  | thr (v : F32) : Writes s (.thrSet v) { s with thr := v }
  | devProc (xs : List Bool) (b : Bsm) (f : Bfc) (kv : List Pair) :
      Writes s (.devProc xs) { s with bsm := b, bfc := f, kv := kv }

/-- A reaction whose next state, where it has one, completes or fails the command on units with property `P`. -/
def EndsIn (P : State → Prop) (o : Reaction) : Prop :=
  ∀ t, o = .next t → ∃ u, P u ∧ ((∃ ws, t = u.complete ws) ∨ ∃ r, t = u.fail r)

section

variable {P : State → Prop} {s u : State}

theorem EndsIn.done (hu : P u) (ws : List Word) : EndsIn P (done u ws) :=
  fun _ ht => ⟨u, hu, .inl ⟨ws, done_next ht⟩⟩

theorem EndsIn.raise (hu : P u) (r : Raised) : EndsIn P (raise u r) :=
  fun _ ht => ⟨u, hu, .inr ⟨r, raise_next ht⟩⟩

theorem EndsIn.fault (e : Fault) : EndsIn P (.fault e) := fun _ ht => nomatch ht

/-! ## The BFC -/

theorem execBfcAddf_endsIn (hready : bfcNotReady s = none) (name : Text) (startBit endBit : BitVec 16) (format : BitVec 3)
    (endianness : BitVec 2) (enumCount : BitVec 16) (scaling offset : F64) :
    EndsIn (Writes s (.bfcAddf name startBit endBit format endianness enumCount scaling offset))
      (execBfcAddf name startBit endBit format endianness enumCount scaling offset s) := by
  simp only [execBfcAddf, hready]
  split
  · exact .raise .nothing _
  · exact .done (.bfc (.inl rfl) _) _

theorem execBfcAdde_endsIn (hready : bfcNotReady s = none) (fieldName symbol : Text) (value : BitVec 64) :
    EndsIn (Writes s (.bfcAdde fieldName symbol value)) (execBfcAdde fieldName symbol value s) := by
  simp only [execBfcAdde, hready]
  split
  · exact .raise .nothing _
  · exact .done (.bfc (.inl rfl) _) _

theorem execBfcSetdef_endsIn (hready : bfcNotReady s = none) (fieldName defaultStr : Text) :
    EndsIn (Writes s (.bfcSetdef fieldName defaultStr)) (execBfcSetdef fieldName defaultStr s) := by
  simp only [execBfcSetdef, hready]
  split
  · exact .raise .nothing _
  · split
    · exact .raise .nothing _
    · exact .done (.bfc (.inl rfl) _) _

theorem execBfcEnc_endsIn (hready : bfcNotReady s = none) (pairs : List Pair) (record : List Bool) :
    EndsIn (Writes s (.bfcEnc pairs record)) (execBfcEnc pairs record s) := by
  simp only [execBfcEnc, hready]
  split
  · exact .raise (.bfc (.inl rfl) _) _
  · exact .done (.bfc (.inl rfl) _) _

/-! ## The BSM -/

theorem execBsmSetstate_endsIn (hready : bsmNotReady s = none) (state : BitVec 16) (name : Text)
    (durationUs timeoutUs : BitVec 32) :
    EndsIn (Writes s (.bsmSetstate state name durationUs timeoutUs))
      (execBsmSetstate state name durationUs timeoutUs s) := by
  simp only [execBsmSetstate, hready]
  split
  · exact .raise .nothing _
  · exact .done (.bsm rfl _) _

theorem execBsmAddtrig_endsIn (hready : bsmNotReady s = none) (state : BitVec 16) (cond action : BitVec 3)
    (next : BitVec 16) (durUs : BitVec 32) :
    EndsIn (Writes s (.bsmAddtrig state cond action next durUs)) (execBsmAddtrig state cond action next durUs s) := by
  simp only [execBsmAddtrig, hready]
  split
  · exact .raise .nothing _
  · split
    · exact .raise .nothing _
    · exact .done (.bsm rfl _) _

/-- The walk of BSM.GEN reads the table and leaves the machine where it stands (R280). -/
theorem execBsmGen_endsIn (hready : bsmNotRunnable s = none) (bits : List Bool) :
    EndsIn (Writes s (.bsmGen bits)) (execBsmGen bits s) := by
  simp only [execBsmGen, hready]
  split
  · exact .done .nothing _
  · exact .raise .nothing _
  · exact .fault _

/-! ## The device -/

theorem execDevProc_endsIn (hready : devNotReady s = none) (samples : List Bool) :
    EndsIn (Writes s (.devProc samples)) (execDevProc samples s) := by
  simp only [execDevProc, hready]
  split
  · exact .raise (.devProc _ _ _ _) _
  · exact .done (.devProc _ _ _ _) _

theorem execDevGen_endsIn (hready : devNotReady s = none) (pairs : List Pair) :
    EndsIn (Writes s (.devGen pairs)) (execDevGen pairs s) := by
  simp only [execDevGen, hready]
  split
  · exact .raise (.bfc (.inr rfl) _) _
  · split
    · exact .done (.bfc (.inr rfl) _) _
    · exact .raise (.bfc (.inr rfl) _) _
    · exact .fault _

/-! ## Every command -/

/-- Every command writes the items it owns and no others: none while its unit is not ready (R343), else by its own body. -/
theorem exec_endsIn_writes (i : Instr) (s : State) : EndsIn (Writes s i) (exec i s) := by
  cases hready : commandNotReady (opcodeOf i) s with
  | some r =>
    rw [exec_of_notReady hready]
    exact .raise .nothing r
  | none =>
    cases i with
    | scTofloat | scToraw | bsmReady | kvCount | thrProc => exact .done .nothing _
    | firInit =>
      simp only [exec, execFirInit]
      split
      · exact .raise (.fir rfl _) _
      · exact .done (.fir rfl _) _
    | firReset =>
      have hready : firNotReady s = none := hready
      simp only [exec, execFirReset, hready]
      exact .done (.fir rfl _) _
    | firTotdec =>
      have hready : firNotReady s = none := hready
      simp only [exec, execFirTotdec, hready]
      exact .done .nothing _
    | firProc =>
      have hready : firNotReady s = none := hready
      simp only [exec, execFirProc, hready]
      split
      · exact .raise .nothing _
      · exact .done (.fir rfl _) _
    | firDeinit => exact .done (.fir rfl _) _
    | bfcInit =>
      simp only [exec, execBfcInit]
      split
      · exact .raise (.bfc (.inl rfl) _) _
      · exact .done (.bfc (.inl rfl) _) _
    | bfcAddf name startBit endBit format endianness enumCount scaling offset =>
      exact execBfcAddf_endsIn hready name startBit endBit format endianness enumCount scaling offset
    | bfcAdde fieldName symbol value => exact execBfcAdde_endsIn hready fieldName symbol value
    | bfcSetdef fieldName defaultStr => exact execBfcSetdef_endsIn hready fieldName defaultStr
    | bfcDec | bfcDefdata =>
      have hready : bfcNotReady s = none := hready
      simp only [exec, execBfcDec, execBfcDefdata, hready]
      exact .done (.bfc (.inl rfl) _) _
    | bfcEnc pairs record => exact execBfcEnc_endsIn hready pairs record
    | bfcDeinit => exact .done (.bfc (.inl rfl) _) _
    | bsmInit =>
      simp only [exec, execBsmInit]
      split
      · exact .raise (.bsm rfl _) _
      · exact .done (.bsm rfl _) _
    | bsmSetstate state name durationUs timeoutUs => exact execBsmSetstate_endsIn hready state name durationUs timeoutUs
    | bsmAddtrig state cond action next durUs => exact execBsmAddtrig_endsIn hready state cond action next durUs
    | bsmProc =>
      have hready : bsmNotRunnable s = none := hready
      simp only [exec, execBsmProc, hready]
      exact .done (.bsm rfl _) _
    | bsmGen bits => exact execBsmGen_endsIn hready bits
    | bsmDeinit => exact .done (.bsm rfl _) _
    | bsmRdacc =>
      have hready : bsmNotReady s = none := hready
      simp only [exec, execBsmRdacc, hready]
      exact .done .nothing _
    | devProc samples => exact execDevProc_endsIn hready samples
    | devGen pairs => exact execDevGen_endsIn hready pairs
    | kvClear => exact .done (.kv rfl _) _
    | kvAppend =>
      simp only [exec, execKvAppend]
      split
      · exact .raise .nothing _
      · exact .done (.kv rfl _) _
    | kvGet =>
      simp only [exec, execKvGet]
      split
      · exact .raise .nothing _
      · exact .done .nothing _
    | thrSet v => exact .done (.thr v) _

end

/-! ## What stays (R361, R322) -/

section

variable {i : Instr} {s u : State}

theorem Writes.params_eq (h : Writes s i u) : u.params = s.params := by cases h <;> rfl

theorem Writes.rx_eq (h : Writes s i u) : u.rx = s.rx := by cases h <;> rfl

theorem Writes.draws_eq (h : Writes s i u) : u.draws = s.draws := by cases h <;> rfl

theorem Writes.fir_eq (h : Writes s i u) (hne : unitOf i ≠ .fir) : u.fir = s.fir := by
  cases h with
  | fir hunit => exact absurd hunit hne
  | nothing | bfc | bsm | kv | thr | devProc => rfl

theorem Writes.thr_eq (h : Writes s i u) (hne : ∀ v, i ≠ .thrSet v) : u.thr = s.thr := by
  cases h with
  | thr v => exact absurd rfl (hne v)
  | nothing | fir | bfc | bsm | kv | devProc => rfl

theorem Writes.bfc_eq (h : Writes s i u) (hne : unitOf i ≠ .bfc) (hdev : unitOf i ≠ .dev) : u.bfc = s.bfc := by
  cases h with
  | bfc hunit => exact absurd hunit (not_or.mpr ⟨hne, hdev⟩)
  | devProc => exact absurd rfl hdev
  | nothing | fir | bsm | kv | thr => rfl

theorem Writes.bsm_eq (h : Writes s i u) (hne : unitOf i ≠ .bsm) (hdev : ∀ xs, i ≠ .devProc xs) : u.bsm = s.bsm := by
  cases h with
  | bsm hunit => exact absurd hunit hne
  | devProc xs => exact absurd rfl (hdev xs)
  | nothing | fir | bfc | kv | thr => rfl

theorem Writes.kv_eq (h : Writes s i u) (hne : unitOf i ≠ .kv) (hdev : ∀ xs, i ≠ .devProc xs) : u.kv = s.kv := by
  cases h with
  | kv hunit => exact absurd hunit hne
  | devProc xs => exact absurd rfl (hdev xs)
  | nothing | fir | bfc | bsm | thr => rfl

end

/-- Settles O11: a command writes its own unit's items, and to complete or to fail touches none of the items named here but
the counter. -/
theorem commandsStayInTheirUnit : Obligations.CommandsStayInTheirUnit := by
  intro i s t hexec
  obtain ⟨u, h, ⟨ws, rfl⟩ | ⟨r, rfl⟩⟩ := exec_endsIn_writes i s t hexec
  · exact ⟨h.params_eq, h.rx_eq, congrArg (· + 1) h.draws_eq, h.fir_eq, h.thr_eq, h.bfc_eq, h.bsm_eq, h.kv_eq⟩
  · exact ⟨h.params_eq, h.rx_eq, congrArg (· + 1) h.draws_eq, h.fir_eq, h.thr_eq, h.bfc_eq, h.bsm_eq, h.kv_eq⟩

end Sys2Proof.Machine

namespace Sys2Proof.Machine

/-! # The record of the BFC (O33 to O37)

A field's value and the record bits of its range decide each other. BFC.DEC reads every used field; BFC.ENC and BFC.DEFDATA
are writes of fields into the loaded operand, so what `WritesWithin` says of a write is what is left to cite here. -/

/-! ## Writing back what was read (R201, R202) -/

/-- The record bit at offset `j` inside a field's range after a write: the bit order decides which bit of the value it is. -/
theorem insertField_getD_inside (f : BitField) (bits : List Bool) (raw : Nat) {j : Nat} (hj : j < fieldWidth f)
    (hrange : f.startBit.toNat ≤ f.endBit.toNat) (hinside : f.endBit.toNat < bits.length) :
    (insertField f bits raw).getD (f.startBit.toNat + j) false = raw.testBit (bitOffset f j) := by
  have hwidth : fieldWidth f = f.endBit.toNat - f.startBit.toNat + 1 := rfl
  rw [insertField_getD f bits raw _ (by omega), if_pos (by omega), Nat.add_sub_cancel_left]

theorem insertField_extractField (f : BitField) (bits : List Bool) : insertField f bits (extractField f bits) = bits := by
  have hwidth : fieldWidth f = f.endBit.toNat - f.startBit.toNat + 1 := rfl
  refine List.ext_getElem (insertField_length _ _ _) fun k h h' => ?_
  rw [← List.getD_eq_getElem _ false h, ← List.getD_eq_getElem _ false h', insertField_getD f bits _ k h']
  split_ifs with hin
  · have hk : k - f.startBit.toNat < fieldWidth f := by omega
    rw [extractField_testBit f bits (bitOffset_lt f hk), bitOffset_bitOffset f hk, Nat.add_sub_cancel' hin.1]
  · rfl

/-- Settles O33: both inversion laws, over the bit a write leaves inside and outside the range. -/
theorem fieldBitsInvert : Obligations.FieldBitsInvert := by
  intro f bits raw hrange hinside hraw
  refine ⟨fun j hj => ?_, insertField_getD_outside f bits raw, insertField_length f bits raw,
    extractField_insertField hrange hinside hraw, insertField_extractField f bits⟩
  rw [insertField_getD_inside f bits raw hj hrange hinside, bitOffset]
  cases f.endian <;> rfl

/-! ## BFC.DEC (R210) -/

theorem exec_bfcDec {s : State} (hv : s.bfc.valid = true) (record : List Bool) :
    exec (.bfcDec record) s = .next (State.completedWith { s with bfc := (decodeBody s.params [s.draws] s.bfc record).1 }
      (pairListWords (decodeBody s.params [s.draws] s.bfc record).2)) := by
  simp only [exec, execBfcDec, bfcNotReady_of_valid hv, done_eq]

/-- Settles O34: the pairs of a decode are one message's. -/
theorem decodeRendersEveryField : Obligations.DecodeRendersEveryField := by
  intro record s hv
  obtain ⟨stamp, pairs, hpairs, hstamp, hfields⟩ := decodeBody_message s.params [s.draws] s.bfc record
  have hrun := exec_bfcDec hv record
  rw [hpairs] at hrun
  exact ⟨_, stamp, pairs, hrun, hstamp, hfields⟩

/-! ## BFC.ENC: how it ends (R220, R221) -/

section

variable {s : State} {b : Bfc} {pairs : List Pair} {record : List Bool} (hv : s.bfc.valid = true)
include hv

theorem exec_bfcEnc_of_encoded (h : encodeBody [s.draws] s.bfc record pairs = (b, none)) :
    exec (.bfcEnc pairs record) s = .next (State.completedWith { s with bfc := b } (packBits (recordReply b))) := by
  simp only [exec, execBfcEnc, bfcNotReady_of_valid hv, h, done_eq]

theorem exec_bfcEnc_of_error {r : Raised} (h : encodeBody [s.draws] s.bfc record pairs = (b, some r)) :
    exec (.bfcEnc pairs record) s = .next (State.failedWith { s with bfc := b } (statusCode r.code) r.info) := by
  simp only [exec, execBfcEnc, bfcNotReady_of_valid hv, h, raise_eq]

/-- A BFC.ENC that succeeds leaves the formatter its pairs were encoded into. -/
theorem encodeBody_of_succeeded {t : State} (hexec : exec (.bfcEnc pairs record) s = .next t) (hstatus : t.status = 0) :
    encodeBody [s.draws] s.bfc record pairs = (t.bfc, none) := by
  rcases hbody : encodeBody [s.draws] s.bfc record pairs with ⟨b, _ | r⟩
  · rw [exec_bfcEnc_of_encoded hv hbody] at hexec
    rw [← Host.Outcome.next.inj hexec]
    rfl
  · rw [exec_bfcEnc_of_error hv hbody] at hexec
    rw [← Host.Outcome.next.inj hexec] at hstatus
    exact absurd hstatus (statusCode_ne_zero r.code)

/-- A pair that fails after pairs that were encoded ends BFC.ENC with its index, in the formatter the pairs before it left. -/
theorem exec_bfcEnc_of_bad_pair {pre post : List Pair} {bad : Pair} {r : Raised} (hlen : pre.length < 2 ^ 16)
    (hpre : encodeBody [s.draws] s.bfc record pre = (b, none))
    (hbad : encodePairs [s.draws] pre.length b (bad :: post) = (b, some (raisedAtPair pre.length r))) :
    exec (.bfcEnc (pre ++ bad :: post) record) s =
      .next (State.failedWith { s with bfc := b } (statusCode r.code) (r.info + BitVec.ofNat 32 (256 * pre.length))) := by
  have hgo := (encodePairs_append [s.draws] (bad :: post) pre 0 _ b hpre).2
  rw [Nat.zero_add, hbad] at hgo
  rw [exec_bfcEnc_of_error hv hgo, raisedAtPair_info hlen]
  rfl

end

/-- Settles O36: the pairs before the bad one were encoded, since BFC.ENC of them succeeds. -/
theorem encodeStopsAtUnknownKey : Obligations.EncodeStopsAtUnknownKey := by
  intro pre post bad record s t hv hlen hexec hstatus
  have hpre := encodeBody_of_succeeded hv hexec hstatus
  have htable : ∀ name, findField t.bfc name = findField s.bfc name := (encodePairs_append [s.draws] [] pre 0 _ _ hpre).1
  refine ⟨fun hunknown => ?_, fun f r hfind hparse => ?_⟩
  · have hinfo : (raisedAs .unknownField 3).info + BitVec.ofNat 32 (256 * pre.length) =
        BitVec.ofNat 32 (3 + 256 * pre.length) := (BitVec.ofNat_add _ _).symm
    rw [← hinfo]
    exact exec_bfcEnc_of_bad_pair hv hlen hpre (encodePairs_cons_of_unknown ((htable _).trans hunknown) _ _ post)
  · exact exec_bfcEnc_of_bad_pair hv hlen hpre (encodePairs_cons_of_error ((htable _).trans hfind) hparse post)

/-! ## BFC.ENC: the record (R220, R222) -/

/-- A used field lies inside the record. -/
theorem Bfc.Inv.endBit_lt {p : Params} {b : Bfc} (h : b.Inv p) {f : BitField} (hf : f ∈ usedFields b) :
    f.endBit.toNat < b.record.length := by
  have hinside := (h.fields f hf).inside
  rw [h.record_length]
  omega

/-- Among pairs that all parse, the pattern of a pair that no later pair's field overlaps stays (R222). -/
theorem encodePairs_named {p : Params} {draws n i : Nat} {b : Bfc} {pairs : List Pair} {kv : Pair} {f : BitField} {v : Nat}
    (hinv : b.Inv p)
    (hparse : ∀ q kv', pairs[q]? = some kv' →
      ∃ g u, findField b kv'.key = some g ∧ strToRaw [n + q, draws] g kv'.value = .ok u)
    (hi : pairs[i]? = some kv) (hfind : findField b kv.key = some f) (hv : strToRaw [n + i, draws] f kv.value = .ok v)
    (hlater : ∀ q kv' g, i < q → pairs[q]? = some kv' → findField b kv'.key = some g → f.Disjoint g) :
    extractField f (encodePairs [draws] n b pairs).1.record = v := by
  induction pairs generalizing n i b with
  | nil => cases hi
  | cons head rest ih =>
    cases i with
    | zero =>
      obtain rfl : head = kv := Option.some.inj hi
      have hf : f ∈ usedFields b := (findField_some hfind).1
      rw [Nat.add_zero] at hv
      rw [encodePairs_cons_of_parse hfind hv]
      refine extractField_of_written (encodePairs_writesWithin _ _ _ rest) (hinv.fields f hf).range (hinv.endBit_lt hf)
        ((strToRaw_yields _ _ _).of_ok hv) ?_
      rintro g ⟨kv', hmem, hg⟩
      obtain ⟨q, hq⟩ := List.mem_iff_getElem?.mp hmem
      exact hlater (q + 1) kv' g q.succ_pos hq hg
    | succ i =>
      obtain ⟨g, u, hg, hu⟩ := hparse 0 head rfl
      rw [Nat.add_zero] at hu
      rw [encodePairs_cons_of_parse hg hu]
      refine ih (writeField_inv hinv (findField_some hg).1 u) (fun q kv' hq => ?_) hi hfind ?_
        fun q kv' g hq => hlater (q + 1) kv' g (Nat.succ_lt_succ hq)
      · rw [Nat.add_right_comm]
        exact hparse (q + 1) kv' hq
      · rwa [Nat.add_right_comm]

/-- Settles O35: pairs that all parse are writes into the loaded operand. -/
theorem encodeWritesNamedFields : Obligations.EncodeWritesNamedFields := by
  intro pairs record s hv hinv hparse
  have hparse : PairsParse s.bfc s.draws pairs := hparse
  have htable := loadScratch_sameTable s.bfc record
  have hwrites : Bfc.WritesWithin (namedBy s.bfc pairs) (loadScratch s.bfc record) (encodeBody [s.draws] s.bfc record pairs).1 :=
    encodePairs_writesWithin [s.draws] 0 (loadScratch s.bfc record) pairs
  have heq := (htable.trans hwrites.table).eq
  have hrun := exec_bfcEnc_of_encoded (record := record) hv (Prod.ext rfl (hparse.encodePairs_none htable))
  refine ⟨(encodeBody [s.draws] s.bfc record pairs).1.record, (encodeBody [s.draws] s.bfc record pairs).1.spt, ?_, ?_, ?_, ?_⟩
  · rw [← heq]
    rwa [recordReply, (htable.trans hwrites.table).recordBits] at hrun
  · exact hwrites.length.trans ((loadRecord_length _ _).trans hinv.record_length.symm)
  · exact fun k hk => hwrites.outside k fun g ⟨kv, hkv, hg⟩ => hk kv hkv g hg
  · intro i kv f v hi hfind hval hlater
    refine encodePairs_named (loadScratch_inv hinv record) (fun q kv' hq => ?_) hi hfind ?_ hlater
    · rw [Nat.zero_add]
      exact hparse q kv' hq
    · rwa [Nat.zero_add]

/-! ## BFC.DEFDATA (R224) -/

theorem exec_bfcDefdata {s : State} (hv : s.bfc.valid = true) (record : List Bool) :
    exec (.bfcDefdata record) s = .next (State.completedWith { s with bfc := defaultsBody s.bfc record }
      (packBits (recordReply (defaultsBody s.bfc record)))) := by
  simp only [exec, execBfcDefdata, bfcNotReady_of_valid hv, done_eq]

/-- A default that no later default overlaps stays (R222, R224). -/
theorem defaultsBody_default {p : Params} {b : Bfc} (hinv : b.Inv p) (operand : List Bool) {pre post : List BitField}
    {f : BitField} (hused : usedFields b = pre ++ f :: post) (hpost : ∀ g ∈ post, f.Disjoint g) :
    extractField f (defaultsBody b operand).record = f.default.toNat := by
  have hf : f ∈ usedFields b := by simp [hused]
  have hpre : (writeDefaults (loadScratch b operand) pre).record.length = b.record.length :=
    (writeDefaults_writesWithin _ pre).length.trans ((loadRecord_length _ _).trans hinv.record_length.symm)
  have hsplit : defaultsBody b operand =
      writeDefaults (writeField (writeDefaults (loadScratch b operand) pre) f f.default.toNat) post := by
    rw [defaultsBody, hused, writeDefaults_append]
    rfl
  rw [hsplit]
  exact extractField_of_written (writeDefaults_writesWithin _ post) (hinv.fields f hf).range (hpre ▸ hinv.endBit_lt hf)
    (hinv.fields f hf).default_le hpost

/-- Settles O37: the defaults are writes into the loaded operand. -/
theorem defaultsWriteEveryField : Obligations.DefaultsWriteEveryField := by
  intro record s hv hinv
  have hwrites : Bfc.WritesWithin (· ∈ usedFields s.bfc) (loadScratch s.bfc record) (defaultsBody s.bfc record) :=
    writeDefaults_writesWithin _ _
  have htable := (loadScratch_sameTable s.bfc record).trans hwrites.table
  refine ⟨(defaultsBody s.bfc record).record, (defaultsBody s.bfc record).spt, ?_, hwrites.outside,
    fun pre f post hused hpost => defaultsBody_default hinv record hused hpost⟩
  rw [← htable.eq, exec_bfcDefdata hv, recordReply, htable.recordBits]

end Sys2Proof.Machine

namespace Sys2Proof.Machine

/-! # Texts and patterns (O38, O39)

A field's text spells an integer or a real number, and the integer a text stands for is coded in the field's width. Each of the
two directions is said once for all formats: `fieldInteger` is the integer of a pattern and `fieldCode` the pattern of an
integer, and they invert each other but for negative zero. The texts between them are numerals, which `parseInt` reads back,
and the texts of `fmt_real`. -/

/-! ## Numerals (R203, R212, R216) -/

section

variable {base most m : Nat}

theorem numeralValue_append_singleton (cs : Text) (c : Byte) (acc : Nat) :
    numeralValue base acc (cs ++ [c]) =
      (numeralValue base acc cs).bind fun a => (digitValue base c).map fun d => a * base + d := by
  induction cs generalizing acc with
  | nil => cases h : digitValue base c <;> simp [numeralValue, h]
  | cons b cs ih => cases h : digitValue base b <;> simp [numeralValue, h, ih]

/-- The digits of a number after its last one are those of its quotient. -/
theorem numeral_of_base_le (h1 : 1 < base) (h16 : base ≤ 16) {n : Nat} (hn : base ≤ n) :
    numeral base n = numeral base (n / base) ++ [digitByte (n % base)] := by
  have hd : n % base < 16 := (Nat.mod_lt _ (by omega)).trans_le h16
  rw [numeral_eq h1 h16, numeral_eq h1 h16, Nat.toDigits_of_base_le h1 hn, List.map_append, digitByte_eq hd]
  rfl

theorem numeral_of_lt_base (h1 : 1 < base) (h16 : base ≤ 16) {n : Nat} (hn : n < base) : numeral base n = [digitByte n] := by
  rw [numeral_eq h1 h16, Nat.toDigits_of_lt_base hn, digitByte_eq (hn.trans_le h16)]
  rfl

theorem numeralValue_numeral (h1 : 1 < base) (h16 : base ≤ 16) (n : Nat) : numeralValue base 0 (numeral base n) = some n := by
  induction n using Nat.strongRecOn with
  | ind n ih =>
    rcases Nat.lt_or_ge n base with hn | hn
    · simp [numeral_of_lt_base h1 h16 hn, numeralValue, digitValue_digitByte h16 hn]
    · have hdigit := digitValue_digitByte h16 (Nat.mod_lt n (by omega : 0 < base))
      have hquot := ih (n / base) (Nat.div_lt_self (by omega) h1)
      rw [numeral_of_base_le h1 h16 hn, numeralValue_append_singleton, hquot, hdigit]
      exact congrArg some (Nat.div_add_mod' n base)

theorem numeral_length_pos (h1 : 1 < base) (h16 : base ≤ 16) (n : Nat) : 0 < (numeral base n).length := by
  rw [numeral_eq h1 h16, List.length_map]
  exact Nat.length_toDigits_pos

theorem numeral_length_le (h1 : 1 < base) (h16 : base ≤ 16) {n : Nat} (hmost : 0 < most) (hn : n < base ^ most) :
    (numeral base n).length ≤ most := by
  rw [numeral_eq h1 h16, List.length_map]
  exact Nat.toDigits_length base n most hmost hn

/-- Leading zeros spell nothing. -/
theorem numeralValue_leading_zeros (hbase : 1 < base) (h16 : base ≤ 16) (k : Nat) (t : Text) :
    numeralValue base 0 (List.replicate k 0x30#8 ++ t) = numeralValue base 0 t := by
  have hzero : digitValue base 0x30#8 = some 0 := digitValue_digitByte (d := 0) h16 (by omega)
  induction k with
  | zero => rfl
  | succ k ih => simp only [List.replicate_succ, List.cons_append, numeralValue, hzero, Nat.zero_mul, Nat.add_zero, ih]

theorem digitString_eq_some_iff {t : Text} :
    digitString base most t = some m ↔ 1 ≤ t.length ∧ t.length ≤ most ∧ numeralValue base 0 t = some m ∧ m < 2 ^ 64 := by
  unfold digitString
  split_ifs with hlen
  · simp only [false_iff]
    omega
  · cases hval : numeralValue base 0 t with
    | none => simp
    | some n =>
      have hlen : 1 ≤ t.length ∧ t.length ≤ most := by omega
      simp only [Option.ite_none_right_eq_some, Option.some.injEq, hlen, true_and]
      constructor
      · rintro ⟨hlt, rfl⟩
        exact ⟨rfl, hlt⟩
      · rintro ⟨rfl, hlt⟩
        exact ⟨hlt, rfl⟩

end

/-! ## Integers (R216) -/

section

variable {m : Nat}

/-- A text that starts with a character that is no digit is no digit string. -/
theorem digitString_cons_of_no_digit {base most : Nat} {c : Byte} (h : digitValue base c = none) (cs : Text) :
    digitString base most (c :: cs) ≠ some m := by
  rw [Ne, digitString_eq_some_iff]
  simp [numeralValue, h]

/-- After `0x` only hex digits are read: `x` is no decimal digit. -/
theorem magnitudeOf_eq_some_iff {t : Text} : magnitudeOf t = some m ↔ digitString 10 20 t = some m ∨
    ∃ c cs, t = 0x30#8 :: c :: cs ∧ (c = 0x78#8 ∨ c = 0x58#8) ∧ digitString 16 16 cs = some m := by
  have hmarked {c : Byte} (hc : c = 0x78#8 ∨ c = 0x58#8) (cs : Text) : digitString 10 20 (0x30#8 :: c :: cs) ≠ some m := by
    rw [Ne, digitString_eq_some_iff]
    rcases hc with rfl | rfl <;> simp [numeralValue, digitValue]
  unfold magnitudeOf
  split
  · next a c cs =>
    split_ifs with hhex
    · obtain ⟨rfl, hc⟩ := hhex
      simp [hmarked hc, hc]
    · simp only [List.cons.injEq, iff_self_or]
      rintro ⟨c', cs', ⟨rfl, rfl, rfl⟩, hc, -⟩
      exact absurd ⟨rfl, hc⟩ hhex
  · next hshort =>
    simp only [iff_self_or]
    rintro ⟨c, cs, rfl, -⟩
    exact absurd rfl (hshort _ c cs)

/-- A minus sign starts no magnitude. -/
theorem magnitudeOf_minus (rest : Text) : magnitudeOf (0x2D#8 :: rest) ≠ some m := by
  rw [Ne, magnitudeOf_eq_some_iff]
  rintro (h | ⟨c, cs, h, -⟩)
  · exact digitString_cons_of_no_digit (by decide) rest h
  · exact absurd (List.cons.inj h).1 (by decide)

theorem parseInt_minus (rest : Text) : parseInt (0x2D#8 :: rest) =
    (magnitudeOf rest).elim (.error (raisedAs .parseError 1)) fun m => .ok (true, m) := by
  rw [parseInt, if_pos rfl]
  cases magnitudeOf rest <;> rfl

theorem parseInt_of_no_minus {t : Text} (h : ∀ rest, t ≠ 0x2D#8 :: rest) : parseInt t =
    (magnitudeOf t).elim (.error (raisedAs .parseError 1)) fun m => .ok (false, m) := by
  cases t with
  | nil => rfl
  | cons b rest =>
    have hb : b ≠ 0x2D#8 := fun hb => h rest (by rw [hb])
    rw [parseInt, if_neg hb]
    cases magnitudeOf (b :: rest) <;> rfl

/-- A sign and a magnitude, or `ParseError(1)`. -/
theorem parseInt_eq_ok_iff {t : Text} {neg : Bool} :
    parseInt t = .ok (neg, m) ↔ ∃ body : Text, t = (if neg then [0x2D#8] else []) ++ body ∧ magnitudeOf body = some m := by
  by_cases h : ∃ rest, t = 0x2D#8 :: rest
  · obtain ⟨rest, rfl⟩ := h
    rw [parseInt_minus]
    cases neg with
    | true => cases hm : magnitudeOf rest <;> simp [hm]
    | false => cases magnitudeOf rest <;> simp [magnitudeOf_minus]
  · rw [parseInt_of_no_minus (not_exists.mp h)]
    cases neg with
    | true =>
      have hne : ∀ body, t ≠ 0x2D#8 :: body := not_exists.mp h
      cases magnitudeOf t <;> simp [hne]
    | false => cases hm : magnitudeOf t <;> simp [hm]

theorem parseInt_error {t : Text} {r : Raised} (h : parseInt t = .error r) : r = raisedAs .parseError 1 := by
  by_cases hminus : ∃ rest, t = 0x2D#8 :: rest
  · obtain ⟨rest, rfl⟩ := hminus
    rw [parseInt_minus] at h
    cases hm : magnitudeOf rest with
    | none => rw [hm] at h; exact (Except.error.inj h).symm
    | some m => rw [hm] at h; cases h
  · rw [parseInt_of_no_minus (not_exists.mp hminus)] at h
    cases hm : magnitudeOf t with
    | none => rw [hm] at h; exact (Except.error.inj h).symm
    | some m => rw [hm] at h; cases h

end

/-! ## The pattern of an integer (R215) -/

/-- The pattern of an integer in a field's format and width, or `ValueOutOfRange(2)`: the check that ends every parse but that
of a text that stands for no integer (R215, R218, R219). -/
def fieldCode (f : BitField) : Int → Except Raised Nat :=
  match f.format with
  | .twosComplement => rangeCheckTwos f
  | .signMagnitude | .float => rangeCheckSignMagnitude f
  | .hex | .unsignedDecimal | .enumerated => rangeCheckUnsigned f

section

variable (f : BitField) (x : Int)

theorem two_pow_fieldWidth : 2 ^ fieldWidth f = 2 * 2 ^ (fieldWidth f - 1) := by
  rw [← pow_succ', Nat.sub_add_cancel (fieldWidth_pos f)]

theorem rangeCheckUnsigned_eq : rangeCheckUnsigned f x =
    if x < 0 ∨ (2 ^ fieldWidth f : Int) ≤ x then .error ⟨.valueOutOfRange, 2⟩ else .ok x.toNat := by
  have hpos := Nat.two_pow_pos (fieldWidth f)
  have hcast : ((2 ^ fieldWidth f : Nat) : Int) = 2 ^ fieldWidth f := by norm_cast
  refine if_congr (or_congr_right ?_) rfl rfl
  rw [← hcast, fieldMask]
  omega

theorem rangeCheckTwos_eq : rangeCheckTwos f x =
    if x < -((2 ^ (fieldWidth f - 1) : Nat) : Int) ∨ ((2 ^ (fieldWidth f - 1) : Nat) : Int) ≤ x then
      .error ⟨.valueOutOfRange, 2⟩
    else .ok (x % (2 ^ fieldWidth f : Int)).toNat := by
  push_cast
  exact if_congr (or_congr_right Int.sub_one_lt_iff) rfl rfl

theorem rangeCheckSignMagnitude_eq : rangeCheckSignMagnitude f x =
    if 2 ^ (fieldWidth f - 1) ≤ x.natAbs then .error ⟨.valueOutOfRange, 2⟩
    else .ok ((if x < 0 then 2 ^ (fieldWidth f - 1) else 0) + x.natAbs) := by
  have hpos := Nat.two_pow_pos (fieldWidth f - 1)
  exact if_congr (by omega) rfl rfl

/-- The codes of R215, format by format. -/
theorem fieldCode_eq : fieldCode f x =
    if f.format = .twosComplement then
      if x < -((2 ^ (fieldWidth f - 1) : Nat) : Int) ∨ ((2 ^ (fieldWidth f - 1) : Nat) : Int) ≤ x then
        .error ⟨.valueOutOfRange, 2⟩
      else .ok (x % (2 ^ fieldWidth f : Int)).toNat
    else if f.format = .signMagnitude ∨ f.format = .float then
      if 2 ^ (fieldWidth f - 1) ≤ x.natAbs then .error ⟨.valueOutOfRange, 2⟩
      else .ok ((if x < 0 then 2 ^ (fieldWidth f - 1) else 0) + x.natAbs)
    else if x < 0 ∨ (2 ^ fieldWidth f : Int) ≤ x then .error ⟨.valueOutOfRange, 2⟩ else .ok x.toNat := by
  rw [← rangeCheckTwos_eq, ← rangeCheckSignMagnitude_eq, ← rangeCheckUnsigned_eq, fieldCode]
  cases f.format <;> rfl

theorem fieldCode_of_unsigned (h : f.format = .hex ∨ f.format = .unsignedDecimal) : fieldCode f x =
    if x < 0 ∨ (2 ^ fieldWidth f : Int) ≤ x then .error ⟨.valueOutOfRange, 2⟩ else .ok x.toNat := by
  rw [← rangeCheckUnsigned_eq, fieldCode]
  rcases h with h | h <;> rw [h]

/-- A non-negative number is checked alike against the mask. -/
theorem rangeCheckMask_eq (v : Nat) : rangeCheckMask f v = rangeCheckUnsigned f v :=
  if_congr (by omega) rfl rfl

end

/-! ## What a text is read as (R215, R219, R223) -/

/-- The formats that code an integer under a scaling (R204, R205, R207). -/
def IntegerFormat (f : BitField) : Prop :=
  f.format = .unsignedDecimal ∨ f.format = .twosComplement ∨ f.format = .signMagnitude

theorem IntegerFormat.ne_float {f : BitField} (h : IntegerFormat f) : f.format ≠ .float := by
  rcases h with h | h | h <;> simp [h]

/-- The field reads the text as an integer in digits: no symbol of it, and no scaling but the identity. -/
def ReadsDigits (f : BitField) (t : Text) : Prop :=
  f.format = .hex ∨ (f.format = .enumerated ∧ ∀ e ∈ f.enums, e.symbol ≠ t) ∨ (IntegerFormat f ∧ identityScaling f = true)

/-- The field reads every text as a real number to be unscaled. -/
def ReadsReal (f : BitField) : Prop := (IntegerFormat f ∧ identityScaling f = false) ∨ f.format = .float

section

variable {f : BitField} {t : Text}

/-- A negative number is refused with the code an unsigned check gives it. -/
theorem parseUnsigned_thenCheck (f : BitField) (t : Text) : thenCheck (parseUnsigned t) (rangeCheckMask f) =
    thenCheck (parseInt t) fun x => rangeCheckUnsigned f (intOf x.1 x.2) := by
  unfold parseUnsigned
  rcases parseInt t with r | ⟨neg, mag⟩
  · rfl
  · cases neg with
    | false => exact rangeCheckMask_eq f mag
    | true =>
      by_cases hmag : mag = 0
      · subst hmag
        exact rangeCheckMask_eq f 0
      · simp [thenCheck, hmag, rangeCheckUnsigned, intOf]

theorem unscale_of_identity (site : Site) (h : identityScaling f = true) (t : Text) (check : Int → Except Raised Nat) :
    thenCheck (unscale site f t) check = thenCheck (parseInt t) fun x => check (intOf x.1 x.2) := by
  rw [unscale, if_pos h]
  rcases parseInt t with r | ⟨neg, mag⟩ <;> rfl

theorem strToRaw_of_readsDigits (site : Site) (h : ReadsDigits f t) :
    strToRaw site f t = thenCheck (parseInt t) fun x => fieldCode f (intOf x.1 x.2) := by
  rcases h with hhex | ⟨henum, hnew⟩ | ⟨hint, hid⟩
  · simp only [strToRaw, fieldCode, hhex, parseUnsigned_thenCheck]
  · have hnone : f.enums.find? (fun e => decide (e.symbol = t)) = none := by simpa using hnew
    simp only [strToRaw, fieldCode, henum, enumValue, hnone, parseUnsigned_thenCheck]
  · rcases hint with hf | hf | hf <;> simp only [strToRaw, fieldCode, hf, unscale_of_identity site hid]

/-- An exact symbol stands for its first entry's value (R219). -/
theorem strToRaw_of_symbol (site : Site) {pre post : List EnumEntry} {e : EnumEntry} (hf : f.format = .enumerated)
    (henums : f.enums = pre ++ e :: post) (hfirst : ∀ x ∈ pre, x.symbol ≠ t) (he : e.symbol = t) :
    strToRaw site f t = fieldCode f e.value.toNat := by
  have hfind : f.enums.find? (fun e => decide (e.symbol = t)) = some e :=
    List.find?_eq_some_iff_append.mpr ⟨by simpa using he, pre, post, henums, by simpa using hfirst⟩
  simp only [strToRaw, fieldCode, hf, enumValue, hfind]
  exact rangeCheckMask_eq f _

theorem strToRaw_of_no_real (site : Site) (h : ReadsReal f) (ht : parseReal t = none) :
    strToRaw site f t = .error ⟨.parseError, 2⟩ := by
  rcases h with ⟨hf | hf | hf, hid⟩ | hf
  case inr => simp only [strToRaw, hf, parseFloatField, ht]; rfl
  all_goals simp only [strToRaw, hf, unscale, hid, ht]; rfl

theorem strToRaw_of_real (site : Site) (h : ReadsReal f) {y : F64} (ht : parseReal t = some y) :
    strToRaw site f t = thenCheck (roundQuotient (unscaledQuotient site f y)) (fieldCode f) := by
  rcases h with ⟨hf | hf | hf, hid⟩ | hf
  case inr =>
    simp only [strToRaw, fieldCode, hf, parseFloatField, ht]
    cases roundQuotient (unscaledQuotient site f y) <;> rfl
  all_goals simp only [strToRaw, fieldCode, hf, unscale, hid, ht]; rfl

end

/-! ## What the law of a range says (O39) -/

/-- The character spells the digit: 0 to 9, then a to f in either case (R216). -/
def SpellsDigit (base : Nat) (c : Byte) (d : Nat) : Prop := d < base ∧
  (d < 10 ∧ c = BitVec.ofNat 8 (0x30 + d) ∨ 10 ≤ d ∧ (c = BitVec.ofNat 8 (0x57 + d) ∨ c = BitVec.ofNat 8 (0x37 + d)))

/-- The text is 1 to `most` digits that spell `mag`, most significant first (R216). -/
def Spells (base most mag : Nat) (cs : Text) : Prop := 1 ≤ cs.length ∧ cs.length ≤ most ∧
  ∃ ds : List Nat, List.Forall₂ (SpellsDigit base) cs ds ∧ mag = Nat.ofDigits base ds.reverse

theorem digitString_iff_spells {base most mag : Nat} (h16 : base ≤ 16) (cs : Text) :
    digitString base most cs = some mag ↔ mag < 2 ^ 64 ∧ Spells base most mag cs := by
  have hdigit : (fun c d => digitValue base c = some d) = SpellsDigit base :=
    funext fun c => funext fun d => propext (digitValue_iff h16 c d)
  simp only [digitString_eq_some_iff, numeralValue_iff, hdigit, foldl_eq_ofDigits, Spells]
  tauto

/-- What `parse_int` reads: an optional minus, then a decimal or a marked hexadecimal numeral (R216). -/
theorem parseInt_eq_ok_iff_spells {t : Text} {neg : Bool} {mag : Nat} : parseInt t = .ok (neg, mag) ↔
    mag < 2 ^ 64 ∧ ∃ body : Text, t = (if neg then [0x2D#8] else []) ++ body ∧ (Spells 10 20 mag body ∨
      ∃ c cs, body = 0x30#8 :: c :: cs ∧ (c = 0x78#8 ∨ c = 0x58#8) ∧ Spells 16 16 mag cs) := by
  simp only [parseInt_eq_ok_iff, magnitudeOf_eq_some_iff, digitString_iff_spells (Nat.le_refl 16),
    digitString_iff_spells (show 10 ≤ 16 by decide)]
  constructor
  · rintro ⟨body, ht, ⟨hlt, hdec⟩ | ⟨c, cs, hbody, hc, hlt, hhex⟩⟩
    · exact ⟨hlt, body, ht, .inl hdec⟩
    · exact ⟨hlt, body, ht, .inr ⟨c, cs, hbody, hc, hhex⟩⟩
  · rintro ⟨hlt, body, ht, hdec | ⟨c, cs, hbody, hc, hhex⟩⟩
    · exact ⟨body, ht, .inl ⟨hlt, hdec⟩⟩
    · exact ⟨body, ht, .inr ⟨c, cs, hbody, hc, hlt, hhex⟩⟩

/-- The decimal text of an integer below `2^64` reads back (R212, R216). -/
theorem parseInt_intText {x : Int} (hx : x.natAbs < 2 ^ 64) : parseInt (intText x) = .ok (decide (x < 0), x.natAbs) := by
  refine parseInt_eq_ok_iff.mpr ⟨numeral 10 x.natAbs, ?_, magnitudeOf_eq_some_iff.mpr (.inl ?_)⟩
  · by_cases hneg : x < 0 <;> simp [intText, hneg]
  · exact digitString_eq_some_iff.mpr ⟨numeral_length_pos (by decide) (by decide) _,
      numeral_length_le (by decide) (by decide) (by decide) (by omega), numeralValue_numeral (by decide) (by decide) _, hx⟩

theorem intOf_natAbs (x : Int) : intOf (decide (x < 0)) x.natAbs = x := by
  unfold intOf
  split_ifs with hx <;> simp only [decide_eq_true_eq] at hx <;> omega

theorem strToRaw_intText (site : Site) {f : BitField} {x : Int} (h : ReadsDigits f (intText x)) (hx : x.natAbs < 2 ^ 64) :
    strToRaw site f (intText x) = fieldCode f x := by
  rw [strToRaw_of_readsDigits site h, parseInt_intText hx]
  exact congrArg (fieldCode f) (intOf_natAbs x)

/-- A quotient rounds to the nearest integer, ties away from zero, or is a NaN or an infinity (R223). -/
theorem roundQuotient_eq (q : F64) : roundQuotient q =
    if f64IsFinite q = true then
      .ok (if fpValue 52 q < 0 then -((⌊|(fpValue 52 q : ℚ)| / 2 ^ 1074 + 1 / 2⌋₊ : Nat) : Int)
        else (⌊|(fpValue 52 q : ℚ)| / 2 ^ 1074 + 1 / 2⌋₊ : Nat))
    else .error ⟨.valueOutOfRange, 1⟩ := by
  rw [← f64RoundAway_eq_floor 1074 (by decide) q, ← signed_f64RoundAway q _ rfl, roundQuotient]
  rfl

/-- Settles O39: what a text is read as decides which integer is coded; `fieldCode_eq` says how. -/
theorem rangeLaw : Obligations.RangeLaw := by
  refine ⟨fun site f t v _ hv => (strToRaw_yields site f t).of_ok hv, fun site f x hx => ⟨?_, ?_, ?_⟩,
    fun y hy => parseReal_fmtReal hy, ?_, ?_⟩
  · intro hf hout
    have hread : ReadsDigits f (intText x) := hf.imp id fun h => .inr ⟨.inl h.1, h.2⟩
    rw [strToRaw_intText site hread hx, fieldCode_of_unsigned _ _ (hf.imp id And.left), if_pos hout]
  · intro hf hid hout
    rw [strToRaw_intText site (.inr (.inr ⟨.inr (.inl hf), hid⟩)) hx, fieldCode_eq, if_pos hf, if_pos]
    push_cast
    exact hout
  · intro hf hid hout
    rw [strToRaw_intText site (.inr (.inr ⟨.inr (.inr hf), hid⟩)) hx, fieldCode_eq, if_neg (by simp [hf]),
      if_pos (.inl hf), if_pos hout]
  · exact fun t neg mag => parseInt_eq_ok_iff_spells
  · intro site f t half outOfRange integer number coded
    have hcoded : ∀ x, fieldCode f x = coded x := fieldCode_eq f
    refine ⟨fun hnumber => ?_, ?_, ?_⟩
    · have hread : ReadsDigits f t := hnumber
      have hrun := strToRaw_of_readsDigits site hread
      refine ⟨fun r hr => ⟨parseInt_error hr, by rw [hrun, hr]; rfl⟩, fun neg mag hparse => ?_⟩
      rw [hrun, hparse, ← hcoded]
      rfl
    · intro hf pre e post henums hfirst he
      rw [strToRaw_of_symbol site hf henums hfirst he, hcoded]
    · intro hread
      have hread : ReadsReal f := hread
      refine ⟨1 :: site, 0 :: site, ?_⟩
      cases ht : parseReal t with
      | none => exact strToRaw_of_no_real site hread ht
      | some y =>
        have hrun := strToRaw_of_real site hread ht
        rw [roundQuotient_eq] at hrun
        by_cases hfinite : f64IsFinite (unscaledQuotient site f y) = true
        · rw [if_pos hfinite] at hrun
          exact (hrun.trans (hcoded _)).trans (if_pos hfinite).symm
        · rw [if_neg hfinite] at hrun
          exact hrun.trans (if_neg hfinite).symm

/-! ## The integer of a pattern (R204, R205, R207, R209) -/

/-- The integer a raw pattern stands for in a field's format; a float field's magnitude carries its sign (R204, R205, R207,
R209). -/
def fieldInteger (f : BitField) (raw : Nat) : Int :=
  match f.format with
  | .twosComplement => twosValue f raw
  | .signMagnitude | .float => signMagnitudeValue f raw
  | .hex | .unsignedDecimal | .enumerated => raw

section

variable {f : BitField} {raw : Nat} (hraw : raw < 2 ^ fieldWidth f)
include hraw

theorem twosValue_eq : twosValue f raw = if 2 ^ (fieldWidth f - 1) ≤ raw then (raw : Int) - 2 ^ fieldWidth f else raw := by
  simp only [twosValue, testBit_top (fieldWidth_pos f) hraw, decide_eq_true_eq]

theorem signMagnitudeValue_eq : signMagnitudeValue f raw =
    if 2 ^ (fieldWidth f - 1) ≤ raw then ((2 ^ (fieldWidth f - 1) : Nat) : Int) - raw else raw := by
  simp only [signMagnitudeValue, testBit_top (fieldWidth_pos f) hraw, decide_eq_true_eq, magnitudeBits_eq hraw]
  split_ifs <;> omega

theorem fieldInteger_eq : fieldInteger f raw =
    if 2 ^ (fieldWidth f - 1) ≤ raw then
      (if f.format = .twosComplement then (raw : Int) - 2 ^ fieldWidth f
        else if f.format = .signMagnitude ∨ f.format = .float then ((2 ^ (fieldWidth f - 1) : Nat) : Int) - raw else raw)
    else raw := by
  rw [fieldInteger, twosValue_eq hraw, signMagnitudeValue_eq hraw]
  cases f.format <;> simp

theorem fieldInteger_natAbs_lt : (fieldInteger f raw).natAbs < 2 ^ fieldWidth f := by
  have hdouble := two_pow_fieldWidth f
  have hcast : ((2 ^ fieldWidth f : Nat) : Int) = 2 ^ fieldWidth f := by norm_cast
  rw [fieldInteger_eq hraw, ← hcast]
  split_ifs <;> omega

theorem rangeCheckUnsigned_natCast : rangeCheckUnsigned f raw = .ok raw := by
  have hcast : ((2 ^ fieldWidth f : Nat) : Int) = 2 ^ fieldWidth f := by norm_cast
  rw [rangeCheckUnsigned_eq, if_neg (by omega), Int.toNat_natCast]

theorem rangeCheckTwos_twosValue : rangeCheckTwos f (twosValue f raw) = .ok raw := by
  have hdouble := two_pow_fieldWidth f
  have hcast : ((2 ^ fieldWidth f : Nat) : Int) = 2 ^ fieldWidth f := by norm_cast
  have hmod : (raw : Int) % ((2 ^ fieldWidth f : Nat) : Int) = raw := Int.emod_eq_of_lt (by omega) (by omega)
  rw [rangeCheckTwos_eq, twosValue_eq hraw, ← hcast]
  by_cases hneg : 2 ^ (fieldWidth f - 1) ≤ raw
  · rw [if_pos hneg, if_neg (by omega), Int.sub_emod_right, hmod, Int.toNat_natCast]
  · rw [if_neg hneg, if_neg (by omega), hmod, Int.toNat_natCast]

theorem rangeCheckSignMagnitude_signMagnitudeValue (hzero : raw ≠ 2 ^ (fieldWidth f - 1)) :
    rangeCheckSignMagnitude f (signMagnitudeValue f raw) = .ok raw := by
  have hdouble := two_pow_fieldWidth f
  rw [rangeCheckSignMagnitude_eq, signMagnitudeValue_eq hraw]
  by_cases hneg : 2 ^ (fieldWidth f - 1) ≤ raw
  · rw [if_pos hneg, if_neg (by omega), if_pos (by omega)]
    exact congrArg Except.ok (by omega)
  · rw [if_neg hneg, if_neg (by omega), if_neg (by omega), Int.natAbs_natCast, Nat.zero_add]

/-- The integer of a pattern is coded by the pattern, negative zero aside (R225). -/
theorem fieldCode_fieldInteger (hzero : f.format = .signMagnitude ∨ f.format = .float → raw ≠ 2 ^ (fieldWidth f - 1)) :
    fieldCode f (fieldInteger f raw) = .ok raw := by
  unfold fieldCode fieldInteger
  cases hf : f.format with
  | twosComplement => exact rangeCheckTwos_twosValue hraw
  | signMagnitude => exact rangeCheckSignMagnitude_signMagnitudeValue hraw (hzero (.inl hf))
  | float => exact rangeCheckSignMagnitude_signMagnitudeValue hraw (hzero (.inr hf))
  | hex | unsignedDecimal | enumerated => exact rangeCheckUnsigned_natCast hraw

theorem fieldCode_natCast (h : f.format = .hex ∨ f.format = .enumerated) : fieldCode f raw = .ok raw := by
  rw [fieldCode]
  rcases h with h | h <;> rw [h] <;> exact rangeCheckUnsigned_natCast hraw

/-- A float field's magnitude is its integer's (R209). -/
theorem magnitudeBits_of_float (hf : f.format = .float) : magnitudeBits f raw = (fieldInteger f raw).natAbs := by
  rw [magnitudeBits_eq hraw, fieldInteger_eq hraw]
  simp only [hf, reduceCtorEq, if_false, or_true, if_true]
  split_ifs <;> omega

end

/-! ## Texts of patterns (R203, R206, R208) -/

section

variable {f : BitField} {raw : Nat}

theorem hexDigits_eq (p : Params) (w : Nat) : hexDigits p w =
    if w ≤ 8 then 2 else if w ≤ 16 then (if p.hex16Digits = .four then 4 else 2) else if w ≤ 32 then 8 else 16 := by
  unfold hexDigits
  cases p.hex16Digits <;> rfl

theorem hexDigits_le (p : Params) (w : Nat) : hexDigits p w ≤ 16 := by
  rw [hexDigits_eq]
  split_ifs <;> decide

/-- A hex text of a field of at most 64 bits reads back (R203, R216). -/
theorem parseInt_hexText (p : Params) (hw : fieldWidth f ≤ 64) (hraw : raw < 2 ^ fieldWidth f) :
    parseInt (hexText p f raw) = .ok (false, raw) := by
  have h64 : raw < 2 ^ 64 := hraw.trans_le (Nat.pow_le_pow_right (by decide) hw)
  have hleast := hexDigits_le p (fieldWidth f)
  have hpos := numeral_length_pos (base := 16) (by decide) (by decide) raw
  have hmost : (numeral 16 raw).length ≤ 16 := numeral_length_le (by decide) (by decide) (by decide) (by omega)
  have hdigits : digitString 16 16
      (List.replicate (hexDigits p (fieldWidth f) - (numeral 16 raw).length) 0x30#8 ++ numeral 16 raw) = some raw := by
    rw [digitString_eq_some_iff, List.length_append, List.length_replicate,
      numeralValue_leading_zeros (by decide) (by decide), numeralValue_numeral (by decide) (by decide)]
    exact ⟨by omega, by omega, rfl, h64⟩
  exact parseInt_eq_ok_iff.mpr ⟨_, rfl, magnitudeOf_eq_some_iff.mpr (.inr ⟨0x78#8, _, rfl, .inl rfl, hdigits⟩)⟩

/-- A hex text in the library's digits (R203). -/
theorem hexText_eq (p : Params) (f : BitField) (raw : Nat) : hexText p f raw =
    [0x30#8, 0x78#8] ++ List.replicate (hexDigits p (fieldWidth f) -
        ((Nat.toDigits 16 raw).map fun c => BitVec.ofNat 8 c.toNat).length) 0x30#8 ++
      (Nat.toDigits 16 raw).map fun c => BitVec.ofNat 8 c.toNat := by
  rw [hexText, numeral_eq (by decide) (by decide)]

theorem intText_eq (x : Int) : intText x =
    (if x < 0 then [0x2D#8] else []) ++ (Nat.toDigits 10 x.natAbs).map fun c => BitVec.ofNat 8 c.toNat := by
  rw [intText, numeral_eq (by decide) (by decide)]
  split_ifs <;> rfl

theorem identityScaling_iff (f : BitField) : identityScaling f = true ↔
    f.scaling = 0x3FF0000000000000#64 ∧ (f.offset = 0#64 ∨ f.offset = 0x8000000000000000#64) := by
  rw [identityScaling, Bool.and_eq_true, decide_eq_true_eq, fpIsZero_f64_iff]

theorem rawToText_of_integer (p : Params) (site : Site) (h : IntegerFormat f) (raw : Nat) :
    rawToText p site f raw = scaledText site f (fieldInteger f raw) := by
  rcases h with h | h | h <;> simp only [rawToText, fieldInteger, h]

theorem enumText_of_first (p : Params) {pre post : List EnumEntry} {e : EnumEntry} (henums : f.enums = pre ++ e :: post)
    (hfirst : ∀ x ∈ pre, x.value.toNat ≠ raw) (he : e.value.toNat = raw) : enumText p f raw = e.symbol := by
  have hfind : f.enums.find? (fun e => decide (e.value.toNat = raw)) = some e :=
    List.find?_eq_some_iff_append.mpr ⟨by simpa using he, pre, post, henums, by simpa using hfirst⟩
  simp only [enumText, hfind]

theorem enumText_of_none (p : Params) (h : ∀ e ∈ f.enums, e.value.toNat ≠ raw) : enumText p f raw = hexText p f raw := by
  have hfind : f.enums.find? (fun e => decide (e.value.toNat = raw)) = none := by simpa using h
  simp only [enumText, hfind]

end

/-! ## The text of a pattern parses back to it (R225) -/

section

variable {f : BitField} {raw : Nat}

/-- The real number a scaled or float field renders (R206, R209). -/
def fieldReal (site : Site) (f : BitField) (raw : Nat) : F64 :=
  if f.format = .float then floatValue site f raw else scaledValue site f (fieldInteger f raw)

theorem rawToText_of_readsReal (p : Params) (site : Site) (h : ReadsReal f) (raw : Nat) :
    rawToText p site f raw = fmtReal (fieldReal site f raw) := by
  rcases h with ⟨hint, hid⟩ | hf
  · rw [rawToText_of_integer p site hint, scaledText, if_neg (by simp [hid]), fieldReal, if_neg hint.ne_float]
  · simp only [rawToText, fieldReal, hf, if_true]

theorem fieldReal_eq (site : Site) (hraw : raw < 2 ^ fieldWidth f) : fieldReal site f raw =
    if f.format = .float then
      f64Add (1 :: site) (f64Mul (0 :: site) (f64OfInt (fieldInteger f raw).natAbs)
        (if 2 ^ (fieldWidth f - 1) ≤ raw then f64Neg f.scaling else f.scaling)) f.offset
    else f64Add (1 :: site) (f64Mul (0 :: site) (f64OfInt (fieldInteger f raw)) f.scaling) f.offset := by
  refine ite_congr rfl (fun hf => ?_) fun _ => rfl
  simp only [floatValue, testBit_top (fieldWidth_pos f) hraw, decide_eq_true_eq, magnitudeBits_of_float hraw hf]

/-- A quotient less than one half off an integer is read as it (R225 b). -/
theorem roundQuotient_near {q : F64} {x : Int} (hfinite : f64IsFinite q = true)
    (hnear : 2 * |fpValue 52 q - x * 2 ^ 1074| < 2 ^ 1074) : roundQuotient q = .ok x := by
  rw [roundQuotient, if_pos hfinite, roundAway_near 1074 (by decide) q x hnear]

section

variable (hraw : raw < 2 ^ fieldWidth f)
include hraw

theorem strToRaw_rawToText_of_hex (p : Params) (a b : Site) (hw : fieldWidth f ≤ 64) (hf : f.format = .hex) :
    strToRaw a f (rawToText p b f raw) = .ok raw := by
  have htext : rawToText p b f raw = hexText p f raw := by simp only [rawToText, hf]
  rw [htext, strToRaw_of_readsDigits a (.inl hf), parseInt_hexText p hw hraw]
  exact fieldCode_natCast hraw (.inl hf)

/-- The first symbol of a value is the first entry of that symbol, where symbols are distinct (R185, R208, R219). -/
theorem strToRaw_rawToText_of_enumerated (p : Params) (a b : Site) (hw : fieldWidth f ≤ 64) (hf : f.format = .enumerated)
    (hnodup : (f.enums.map EnumEntry.symbol).Nodup) (hhex : ∀ e ∈ f.enums, e.symbol ≠ hexText p f raw) :
    strToRaw a f (rawToText p b f raw) = .ok raw := by
  have hcode := fieldCode_natCast hraw (.inr hf)
  have htext : rawToText p b f raw = enumText p f raw := by simp only [rawToText, hf]
  rw [htext]
  cases hfind : f.enums.find? fun e => decide (e.value.toNat = raw) with
  | none =>
    rw [enumText, hfind, strToRaw_of_readsDigits a (.inr (.inl ⟨hf, hhex⟩)), parseInt_hexText p hw hraw]
    exact hcode
  | some e =>
    obtain ⟨hvalue, pre, post, henums, -⟩ := List.find?_eq_some_iff_append.mp hfind
    have hfirst : ∀ x ∈ pre, x.symbol ≠ e.symbol := by
      rw [henums, List.map_append, List.nodup_append] at hnodup
      obtain ⟨-, -, hdistinct⟩ := hnodup
      exact fun x hx => hdistinct _ (List.mem_map_of_mem hx) _ (by simp)
    rw [enumText, hfind, strToRaw_of_symbol a hf henums hfirst rfl, of_decide_eq_true hvalue]
    exact hcode

variable (hzero : f.format = .signMagnitude ∨ f.format = .float → raw ≠ 2 ^ (fieldWidth f - 1))
include hzero

theorem strToRaw_rawToText_of_identity (p : Params) (a b : Site) (hw : fieldWidth f ≤ 64) (hint : IntegerFormat f)
    (hid : identityScaling f = true) : strToRaw a f (rawToText p b f raw) = .ok raw := by
  have hlt : (fieldInteger f raw).natAbs < 2 ^ 64 :=
    (fieldInteger_natAbs_lt hraw).trans_le (Nat.pow_le_pow_right (by decide) hw)
  rw [rawToText_of_integer p b hint, scaledText, if_pos hid, strToRaw_intText a (.inr (.inr ⟨hint, hid⟩)) hlt]
  exact fieldCode_fieldInteger hraw hzero

theorem strToRaw_rawToText_of_real (p : Params) (a b : Site) (h : ReadsReal f)
    (hreal : f64IsFinite (fieldReal b f raw) = true)
    (hquot : f64IsFinite (unscaledQuotient a f (fieldReal b f raw)) = true)
    (hnear : 2 * |fpValue 52 (unscaledQuotient a f (fieldReal b f raw)) - fieldInteger f raw * 2 ^ 1074| < 2 ^ 1074) :
    strToRaw a f (rawToText p b f raw) = .ok raw := by
  rw [rawToText_of_readsReal p b h, strToRaw_of_real a h (parseReal_fmtReal hreal), roundQuotient_near hquot hnear]
  exact fieldCode_fieldInteger hraw hzero

end

end

/-- Settles O38: the text of each format, then its way back. -/
theorem textRoundTrip : Obligations.TextRoundTrip := by
  intro p a b f raw hw hraw
  refine ⟨1 :: b, 0 :: b, 1 :: a, 0 :: a, ?_⟩
  intro half digits least hex integer identity x real quotient text
  have hhex : hexText p f raw = hex := by
    rw [hexText_eq, hexDigits_eq]
  have hx : fieldInteger f raw = x := fieldInteger_eq hraw
  have hreal : fieldReal b f raw = real := by rw [fieldReal_eq b hraw, hx]
  have hquot : unscaledQuotient a f (fieldReal b f raw) = quotient := by rw [unscaledQuotient, hreal]
  have hid : identityScaling f = true ↔ identity := identityScaling_iff f
  have hread : integer ∧ ¬ identity ∨ f.format = .float → ReadsReal f :=
    Or.imp_left fun ⟨hint, hne⟩ => ⟨hint, Bool.not_eq_true _ ▸ mt hid.mp hne⟩
  refine ⟨fun hf => ?_, fun hf => ⟨fun pre e post henums hfirst he => ?_, fun hnone => ?_⟩, fun hint hidentity => ?_,
    fun h => ?_, fun h hzero => ?_, fun hf hnodup hsymbols => ?_, fun h hzero hfinite hqfinite hnear => ?_⟩
  · rw [← hhex]
    simp only [text, rawToText, hf]
  · simp only [text, rawToText, hf]
    exact enumText_of_first p henums hfirst he
  · rw [← hhex]
    simp only [text, rawToText, hf]
    exact enumText_of_none p hnone
  · exact (rawToText_of_integer p b hint raw).trans ((if_pos (hid.mpr hidentity)).trans (hx ▸ intText_eq _))
  · rw [← hreal]
    exact rawToText_of_readsReal p b (hread h) raw
  · rcases h with hf | ⟨hint, hidentity⟩
    · exact strToRaw_rawToText_of_hex hraw p a b hw hf
    · have hint : IntegerFormat f := hint
      exact strToRaw_rawToText_of_identity hraw (fun hf => hzero (hf.resolve_right hint.ne_float)) p a b hw hint
        (hid.mpr hidentity)
  · exact strToRaw_rawToText_of_enumerated hraw p a b hw hf hnodup (hhex ▸ hsymbols)
  · exact strToRaw_rawToText_of_real hraw hzero p a b (hread h) (hreal ▸ hfinite) (hquot ▸ hqfinite)
      (by rwa [hquot, hx])

end Sys2Proof.Machine
